-- ==== Sys2Proof/Word.lean ====
section
/-! DEFINITION. The word types of PFF (10_state.md), the two enumerated register types (R20) and nothing else. -/

namespace Sys2Proof

/-- One packet byte (20_memory.md R60). -/
abbrev Byte := BitVec 8

/-- One host interface register (10_state.md R36). -/
abbrev Word := BitVec 32

/-- One PCM or scratch sample, 16-bit two's complement (20_memory.md R60, R63). -/
abbrev Sample := BitVec 16

/-- The coding modes held by `mode` and `prev_mode` (10_state.md R20, R21). -/
inductive Mode where
  | uninit
  | pred
  | hybrid
  | xform
deriving DecidableEq, Repr, Inhabited

/-- The 2-bit code of a mode (10_state.md R20). -/
def Mode.code : Mode → Nat
  | .uninit => 0
  | .pred => 1
  | .hybrid => 2
  | .xform => 3

/-- The bandwidth levels held by `bandwidth` (10_state.md R20, R22). -/
inductive Bandwidth where
  | unset
  | nb
  | mb
  | wb
  | swb
  | fb
deriving DecidableEq, Repr, Inhabited

/-- The 3-bit code of a bandwidth, which is also its order (10_state.md R22). -/
def Bandwidth.code : Bandwidth → Nat
  | .unset => 0
  | .nb => 1
  | .mb => 2
  | .wb => 3
  | .swb => 4
  | .fb => 5

end Sys2Proof
end

