-- ==== Sys2Proof/Config.lean ====
section
/-! DEFINITION. What the spec leaves to an implementation or to the engines: the shape of an engine reply, the free
values, and the raw forms of the configuration functions of 00_scope.md R14. Every `opaque` here is a free value: no
proof can see it, so a claim holds whatever it is. -/

namespace Sys2Proof

/-- One reply of `P.Decode` (10_state.md R30): `ret = 0` is success with `nsamp` samples per channel; `samples` are
the words the engine wrote, channel-interleaved. A draw: any value may stand here. -/
structure PReply where
  ret : Int
  nsamp : Int
  samples : List Sample
deriving DecidableEq, Repr, Inhabited

/-- One reply of `T.Decode` (10_state.md R31): `ret >= 0` is success and `own` are the samples the engine produced. -/
structure TReply where
  ret : Int
  own : List Sample
deriving DecidableEq, Repr, Inhabited

/-- The band and channel controls of the transform engine (10_state.md R26). -/
structure BandControls where
  startBand : BitVec 5
  endBand : BitVec 5
  channels : BitVec 2
deriving DecidableEq, Repr, Inhabited

namespace Config

-- Draws behind an exhausted reply queue (log 4), by the number of the draw.

/-- Free reply of `P.Decode` (10_state.md R30). -/
opaque freePDecode : Nat → PReply
/-- Free reply of `T.Decode` (10_state.md R31). -/
opaque freeTDecode : Nat → TReply
/-- Free reply of `E.Tell` (10_state.md R32). -/
opaque freeTell : Nat → Word
/-- Free reply of `E.BitLogp` (10_state.md R32). -/
opaque freeBit : Nat → Bool
/-- Free reply of `E.Uint` (10_state.md R32). -/
opaque freeUint : Nat → Word
/-- Free reply of `E.Rng` (10_state.md R32). -/
opaque freeRng : Nat → Word
/-- Free reply of `T.GetFinalRange` (10_state.md R31). -/
opaque freeFinalRange : Nat → Word
/-- Free reply of `T.GetPitch` (10_state.md R31). -/
opaque freePitch : Nat → Word
/-- Free reply of `P.PrevPitchLag` (10_state.md R30). -/
opaque freePitchLag : Nat → Word

/-- Free sample, by a seed, a buffer number and an index: the contents of a scratch buffer nothing has written
(20_memory.md R66, log 14) and of a failing frame's region (20_memory.md R67, log 12). -/
opaque freeSample : Nat → Nat → Nat → Sample

/-- Free word, by a seed and a field number: the parse result file after CONSTRUCT (10_state.md R29, log 13). -/
opaque freeWord : Nat → Nat → Word

/-- The transform engine's controls after `T.Init(Fs, C)`, from the controls before it
(70_reset_and_hazards.md R351: not in source; log 15). -/
opaque tInitControls : Nat → Nat → BandControls → BandControls

/-- The transform engine's controls after `T.Reset()`, from the controls before it (R351, log 15). -/
opaque tResetControls : BandControls → BandControls

/-- The address of the packet buffer in host memory, `pkt_base` (20_memory.md R68); rules use offsets only (log 10). -/
opaque pktBase : Nat

/-- The address of the PCM buffer in host memory, `out_base` (20_memory.md R68); rules use indexes only (log 10). -/
opaque outBase : Nat

/-- Raw cross-fade weight, by index and rate (00_scope.md R14); the laws of R233 are put on it in Machine/Numerics. -/
opaque fadeRaw : Nat → Nat → Nat

/-- `GainQ`: the linear factor of a gain setting (00_scope.md R14, 42_frame_fsm.md R234). -/
opaque gainQ : Int → Int

/-- Raw gain product, by sample and factor (00_scope.md R14); the law of R234 is put on it in Machine/Numerics. -/
opaque gainMulRaw : Int → Int → Int

end Config

end Sys2Proof
end

