-- ==== Sys2Proof/Syntax.lean ====
section
/-! DEFINITION. The instructions of PFF: one constructor for each row of spec/opcode_table.json. -/

namespace Sys2Proof

/-- One row of the opcode table with its operands.

The first seventeen are the command words of 30_encoding.md R96 and R97; their operands are the argument registers,
read as signed 32-bit integers (R98). `decodeFrame` is the internal operation of 42_frame_fsm.md R200, which has no
command word. The rest are the rows of the packet's own bytes: the parser's operations on the TOC byte's framing code
(30_encoding.md R87), on the count byte (R90), and on the TOC byte's configuration number (R86). In a packet-byte row
`st` is the channel flag, `code` the frame-count code, `pad` and `vbr` the count byte's flags. -/
inductive Instr where
  | construct (fs channels : Int)
  | parse (len : Int)
  | parseSd (len : Int)
  | decode (len cap : Int)
  | decodeFec (len cap : Int)
  | decodeNull (fec : Bool) (cap : Int)
  | tocInfo (len fs : Int)
  | pktNbFrames (len : Int)
  | pktNbSamples (len fs : Int)
  | ctlResetState
  | ctlGetBandwidth
  | ctlGetFinalRange
  | ctlGetSampleRate
  | ctlGetPitch
  | ctlGetGain
  | ctlSetGain (v : Int)
  | ctlGetLastPacketDuration
  | decodeFrame (fb : Option Nat) (flen : Int) (o : Nat) (fsz : Int) (fec : Bool)
  | framingCode0 (config : BitVec 5) (st : Bool)
  | framingCode1 (config : BitVec 5) (st : Bool)
  | framingCode2 (config : BitVec 5) (st : Bool)
  | framingCode3 (config : BitVec 5) (st : Bool)
  | code3Cbr (pad : Bool) (count : BitVec 6)
  | code3Vbr (pad : Bool) (count : BitVec 6)
  | code3Padding (vbr : Bool) (count : BitVec 6)
  | tocCfg0 (st : Bool) (code : BitVec 2)
  | tocCfg1 (st : Bool) (code : BitVec 2)
  | tocCfg2 (st : Bool) (code : BitVec 2)
  | tocCfg3 (st : Bool) (code : BitVec 2)
  | tocCfg4 (st : Bool) (code : BitVec 2)
  | tocCfg5 (st : Bool) (code : BitVec 2)
  | tocCfg6 (st : Bool) (code : BitVec 2)
  | tocCfg7 (st : Bool) (code : BitVec 2)
  | tocCfg8 (st : Bool) (code : BitVec 2)
  | tocCfg9 (st : Bool) (code : BitVec 2)
  | tocCfg10 (st : Bool) (code : BitVec 2)
  | tocCfg11 (st : Bool) (code : BitVec 2)
  | tocCfg12 (st : Bool) (code : BitVec 2)
  | tocCfg13 (st : Bool) (code : BitVec 2)
  | tocCfg14 (st : Bool) (code : BitVec 2)
  | tocCfg15 (st : Bool) (code : BitVec 2)
  | tocCfg16 (st : Bool) (code : BitVec 2)
  | tocCfg17 (st : Bool) (code : BitVec 2)
  | tocCfg18 (st : Bool) (code : BitVec 2)
  | tocCfg19 (st : Bool) (code : BitVec 2)
  | tocCfg20 (st : Bool) (code : BitVec 2)
  | tocCfg21 (st : Bool) (code : BitVec 2)
  | tocCfg22 (st : Bool) (code : BitVec 2)
  | tocCfg23 (st : Bool) (code : BitVec 2)
  | tocCfg24 (st : Bool) (code : BitVec 2)
  | tocCfg25 (st : Bool) (code : BitVec 2)
  | tocCfg26 (st : Bool) (code : BitVec 2)
  | tocCfg27 (st : Bool) (code : BitVec 2)
  | tocCfg28 (st : Bool) (code : BitVec 2)
  | tocCfg29 (st : Bool) (code : BitVec 2)
  | tocCfg30 (st : Bool) (code : BitVec 2)
  | tocCfg31 (st : Bool) (code : BitVec 2)
deriving DecidableEq, Repr

end Sys2Proof
end

