-- ==== Sys2Proof/Machine/State.lean ====
section
/-! DEFINITION. The state of PFF as plain data, everything 10_state.md, 20_memory.md and 30_encoding.md give it, with
the faults, the refusal and the state after power-on. INVENTORY.md lists each field with its rule. -/

namespace Sys2Proof.Machine

/-- Why the machine stops with a fault. -/
inductive Fault where
  /-- An engine draw breaks its contract (60_exceptions.md R331, log 6). Raised by `pDecode`, `tDecode`, `eTell`, `eUint`
  of Machine/Engines. Safe: the spec gives no behaviour there, and the model stops. -/
  | engineContract
  /-- A loop of DECODE_FRAME (42_frame_fsm.md R207, R218) or of the driver (43_driver.md R262) has made no progress for as
  many passes as it needs samples, or an invocation nested in a nested one (R239) was asked for. Raised by the loops of
  Machine/Frame and Machine/Driver, only from states no run reaches (log 16). Safe: the model stops. -/
  | stuck
deriving DecidableEq, Repr

/-- Why the machine has no meaning for an instruction. -/
inductive Refusal where
  /-- An instruction whose meaning is not written yet; raised by `exec`'s arms only. Safe. No arm does so now. -/
  | notModelled (mnemonic : String)
deriving DecidableEq, Repr

/-- A memory: (address, value) pairs, addresses strictly rising, no value equal to what an unlisted address reads as.
`Memory 8` is a list of `Host.Cell`. -/
abbrev Memory (w : Nat) := List (Nat × BitVec w)

/-- What an address of PKT or OUT that nothing has written reads as: DESIGN CHOICE, log 3 (unsafe). -/
def Memory.unlisted (w : Nat) : BitVec w := 0

/-- The persistent decoder state (10_state.md R20). -/
structure Decoder where
  fs : BitVec 16
  c : BitVec 2
  mode : Mode
  prevMode : Mode
  bandwidth : Bandwidth
  streamChannels : BitVec 2
  frameSize : BitVec 16
  prevRedundancy : Bool
  lastPacketDuration : BitVec 32
  decodeGain : BitVec 16
  rangeFinal : BitVec 32
deriving DecidableEq, Repr

/-- The prediction engine's control block (10_state.md R25). -/
structure PCtl where
  apiSampleRate : BitVec 16
  nChannelsAPI : BitVec 2
  nChannelsInternal : BitVec 2
  internalSampleRate : BitVec 16
  payloadSizeMs : BitVec 8
deriving DecidableEq, Repr

/-- The parse result file (10_state.md R29). -/
structure ResultFile where
  toc : Byte
  count : BitVec 6
  off : Vector Word 48
  len : Vector (BitVec 16) 48
  payload : Word
  consumed : Word
deriving DecidableEq, Repr

/-- The host interface registers (10_state.md R36, 30_encoding.md R95). -/
structure HostRegs where
  cmd : Word
  arg0 : Word
  arg1 : Word
  arg2 : Word
  resp : Word
  err : Bool
deriving DecidableEq, Repr

/-- The working registers of PARSE (10_state.md R28) with the operands of 41_framing.md R150 and the count byte of R156.
They hold mathematical integers (20_memory.md R75, log 7). `sizes` lists `size[0]`, `size[1]`, ... as far as written. -/
structure ParseRegs where
  len : Int
  sd : Bool
  toc : Byte
  cb : Byte
  pos : Nat
  rem : Int
  lastSize : Int
  pad : Int
  count : Nat
  cbr : Bool
  spf48 : Nat
  sizes : List Int
deriving DecidableEq, Repr

/-- The working registers of the DECODE driver: the packet metadata (43_driver.md R264), the frame index (10_state.md
R24), the samples per channel done so far, the saved duration of R265, and the result of an invocation of DECODE_FRAME
run as an instruction of its own (log 18). -/
structure DriverRegs where
  pm : Mode
  pb : Bandwidth
  pf : Nat
  pc : Nat
  k : Nat
  nb : Int
  saved : Word
  ret : Int
deriving DecidableEq, Repr

/-- The buffers samples stand in (20_memory.md R60). -/
inductive Buf where
  | pcm
  | tr
  | ra
  | ps
deriving DecidableEq, Repr

/-- The byte range of PKT an entropy cursor reads (10_state.md R32). -/
structure Cursor where
  off : Int
  len : Int
deriving DecidableEq, Repr

/-- The working registers of one invocation of DECODE_FRAME (10_state.md R27, R24), with its operands (42_frame_fsm.md
R200), its entropy cursor, its scratch buffers RA and PS (20_memory.md R66), and the seed of their free contents.
They hold mathematical integers (R75, log 7). -/
structure FrameRegs where
  fb : Option Nat
  flen : Int
  dst : Buf
  o : Nat
  fec : Bool
  stepIdx : Nat
  dataPresent : Bool
  lenL : Int
  fsz : Int
  audiosize : Int
  m : Mode
  transition : Bool
  redundancy : Bool
  celtToSilk : Bool
  redundancyBytes : Int
  startBand : BitVec 5
  redundantRng : Word
  celtAccum : Bool
  celtRet : Int
  ec : Option Cursor
  ra : Memory 16
  ps : Memory 16
  seed : Nat
deriving DecidableEq, Repr

/-- Where the bytes handed to the transform engine come from. -/
inductive ByteSource where
  /-- A range of PKT. -/
  | packet (off len : Int)
  /-- The two-byte constant of 42_frame_fsm.md R228, `[0xFF 0xFF]`. -/
  | silence2
deriving DecidableEq, Repr

/-- A call PFF makes to an engine, with what it hands over (10_state.md R30 to R32). -/
inductive EngineCall where
  | pInit
  | pDecode (ctl : PCtl) (lost : Nat) (first : Bool) (ec : Option Cursor) (dst : Buf) (idx : Nat)
  | pPrevPitchLag
  | tInit (fs channels : Nat)
  | tReset
  | tSetStartBand (b : BitVec 5)
  | tSetEndBand (b : BitVec 5)
  | tSetChannels (c : BitVec 2)
  | tSetSignalling (v : Word)
  | tDecode (src : Option ByteSource) (nBytes : Int) (dst : Buf) (idx n : Nat) (ec : Option Cursor) (accum : Bool)
  | tGetFinalRange
  | tGetPitch
  | eInit (off len : Int)
  | eTell
  | eBitLogp (k : Nat)
  | eUint (ft : Nat)
  | eRng
  | eShrinkStorage (n : Int)
deriving DecidableEq, Repr

/-- The draws of one kind: those given as input, oldest first, and how many have been taken (log 4). -/
structure Draws (α : Type) where
  given : List α
  used : Nat
deriving DecidableEq, Repr

/-- The engines as PFF sees them: their pending replies, and the calls made to them, newest first, which stand for their
internal state (log 4, log 5). -/
structure Engines where
  pDecode : Draws PReply
  tDecode : Draws TReply
  tell : Draws Word
  bit : Draws Bool
  uint : Draws Word
  rng : Draws Word
  finalRange : Draws Word
  pitch : Draws Word
  pitchLag : Draws Word
  calls : List EngineCall
deriving DecidableEq, Repr

/-- Which unit takes the next step (10_state.md R24, log 8). -/
inductive Phase where
  /-- No command in progress: the next host move. -/
  | idle
  /-- The parser is at the TOC byte, for the mode word multiplexer. -/
  | tocMode
  /-- The parser is at the TOC byte, for the frame delimiter. -/
  | tocCode
  /-- The parser is at the count byte, for the padding unit. -/
  | countPad
  /-- The parser is at the count byte, for the size unit. -/
  | countRate
  /-- The parser is at the last frame's size (41_framing.md R160, R161) and the result (R162). -/
  | tail
  /-- An invocation of DECODE_FRAME is due. -/
  | frame (fb : Option Nat) (flen : Int) (o : Nat) (fsz : Int) (fec : Bool)
deriving DecidableEq, Repr

/-- A move of the host (70_reset_and_hazards.md R353, log 1). -/
inductive HostMove where
  /-- Write bytes into PKT from an offset on, between commands. -/
  | load (off : Nat) (bytes : List Byte)
  /-- Write CMD and ARG0..ARG2: PFF then runs the command. -/
  | command (cmd a0 a1 a2 : Word)
deriving DecidableEq, Repr

/-- The machine. -/
structure State where
  constructed : Bool
  dec : Decoder
  pctl : PCtl
  tctl : BandControls
  tSignalling : Word
  file : ResultFile
  host : HostRegs
  pkt : Memory 8
  out : Memory 16
  tr : Memory 16
  phase : Phase
  parse : ParseRegs
  driver : DriverRegs
  frame : FrameRegs
  env : Engines
  fresh : Nat
  inbox : List HostMove
deriving DecidableEq, Repr

/-- The PARSE working registers between commands: they do not exist (70_reset_and_hazards.md R351), all clear. -/
def ParseRegs.clear : ParseRegs :=
  { len := 0, sd := false, toc := 0, cb := 0, pos := 0, rem := 0, lastSize := 0, pad := 0, count := 0, cbr := false,
    spf48 := 0, sizes := [] }

/-- The driver's working registers between commands: all clear. -/
def DriverRegs.clear : DriverRegs :=
  { pm := .uninit, pb := .unset, pf := 0, pc := 0, k := 0, nb := 0, saved := 0, ret := 0 }

/-- The DECODE_FRAME working registers outside an invocation: all clear. -/
def FrameRegs.clear : FrameRegs :=
  { fb := none, flen := 0, dst := .pcm, o := 0, fec := false, stepIdx := 0, dataPresent := false, lenL := 0, fsz := 0,
    audiosize := 0, m := .uninit, transition := false, redundancy := false, celtToSilk := false, redundancyBytes := 0,
    startBand := 0, redundantRng := 0, celtAccum := false, celtRet := 0, ec := none, ra := [], ps := [], seed := 0 }

/-- No draw given and none taken. -/
def Draws.none (α : Type) : Draws α := { given := [], used := 0 }

/-- Power-on (70_reset_and_hazards.md R350): `constructed` is 0, which the spec gives; the values of all other registers
are this model's choice (DESIGN CHOICE, log 2). Memory lists nothing, the host has made no move. -/
def State.reset : State :=
  { constructed := false
    dec := { fs := 0, c := 0, mode := .uninit, prevMode := .uninit, bandwidth := .unset, streamChannels := 0,
             frameSize := 0, prevRedundancy := false, lastPacketDuration := 0, decodeGain := 0, rangeFinal := 0 }
    pctl := { apiSampleRate := 0, nChannelsAPI := 0, nChannelsInternal := 0, internalSampleRate := 0,
              payloadSizeMs := 0 }
    tctl := { startBand := 0, endBand := 0, channels := 0 }
    tSignalling := 0
    file := { toc := 0, count := 0, off := Vector.ofFn fun _ => 0, len := Vector.ofFn fun _ => 0, payload := 0,
              consumed := 0 }
    host := { cmd := 0, arg0 := 0, arg1 := 0, arg2 := 0, resp := 0, err := false }
    pkt := []
    out := []
    tr := []
    phase := .idle
    parse := ParseRegs.clear
    driver := DriverRegs.clear
    frame := FrameRegs.clear
    env := { pDecode := Draws.none _, tDecode := Draws.none _, tell := Draws.none _, bit := Draws.none _,
             uint := Draws.none _, rng := Draws.none _, finalRange := Draws.none _, pitch := Draws.none _,
             pitchLag := Draws.none _, calls := [] }
    fresh := 0
    inbox := [] }

end Sys2Proof.Machine
end

