-- ==== Sys2Proof/Machine/Ops.lean ====
section
/-! DEFINITION. The named operations over memory and registers, the sequencing of steps that may end early, and the end
of a command: the response, and the error response `raise Err(code)`, PFF's only exception (60_exceptions.md R325). -/

namespace Sys2Proof.Machine

/-! Memory (20_memory.md R60). -/

/-- The entry at an address, if it is listed. -/
def Memory.lookup {w : Nat} : Memory w → Nat → Option (BitVec w)
  | [], _ => none
  | (b, v) :: m, a => if a = b then some v else Memory.lookup m a

/-- List a value at an address, in its place. -/
def Memory.put {w : Nat} : Memory w → Nat → BitVec w → Memory w
  | [], a, v => [(a, v)]
  | (b, u) :: m, a, v =>
    if a < b then (a, v) :: (b, u) :: m
    else if a = b then (a, v) :: m
    else (b, u) :: Memory.put m a v

/-- List nothing at an address. -/
def Memory.erase {w : Nat} : Memory w → Nat → Memory w
  | [], _ => []
  | (b, u) :: m, a => if a = b then m else (b, u) :: Memory.erase m a

/-- Read PKT or OUT: an unlisted address reads as `Memory.unlisted` (log 3). -/
def Memory.read {w : Nat} (m : Memory w) (a : Nat) : BitVec w := (m.lookup a).getD (Memory.unlisted w)

/-- Write PKT or OUT, keeping the canonical form: writing what an unlisted address reads as removes the entry. -/
def Memory.write {w : Nat} (m : Memory w) (a : Nat) (v : BitVec w) : Memory w :=
  if v = Memory.unlisted w then m.erase a else m.put a v

/-- Write `f j` at `base + j` for every `j < n`, in order. -/
def Memory.fill {w : Nat} (m : Memory w) (base : Nat) : Nat → (Nat → BitVec w) → Memory w
  | 0, _ => m
  | n + 1, f => (Memory.fill m base n f).write (base + n) (f n)

/-- List `f j` at `base + j` for every `j < n`, in order: a scratch buffer lists every element written to it. -/
def Memory.putRange {w : Nat} (m : Memory w) (base : Nat) : Nat → (Nat → BitVec w) → Memory w
  | 0, _ => m
  | n + 1, f => (Memory.putRange m base n f).put (base + n) (f n)

/-- Every address listed is above `lo`, and addresses rise strictly. -/
def Memory.risingFrom {w : Nat} : Nat → Memory w → Bool
  | _, [] => true
  | lo, (a, _) :: m => decide (lo ≤ a) && Memory.risingFrom (a + 1) m

/-- Addresses rise strictly: the form of a scratch buffer. -/
def Memory.rising {w : Nat} (m : Memory w) : Bool := Memory.risingFrom 0 m

/-- The canonical form of PKT and OUT: addresses strictly rising, and no entry equal to what an unlisted address reads
as. -/
def Memory.wf {w : Nat} (m : Memory w) : Bool := m.rising && m.all fun e => decide (e.2 ≠ Memory.unlisted w)

/-! Register updates, one for each part of the state. -/

@[simps] def State.setConstructed (s : State) (v : Bool) : State := { s with constructed := v }
@[simps] def State.setDec (s : State) (v : Decoder) : State := { s with dec := v }
@[simps] def State.setPctl (s : State) (v : PCtl) : State := { s with pctl := v }
@[simps] def State.setTctl (s : State) (v : BandControls) : State := { s with tctl := v }
@[simps] def State.setTSignalling (s : State) (v : Word) : State := { s with tSignalling := v }
@[simps] def State.setFile (s : State) (v : ResultFile) : State := { s with file := v }
@[simps] def State.setHost (s : State) (v : HostRegs) : State := { s with host := v }
@[simps] def State.setPkt (s : State) (v : Memory 8) : State := { s with pkt := v }
@[simps] def State.setOut (s : State) (v : Memory 16) : State := { s with out := v }
@[simps] def State.setTr (s : State) (v : Memory 16) : State := { s with tr := v }
@[simps] def State.setPhase (s : State) (v : Phase) : State := { s with phase := v }
@[simps] def State.setParse (s : State) (v : ParseRegs) : State := { s with parse := v }
@[simps] def State.setDriver (s : State) (v : DriverRegs) : State := { s with driver := v }
@[simps] def State.setFrame (s : State) (v : FrameRegs) : State := { s with frame := v }
@[simps] def State.setEnv (s : State) (v : Engines) : State := { s with env := v }
@[simps] def State.setFresh (s : State) (v : Nat) : State := { s with fresh := v }
@[simps] def State.setInbox (s : State) (v : List HostMove) : State := { s with inbox := v }

/-! Reading the packet (00_scope.md R12, 20_memory.md R64, R65). -/

/-- `PktRead(i)`: the byte at offset `i` of the packet buffer. -/
def pktRead (s : State) (i : Nat) : Byte := s.pkt.read i

/-- The number of offsets of the packet buffer: a packet has at most `2^31-1` bytes (20_memory.md R60). -/
def pktSize : Nat := 2 ^ 31 - 1

/-- The host writes bytes into the packet buffer from an offset on (70_reset_and_hazards.md R353); offsets that do not
exist take nothing. -/
def loadPacket (off : Nat) (bytes : List Byte) (s : State) : State :=
  s.setPkt (s.pkt.fill off (min bytes.length (pktSize - off)) fun j => bytes.getD j 0)

/-! Sample buffers (20_memory.md R60, R66). -/

/-- The number of a scratch buffer among the free values. -/
def Buf.number : Buf → Nat
  | .pcm => 0
  | .tr => 1
  | .ra => 2
  | .ps => 3

/-- Read a scratch buffer: an element nothing has written holds a free value (20_memory.md R66, log 14). -/
def scratchRead (m : Memory 16) (seed number i : Nat) : Sample :=
  (m.lookup i).getD (Config.freeSample seed number i)

/-- Read element `i` of a buffer. -/
def bufRead (b : Buf) (i : Nat) (s : State) : Sample :=
  match b with
  | .pcm => s.out.read i
  | .tr => scratchRead s.tr s.frame.seed b.number i
  | .ra => scratchRead s.frame.ra s.frame.seed b.number i
  | .ps => scratchRead s.frame.ps s.frame.seed b.number i

/-- Write `f j` at element `base + j` of a buffer for every `j < n`. -/
def bufFill (b : Buf) (base n : Nat) (f : Nat → Sample) (s : State) : State :=
  match b with
  | .pcm => s.setOut (s.out.fill base n f)
  | .tr => s.setTr (s.tr.putRange base n f)
  | .ra => s.setFrame { s.frame with ra := s.frame.ra.putRange base n f }
  | .ps => s.setFrame { s.frame with ps := s.frame.ps.putRange base n f }

/-! Sequencing. -/

/-- What a rule of PARSE, DECODE_FRAME or the driver comes to: go on to the next rule, end here with a result
(`return v`, or `raise Err(code)` with its code), or the model's fault. -/
inductive Flow where
  | go (s : State)
  | done (r : Int) (s : State)
  | fault (f : Fault)

/-- Go on with the next rule. -/
def Flow.andThen (m : Flow) (k : State → Flow) : Flow :=
  match m with
  | .go s => k s
  | .done r s => .done r s
  | .fault f => .fault f

/-! The end of a command. -/

/-- What an instruction answers. -/
abbrev Answer := Host.Outcome State Fault Refusal

/-- The error codes (60_exceptions.md R320). -/
inductive ErrCode where
  | badArgument
  | bufferTooSmall
  | internalError
  | invalidPacket
  | unimplemented
  | allocationFailure
deriving DecidableEq, Repr

/-- The number of an error code (60_exceptions.md R320). -/
def ErrCode.code : ErrCode → Int
  | .badArgument => -1
  | .bufferTooSmall => -2
  | .internalError => -3
  | .invalidPacket => -4
  | .unimplemented => -5
  | .allocationFailure => -7

/-- A command ends: RESP and ERR are written together (10_state.md R36), and its working registers and scratch buffers
exist no longer (10_state.md R24, 70_reset_and_hazards.md R351). -/
@[simps constructed dec pctl tctl tSignalling file host pkt out tr phase parse driver frame env fresh inbox]
def endCommand (resp : Word) (err : Bool) (s : State) : State :=
  { s with phase := .idle, parse := ParseRegs.clear, driver := DriverRegs.clear, frame := FrameRegs.clear, tr := [],
           host := { s.host with resp := resp, err := err } }

/-- A command completes with a 32-bit result: `RESP <- w`, `ERR <- 0` (60_exceptions.md R325). -/
def respondWord (w : Word) (s : State) : State := endCommand w false s

/-- A command completes with an integer result. -/
def respond (v : Int) (s : State) : State := endCommand (BitVec.ofInt 32 v) false s

/-- `raise Err(code)`: `RESP <- code`, `ERR <- 1`, and the command ends; what it wrote before stands (60_exceptions.md
R325). PFF's one exception: it saves nothing, changes no mode and transfers control nowhere (R328). -/
def raiseErr (code : Int) (s : State) : State := endCommand (BitVec.ofInt 32 code) true s

/-- A command answers an error of PFF's own. -/
def raises (e : ErrCode) (s : State) : Answer := .next (raiseErr e.code s)

/-- A rule ends here with an error of PFF's own. -/
def Flow.err (e : ErrCode) (s : State) : Flow := .done e.code s

/-- A command's rules have run: end it with `k`, or with the error they ended on. -/
def Flow.settle (m : Flow) (k : State → State) : Answer :=
  match m with
  | .go s => .next (k s)
  | .done code s => .next (raiseErr code s)
  | .fault f => .fault f

end Sys2Proof.Machine
end

