-- ==== Sys2Proof/Machine/Operands.lean ====
section
/-! DEFINITION. What a rule reads its operands from: the rate and its derived constants (00_scope.md R7, R8), the fields of
the TOC byte (30_encoding.md R82 to R85), the size prefix (R88, R89). -/

namespace Sys2Proof.Machine

/-- `Fs` is one of the legal rates (00_scope.md R7). -/
def legalRate (fs : Int) : Bool :=
  decide (fs = 8000) || decide (fs = 12000) || decide (fs = 16000) || decide (fs = 24000) || decide (fs = 48000)

/-- `C` is a legal channel count (00_scope.md R7). -/
def legalChannels (c : Int) : Bool := decide (c = 1) || decide (c = 2)

/-- The instance's rate and channel count. -/
def rate (s : State) : Nat := s.dec.fs.toNat
def chans (s : State) : Nat := s.dec.c.toNat

/-- The sample-count constants of a rate (00_scope.md R8). -/
def f20 (fs : Nat) : Nat := fs / 50
def f10 (fs : Nat) : Nat := f20 fs / 2
def f5 (fs : Nat) : Nat := f10 fs / 2
def f2_5 (fs : Nat) : Nat := f5 fs / 2
def frameCap (fs : Nat) : Nat := fs / 25 * 3

/-- `b[hi:lo]` of a byte, as an unsigned integer (00_scope.md R11). -/
def byteField (b : Byte) (hi lo : Nat) : Nat := (b.extractLsb' lo (hi + 1 - lo)).toNat

/-- `TocMode` (30_encoding.md R82). -/
def tocMode (toc : Byte) : Mode :=
  if byteField toc 7 7 = 1 then .xform
  else if byteField toc 6 5 = 3 then .hybrid
  else .pred

/-- The bandwidth with a code (10_state.md R20). -/
def Bandwidth.ofCode : Nat → Bandwidth
  | 1 => .nb
  | 2 => .mb
  | 3 => .wb
  | 4 => .swb
  | 5 => .fb
  | _ => .unset

/-- `TocBandwidth` (30_encoding.md R83): mediumband collapses into narrowband in transform-only mode. -/
def tocBandwidth (toc : Byte) : Bandwidth :=
  if byteField toc 7 7 = 1 then
    let b := Bandwidth.ofCode (Bandwidth.mb.code + byteField toc 6 5)
    if b = .mb then .nb else b
  else if byteField toc 6 5 = 3 then
    if byteField toc 4 4 = 1 then .fb else .swb
  else Bandwidth.ofCode (Bandwidth.nb.code + byteField toc 6 5)

/-- `TocSpf(toc, Fs)`: samples per frame (30_encoding.md R84, with 90_conflicts.md C1). -/
def tocSpf (toc : Byte) (fs : Nat) : Nat :=
  if byteField toc 7 7 = 1 then (fs <<< byteField toc 4 3) / 400
  else if byteField toc 6 5 = 3 then (if byteField toc 3 3 = 1 then fs / 50 else fs / 100)
  else if byteField toc 4 3 = 3 then fs * 60 / 1000
  else (fs <<< byteField toc 4 3) / 100

/-- `TocChannels` (30_encoding.md R85). -/
def tocChannels (toc : Byte) : Nat := if byteField toc 2 2 = 1 then 2 else 1

/-- The frame-count code `toc[1:0]` (30_encoding.md R87). -/
def tocCode (toc : Byte) : Nat := byteField toc 1 0

/-- The 120 ms limit at 48 kHz (00_scope.md R9). -/
def maxSamples48k : Nat := 5760

/-- The largest implicitly sized frame (00_scope.md R9). -/
def maxImplicit : Int := 1275

/-- What `ReadSize` finds: a prefix of `bytes` bytes with value `value`, or nothing readable (30_encoding.md R88). -/
inductive SizePrefix where
  | unreadable
  | size (bytes value : Nat)
deriving DecidableEq, Repr

/-- `ReadSize(p, r)` (30_encoding.md R88): the two-byte form is `4*byte1 + byte0` (20_memory.md R61). -/
def readSize (s : State) (p : Nat) (r : Int) : SizePrefix :=
  if r < 1 then .unreadable
  else if (pktRead s p).toNat < 252 then .size 1 (pktRead s p).toNat
  else if r < 2 then .unreadable
  else .size 2 (4 * (pktRead s (p + 1)).toNat + (pktRead s p).toNat)

/-- `EncodeSize(v)`, for `0 <= v <= 1275` (30_encoding.md R89): the host's inverse of `readSize`. -/
def encodeSize (v : Nat) : List Byte :=
  if v < 252 then [BitVec.ofNat 8 v]
  else [BitVec.ofNat 8 (252 + v % 4), BitVec.ofNat 8 ((v - (252 + v % 4)) / 4)]

/-- `PADCHAIN(P)`: a padding chain that gives `P` (30_encoding.md R99). -/
def encodePadChain (p : Nat) : List Byte := List.replicate (p / 254) 255 ++ [BitVec.ofNat 8 (p % 254)]

end Sys2Proof.Machine
end

