-- ==== Sys2Proof/Machine/Flags.lean ====
section
/-! DEFINITION. The flags of the frame-select state machine (10_state.md R34: the per-frame flags and `prev_redundancy` are
PFF's only flags), each the combinational function its rule gives. -/

namespace Sys2Proof.Machine

/-- `transition` (42_frame_fsm.md R211). -/
def transitionFlag (dataPresent : Bool) (prevMode m : Mode) (prevRedundancy : Bool) : Bool :=
  dataPresent && decide (prevMode ≠ .uninit) &&
    ((decide (m = .xform) && decide (prevMode ≠ .xform) && !prevRedundancy) ||
      (decide (m ≠ .xform) && decide (prevMode = .xform)))

/-- `transition` once this frame's redundancy is known: redundancy cancels it (42_frame_fsm.md R222). -/
def uncoveredTransition (transition redundancy : Bool) : Bool := transition && !redundancy

/-- Whether the prediction engine is initialised again (42_frame_fsm.md R215). -/
def predReinit (prevMode m : Mode) : Bool := decide (m ≠ .xform) && decide (prevMode = .xform)

/-- Whether the transform engine is reset before the main decode (42_frame_fsm.md R226). -/
def xformReset (prevMode m : Mode) (prevRedundancy : Bool) : Bool :=
  decide (m ≠ prevMode) && decide (prevMode ≠ .uninit) && !prevRedundancy

/-- Whether a prediction-only frame drives the hybrid fade-out (42_frame_fsm.md R228). -/
def fadeOut (prevMode : Mode) (redundancy celtToSilk prevRedundancy : Bool) : Bool :=
  decide (prevMode = .hybrid) && !(redundancy && celtToSilk && prevRedundancy)

/-- `celt_accum` in the fixed-point build (42_frame_fsm.md R209, 00_scope.md R10). -/
def accumFlag (m : Mode) (fsz f10 : Int) : Bool := decide (m ≠ .xform) && decide (f10 ≤ fsz)

/-- The next `prev_redundancy` (42_frame_fsm.md R236). -/
def nextRedundancy (redundancy celtToSilk : Bool) : Bool := redundancy && !celtToSilk

/-- `start_band` (42_frame_fsm.md R220). -/
def startBandOf (m : Mode) : BitVec 5 := if m ≠ .xform then 17 else 0

/-- The end band of a bandwidth (42_frame_fsm.md R221). -/
def endBandOf : Bandwidth → BitVec 5
  | .nb => 13
  | .mb => 17
  | .wb => 17
  | .swb => 19
  | .fb => 21
  | .unset => 21

/-- The prediction engine's internal rate (42_frame_fsm.md R217). -/
def internalRate (m : Mode) (b : Bandwidth) : BitVec 16 :=
  if m = .pred then
    match b with
    | .nb => 8000
    | .mb => 12000
    | .wb => 16000
    | .swb => 16000
    | .fb => 16000
    | .unset => 16000
  else 16000

/-- The host's `ERR` after a transform-engine code or one of PFF's own: the codes of 60_exceptions.md R320 (R322). -/
def isErrorCode (r : Int) : Bool :=
  decide (r = -1) || decide (r = -2) || decide (r = -3) || decide (r = -4) || decide (r = -5) || decide (r = -7)

end Sys2Proof.Machine
end

