-- ==== Sys2Proof/Machine/Numerics.lean ====
section
/-! DEFINITION. Sample arithmetic: saturation (00_scope.md R11), the cross-fade (42_frame_fsm.md R233) and the gain
(R234), with the configuration functions of 00_scope.md R14 held to the laws those rules state (log 11). -/

namespace Sys2Proof.Machine

/-- `sat16(x)` (00_scope.md R11). -/
def sat16 (x : Int) : Int := max (-32768) (min 32767 x)

/-- `satsym16(x)` (00_scope.md R11). -/
def satsym16 (x : Int) : Int := max (-32767) (min 32767 x)

/-- A sample from an integer in its range. -/
def toSample (x : Int) : Sample := BitVec.ofInt 16 x

/-- The saturating sum of two samples (42_frame_fsm.md R229, 10_state.md R31). -/
def addSat (a b : Sample) : Sample := toSample (sat16 (a.toInt + b.toInt))

/-- `FadeW(i, Fs)`: the running maximum of the raw weight, each clamped to 32767. Every function with the laws of
42_frame_fsm.md R233 (between 0 and 32767, not decreasing in `i`) is its own running maximum, so nothing more than the
laws is assumed. -/
def fadeW : Nat → Nat → Nat
  | 0, fs => min (Config.fadeRaw 0 fs) 32767
  | i + 1, fs => max (fadeW i fs) (min (Config.fadeRaw (i + 1) fs) 32767)

/-- The blend of two samples with weight `w` (42_frame_fsm.md R233); `/ 32768` is the arithmetic shift by 15. -/
def fadeBlend (w : Nat) (in1 in2 : Sample) : Sample :=
  toSample (((w : Int) * in2.toInt + (32767 - (w : Int)) * in1.toInt) / 32768)

/-- `GainMul(x, g)`, held to the law `-32767 <= GainMul(x, g) <= 32767` (42_frame_fsm.md R234). -/
def gainMul (x g : Int) : Int := satsym16 (Config.gainMulRaw x g)

/-- One sample after the gain step with setting `gain` (42_frame_fsm.md R234). -/
def gainSample (gain : BitVec 16) (x : Sample) : Sample := toSample (gainMul x.toInt (Config.gainQ gain.toInt))

end Sys2Proof.Machine
end

