-- ==== Sys2Proof/Machine/Engines.lean ====
section
/-! DEFINITION. The calls PFF makes to its engines, each with the contract of 10_state.md R30 to R32. A call is recorded in
`env.calls` and takes its reply from the draws of its kind (log 4, log 5); a reply outside the contract is the fault
`engineContract` (60_exceptions.md R331, log 6). -/

namespace Sys2Proof.Machine

/-- Take the next draw: the oldest given, or a free one. -/
def Draws.next {α : Type} (free : Nat → α) (d : Draws α) : α × Draws α :=
  match d.given with
  | [] => (free d.used, { given := [], used := d.used + 1 })
  | x :: xs => (x, { given := xs, used := d.used + 1 })

/-- Record a call. -/
def logCall (c : EngineCall) (s : State) : State := s.setEnv { s.env with calls := c :: s.env.calls }

/-! Calls without a reply. -/

/-- `P.Init()` (10_state.md R30). -/
def pInit (s : State) : State := logCall .pInit s

/-- `T.Init(Fs, C)` (10_state.md R31): the engine's controls become its own initial ones (log 15). -/
def tInit (fs channels : Nat) (s : State) : State :=
  (logCall (.tInit fs channels) s).setTctl (Config.tInitControls fs channels s.tctl)

/-- `T.Reset()` (10_state.md R31): the engine's controls become its own reset ones (log 15). -/
def tReset (s : State) : State := (logCall .tReset s).setTctl (Config.tResetControls s.tctl)

/-- `T.SetStartBand(b)` (10_state.md R26). -/
def tSetStartBand (b : BitVec 5) (s : State) : State :=
  (logCall (.tSetStartBand b) s).setTctl { s.tctl with startBand := b }

/-- `T.SetEndBand(b)` (10_state.md R26). -/
def tSetEndBand (b : BitVec 5) (s : State) : State :=
  (logCall (.tSetEndBand b) s).setTctl { s.tctl with endBand := b }

/-- `T.SetChannels(c)` (10_state.md R26). -/
def tSetChannels (c : BitVec 2) (s : State) : State :=
  (logCall (.tSetChannels c) s).setTctl { s.tctl with channels := c }

/-- `T.SetSignalling(v)` (10_state.md R26). -/
def tSetSignalling (v : Word) (s : State) : State := (logCall (.tSetSignalling v) s).setTSignalling v

/-- `E.Init(PKT[off .. off+len-1], len)` (10_state.md R32): a new cursor for this invocation. -/
def eInit (off len : Int) (s : State) : State :=
  (logCall (.eInit off len) s).setFrame { s.frame with ec := some { off := off, len := len } }

/-- `E.ShrinkStorage(n)` (10_state.md R32). -/
def eShrinkStorage (n : Int) (s : State) : State :=
  (logCall (.eShrinkStorage n) s).setFrame
    { s.frame with ec := s.frame.ec.map fun c => { c with len := c.len - n } }

/-! Calls with a reply. -/

/-- `E.Tell()`: at least 1 (10_state.md R32). -/
def eTell (s : State) (k : Int → State → Flow) : Flow :=
  let s1 := logCall .eTell s
  let d := s1.env.tell.next Config.freeTell
  if d.1.toInt < 1 then .fault .engineContract else k d.1.toInt (s1.setEnv { s1.env with tell := d.2 })

/-- `E.BitLogp(n)`: one bit (10_state.md R32). -/
def eBitLogp (n : Nat) (s : State) (k : Bool → State → Flow) : Flow :=
  let s1 := logCall (.eBitLogp n) s
  let d := s1.env.bit.next Config.freeBit
  k d.1 (s1.setEnv { s1.env with bit := d.2 })

/-- `E.Uint(ft)`: in `0..ft-1` (10_state.md R32). -/
def eUint (ft : Nat) (s : State) (k : Int → State → Flow) : Flow :=
  let s1 := logCall (.eUint ft) s
  let d := s1.env.uint.next Config.freeUint
  if ft ≤ d.1.toNat then .fault .engineContract else k d.1.toNat (s1.setEnv { s1.env with uint := d.2 })

/-- `E.Rng()`: the final range (10_state.md R32). -/
def eRng (s : State) : Word × State :=
  let s1 := logCall .eRng s
  let d := s1.env.rng.next Config.freeRng
  (d.1, s1.setEnv { s1.env with rng := d.2 })

/-- `T.GetFinalRange()` (10_state.md R31). -/
def tGetFinalRange (s : State) : Word × State :=
  let s1 := logCall .tGetFinalRange s
  let d := s1.env.finalRange.next Config.freeFinalRange
  (d.1, s1.setEnv { s1.env with finalRange := d.2 })

/-- `T.GetPitch()` (10_state.md R31). -/
def tGetPitch (s : State) : Word × State :=
  let s1 := logCall .tGetPitch s
  let d := s1.env.pitch.next Config.freePitch
  (d.1, s1.setEnv { s1.env with pitch := d.2 })

/-- `P.PrevPitchLag` (10_state.md R30). -/
def pPrevPitchLag (s : State) : Word × State :=
  let s1 := logCall .pPrevPitchLag s
  let d := s1.env.pitchLag.next Config.freePitchLag
  (d.1, s1.setEnv { s1.env with pitchLag := d.2 })

/-- The samples of a reply, by index. -/
def replySample (l : List Sample) (j : Nat) : Sample := l.getD j 0

/-- `P.Decode(PCtl, lost, first, ec, tgt[at])` into a target of `cap` samples per channel of which `decoded` are done
(10_state.md R30). Success must bring at least one sample per channel, no more than fit, and exactly the words it
announces. On failure the engine may have written any words of its target (91_not_in_source.md N31, log 20). -/
def pDecode (lost : Nat) (decoded cap : Int) (b : Buf) (base : Nat) (s : State) (k : Int → Int → State → Flow) : Flow :=
  let idx := base + (decoded * chans s).toNat
  let s1 := logCall (.pDecode s.pctl lost (decide (decoded = 0)) s.frame.ec b idx) s
  let d := s1.env.pDecode.next Config.freePDecode
  let r := d.1
  let s2 := s1.setEnv { s1.env with pDecode := d.2 }
  if r.ret = 0 then
    if r.nsamp < 1 ∨ cap < decoded + r.nsamp ∨ (r.samples.length : Int) ≠ r.nsamp * chans s then .fault .engineContract
    else k 0 r.nsamp (bufFill b idx r.samples.length (replySample r.samples) s2)
  else
    k r.ret 0 (bufFill b idx (min r.samples.length ((cap - decoded) * chans s).toNat) (replySample r.samples) s2)

/-- `T.Decode(src, nBytes, buf[idx ..], n, ec, accum)` (10_state.md R31). Success must bring exactly `n*C` samples, and
stores them or, with `accum`, their saturating sum with what is there. Failure is one of the error codes (60_exceptions.md
R322), and the engine may have written any words of its output (91_not_in_source.md N31, log 20). -/
def tDecode (src : Option ByteSource) (nBytes : Int) (b : Buf) (idx n : Nat) (ec : Option Cursor) (accum : Bool)
    (s : State) (k : Int → State → Flow) : Flow :=
  let s1 := logCall (.tDecode src nBytes b idx n ec accum) s
  let d := s1.env.tDecode.next Config.freeTDecode
  let r := d.1
  let s2 := s1.setEnv { s1.env with tDecode := d.2 }
  if 0 ≤ r.ret then
    if r.own.length ≠ n * chans s then .fault .engineContract
    else if accum then
      k r.ret (bufFill b idx r.own.length (fun j => addSat (bufRead b (idx + j) s2) (replySample r.own j)) s2)
    else k r.ret (bufFill b idx r.own.length (replySample r.own) s2)
  else if isErrorCode r.ret then
    k r.ret (bufFill b idx (min r.own.length (n * chans s)) (replySample r.own) s2)
  else .fault .engineContract

end Sys2Proof.Machine
end

