-- ==== Sys2Proof/Machine/Control.lean ====
section
/-! DEFINITION. CONSTRUCT, RESET_STATE and the control requests: 44_control.md R290 to R297. -/

namespace Sys2Proof.Machine

/-- The parse result file after CONSTRUCT: free values (10_state.md R29, log 13). -/
def freeFile (seed : Nat) : ResultFile :=
  { toc := (Config.freeWord seed 96).setWidth 8
    count := (Config.freeWord seed 97).setWidth 6
    off := Vector.ofFn fun k => Config.freeWord seed k.val
    len := Vector.ofFn fun k => (Config.freeWord seed (48 + k.val)).setWidth 16
    payload := Config.freeWord seed 98
    consumed := Config.freeWord seed 99 }

/-- The decoder registers after CONSTRUCT (44_control.md R292). -/
def constructedDecoder (fs c : Int) : Decoder :=
  { fs := BitVec.ofInt 16 fs, c := BitVec.ofInt 2 c, mode := .uninit, prevMode := .uninit, bandwidth := .unset,
    streamChannels := BitVec.ofInt 2 c, frameSize := BitVec.ofInt 16 (fs / 400), prevRedundancy := false,
    lastPacketDuration := 0, decodeGain := 0, rangeFinal := 0 }

/-- The prediction engine's control block after CONSTRUCT (44_control.md R292). -/
def constructedPCtl (fs c : Int) : PCtl :=
  { apiSampleRate := BitVec.ofInt 16 fs, nChannelsAPI := BitVec.ofInt 2 c, nChannelsInternal := 0,
    internalSampleRate := 0, payloadSizeMs := 0 }

/-- CONSTRUCT's initialisation, in the order of R292. -/
def constructInit (fs c : Int) (s : State) : State :=
  let s1 := (s.setDec (constructedDecoder fs c)).setPctl (constructedPCtl fs c)
  let s2 := tSetSignalling 0 (tInit fs.toNat c.toNat (pInit s1))
  ((s2.setFile (freeFile s.fresh)).setFresh (s.fresh + 1)).setConstructed true

/-- CONSTRUCT Fs, C (44_control.md R290, R291). -/
def execConstruct (fs c : Int) (s : State) : Answer :=
  if legalRate fs && legalChannels c then .next (respond 0 (constructInit fs c s)) else raises .badArgument s

/-- A control request: the `constructed` check first (44_control.md R293). -/
def ctl (s : State) (a : Answer) : Answer := if !s.constructed then raises .badArgument s else a

/-- RESET_STATE's registers (44_control.md R294): the gain is kept (90_conflicts.md C2). -/
def resetDecoder (d : Decoder) : Decoder :=
  { d with streamChannels := d.c, bandwidth := .unset, mode := .uninit, prevMode := .uninit,
           frameSize := BitVec.ofNat 16 (d.fs.toNat / 400), prevRedundancy := false, lastPacketDuration := 0,
           rangeFinal := 0 }

/-- CTL.RESET_STATE (44_control.md R294). -/
def execCtlResetState (s : State) : Answer :=
  ctl s (.next (respond 0 (pInit (tReset (s.setDec (resetDecoder s.dec))))))

/-- CTL.GET_BANDWIDTH (44_control.md R295). -/
def execCtlGetBandwidth (s : State) : Answer := ctl s (.next (respond s.dec.bandwidth.code s))

/-- CTL.GET_FINAL_RANGE (44_control.md R295): the 32-bit pattern. -/
def execCtlGetFinalRange (s : State) : Answer := ctl s (.next (respondWord s.dec.rangeFinal s))

/-- CTL.GET_SAMPLE_RATE (44_control.md R295). -/
def execCtlGetSampleRate (s : State) : Answer := ctl s (.next (respond s.dec.fs.toNat s))

/-- CTL.GET_PITCH (44_control.md R296): the engine that ran last answers. -/
def execCtlGetPitch (s : State) : Answer :=
  ctl s (if s.dec.prevMode = .xform then .next (respondWord (tGetPitch s).1 (tGetPitch s).2)
    else .next (respondWord (pPrevPitchLag s).1 (pPrevPitchLag s).2))

/-- CTL.GET_GAIN (44_control.md R295): sign-extended. -/
def execCtlGetGain (s : State) : Answer := ctl s (.next (respondWord (s.dec.decodeGain.signExtend 32) s))

/-- CTL.SET_GAIN v (44_control.md R297). -/
def execCtlSetGain (v : Int) (s : State) : Answer :=
  ctl s (if v < -32768 ∨ 32767 < v then raises .badArgument s
    else .next (respond 0 (s.setDec { s.dec with decodeGain := BitVec.ofInt 16 v })))

/-- CTL.GET_LAST_PACKET_DURATION (44_control.md R295). -/
def execCtlGetLastPacketDuration (s : State) : Answer := ctl s (.next (respondWord s.dec.lastPacketDuration s))

end Sys2Proof.Machine
end

