-- ==== Sys2Proof/Machine/Frame.lean ====
section
/-! DEFINITION. DECODE_FRAME, the frame-select state machine: 42_frame_fsm.md R202 to R237, one definition a rule, run in
that order over the working registers of 10_state.md R27. Sizes are samples per channel (00_scope.md R17). -/

namespace Sys2Proof.Machine

/-- The operands of an invocation (42_frame_fsm.md R200). `dst` is OUT, or TR for the look-ahead (R212, R223). -/
structure FrameArgs where
  fb : Option Nat
  flen : Int
  dst : Buf
  o : Nat
  fsz : Int
  fec : Bool
deriving DecidableEq, Repr

/-- What an invocation comes to: its result and the state, or the model's fault. -/
abbrev FrameResult := Except Fault (Int × State)

/-- The end of an invocation's rules. -/
def Flow.close (m : Flow) (k : State → Int × State) : FrameResult :=
  match m with
  | .go s => .ok (k s)
  | .done r s => .ok (r, s)
  | .fault f => .error f

/-- Run rules in order until one ends the invocation. -/
def runRules : List (State → Flow) → State → Flow
  | [], s => .go s
  | r :: rs, s => (r s).andThen (runRules rs)

/-- Begin an invocation: its own working registers (10_state.md R27), its own scratch buffers with free contents
(20_memory.md R66, log 14). -/
def frameEnter (a : FrameArgs) (s : State) : State :=
  (s.setFrame { FrameRegs.clear with fb := a.fb, flen := a.flen, dst := a.dst, o := a.o, fec := a.fec, fsz := a.fsz,
                                     seed := s.fresh }).setFresh (s.fresh + 1)

/-- Invoke DECODE_FRAME inside DECODE_FRAME (00_scope.md R13): the nested invocation has its own working registers, and the
caller's come back after it (10_state.md R27). -/
def callNested (nested : FrameArgs → State → FrameResult) (a : FrameArgs) (s : State) (k : Int → State → Flow) : Flow :=
  match nested a s with
  | .error f => .fault f
  | .ok (r, s1) => k r (s1.setFrame s.frame)

/-- The step index of 10_state.md R24. -/
def atStep (n : Nat) (s : State) : Flow := .go (s.setFrame { s.frame with stepIdx := n })

/-- `Out[j]` (42_frame_fsm.md R200). -/
def outRead (j : Nat) (s : State) : Sample := bufRead s.frame.dst (s.frame.o + j) s

/-- Write `Out[base + j]` for `j < n`. -/
def outFill (base n : Nat) (f : Nat → Sample) (s : State) : State := bufFill s.frame.dst (s.frame.o + base) n f s

/-- A number of words: `n` samples per channel (00_scope.md R17). -/
def words (n : Int) (s : State) : Nat := (n * chans s).toNat

/-- A frame that makes DECODE fail leaves its region at any values (20_memory.md R67, log 12). -/
def spoilRegion (s : State) : State :=
  (outFill 0 (words s.frame.audiosize s) (Config.freeSample s.fresh Buf.pcm.number) s).setFresh (s.fresh + 1)

/-! Steps 1 and 2: size, presence, concealment. -/

/-- R202, the minimum. -/
def rule202 (s : State) : Flow := if s.frame.fsz < f2_5 (rate s) then .err .bufferTooSmall s else .go s

/-- R203, the cap. -/
def rule203 (s : State) : Flow := .go (s.setFrame { s.frame with fsz := min s.frame.fsz (frameCap (rate s)) })

/-- R204, presence: a frame of at most one byte is concealed, for at most the last committed frame size. -/
def rule204 (s : State) : Flow :=
  if s.frame.flen ≤ 1 then
    .go (s.setFrame { s.frame with dataPresent := false, fsz := min s.frame.fsz s.dec.frameSize.toNat })
  else .go (s.setFrame { s.frame with dataPresent := true })

/-- R205, source selection. -/
def rule205 (s : State) : Flow :=
  if s.frame.dataPresent then
    .go (eInit (s.frame.fb.getD 0) s.frame.flen
      (s.setFrame { s.frame with audiosize := s.dec.frameSize.toNat, m := s.dec.mode, lenL := s.frame.flen }))
  else
    .go (s.setFrame { s.frame with audiosize := s.frame.fsz, m := s.dec.prevMode, ec := none, lenL := s.frame.flen })

/-- R206, silence before any mode. -/
def rule206 (s : State) : Flow :=
  if !s.frame.dataPresent && decide (s.frame.m = .uninit) then
    .done s.frame.audiosize (outFill 0 (words s.frame.audiosize s) (fun _ => 0) s)
  else .go s

/-- R207's loop: chunks of at most 20 ms, `audiosize` left, `done` made. Every chunk of a legal instance makes at least one
sample (R207, log 16). -/
def chunkLoop (nested : FrameArgs → State → FrameResult) : Nat → Int → State → Flow
  | 0, _, _ => .fault .stuck
  | fuel + 1, made, s =>
    callNested nested
      { fb := none, flen := 0, dst := s.frame.dst, o := s.frame.o + words made s,
        fsz := min s.frame.audiosize (f20 (rate s)), fec := false } s fun r s =>
      if r < 0 then .done r s
      else
        let s1 := s.setFrame { s.frame with audiosize := s.frame.audiosize - r }
        if s1.frame.audiosize ≤ 0 then .done s1.frame.fsz s1 else chunkLoop nested fuel (made + r) s1

/-- R207, long concealment in 20 ms chunks. -/
def rule207 (nested : FrameArgs → State → FrameResult) (s : State) : Flow :=
  if !s.frame.dataPresent && decide ((f20 (rate s) : Int) < s.frame.audiosize) then
    chunkLoop nested s.frame.audiosize.toNat 0 s
  else .go s

/-- R208's rounding of a short concealment. -/
def roundConceal (m : Mode) (fs : Nat) (a : Int) : Int :=
  if (f10 fs : Int) < a then f10 fs
  else if m ≠ .pred ∧ (f5 fs : Int) < a ∧ a < f10 fs then f5 fs
  else a

/-- R208, rounding of short concealment. -/
def rule208 (s : State) : Flow :=
  if !s.frame.dataPresent && decide (s.frame.audiosize < f20 (rate s)) then
    .go (s.setFrame { s.frame with audiosize := roundConceal s.frame.m (rate s) s.frame.audiosize })
  else .go s

/-- R209, the accumulate flag. -/
def rule209 (s : State) : Flow :=
  .go (s.setFrame { s.frame with celtAccum := accumFlag s.frame.m s.frame.fsz (f10 (rate s)) })

/-- R210, the initial values of the working registers. -/
def rule210 (s : State) : Flow :=
  .go (s.setFrame { s.frame with transition := false, redundancy := false, celtToSilk := false, redundancyBytes := 0,
                                 redundantRng := 0, celtRet := 0 })

/-! Step 3: mode transition. -/

/-- R211, transition detection. -/
def rule211 (s : State) : Flow :=
  .go (s.setFrame { s.frame with
    transition := transitionFlag s.frame.dataPresent s.dec.prevMode s.frame.m s.dec.prevRedundancy })

/-- The transition look-ahead into TR, its result ignored (R212, R223). -/
def lookAhead (nested : FrameArgs → State → FrameResult) (s : State) : Flow :=
  callNested nested
    { fb := none, flen := 0, dst := .tr, o := 0, fsz := min (f5 (rate s)) s.frame.audiosize, fec := false } s
    fun _ s => .go s

/-- R212, the look-ahead into transform-only. -/
def rule212 (nested : FrameArgs → State → FrameResult) (s : State) : Flow :=
  if s.frame.transition && decide (s.frame.m = .xform) then lookAhead nested s else .go s

/-- R213, the capacity check. -/
def rule213 (s : State) : Flow :=
  if s.frame.fsz < s.frame.audiosize then .err .badArgument s
  else .go (s.setFrame { s.frame with fsz := s.frame.audiosize })

/-! Step 4: the prediction engine. -/

/-- R215, the prediction re-init. -/
def rule215 (s : State) : Flow := if predReinit s.dec.prevMode s.frame.m then .go (pInit s) else .go s

/-- R216, the payload duration. -/
def rule216 (s : State) : Flow :=
  if s.frame.m ≠ .xform then
    .go (s.setPctl { s.pctl with payloadSizeMs := BitVec.ofInt 8 (max 10 (1000 * s.frame.audiosize / rate s)) })
  else .go s

/-- R217, the internal rate and channels. -/
def rule217 (s : State) : Flow :=
  if decide (s.frame.m ≠ .xform) && s.frame.dataPresent then
    .go (s.setPctl { s.pctl with nChannelsInternal := s.dec.streamChannels,
                                 internalSampleRate := internalRate s.frame.m s.dec.bandwidth })
  else .go s

/-- R214, the prediction engine's target: the buffer, its first word. -/
def predTarget (s : State) : Buf × Nat := if s.frame.celtAccum then (s.frame.dst, s.frame.o) else (.ps, 0)

/-- R218's `cap_tgt`: the target's length in samples per channel. -/
def predCap (s : State) : Int := if s.frame.celtAccum then s.frame.fsz else max (f10 (rate s)) s.frame.fsz

/-- R218's `lost_flag`: 0 real, 1 lost, 2 FEC. -/
def lostFlag (s : State) : Nat := if !s.frame.dataPresent then 1 else if s.frame.fec then 2 else 0

/-- R218's silence for a failed loss-flagged call: from `decoded` on, within the target. -/
def silencePred (decoded : Int) (s : State) : State :=
  let upTo := min (decoded + s.frame.fsz) (predCap s)
  bufFill (predTarget s).1 ((predTarget s).2 + words decoded s) (words upTo s - words decoded s) (fun _ => 0) s

/-- R218's loop. Every pass decodes at least one sample or ends the frame, so `fsz` passes are enough. -/
def predLoop : Nat → Int → State → Flow
  | 0, _, _ => .fault .stuck
  | fuel + 1, decoded, s =>
    pDecode (lostFlag s) decoded (predCap s) (predTarget s).1 (predTarget s).2 s fun ret n s =>
      if ret ≠ 0 ∧ lostFlag s = 0 then .err .internalError (spoilRegion s)
      else
        let s1 := if ret ≠ 0 then silencePred decoded s else s
        let decoded1 := decoded + (if ret ≠ 0 then s.frame.fsz else n)
        if s.frame.fsz ≤ decoded1 then .go s1 else predLoop fuel decoded1 s1

/-- R218, the prediction decode. -/
def rule218 (s : State) : Flow := if s.frame.m ≠ .xform then predLoop (s.frame.fsz.toNat + 1) 0 s else .go s

/-! Step 5: the redundancy sub-frame. -/

/-- R219 after the length is known: take it off, check it, shrink the cursor. -/
def redundancyTake (n : Int) (s : State) : Flow :=
  eTell (s.setFrame { s.frame with redundancyBytes := n, lenL := s.frame.lenL - n }) fun t s =>
    if 8 * s.frame.lenL < t then
      .go (eShrinkStorage 0 (s.setFrame { s.frame with lenL := 0, redundancyBytes := 0, redundancy := false }))
    else .go (eShrinkStorage n s)

/-- R219 when `redundancy = 1`: the direction and the length. -/
def redundancyRead (s : State) : Flow :=
  eBitLogp 1 (s.setFrame { s.frame with redundancy := true }) fun b s =>
    let s1 := s.setFrame { s.frame with celtToSilk := b }
    if s1.frame.m = .hybrid then eUint 256 s1 fun v s => redundancyTake (v + 2) s
    else eTell s1 fun t s => redundancyTake (s.frame.lenL - (t + 7) / 8) s

/-- R219, redundancy detection. -/
def rule219 (s : State) : Flow :=
  if !s.frame.fec && decide (s.frame.m ≠ .xform) && s.frame.dataPresent then
    eTell s fun t s =>
      if t + 17 + (if s.frame.m = .hybrid then 20 else 0) ≤ 8 * s.frame.lenL then
        if s.frame.m = .hybrid then eBitLogp 12 s fun b s => if b then redundancyRead s else .go s
        else redundancyRead s
      else .go s
  else .go s

/-- R220, the start band. -/
def rule220 (s : State) : Flow := .go (s.setFrame { s.frame with startBand := startBandOf s.frame.m })

/-- R221, the end band and the channels. -/
def rule221 (s : State) : Flow := .go (tSetChannels s.dec.streamChannels (tSetEndBand (endBandOf s.dec.bandwidth) s))

/-- R222, redundancy cancels the transition. -/
def rule222 (s : State) : Flow :=
  .go (s.setFrame { s.frame with transition := uncoveredTransition s.frame.transition s.frame.redundancy })

/-- R223, the look-ahead out of transform-only. -/
def rule223 (nested : FrameArgs → State → FrameResult) (s : State) : Flow :=
  if s.frame.transition && decide (s.frame.m ≠ .xform) then lookAhead nested s else .go s

/-- The decode of the redundancy sub-frame into RA with its final range; its return value is ignored (R224, R230). -/
def decodeRedundancy (s : State) : Flow :=
  tDecode (some (.packet (s.frame.fb.getD 0 + s.frame.lenL) s.frame.redundancyBytes)) s.frame.redundancyBytes .ra 0
    (f5 (rate s)) none false s fun _ s =>
    let g := tGetFinalRange s
    .go (g.2.setFrame { g.2.frame with redundantRng := g.1 })

/-- R224, the redundancy at the start of the frame. -/
def rule224 (s : State) : Flow :=
  if s.frame.redundancy && s.frame.celtToSilk then decodeRedundancy (tSetStartBand 0 s) else .go s

/-! Step 6: the transform engine. -/

/-- R225, the start band of the main decode. -/
def rule225 (s : State) : Flow := .go (tSetStartBand s.frame.startBand s)

/-- R226's `cfs`. -/
def mainSize (s : State) : Int := min (f20 (rate s)) s.frame.fsz

/-- R226, the main transform decode. -/
def rule226 (s : State) : Flow :=
  if s.frame.m ≠ .pred then
    let s1 := if xformReset s.dec.prevMode s.frame.m s.dec.prevRedundancy then tReset s else s
    tDecode (if s.frame.fec || !s.frame.dataPresent then none else some (.packet (s.frame.fb.getD 0) s.frame.lenL))
      s.frame.lenL s.frame.dst s.frame.o (mainSize s).toNat (if s.frame.dataPresent then s.frame.ec else none)
      s.frame.celtAccum s1 fun ret s => .go (s.setFrame { s.frame with celtRet := ret })
  else .go s

/-- R227, concealment absorbs a transform failure. -/
def rule227 (s : State) : Flow :=
  if !s.frame.dataPresent && decide (s.frame.celtRet < 0) then
    let s1 := outFill 0 (words (mainSize s) s) (fun _ => 0) s
    .go (s1.setFrame { s1.frame with celtRet := 0 })
  else .go s

/-- R228, prediction-only mode: zeros to add to, and the hybrid fade-out frame. -/
def rule228 (s : State) : Flow :=
  if s.frame.m = .pred then
    let s1 := if s.frame.celtAccum then s else outFill 0 (words s.frame.fsz s) (fun _ => 0) s
    if fadeOut s.dec.prevMode s.frame.redundancy s.frame.celtToSilk s.dec.prevRedundancy then
      tDecode (some .silence2) 2 s.frame.dst s.frame.o (f2_5 (rate s)) none s.frame.celtAccum (tSetStartBand 0 s1)
        fun _ s => .go s
    else .go s1
  else .go s

/-! Steps 7 to 9: sum and cross-fades. -/

/-- R229, the sum of the two engines' outputs. -/
def rule229 (s : State) : Flow :=
  if decide (s.frame.m ≠ .xform) && !s.frame.celtAccum then
    .go (outFill 0 (words s.frame.fsz s) (fun j => addSat (outRead j s) (bufRead .ps j s)) s)
  else .go s

/-- R233, `Fade(in1, in2, out, n)` into `Out` from word `base` on: every word blends the words `in1 j` and `in2 j`, with
the weight of its time index `j / C`. -/
def fadeInto (base : Nat) (n : Int) (in1 in2 : Nat → Sample) (s : State) : State :=
  outFill base (words n s) (fun j => fadeBlend (fadeW (j / chans s) (rate s)) (in1 j) (in2 j)) s

/-- R230, redundancy at the end of the frame: the last 2.5 ms fade into the second half of RA. -/
def rule230 (s : State) : Flow :=
  if s.frame.redundancy && !s.frame.celtToSilk then
    (decodeRedundancy (tSetStartBand 0 (tReset s))).andThen fun s =>
      let base := words (s.frame.fsz - f2_5 (rate s)) s
      let half := words (f2_5 (rate s)) s
      .go (fadeInto base (f2_5 (rate s)) (fun j => outRead (base + j) s) (fun j => bufRead .ra (half + j) s) s)
  else .go s

/-- R231, redundancy at the start of the frame: 2.5 ms of RA, then 2.5 ms that fade from RA into the main output. -/
def rule231 (s : State) : Flow :=
  if s.frame.redundancy && s.frame.celtToSilk then
    let half := words (f2_5 (rate s)) s
    let s1 := outFill 0 half (fun j => bufRead .ra j s) s
    .go (fadeInto half (f2_5 (rate s)) (fun j => bufRead .ra (half + j) s1) (fun j => outRead (half + j) s1) s1)
  else .go s

/-- R232, the transition cross-fade (90_conflicts.md C4): 2.5 ms that fade from TR, or a copy of TR in a frame shorter than
5 ms. -/
def rule232 (s : State) : Flow :=
  if s.frame.transition then
    if (f5 (rate s) : Int) ≤ s.frame.audiosize then
      .go (fadeInto 0 (f2_5 (rate s)) (fun j => bufRead .tr j s) (fun j => outRead j s) s)
    else .go (outFill 0 (words (f2_5 (rate s)) s) (fun j => bufRead .tr j s) s)
  else .go s

/-! Steps 10 and 11: gain and bookkeeping. -/

/-- R234, the gain. -/
def rule234 (s : State) : Flow :=
  if s.dec.decodeGain ≠ 0 then
    .go (outFill 0 (words s.frame.fsz s) (fun j => gainSample s.dec.decodeGain (outRead j s)) s)
  else .go s

/-- R235, the final range. -/
def rule235 (s : State) : Flow :=
  if s.frame.lenL ≤ 1 then .go (s.setDec { s.dec with rangeFinal := 0 })
  else
    let g := eRng s
    .go (g.2.setDec { g.2.dec with rangeFinal := g.1 ^^^ g.2.frame.redundantRng })

/-- R236, the update of the frame-select state. -/
def rule236 (s : State) : Flow :=
  .go (s.setDec { s.dec with prevMode := s.frame.m,
                             prevRedundancy := nextRedundancy s.frame.redundancy s.frame.celtToSilk })

/-- R237, the return: a transform failure's own code, or the samples per channel. -/
def rule237 (s : State) : Int × State :=
  if s.frame.celtRet < 0 then (s.frame.celtRet, spoilRegion s) else (s.frame.audiosize, s)

/-- The rules of an invocation in their order, with the step indexes of 10_state.md R24. -/
def frameRules (nested : FrameArgs → State → FrameResult) : List (State → Flow) :=
  [atStep 1, rule202, rule203, atStep 2, rule204, rule205, rule206, rule207 nested, rule208, rule209, rule210,
   atStep 3, rule211, rule212 nested, rule213, atStep 4, rule215, rule216, rule217, rule218,
   atStep 5, rule219, rule220, rule221, rule222, rule223 nested, rule224, atStep 6, rule225, rule226, rule227, rule228,
   atStep 7, rule229, atStep 8, rule230, rule231, atStep 9, rule232, atStep 10, rule234, atStep 11, rule235, rule236]

/-- An invocation, given what a nested one does. -/
def decodeFrameWith (nested : FrameArgs → State → FrameResult) (a : FrameArgs) (s : State) : FrameResult :=
  (runRules (frameRules nested) (frameEnter a s)).close rule237

/-- A nested invocation: a leaf (R239), so what it nests is never asked for (Laws/Frame). -/
def decodeFrameNested : FrameArgs → State → FrameResult := decodeFrameWith fun _ _ => .error .stuck

/-- DECODE_FRAME (42_frame_fsm.md R200). -/
def decodeFrame : FrameArgs → State → FrameResult := decodeFrameWith decodeFrameNested

/-- DECODE_FRAME as an instruction of its own: an invocation into OUT whose result goes to the driver's `ret`, and whose
working registers and scratch buffers end with it (10_state.md R27, 20_memory.md R66, log 18). -/
def execDecodeFrame (fb : Option Nat) (flen : Int) (o : Nat) (fsz : Int) (fec : Bool) (s : State) : Answer :=
  match decodeFrame { fb := fb, flen := flen, dst := .pcm, o := o, fsz := fsz, fec := fec } s with
  | .error f => .fault f
  | .ok (r, s1) =>
    .next ((((s1.setFrame FrameRegs.clear).setTr []).setDriver { s1.driver with ret := r }).setPhase .idle)

end Sys2Proof.Machine
end

