-- ==== Sys2Proof/Machine/Parse.lean ====
section
/-! DEFINITION. PARSE, the frame delimiter: the procedure of 41_framing.md R151 to R162, one definition a rule, over the
working registers of 10_state.md R28. DECODE runs the same procedure (43_driver.md R263). -/

namespace Sys2Proof.Machine

/-- Begin a parse: the operands of 41_framing.md R150 go to the working registers. -/
def parseStart (len : Int) (sd : Bool) (s : State) : State :=
  s.setParse { ParseRegs.clear with len := len, sd := sd }

/-- R151, the argument check. -/
def parseArgs (s : State) : Flow :=
  if s.parse.len < 0 then .err .badArgument s
  else if s.parse.len = 0 then .err .invalidPacket s
  else .go s

/-- The working registers after the header read of R152, for a TOC byte and its samples per frame at 48 kHz. -/
def headerRegs (toc : Byte) (spf48 : Nat) (p : ParseRegs) : ParseRegs :=
  { p with toc := toc, pos := 1, rem := p.len - 1, lastSize := p.len - 1, pad := 0, cbr := false, spf48 := spf48 }

/-- R152, the header read. -/
def parseHeader (s : State) : Flow :=
  let toc := pktRead s 0
  .go (s.setParse (headerRegs toc (tocSpf toc 48000) s.parse))

/-- R153, code 0: one frame. -/
def parseCode0 (s : State) : Flow := .go (s.setParse { s.parse with count := 1 })

/-- R154, code 1: two frames of equal size. -/
def parseCode1 (s : State) : Flow :=
  let s1 := s.setParse { s.parse with count := 2, cbr := true }
  if s.parse.sd then .go s1
  else if s.parse.rem % 2 ≠ 0 then .err .invalidPacket s1
  else .go (s1.setParse { s1.parse with lastSize := s.parse.rem / 2, sizes := [s.parse.rem / 2] })

/-- R155, code 2: two frames, the first with a size prefix. -/
def parseCode2 (s : State) : Flow :=
  let s1 := s.setParse { s.parse with count := 2 }
  match readSize s1 s1.parse.pos s1.parse.rem with
  | .unreadable => .err .invalidPacket s1
  | .size bytes v =>
    let rem := s1.parse.rem - bytes
    if (v : Int) > rem then .err .invalidPacket (s1.setParse { s1.parse with rem := rem })
    else .go (s1.setParse { s1.parse with rem := rem, sizes := [(v : Int)], pos := s1.parse.pos + bytes,
                                          lastSize := rem - v })

/-- R156, code 3: the count byte. -/
def parseCode3 (s : State) : Flow :=
  if s.parse.rem < 1 then .err .invalidPacket s
  else
    let cb := pktRead s s.parse.pos
    let s1 := s.setParse { s.parse with cb := cb, pos := s.parse.pos + 1, count := byteField cb 5 0 }
    if s1.parse.count = 0 ∨ s1.parse.spf48 * s1.parse.count > maxSamples48k then .err .invalidPacket s1
    else .go (s1.setParse { s1.parse with rem := s1.parse.rem - 1 })

/-- R157's `repeat`: the padding chain. Every pass takes at least one byte of `rem`, so `rem` passes are enough, and when
they are used up `rem <= 0`, where the chain runs off the end. -/
def padChain : Nat → State → Flow
  | 0, s => .err .invalidPacket s
  | fuel + 1, s =>
    if s.parse.rem ≤ 0 then .err .invalidPacket s
    else
      let p := (pktRead s s.parse.pos).toNat
      let t : Int := if p = 255 then 254 else p
      let s1 := s.setParse { s.parse with pos := s.parse.pos + 1, rem := s.parse.rem - 1 - t, pad := s.parse.pad + t }
      if p ≠ 255 then .go s1 else padChain fuel s1

/-- R157's padding check, for every code-3 packet. -/
def padCheck (s : State) : Flow := if s.parse.rem < 0 then .err .invalidPacket s else .go s

/-- R157 when the padding flag is set: the chain, then the check. -/
def parsePadding (s : State) : Flow := (padChain s.parse.rem.toNat s).andThen padCheck

/-- R158's loop over the frames but the last. -/
def vbrSizes : Nat → State → Flow
  | 0, s => .go s
  | n + 1, s =>
    match readSize s s.parse.pos s.parse.rem with
    | .unreadable => .err .invalidPacket s
    | .size bytes v =>
      let rem := s.parse.rem - bytes
      if (v : Int) > rem then .err .invalidPacket (s.setParse { s.parse with rem := rem })
      else vbrSizes n (s.setParse { s.parse with rem := rem, sizes := s.parse.sizes ++ [(v : Int)],
                                                 pos := s.parse.pos + bytes,
                                                 lastSize := s.parse.lastSize - bytes - v })

/-- R158, code 3 VBR. -/
def parseVbr (s : State) : Flow :=
  (vbrSizes (s.parse.count - 1) (s.setParse { s.parse with cbr := false, lastSize := s.parse.rem })).andThen fun s =>
    if s.parse.lastSize < 0 then .err .invalidPacket s else .go s

/-- R159, code 3 CBR. -/
def parseCbr (s : State) : Flow :=
  let s1 := s.setParse { s.parse with cbr := true }
  if s.parse.sd then .go s1
  else
    let last := s.parse.rem / s.parse.count
    let s2 := s1.setParse { s1.parse with lastSize := last }
    if last * s.parse.count ≠ s.parse.rem then .err .invalidPacket s2
    else .go (s2.setParse { s2.parse with sizes := List.replicate (s.parse.count - 1) last })

/-- R160, the self-delimited tail. -/
def tailSelfDelimited (s : State) : Flow :=
  match readSize s s.parse.pos s.parse.rem with
  | .unreadable => .err .invalidPacket s
  | .size bytes v =>
    let rem := s.parse.rem - bytes
    let s1 := s.setParse { s.parse with rem := rem }
    if (v : Int) > rem then .err .invalidPacket s1
    else
      let s2 := s1.setParse { s1.parse with pos := s.parse.pos + bytes }
      if s.parse.cbr then
        if (v : Int) * s.parse.count > rem then .err .invalidPacket s2
        else .go (s2.setParse { s2.parse with sizes := List.replicate s.parse.count (v : Int) })
      else if (bytes : Int) + v > s.parse.lastSize then .err .invalidPacket s2
      else .go (s2.setParse { s2.parse with sizes := s.parse.sizes ++ [(v : Int)] })

/-- R161, the implicit tail. -/
def tailImplicit (s : State) : Flow :=
  if s.parse.lastSize > maxImplicit then .err .invalidPacket s
  else .go (s.setParse { s.parse with sizes := s.parse.sizes ++ [s.parse.lastSize] })

/-- The last frame's size, by `sd`. -/
def parseTail (s : State) : Flow := if s.parse.sd then tailSelfDelimited s else tailImplicit s

/-- The offsets of frames with these sizes, the first at `off` (R162). -/
def frameOffsets : Int → List Int → List Int
  | _, [] => []
  | off, n :: ns => off :: frameOffsets (off + n) ns

/-- Write a list over the first entries of a register file, from entry `k` on; the others keep what they held (10_state.md
R29). -/
def overlay {α : Type} {n : Nat} : Nat → List α → Vector α n → Vector α n
  | _, [], v => v
  | k, x :: xs, v => overlay (k + 1) xs (v.setIfInBounds k x)

/-- The parse result file R162 writes. -/
def resultFile (p : ParseRegs) (f : ResultFile) : ResultFile :=
  { toc := p.toc
    count := BitVec.ofNat 6 p.count
    off := overlay 0 ((frameOffsets p.pos p.sizes).map (BitVec.ofInt 32)) f.off
    len := overlay 0 (p.sizes.map (BitVec.ofInt 16)) f.len
    payload := BitVec.ofNat 32 p.pos
    consumed := BitVec.ofInt 32 (p.pad + (p.pos + p.sizes.sum)) }

/-- R162 without the response: the result file. -/
def parseResult (s : State) : State := s.setFile (resultFile s.parse s.file)

/-- Code 3 after the count byte: R157, then R158 or R159 by the VBR flag. -/
def parseCode3Rest (s : State) : Flow :=
  (if byteField s.parse.cb 6 6 = 1 then parsePadding s else padCheck s).andThen fun s =>
    if byteField s.parse.cb 7 7 = 1 then parseVbr s else parseCbr s

/-- The rule of the frame-count code (R153 to R159). -/
def parseByCode (s : State) : Flow :=
  match tocCode s.parse.toc with
  | 0 => parseCode0 s
  | 1 => parseCode1 s
  | 2 => parseCode2 s
  | _ => (parseCode3 s).andThen parseCode3Rest

/-- PARSE of `len` bytes up to and with the result file, or the first failing check's code (R150, R163). -/
def parsePacket (len : Int) (sd : Bool) (s : State) : Flow :=
  (parseArgs (parseStart len sd s)).andThen fun s =>
    (parseHeader s).andThen fun s =>
      (parseByCode s).andThen fun s =>
        (parseTail s).andThen fun s => .go (parseResult s)

/-- PARSE's response: the frame count (R162). -/
def respondCount (s : State) : State := respond s.parse.count s

/-- PARSE with its response. -/
def parseCommand (len : Int) (sd : Bool) (s : State) : Answer := (parsePacket len sd s).settle respondCount

/-- PARSE len (41_framing.md R150). -/
def execParse (len : Int) (s : State) : Answer := parseCommand len false s

/-- PARSE.SD len (41_framing.md R150). -/
def execParseSd (len : Int) (s : State) : Answer := parseCommand len true s

end Sys2Proof.Machine
end

