-- ==== Sys2Proof/Machine/Driver.lean ====
section
/-! DEFINITION. DECODE, the packet driver: 43_driver.md R260 to R270. -/

namespace Sys2Proof.Machine

/-- Invoke DECODE_FRAME for the samples after those done, `driver.nb` (43_driver.md R267), and add its result; a negative
result is the command's error (60_exceptions.md R325). The invocation's registers and scratch buffers end with it. -/
def driveFrame (fb : Option Nat) (flen : Int) (o : Nat) (fsz : Int) (fec : Bool) (s : State) : Flow :=
  match decodeFrame { fb := fb, flen := flen, dst := .pcm, o := o, fsz := fsz, fec := fec } s with
  | .error f => .fault f
  | .ok (r, s1) =>
    let s2 := (s1.setFrame FrameRegs.clear).setTr []
    if r < 0 then .done r s2 else .go (s2.setDriver { s2.driver with nb := s2.driver.nb + r })

/-- R262's loop: conceal until `driver.nb` reaches `total`. Every pass of a legal instance makes at least one sample
(log 16). -/
def concealLoop (total : Int) : Nat → State → Flow
  | 0, _ => .fault .stuck
  | fuel + 1, s =>
    (driveFrame none 0 (words s.driver.nb s) (total - s.driver.nb) false s).andThen fun s =>
      if total ≤ s.driver.nb then .go s else concealLoop total fuel s

/-- Conceal `total` samples per channel from the start of OUT (R262, R265). -/
def conceal (total : Int) (s : State) : Flow :=
  concealLoop total total.toNat (s.setDriver { s.driver with nb := 0 })

/-- Record the duration and answer it (R262, R265, R269). -/
def respondDuration (n : Int) (s : State) : State :=
  respond n (s.setDec { s.dec with lastPacketDuration := BitVec.ofInt 32 n })

/-- R262, the concealment path. -/
def concealCommand (cap : Int) (s : State) : Answer := (conceal cap s).settle fun s => respondDuration s.driver.nb s

/-- R264, the packet metadata of the parsed packet (40_toc_fields.md R124); nothing is committed yet. -/
def packetMeta (s : State) : State :=
  s.setDriver { s.driver with pm := tocMode s.file.toc, pb := tocBandwidth s.file.toc, pf := tocSpf s.file.toc (rate s),
                              pc := tocChannels s.file.toc }

/-- The commit of the packet metadata (R265, R266). -/
def commit (s : State) : State :=
  s.setDec { s.dec with mode := s.driver.pm, bandwidth := s.driver.pb, frameSize := BitVec.ofNat 16 s.driver.pf,
                        streamChannels := BitVec.ofNat 2 s.driver.pc }

/-- RES_OFF[k] and RES_LEN[k] (10_state.md R29). -/
def resOff (s : State) (k : Nat) : Nat := (s.file.off[k]?.getD 0).toNat
def resLen (s : State) (k : Nat) : Int := (s.file.len[k]?.getD 0).toInt

/-- R265's prefix: conceal what the FEC frame does not cover; a failure restores the saved duration. -/
def fecPrefix (total : Int) (s : State) : Flow :=
  if total = 0 then .go s
  else
    match conceal total s with
    | .done r s1 => .done r (s1.setDec { s1.dec with lastPacketDuration := s1.driver.saved })
    | m => m

/-- R265, the FEC path. -/
def fecCommand (cap : Int) (s : State) : Answer :=
  if cap < s.driver.pf ∨ s.driver.pm = .xform ∨ s.dec.mode = .xform then concealCommand cap s
  else
    let rest : Int := cap - s.driver.pf
    ((fecPrefix rest (s.setDriver { s.driver with saved := s.dec.lastPacketDuration })).andThen fun s =>
      driveFrame (some (resOff s 0)) (resLen s 0) (words rest s) s.driver.pf true (commit s)).settle (respondDuration cap)

/-- R268, the frame loop: `n` frames from frame `driver.k` on. -/
def frameLoop (cap : Int) : Nat → State → Flow
  | 0, s => .go s
  | n + 1, s =>
    (driveFrame (some (resOff s s.driver.k)) (resLen s s.driver.k) (words s.driver.nb s) (cap - s.driver.nb) false s).andThen
      fun s => frameLoop cap n (s.setDriver { s.driver with k := s.driver.k + 1 })

/-- R266 to R269, the normal path. -/
def packetCommand (cap : Int) (s : State) : Answer :=
  if (s.file.count.toNat : Int) * s.driver.pf > cap then raises .bufferTooSmall s
  else (frameLoop cap s.file.count.toNat (commit (s.setDriver { s.driver with k := 0, nb := 0 }))).settle
    fun s => respondDuration s.driver.nb s

/-- R263 to R269: parse, then the FEC or the normal path. -/
def parsedCommand (fec : Bool) (len cap : Int) (s : State) : Answer :=
  match parsePacket len false s with
  | .fault f => .fault f
  | .done code s1 => .next (raiseErr code s1)
  | .go s1 => if fec then fecCommand cap (packetMeta s1) else packetCommand cap (packetMeta s1)

/-- DECODE (R260): the preconditions of R261, the size check and the concealment path of R262, then R263 on. -/
def decodeCommand (fec nul : Bool) (len cap : Int) (s : State) : Answer :=
  if !s.constructed then raises .badArgument s
  else if cap ≤ 0 then raises .badArgument s
  else if (fec ∨ len = 0 ∨ nul) ∧ cap % f2_5 (rate s) ≠ 0 then raises .badArgument s
  else if len = 0 ∨ nul then concealCommand cap s
  else if len < 0 then raises .badArgument s
  else parsedCommand fec len cap s

/-- DECODE len, cap (43_driver.md R260). -/
def execDecode (len cap : Int) (s : State) : Answer := decodeCommand false false len cap s

/-- DECODE.FEC len, cap (43_driver.md R260, R265). -/
def execDecodeFec (len cap : Int) (s : State) : Answer := decodeCommand true false len cap s

/-- DECODE.NULL cap (43_driver.md R260, R262): a null packet, so `len = 0` and the packet is not read. -/
def execDecodeNull (fec : Bool) (cap : Int) (s : State) : Answer := decodeCommand fec true 0 cap s

end Sys2Proof.Machine
end

