-- ==== Sys2Proof/WellFormed.lean ====
section
/-! DEFINITION. Which terms of `Instr` PFF can be given: operands fit the registers they come from (30_encoding.md R98),
and an invocation of DECODE_FRAME is one the spec's callers can make (42_frame_fsm.md R200, R204, 20_memory.md R75). -/

namespace Sys2Proof

/-- The value is a 32-bit two's complement integer (30_encoding.md R98). -/
def fitsInt32 (v : Int) : Bool := decide (-(2 : Int) ^ 31 ≤ v) && decide (v < (2 : Int) ^ 31)

/-- The operands of an invocation of DECODE_FRAME (42_frame_fsm.md R200): a null frame has length 0 (R204), no frame is
longer than 1275 bytes (41_framing.md R166), offsets and indexes are 32-bit unsigned (20_memory.md R60). -/
def frameOperandsWf (fb : Option Nat) (flen : Int) (o : Nat) (fsz : Int) : Bool :=
  (match fb with
    | none => decide (flen = 0)
    | some off => decide (off < 2 ^ 31)) &&
  decide (0 ≤ flen) && decide (flen ≤ 1275) && decide (o < 2 ^ 32) && fitsInt32 fsz

/-- Well-formed instructions. Fields of a packet byte are bit vectors of their own width and need no check. -/
def Instr.wf : Instr → Bool
  | .construct fs channels => fitsInt32 fs && fitsInt32 channels
  | .parse len => fitsInt32 len
  | .parseSd len => fitsInt32 len
  | .decode len cap => fitsInt32 len && fitsInt32 cap
  | .decodeFec len cap => fitsInt32 len && fitsInt32 cap
  | .decodeNull _ cap => fitsInt32 cap
  | .tocInfo len fs => fitsInt32 len && fitsInt32 fs
  | .pktNbFrames len => fitsInt32 len
  | .pktNbSamples len fs => fitsInt32 len && fitsInt32 fs
  | .ctlResetState => true
  | .ctlGetBandwidth => true
  | .ctlGetFinalRange => true
  | .ctlGetSampleRate => true
  | .ctlGetPitch => true
  | .ctlGetGain => true
  | .ctlSetGain v => fitsInt32 v
  | .ctlGetLastPacketDuration => true
  | .decodeFrame fb flen o fsz _ => frameOperandsWf fb flen o fsz
  | .framingCode0 _ _ => true
  | .framingCode1 _ _ => true
  | .framingCode2 _ _ => true
  | .framingCode3 _ _ => true
  | .code3Cbr _ _ => true
  | .code3Vbr _ _ => true
  | .code3Padding _ _ => true
  | .tocCfg0 _ _ => true
  | .tocCfg1 _ _ => true
  | .tocCfg2 _ _ => true
  | .tocCfg3 _ _ => true
  | .tocCfg4 _ _ => true
  | .tocCfg5 _ _ => true
  | .tocCfg6 _ _ => true
  | .tocCfg7 _ _ => true
  | .tocCfg8 _ _ => true
  | .tocCfg9 _ _ => true
  | .tocCfg10 _ _ => true
  | .tocCfg11 _ _ => true
  | .tocCfg12 _ _ => true
  | .tocCfg13 _ _ => true
  | .tocCfg14 _ _ => true
  | .tocCfg15 _ _ => true
  | .tocCfg16 _ _ => true
  | .tocCfg17 _ _ => true
  | .tocCfg18 _ _ => true
  | .tocCfg19 _ _ => true
  | .tocCfg20 _ _ => true
  | .tocCfg21 _ _ => true
  | .tocCfg22 _ _ => true
  | .tocCfg23 _ _ => true
  | .tocCfg24 _ _ => true
  | .tocCfg25 _ _ => true
  | .tocCfg26 _ _ => true
  | .tocCfg27 _ _ => true
  | .tocCfg28 _ _ => true
  | .tocCfg29 _ _ => true
  | .tocCfg30 _ _ => true
  | .tocCfg31 _ _ => true

end Sys2Proof
end

