-- ==== Sys2Proof/Decode.lean ====
section
/-! DEFINITION. Decoding: from a command word with its arguments, and from a packet byte in the place the parser reads it
from, to an instruction or a rejection by name. After it, the encoder, and the two readings of a table word. -/

namespace Sys2Proof

/-- Where an instruction's bits are read. The TOC byte is read twice, by the mode word multiplexer (30_encoding.md R86)
and by the frame delimiter (R87); the count byte twice, for its padding flag and for its VBR flag (R90). -/
inductive Slot where
  | tocMode
  | tocCode
  | countPad
  | countRate
deriving DecidableEq, Repr

/-- The bits an instruction is encoded in. -/
inductive Encoding where
  /-- CMD, ARG0, ARG1, ARG2 (30_encoding.md R95). -/
  | command (cmd a0 a1 a2 : Word)
  /-- One packet byte, in the place the parser reads it from. -/
  | packetByte (slot : Slot) (b : Byte)
  /-- No bits: DECODE_FRAME has no encoding (42_frame_fsm.md R200). -/
  | internal
deriving DecidableEq, Repr

/-- Why bits are no instruction. -/
inductive Reject where
  /-- `CMD.op` is none of 0x01..0x07 (30_encoding.md R96). -/
  | unknownOpcode (op : Nat)
  /-- `CMD.op` is CTL and `CMD.req` is none of 0x00..0x07 (30_encoding.md R97). -/
  | unknownRequest (req : Nat)
  /-- The count byte's padding flag is 0: there is no padding chain (30_encoding.md R91). -/
  | noPadding
  /-- An internal operation has no bits to decode (42_frame_fsm.md R200). -/
  | noEncoding
deriving DecidableEq, Repr

/-- What decoding answers. -/
inductive Decoded where
  | ok (i : Instr)
  | rejected (why : Reject)
deriving DecidableEq, Repr

/-- The instruction, where there is one. -/
def Decoded.toOption : Decoded → Option Instr
  | .ok i => some i
  | .rejected _ => none

-- Fields of the command word (30_encoding.md R95).

def cmdOp (cmd : Word) : Nat := (cmd.extractLsb' 0 8).toNat
def cmdSd (cmd : Word) : Bool := cmd.getLsbD 8
def cmdFec (cmd : Word) : Bool := cmd.getLsbD 9
def cmdNul (cmd : Word) : Bool := cmd.getLsbD 10
def cmdReq (cmd : Word) : Nat := (cmd.extractLsb' 16 8).toNat

/-- Decode a control request (30_encoding.md R97). -/
def decodeCtl (req : Nat) (a0 : Word) : Decoded :=
  match req with
  | 0x00 => .ok .ctlResetState
  | 0x01 => .ok .ctlGetBandwidth
  | 0x02 => .ok .ctlGetFinalRange
  | 0x03 => .ok .ctlGetSampleRate
  | 0x04 => .ok .ctlGetPitch
  | 0x05 => .ok .ctlGetGain
  | 0x06 => .ok (.ctlSetGain a0.toInt)
  | 0x07 => .ok .ctlGetLastPacketDuration
  | r => .rejected (.unknownRequest r)

/-- Decode DECODE by its flags (43_driver.md R260): a null packet whatever `fec` is, else by `fec`. -/
def decodeDecode (cmd a0 a1 : Word) : Instr :=
  if cmdNul cmd then .decodeNull (cmdFec cmd) a1.toInt
  else if cmdFec cmd then .decodeFec a0.toInt a1.toInt
  else .decode a0.toInt a1.toInt

/-- Decode a command (30_encoding.md R95, R96, R98). Reserved bits and unused arguments are ignored (log 21). -/
def decodeCommand (cmd a0 a1 _a2 : Word) : Decoded :=
  match cmdOp cmd with
  | 0x01 => .ok (.construct a0.toInt a1.toInt)
  | 0x02 => .ok (if cmdSd cmd then .parseSd a0.toInt else .parse a0.toInt)
  | 0x03 => .ok (decodeDecode cmd a0 a1)
  | 0x04 => .ok (.tocInfo a0.toInt a1.toInt)
  | 0x05 => .ok (.pktNbFrames a0.toInt)
  | 0x06 => .ok (.pktNbSamples a0.toInt a1.toInt)
  | 0x07 => decodeCtl (cmdReq cmd) a0
  | op => .rejected (.unknownOpcode op)

-- Fields of the TOC byte (30_encoding.md R81) and of the count byte (R90).

def tocConfigField (b : Byte) : BitVec 5 := b.extractLsb' 3 5
def tocStField (b : Byte) : Bool := b.getLsbD 2
def tocCodeField (b : Byte) : BitVec 2 := b.extractLsb' 0 2
def cbVbrField (b : Byte) : Bool := b.getLsbD 7
def cbPadField (b : Byte) : Bool := b.getLsbD 6
def cbCountField (b : Byte) : BitVec 6 := b.extractLsb' 0 6

/-- The configuration row of the opcode table with number `config` (30_encoding.md R86). -/
def tocCfgInstr (config : BitVec 5) (st : Bool) (code : BitVec 2) : Instr :=
  match config.toNat with
  | 0 => .tocCfg0 st code
  | 1 => .tocCfg1 st code
  | 2 => .tocCfg2 st code
  | 3 => .tocCfg3 st code
  | 4 => .tocCfg4 st code
  | 5 => .tocCfg5 st code
  | 6 => .tocCfg6 st code
  | 7 => .tocCfg7 st code
  | 8 => .tocCfg8 st code
  | 9 => .tocCfg9 st code
  | 10 => .tocCfg10 st code
  | 11 => .tocCfg11 st code
  | 12 => .tocCfg12 st code
  | 13 => .tocCfg13 st code
  | 14 => .tocCfg14 st code
  | 15 => .tocCfg15 st code
  | 16 => .tocCfg16 st code
  | 17 => .tocCfg17 st code
  | 18 => .tocCfg18 st code
  | 19 => .tocCfg19 st code
  | 20 => .tocCfg20 st code
  | 21 => .tocCfg21 st code
  | 22 => .tocCfg22 st code
  | 23 => .tocCfg23 st code
  | 24 => .tocCfg24 st code
  | 25 => .tocCfg25 st code
  | 26 => .tocCfg26 st code
  | 27 => .tocCfg27 st code
  | 28 => .tocCfg28 st code
  | 29 => .tocCfg29 st code
  | 30 => .tocCfg30 st code
  | _ => .tocCfg31 st code

/-- The TOC byte as the mode word multiplexer reads it: one of the 32 configurations (30_encoding.md R86). -/
def decodeTocMode (b : Byte) : Instr :=
  tocCfgInstr (tocConfigField b) (tocStField b) (tocCodeField b)

/-- The TOC byte as the frame delimiter reads it: one of the four frame-count codes (30_encoding.md R87). -/
def decodeTocCode (b : Byte) : Instr :=
  match (tocCodeField b).toNat with
  | 0 => .framingCode0 (tocConfigField b) (tocStField b)
  | 1 => .framingCode1 (tocConfigField b) (tocStField b)
  | 2 => .framingCode2 (tocConfigField b) (tocStField b)
  | _ => .framingCode3 (tocConfigField b) (tocStField b)

/-- The count byte as the padding unit reads it (30_encoding.md R90, R91). -/
def decodeCountPad (b : Byte) : Decoded :=
  if cbPadField b then .ok (.code3Padding (cbVbrField b) (cbCountField b)) else .rejected .noPadding

/-- The count byte as the size unit reads it: VBR or CBR (30_encoding.md R90). -/
def decodeCountRate (b : Byte) : Instr :=
  if cbVbrField b then .code3Vbr (cbPadField b) (cbCountField b)
  else .code3Cbr (cbPadField b) (cbCountField b)

/-- Decode a packet byte in its place. -/
def decodePacketByte : Slot → Byte → Decoded
  | .tocMode, b => .ok (decodeTocMode b)
  | .tocCode, b => .ok (decodeTocCode b)
  | .countPad, b => decodeCountPad b
  | .countRate, b => .ok (decodeCountRate b)

/-- Decode any bits: total, rejecting by name. -/
def decode : Encoding → Decoded
  | .command cmd a0 a1 a2 => decodeCommand cmd a0 a1 a2
  | .packetByte slot b => decodePacketByte slot b
  | .internal => .rejected .noEncoding

/-- The instruction the decoder reads from a table word (`nbits` as the table gives the row). A 32-bit word is CMD with
every argument 0. An 8-bit word is a packet byte, which the parser reads first as a TOC byte's configuration: the table's
8-bit rows overlap, and the other rows read the same bits in a later place (log 9). -/
def decodeTableWord (nbits w : Nat) : Option Instr :=
  if nbits = 32 then (decodeCommand (BitVec.ofNat 32 w) 0 0 0).toOption
  else if nbits = 8 then (decodePacketByte .tocMode (BitVec.ofNat 8 w)).toOption
  else none

/-! The encoder, from the same tables. -/

/-- An argument register's word for a signed operand (30_encoding.md R98). -/
def argWord (v : Int) : Word := BitVec.ofInt 32 v

/-- The TOC byte with these fields (30_encoding.md R81, R99). -/
def tocByte (config : BitVec 5) (st : Bool) (code : BitVec 2) : Byte :=
  config ++ BitVec.ofBool st ++ code

/-- The count byte with these fields (30_encoding.md R90, R99). -/
def countByte (vbr pad : Bool) (count : BitVec 6) : Byte :=
  BitVec.ofBool vbr ++ BitVec.ofBool pad ++ count

/-- The encoding of a configuration row. -/
def encodeCfg (config : BitVec 5) (st : Bool) (code : BitVec 2) : Encoding :=
  .packetByte .tocMode (tocByte config st code)

/-- The bits of a well-formed instruction, from the table of 95_test_vectors.md section 0 and 30_encoding.md R81, R90,
R95 to R97; bits and arguments the instruction does not use are 0. -/
def encode : Instr → Encoding
  | .construct fs channels => .command 0x00000001 (argWord fs) (argWord channels) 0
  | .parse len => .command 0x00000002 (argWord len) 0 0
  | .parseSd len => .command 0x00000102 (argWord len) 0 0
  | .decode len cap => .command 0x00000003 (argWord len) (argWord cap) 0
  | .decodeFec len cap => .command 0x00000203 (argWord len) (argWord cap) 0
  | .decodeNull fec cap => .command (if fec then 0x00000603 else 0x00000403) 0 (argWord cap) 0
  | .tocInfo len fs => .command 0x00000004 (argWord len) (argWord fs) 0
  | .pktNbFrames len => .command 0x00000005 (argWord len) 0 0
  | .pktNbSamples len fs => .command 0x00000006 (argWord len) (argWord fs) 0
  | .ctlResetState => .command 0x00000007 0 0 0
  | .ctlGetBandwidth => .command 0x00010007 0 0 0
  | .ctlGetFinalRange => .command 0x00020007 0 0 0
  | .ctlGetSampleRate => .command 0x00030007 0 0 0
  | .ctlGetPitch => .command 0x00040007 0 0 0
  | .ctlGetGain => .command 0x00050007 0 0 0
  | .ctlSetGain v => .command 0x00060007 (argWord v) 0 0
  | .ctlGetLastPacketDuration => .command 0x00070007 0 0 0
  | .decodeFrame _ _ _ _ _ => .internal
  | .framingCode0 config st => .packetByte .tocCode (tocByte config st 0)
  | .framingCode1 config st => .packetByte .tocCode (tocByte config st 1)
  | .framingCode2 config st => .packetByte .tocCode (tocByte config st 2)
  | .framingCode3 config st => .packetByte .tocCode (tocByte config st 3)
  | .code3Cbr pad count => .packetByte .countRate (countByte false pad count)
  | .code3Vbr pad count => .packetByte .countRate (countByte true pad count)
  | .code3Padding vbr count => .packetByte .countPad (countByte vbr true count)
  | .tocCfg0 st code => encodeCfg 0 st code
  | .tocCfg1 st code => encodeCfg 1 st code
  | .tocCfg2 st code => encodeCfg 2 st code
  | .tocCfg3 st code => encodeCfg 3 st code
  | .tocCfg4 st code => encodeCfg 4 st code
  | .tocCfg5 st code => encodeCfg 5 st code
  | .tocCfg6 st code => encodeCfg 6 st code
  | .tocCfg7 st code => encodeCfg 7 st code
  | .tocCfg8 st code => encodeCfg 8 st code
  | .tocCfg9 st code => encodeCfg 9 st code
  | .tocCfg10 st code => encodeCfg 10 st code
  | .tocCfg11 st code => encodeCfg 11 st code
  | .tocCfg12 st code => encodeCfg 12 st code
  | .tocCfg13 st code => encodeCfg 13 st code
  | .tocCfg14 st code => encodeCfg 14 st code
  | .tocCfg15 st code => encodeCfg 15 st code
  | .tocCfg16 st code => encodeCfg 16 st code
  | .tocCfg17 st code => encodeCfg 17 st code
  | .tocCfg18 st code => encodeCfg 18 st code
  | .tocCfg19 st code => encodeCfg 19 st code
  | .tocCfg20 st code => encodeCfg 20 st code
  | .tocCfg21 st code => encodeCfg 21 st code
  | .tocCfg22 st code => encodeCfg 22 st code
  | .tocCfg23 st code => encodeCfg 23 st code
  | .tocCfg24 st code => encodeCfg 24 st code
  | .tocCfg25 st code => encodeCfg 25 st code
  | .tocCfg26 st code => encodeCfg 26 st code
  | .tocCfg27 st code => encodeCfg 27 st code
  | .tocCfg28 st code => encodeCfg 28 st code
  | .tocCfg29 st code => encodeCfg 29 st code
  | .tocCfg30 st code => encodeCfg 30 st code
  | .tocCfg31 st code => encodeCfg 31 st code

end Sys2Proof
end

