-- ==== Sys2Proof/Machine/Framing.lean ====
section
/-! DEFINITION. The framing rows of the opcode table, as the parser's own operations (log 8): each applies the rule of its
row to the working registers and hands on to the next unit, or ends the parse with the rule's error. -/

namespace Sys2Proof.Machine

/-- Run a rule, then give the turn to a unit. -/
def thenUnit (m : Flow) (p : Phase) : Answer := m.settle fun s => s.setPhase p

/-- FRAMING.CODE0 (41_framing.md R153). -/
def execFramingCode0 (_config : BitVec 5) (_st : Bool) (s : State) : Answer := thenUnit (parseCode0 s) .tail

/-- FRAMING.CODE1 (41_framing.md R154). -/
def execFramingCode1 (_config : BitVec 5) (_st : Bool) (s : State) : Answer := thenUnit (parseCode1 s) .tail

/-- FRAMING.CODE2 (41_framing.md R155). -/
def execFramingCode2 (_config : BitVec 5) (_st : Bool) (s : State) : Answer := thenUnit (parseCode2 s) .tail

/-- FRAMING.CODE3 (41_framing.md R156). -/
def execFramingCode3 (_config : BitVec 5) (_st : Bool) (s : State) : Answer := thenUnit (parseCode3 s) .countPad

/-- CODE3.PADDING (41_framing.md R157). -/
def execCode3Padding (_vbr : Bool) (_count : BitVec 6) (s : State) : Answer := thenUnit (parsePadding s) .countRate

/-- CODE3.VBR (41_framing.md R158). -/
def execCode3Vbr (_pad : Bool) (_count : BitVec 6) (s : State) : Answer := thenUnit (parseVbr s) .tail

/-- CODE3.CBR (41_framing.md R159). -/
def execCode3Cbr (_pad : Bool) (_count : BitVec 6) (s : State) : Answer := thenUnit (parseCbr s) .tail

/-- The count byte has no padding flag: only R157's padding check. -/
def skipPadding (s : State) : Answer := thenUnit (padCheck s) .countRate

/-- The parser's last unit: R160 or R161, then R162. -/
def finishParse (s : State) : Answer := ((parseTail s).andThen fun s => .go (parseResult s)).settle respondCount

end Sys2Proof.Machine
end

