-- ==== Sys2Proof/Machine/Query.lean ====
section
/-! DEFINITION. The packet queries: 40_toc_fields.md R120 to R123. -/

namespace Sys2Proof.Machine

/-- TOC_INFO's response word for a TOC byte (40_toc_fields.md R120). -/
def tocInfoWord (toc : Byte) (fs : Nat) : Word :=
  BitVec.ofNat 32 (tocMode toc).code ||| BitVec.ofNat 32 (tocBandwidth toc).code <<< 2 |||
    BitVec.ofNat 32 (tocChannels toc) <<< 5 ||| BitVec.ofNat 32 (tocCode toc) <<< 8 |||
    BitVec.ofNat 32 (tocSpf toc fs) <<< 16

/-- TOC_INFO len, Fs (40_toc_fields.md R120). -/
def execTocInfo (len fs : Int) (s : State) : Answer :=
  if len < 1 then raises .badArgument s
  else if !legalRate fs then raises .badArgument s
  else .next (respondWord (tocInfoWord (pktRead s 0) fs.toNat) s)

/-- The frame count a packet announces, or the error (40_toc_fields.md R122). -/
def announcedFrames (len : Int) (s : State) : Except ErrCode Nat :=
  if len < 1 then .error .badArgument
  else if tocCode (pktRead s 0) = 0 then .ok 1
  else if tocCode (pktRead s 0) ≠ 3 then .ok 2
  else if len < 2 then .error .invalidPacket
  else .ok (byteField (pktRead s 1) 5 0)

/-- PKT_NB_FRAMES len (40_toc_fields.md R122). -/
def execPktNbFrames (len : Int) (s : State) : Answer :=
  match announcedFrames len s with
  | .error e => raises e s
  | .ok n => .next (respond n s)

/-- PKT_NB_SAMPLES len, Fs (40_toc_fields.md R123): at most 120 ms. -/
def execPktNbSamples (len fs : Int) (s : State) : Answer :=
  if !legalRate fs then raises .badArgument s
  else
    match announcedFrames len s with
    | .error e => raises e s
    | .ok n =>
      let total := n * tocSpf (pktRead s 0) fs.toNat
      if (total : Int) * 25 > fs * 3 then raises .invalidPacket s else .next (respond total s)

end Sys2Proof.Machine
end

