-- ==== Sys2Proof/Machine/TocConfig.lean ====
section
/-! DEFINITION. The 32 configuration rows of the TOC byte (30_encoding.md R86), as the mode word multiplexer's operations
(log 8). Each row names its mode, bandwidth and frame duration as R86's table does, the duration in units of 2.5 ms. -/

namespace Sys2Proof.Machine

/-- Samples per channel of a frame of `units` times 2.5 ms at a rate (30_encoding.md R86). -/
def durationSamples (units fs : Nat) : Nat := fs * units / 400

/-- Run a configuration row: the header registers of 41_framing.md R152, the packet metadata of 43_driver.md R264 at the
instance's rate, and the turn to the frame delimiter. -/
def tocConfig (config : BitVec 5) (mode : Mode) (bw : Bandwidth) (units : Nat) (st : Bool) (code : BitVec 2)
    (s : State) : Answer :=
  .next (((s.setParse (headerRegs (tocByte config st code) (durationSamples units 48000) s.parse)).setDriver
    { s.driver with pm := mode, pb := bw, pf := durationSamples units (rate s), pc := if st then 2 else 1 }).setPhase
      .tocCode)

/-- TOC.CFG0.PRED.NB.10MS (30_encoding.md R86). -/
def execTocCfg0 (st : Bool) (code : BitVec 2) (s : State) : Answer := tocConfig 0 .pred .nb 4 st code s

/-- TOC.CFG1.PRED.NB.20MS (30_encoding.md R86). -/
def execTocCfg1 (st : Bool) (code : BitVec 2) (s : State) : Answer := tocConfig 1 .pred .nb 8 st code s

/-- TOC.CFG2.PRED.NB.40MS (30_encoding.md R86). -/
def execTocCfg2 (st : Bool) (code : BitVec 2) (s : State) : Answer := tocConfig 2 .pred .nb 16 st code s

/-- TOC.CFG3.PRED.NB.60MS (30_encoding.md R86). -/
def execTocCfg3 (st : Bool) (code : BitVec 2) (s : State) : Answer := tocConfig 3 .pred .nb 24 st code s

/-- TOC.CFG4.PRED.MB.10MS (30_encoding.md R86). -/
def execTocCfg4 (st : Bool) (code : BitVec 2) (s : State) : Answer := tocConfig 4 .pred .mb 4 st code s

/-- TOC.CFG5.PRED.MB.20MS (30_encoding.md R86). -/
def execTocCfg5 (st : Bool) (code : BitVec 2) (s : State) : Answer := tocConfig 5 .pred .mb 8 st code s

/-- TOC.CFG6.PRED.MB.40MS (30_encoding.md R86). -/
def execTocCfg6 (st : Bool) (code : BitVec 2) (s : State) : Answer := tocConfig 6 .pred .mb 16 st code s

/-- TOC.CFG7.PRED.MB.60MS (30_encoding.md R86). -/
def execTocCfg7 (st : Bool) (code : BitVec 2) (s : State) : Answer := tocConfig 7 .pred .mb 24 st code s

/-- TOC.CFG8.PRED.WB.10MS (30_encoding.md R86). -/
def execTocCfg8 (st : Bool) (code : BitVec 2) (s : State) : Answer := tocConfig 8 .pred .wb 4 st code s

/-- TOC.CFG9.PRED.WB.20MS (30_encoding.md R86). -/
def execTocCfg9 (st : Bool) (code : BitVec 2) (s : State) : Answer := tocConfig 9 .pred .wb 8 st code s

/-- TOC.CFG10.PRED.WB.40MS (30_encoding.md R86). -/
def execTocCfg10 (st : Bool) (code : BitVec 2) (s : State) : Answer := tocConfig 10 .pred .wb 16 st code s

/-- TOC.CFG11.PRED.WB.60MS (30_encoding.md R86). -/
def execTocCfg11 (st : Bool) (code : BitVec 2) (s : State) : Answer := tocConfig 11 .pred .wb 24 st code s

/-- TOC.CFG12.HYBRID.SWB.10MS (30_encoding.md R86). -/
def execTocCfg12 (st : Bool) (code : BitVec 2) (s : State) : Answer := tocConfig 12 .hybrid .swb 4 st code s

/-- TOC.CFG13.HYBRID.SWB.20MS (30_encoding.md R86). -/
def execTocCfg13 (st : Bool) (code : BitVec 2) (s : State) : Answer := tocConfig 13 .hybrid .swb 8 st code s

/-- TOC.CFG14.HYBRID.FB.10MS (30_encoding.md R86). -/
def execTocCfg14 (st : Bool) (code : BitVec 2) (s : State) : Answer := tocConfig 14 .hybrid .fb 4 st code s

/-- TOC.CFG15.HYBRID.FB.20MS (30_encoding.md R86). -/
def execTocCfg15 (st : Bool) (code : BitVec 2) (s : State) : Answer := tocConfig 15 .hybrid .fb 8 st code s

/-- TOC.CFG16.XFORM.NB.2_5MS (30_encoding.md R86). -/
def execTocCfg16 (st : Bool) (code : BitVec 2) (s : State) : Answer := tocConfig 16 .xform .nb 1 st code s

/-- TOC.CFG17.XFORM.NB.5MS (30_encoding.md R86). -/
def execTocCfg17 (st : Bool) (code : BitVec 2) (s : State) : Answer := tocConfig 17 .xform .nb 2 st code s

/-- TOC.CFG18.XFORM.NB.10MS (30_encoding.md R86). -/
def execTocCfg18 (st : Bool) (code : BitVec 2) (s : State) : Answer := tocConfig 18 .xform .nb 4 st code s

/-- TOC.CFG19.XFORM.NB.20MS (30_encoding.md R86). -/
def execTocCfg19 (st : Bool) (code : BitVec 2) (s : State) : Answer := tocConfig 19 .xform .nb 8 st code s

/-- TOC.CFG20.XFORM.WB.2_5MS (30_encoding.md R86). -/
def execTocCfg20 (st : Bool) (code : BitVec 2) (s : State) : Answer := tocConfig 20 .xform .wb 1 st code s

/-- TOC.CFG21.XFORM.WB.5MS (30_encoding.md R86). -/
def execTocCfg21 (st : Bool) (code : BitVec 2) (s : State) : Answer := tocConfig 21 .xform .wb 2 st code s

/-- TOC.CFG22.XFORM.WB.10MS (30_encoding.md R86). -/
def execTocCfg22 (st : Bool) (code : BitVec 2) (s : State) : Answer := tocConfig 22 .xform .wb 4 st code s

/-- TOC.CFG23.XFORM.WB.20MS (30_encoding.md R86). -/
def execTocCfg23 (st : Bool) (code : BitVec 2) (s : State) : Answer := tocConfig 23 .xform .wb 8 st code s

/-- TOC.CFG24.XFORM.SWB.2_5MS (30_encoding.md R86). -/
def execTocCfg24 (st : Bool) (code : BitVec 2) (s : State) : Answer := tocConfig 24 .xform .swb 1 st code s

/-- TOC.CFG25.XFORM.SWB.5MS (30_encoding.md R86). -/
def execTocCfg25 (st : Bool) (code : BitVec 2) (s : State) : Answer := tocConfig 25 .xform .swb 2 st code s

/-- TOC.CFG26.XFORM.SWB.10MS (30_encoding.md R86). -/
def execTocCfg26 (st : Bool) (code : BitVec 2) (s : State) : Answer := tocConfig 26 .xform .swb 4 st code s

/-- TOC.CFG27.XFORM.SWB.20MS (30_encoding.md R86). -/
def execTocCfg27 (st : Bool) (code : BitVec 2) (s : State) : Answer := tocConfig 27 .xform .swb 8 st code s

/-- TOC.CFG28.XFORM.FB.2_5MS (30_encoding.md R86). -/
def execTocCfg28 (st : Bool) (code : BitVec 2) (s : State) : Answer := tocConfig 28 .xform .fb 1 st code s

/-- TOC.CFG29.XFORM.FB.5MS (30_encoding.md R86). -/
def execTocCfg29 (st : Bool) (code : BitVec 2) (s : State) : Answer := tocConfig 29 .xform .fb 2 st code s

/-- TOC.CFG30.XFORM.FB.10MS (30_encoding.md R86). -/
def execTocCfg30 (st : Bool) (code : BitVec 2) (s : State) : Answer := tocConfig 30 .xform .fb 4 st code s

/-- TOC.CFG31.XFORM.FB.20MS (30_encoding.md R86). -/
def execTocCfg31 (st : Bool) (code : BitVec 2) (s : State) : Answer := tocConfig 31 .xform .fb 8 st code s

end Sys2Proof.Machine
end

