-- ==== Sys2Proof/Machine/Dispatch.lean ====
section
/-! DEFINITION. The dispatch: one arm for each constructor of `Instr`, each a direct call of its meaning. -/

namespace Sys2Proof.Machine

def exec (i : Instr) (s : State) : Host.Outcome State Fault Refusal :=
  match i with
  | .construct fs channels => Sys2Proof.Machine.execConstruct fs channels s
  | .parse len => Sys2Proof.Machine.execParse len s
  | .parseSd len => Sys2Proof.Machine.execParseSd len s
  | .decode len cap => Sys2Proof.Machine.execDecode len cap s
  | .decodeFec len cap => Sys2Proof.Machine.execDecodeFec len cap s
  | .decodeNull fec cap => Sys2Proof.Machine.execDecodeNull fec cap s
  | .tocInfo len fs => Sys2Proof.Machine.execTocInfo len fs s
  | .pktNbFrames len => Sys2Proof.Machine.execPktNbFrames len s
  | .pktNbSamples len fs => Sys2Proof.Machine.execPktNbSamples len fs s
  | .ctlResetState => Sys2Proof.Machine.execCtlResetState s
  | .ctlGetBandwidth => Sys2Proof.Machine.execCtlGetBandwidth s
  | .ctlGetFinalRange => Sys2Proof.Machine.execCtlGetFinalRange s
  | .ctlGetSampleRate => Sys2Proof.Machine.execCtlGetSampleRate s
  | .ctlGetPitch => Sys2Proof.Machine.execCtlGetPitch s
  | .ctlGetGain => Sys2Proof.Machine.execCtlGetGain s
  | .ctlSetGain v => Sys2Proof.Machine.execCtlSetGain v s
  | .ctlGetLastPacketDuration => Sys2Proof.Machine.execCtlGetLastPacketDuration s
  | .decodeFrame fb flen o fsz fec => Sys2Proof.Machine.execDecodeFrame fb flen o fsz fec s
  | .framingCode0 config st => Sys2Proof.Machine.execFramingCode0 config st s
  | .framingCode1 config st => Sys2Proof.Machine.execFramingCode1 config st s
  | .framingCode2 config st => Sys2Proof.Machine.execFramingCode2 config st s
  | .framingCode3 config st => Sys2Proof.Machine.execFramingCode3 config st s
  | .code3Cbr pad count => Sys2Proof.Machine.execCode3Cbr pad count s
  | .code3Vbr pad count => Sys2Proof.Machine.execCode3Vbr pad count s
  | .code3Padding vbr count => Sys2Proof.Machine.execCode3Padding vbr count s
  | .tocCfg0 st code => Sys2Proof.Machine.execTocCfg0 st code s
  | .tocCfg1 st code => Sys2Proof.Machine.execTocCfg1 st code s
  | .tocCfg2 st code => Sys2Proof.Machine.execTocCfg2 st code s
  | .tocCfg3 st code => Sys2Proof.Machine.execTocCfg3 st code s
  | .tocCfg4 st code => Sys2Proof.Machine.execTocCfg4 st code s
  | .tocCfg5 st code => Sys2Proof.Machine.execTocCfg5 st code s
  | .tocCfg6 st code => Sys2Proof.Machine.execTocCfg6 st code s
  | .tocCfg7 st code => Sys2Proof.Machine.execTocCfg7 st code s
  | .tocCfg8 st code => Sys2Proof.Machine.execTocCfg8 st code s
  | .tocCfg9 st code => Sys2Proof.Machine.execTocCfg9 st code s
  | .tocCfg10 st code => Sys2Proof.Machine.execTocCfg10 st code s
  | .tocCfg11 st code => Sys2Proof.Machine.execTocCfg11 st code s
  | .tocCfg12 st code => Sys2Proof.Machine.execTocCfg12 st code s
  | .tocCfg13 st code => Sys2Proof.Machine.execTocCfg13 st code s
  | .tocCfg14 st code => Sys2Proof.Machine.execTocCfg14 st code s
  | .tocCfg15 st code => Sys2Proof.Machine.execTocCfg15 st code s
  | .tocCfg16 st code => Sys2Proof.Machine.execTocCfg16 st code s
  | .tocCfg17 st code => Sys2Proof.Machine.execTocCfg17 st code s
  | .tocCfg18 st code => Sys2Proof.Machine.execTocCfg18 st code s
  | .tocCfg19 st code => Sys2Proof.Machine.execTocCfg19 st code s
  | .tocCfg20 st code => Sys2Proof.Machine.execTocCfg20 st code s
  | .tocCfg21 st code => Sys2Proof.Machine.execTocCfg21 st code s
  | .tocCfg22 st code => Sys2Proof.Machine.execTocCfg22 st code s
  | .tocCfg23 st code => Sys2Proof.Machine.execTocCfg23 st code s
  | .tocCfg24 st code => Sys2Proof.Machine.execTocCfg24 st code s
  | .tocCfg25 st code => Sys2Proof.Machine.execTocCfg25 st code s
  | .tocCfg26 st code => Sys2Proof.Machine.execTocCfg26 st code s
  | .tocCfg27 st code => Sys2Proof.Machine.execTocCfg27 st code s
  | .tocCfg28 st code => Sys2Proof.Machine.execTocCfg28 st code s
  | .tocCfg29 st code => Sys2Proof.Machine.execTocCfg29 st code s
  | .tocCfg30 st code => Sys2Proof.Machine.execTocCfg30 st code s
  | .tocCfg31 st code => Sys2Proof.Machine.execTocCfg31 st code s

end Sys2Proof.Machine
end

