-- ==== Sys2Proof/Machine/Fetch.lean ====
section
/-! DEFINITION. Where PFF takes its next instruction from: the host's next move, or the packet byte the parser is at
(10_state.md R24, log 1, log 8). -/

namespace Sys2Proof.Machine

/-- The answer to a command that is no row of the opcode table: an unknown opcode is Unimplemented before any other check
(60_exceptions.md R326); an unknown control request comes after the `constructed` check (44_control.md R293). -/
def rejectCommand (why : Reject) (s : State) : Answer :=
  match why with
  | .unknownOpcode _ => raises .unimplemented s
  | .unknownRequest _ => ctl s (raises .unimplemented s)
  | .noPadding => skipPadding s
  | .noEncoding => raises .unimplemented s

/-- Run what was decoded. -/
def runDecoded (d : Decoded) (s : State) : Answer :=
  match d with
  | .ok i => exec i s
  | .rejected why => rejectCommand why s

/-- The host has written CMD and the arguments (10_state.md R36). -/
def latchCommand (cmd a0 a1 a2 : Word) (s : State) : State :=
  s.setHost { s.host with cmd := cmd, arg0 := a0, arg1 := a1, arg2 := a2 }

/-- Run a command word (30_encoding.md R95). -/
def runCommand (cmd a0 a1 a2 : Word) (s : State) : Answer :=
  runDecoded (Sys2Proof.decode (.command cmd a0 a1 a2)) (latchCommand cmd a0 a1 a2 s)

/-- One host move. -/
def runMove (m : HostMove) (s : State) : Answer :=
  match m with
  | .load off bytes => .next (loadPacket off bytes s)
  | .command cmd a0 a1 a2 => runCommand cmd a0 a1 a2 s

/-- Run a packet byte in its place. -/
def runPacketByte (slot : Slot) (b : Byte) (s : State) : Answer := runDecoded (decodePacketByte slot b) s

/-- The next step, by the unit whose turn it is. With no command in progress and no move pending PFF waits. -/
def stepByPhase (s : State) : Answer :=
  match s.phase with
  | .idle =>
    match s.inbox with
    | [] => .next s
    | m :: rest => runMove m (s.setInbox rest)
  | .tocMode => runPacketByte .tocMode (pktRead s 0) s
  | .tocCode => runPacketByte .tocCode s.parse.toc s
  | .countPad => runPacketByte .countPad s.parse.cb s
  | .countRate => runPacketByte .countRate s.parse.cb s
  | .tail => finishParse s
  | .frame fb flen o fsz fec => exec (.decodeFrame fb flen o fsz fec) s

/-- The state in which the parser has begun a parse of `len` bytes and is at the TOC byte (41_framing.md R150, R151). -/
def atTocByte (len : Int) (sd : Bool) (s : State) : State := (parseStart len sd s).setPhase .tocMode

/-- Put a table word where the next step takes its instruction: a 32-bit word as a command with every argument 0, ahead of
the host's other moves; an 8-bit word as the only byte of a packet whose parse has begun. -/
def placeWord (nbits w : Nat) (s : State) : State :=
  if nbits = 8 then atTocByte 1 false (loadPacket 0 [BitVec.ofNat 8 w] s)
  else (s.setInbox (.command (BitVec.ofNat 32 w) 0 0 0 :: s.inbox)).setPhase .idle

end Sys2Proof.Machine
end

