-- ==== Sys2Proof/Machine/Step.lean ====
section
/-! DEFINITION. One step of PFF, and the placing of a table word where the next step takes its instruction. -/

namespace Sys2Proof.Machine

/-- One step: one host move with the whole command it carries (00_scope.md R6, log 8), or one operation of a parse or an
invocation in progress. -/
def step (s : State) : Host.Outcome State Fault Refusal := stepByPhase s

/-- The state with an instruction's bits placed where `step` takes its next instruction. -/
def State.withFetchWord (s : State) (nbits w : Nat) : State := placeWord nbits w s

end Sys2Proof.Machine
end

