-- ==== Sys2Proof/Safety.lean ====
section
/-! DEFINITION. What claims about PFF assume of a state and call a safe run: the legal values of 10_state.md R20, the
state between commands (10_state.md R24, 70_reset_and_hazards.md R351), the parts of the state a claim leaves alone, and
the packets a writer of the wire format can lay out (30_encoding.md R86, R92). -/

namespace Sys2Proof.Machine

/-- The mode, the bandwidth and the frame duration (in units of 2.5 ms) are those of one TOC configuration
(30_encoding.md R86), or those after CONSTRUCT (44_control.md R292). -/
def legalMeta (m : Mode) (b : Bandwidth) (units : Nat) : Bool :=
  match m with
  | .uninit => decide (b = .unset) && decide (units = 1)
  | .pred => (decide (b = .nb) || decide (b = .mb) || decide (b = .wb)) &&
      (decide (units = 4) || decide (units = 8) || decide (units = 16) || decide (units = 24))
  | .hybrid => (decide (b = .swb) || decide (b = .fb)) && (decide (units = 4) || decide (units = 8))
  | .xform => (decide (b = .nb) || decide (b = .wb) || decide (b = .swb) || decide (b = .fb)) &&
      (decide (units = 1) || decide (units = 2) || decide (units = 4) || decide (units = 8))

/-- The decoder registers hold legal values (10_state.md R20, R21, 42_frame_fsm.md R201). -/
structure LegalDecoder (d : Decoder) : Prop where
  rate : legalRate d.fs.toNat = true
  channels : legalChannels d.c.toNat = true
  streamChannels : legalChannels d.streamChannels.toNat = true
  packetMeta : ∃ units, legalMeta d.mode d.bandwidth units = true ∧ d.frameSize.toNat = d.fs.toNat * units / 400
  prevMode : d.prevMode ≠ .uninit → d.mode ≠ .uninit
  prevRedundancy : d.prevRedundancy = true → d.prevMode = .pred ∨ d.prevMode = .hybrid

/-- No command is in progress: no working register and no scratch buffer exists (70_reset_and_hazards.md R351). -/
structure BetweenCommands (s : State) : Prop where
  phase : s.phase = .idle
  parse : s.parse = ParseRegs.clear
  driver : s.driver = DriverRegs.clear
  frame : s.frame = FrameRegs.clear
  tr : s.tr = []

/-- What a constructed instance keeps (10_state.md R20, R25, R26). -/
structure LegalInstance (s : State) : Prop where
  dec : LegalDecoder s.dec
  apiSampleRate : s.pctl.apiSampleRate = s.dec.fs
  nChannelsAPI : s.pctl.nChannelsAPI = s.dec.c
  signalling : s.tSignalling = 0

/-- The invariant of every run: memories in canonical form, nothing in progress, legal registers once constructed. -/
structure Inv (s : State) : Prop where
  pkt : s.pkt.wf = true
  out : s.out.wf = true
  between : BetweenCommands s
  legal : s.constructed = true → LegalInstance s

/-- A command left the decoder alone: every register of 10_state.md R20, `PCtl`, the transform engine's controls and the
constructed flag are as they were. -/
structure SameDecoder (s t : State) : Prop where
  constructed : t.constructed = s.constructed
  dec : t.dec = s.dec
  pctl : t.pctl = s.pctl
  tctl : t.tctl = s.tctl
  tSignalling : t.tSignalling = s.tSignalling

/-- A command left the memories and the host's side alone: PKT, OUT, CMD, the arguments and the pending host moves. -/
structure SameOutside (s t : State) : Prop where
  pkt : t.pkt = s.pkt
  out : t.out = s.out
  cmd : t.host.cmd = s.host.cmd
  arg0 : t.host.arg0 = s.host.arg0
  arg1 : t.host.arg1 = s.host.arg1
  arg2 : t.host.arg2 = s.host.arg2
  inbox : t.inbox = s.inbox

/-- `t` answers the word `w` as a result. -/
def Answered (t : State) (w : Word) : Prop := t.host.resp = w ∧ t.host.err = false

/-- `t` answers an error of PFF's own. -/
def Raised (t : State) (e : ErrCode) : Prop := t.host.resp = BitVec.ofInt 32 e.code ∧ t.host.err = true

/-- A command changed nothing but its response: no register, no memory, no engine; nothing of it is left in progress. -/
structure OnlyAnswers (s t : State) : Prop where
  decoder : SameDecoder s t
  outside : SameOutside s t
  file : t.file = s.file
  env : t.env = s.env
  between : BetweenCommands t

/-- `i` answers an error of PFF's own and changes nothing else. -/
def RaisesOnly (i : Instr) (s : State) (e : ErrCode) : Prop := ∃ t, exec i s = .next t ∧ Raised t e ∧ OnlyAnswers s t

/-- `i` answers a result and changes nothing else. -/
def AnswersOnly (i : Instr) (s : State) (w : Word) : Prop := ∃ t, exec i s = .next t ∧ Answered t w ∧ OnlyAnswers s t

/-- The row has a command word (30_encoding.md R96, R97). -/
def isCommand (i : Instr) : Bool :=
  match encode i with
  | .command _ _ _ _ => true
  | .packetByte _ _ => false
  | .internal => false

/-- What a command that may run in `s` can rely on: a canonical PCM buffer and, once constructed, legal registers. -/
structure Usable (s : State) : Prop where
  out : s.out.wf = true
  legal : s.constructed = true → LegalInstance s

/-- The packet buffer holds these bytes from offset `p` on. -/
def PktHolds (s : State) (p : Nat) (bytes : List Byte) : Prop := ∀ i < bytes.length, pktRead s (p + i) = bytes.getD i 0

/-- The configurations of one mode and bandwidth, by their durations in units of 2.5 ms. -/
def configsOf (m : Mode) (b : Bandwidth) (units : List Nat) : List (Mode × Bandwidth × Nat) :=
  units.map fun u => (m, b, u)

/-- The configurations of the TOC byte (30_encoding.md R86), in the table's order: mode, bandwidth, and the frame's
duration in units of 2.5 ms. -/
def configTable : List (Mode × Bandwidth × Nat) :=
  List.flatten [configsOf .pred .nb [4, 8, 16, 24], configsOf .pred .mb [4, 8, 16, 24],
    configsOf .pred .wb [4, 8, 16, 24], configsOf .hybrid .swb [4, 8], configsOf .hybrid .fb [4, 8],
    configsOf .xform .nb [1, 2, 4, 8], configsOf .xform .wb [1, 2, 4, 8], configsOf .xform .swb [1, 2, 4, 8],
    configsOf .xform .fb [1, 2, 4, 8]]

/-- The decoder holds the metadata of a packet with this TOC byte (40_toc_fields.md R124). -/
structure HoldsMeta (toc : Byte) (d : Decoder) : Prop where
  mode : d.mode = tocMode toc
  bandwidth : d.bandwidth = tocBandwidth toc
  frameSize : d.frameSize.toNat = tocSpf toc d.fs.toNat
  streamChannels : d.streamChannels.toNat = tocChannels toc

/-! The packet layouts of 30_encoding.md R92, as the packet's writer sees them. -/

/-- A padding chain (30_encoding.md R91): so many bytes of 255, then a terminal byte. -/
structure PadChain where
  more : Nat
  last : Nat
deriving DecidableEq, Repr

/-- The chain's bytes. -/
def PadChain.bytes (c : PadChain) : List Byte := List.replicate c.more 255 ++ [BitVec.ofNat 8 c.last]

/-- The padding the chain gives (30_encoding.md R91). -/
def PadChain.amount (c : PadChain) : Nat := 254 * c.more + c.last

/-- A packet's framing with its frame lengths: one row of R92's table. -/
inductive PacketForm where
  | one (n : Nat)
  | twoEqual (n : Nat)
  | two (n m : Nat)
  | cbr (count n : Nat) (pad : Option PadChain)
  | vbr (sizes : List Nat) (pad : Option PadChain)
deriving DecidableEq, Repr

namespace PacketForm

/-- The frame-count code (30_encoding.md R87). -/
def code : PacketForm → BitVec 2
  | one _ => 0
  | twoEqual _ => 1
  | two _ _ => 2
  | cbr _ _ _ => 3
  | vbr _ _ => 3

/-- The frame lengths, in order. -/
def sizes : PacketForm → List Nat
  | one n => [n]
  | twoEqual n => [n, n]
  | two n m => [n, m]
  | cbr count n _ => List.replicate count n
  | vbr sizes _ => sizes

/-- The padding chain, if there is one. -/
def chain : PacketForm → Option PadChain
  | one _ => none
  | twoEqual _ => none
  | two _ _ => none
  | cbr _ _ pad => pad
  | vbr _ pad => pad

/-- The number of padding bytes. -/
def padding (f : PacketForm) : Nat := (f.chain.map PadChain.amount).getD 0

/-- The count byte and the padding chain, in code 3. -/
def countBytes : PacketForm → List Byte
  | one _ => []
  | twoEqual _ => []
  | two _ _ => []
  | cbr count _ pad => countByte false pad.isSome (BitVec.ofNat 6 count) :: (pad.map PadChain.bytes).getD []
  | vbr sizes pad => countByte true pad.isSome (BitVec.ofNat 6 sizes.length) :: (pad.map PadChain.bytes).getD []

/-- The lengths that have a size prefix, in order; `sd`: self-delimited. -/
def prefixed : PacketForm → Bool → List Nat
  | one n, sd => if sd then [n] else []
  | twoEqual n, sd => if sd then [n] else []
  | two n m, sd => if sd then [n, m] else [n]
  | cbr _ n _, sd => if sd then [n] else []
  | vbr sizes _, sd => if sd then sizes else sizes.dropLast

/-- Everything before the frames: TOC byte, count byte, padding chain, size prefixes. -/
def header (f : PacketForm) (sd : Bool) (config : BitVec 5) (st : Bool) : List Byte :=
  tocByte config st f.code :: (f.countBytes ++ (f.prefixed sd).flatMap encodeSize)

/-- The packet's length: header, frames, padding. -/
def total (f : PacketForm) (sd : Bool) (config : BitVec 5) (st : Bool) : Nat :=
  (f.header sd config st).length + f.sizes.sum + f.padding

/-- The packet keeps the limits of the wire format (00_scope.md R9): a frame at least, at most 120 ms, at most 1275 bytes a
frame, and a terminal byte of the chain below 255. -/
def fits (f : PacketForm) (config : BitVec 5) : Bool :=
  decide (1 ≤ f.sizes.length) && decide (f.sizes.length * tocSpf (tocByte config false 0) 48000 ≤ 5760) &&
  f.sizes.all (fun n => decide (n ≤ 1275)) && (f.chain.all fun c => decide (c.last < 255))

end PacketForm

/-- The parse result file describes frames with these sizes, back to back from `start` on, and `pad` bytes of padding;
entries beyond the frames hold what they held before (10_state.md R29, 41_framing.md R162). -/
structure ResultFileIs (toc : Byte) (start pad : Nat) (sizes : List Nat) (before f : ResultFile) : Prop where
  toc : f.toc = toc
  count : f.count.toNat = sizes.length
  off : ∀ k < sizes.length, (f.off[k]?.getD 0).toNat = start + (sizes.take k).sum
  len : ∀ k < sizes.length, (f.len[k]?.getD 0).toInt = sizes.getD k 0
  rest : ∀ k, sizes.length ≤ k → f.off[k]? = before.off[k]? ∧ f.len[k]? = before.len[k]?
  payload : f.payload.toNat = start
  consumed : f.consumed.toNat = pad + (start + sizes.sum)

/-- A parse ended: nothing but the response and the parse result file may differ (41_framing.md R165). -/
structure ParseOnly (s t : State) : Prop where
  decoder : SameDecoder s t
  outside : SameOutside s t
  env : t.env = s.env
  between : BetweenCommands t

/-- A command of DECODE ended: what it leaves alone whatever its packet and its engines do (43_driver.md R260). -/
structure DecodeOnly (s t : State) : Prop where
  constructed : t.constructed = s.constructed
  fixed : t.dec.fs = s.dec.fs ∧ t.dec.c = s.dec.c ∧ t.dec.decodeGain = s.dec.decodeGain
  api : t.pctl.apiSampleRate = s.pctl.apiSampleRate ∧ t.pctl.nChannelsAPI = s.pctl.nChannelsAPI
  tSignalling : t.tSignalling = s.tSignalling
  pkt : t.pkt = s.pkt
  cmd : t.host.cmd = s.host.cmd
  arg0 : t.host.arg0 = s.host.arg0
  arg1 : t.host.arg1 = s.host.arg1
  arg2 : t.host.arg2 = s.host.arg2
  inbox : t.inbox = s.inbox
  between : BetweenCommands t

/-- An invocation of DECODE_FRAME ended: what it leaves alone (42_frame_fsm.md R200, R238). -/
structure FrameOnly (s t : State) : Prop where
  constructed : t.constructed = s.constructed
  dec : t.dec = { s.dec with prevMode := t.dec.prevMode, prevRedundancy := t.dec.prevRedundancy,
                             rangeFinal := t.dec.rangeFinal }
  api : t.pctl.apiSampleRate = s.pctl.apiSampleRate ∧ t.pctl.nChannelsAPI = s.pctl.nChannelsAPI
  tSignalling : t.tSignalling = s.tSignalling
  file : t.file = s.file
  host : t.host = s.host
  pkt : t.pkt = s.pkt
  parse : t.parse = s.parse
  driver : t.driver = { s.driver with ret := t.driver.ret }
  inbox : t.inbox = s.inbox
  ended : t.phase = .idle ∧ t.frame = FrameRegs.clear ∧ t.tr = []

/-- `OUT` reads as before outside `n` words from word `o` on. -/
def OutBeside (o n : Nat) (s t : State) : Prop := ∀ i, i < o ∨ o + n ≤ i → t.out.read i = s.out.read i

/-- The prediction engine's control block after a frame with bytes in a mode that runs it (42_frame_fsm.md R216, R217). -/
structure PredictionControl (s t : State) : Prop where
  channels : t.pctl.nChannelsInternal = s.dec.streamChannels
  narrow : s.dec.mode = .pred → s.dec.bandwidth = .nb → t.pctl.internalSampleRate = 8000
  medium : s.dec.mode = .pred → s.dec.bandwidth = .mb → t.pctl.internalSampleRate = 12000
  wide : s.dec.mode = .hybrid ∨ s.dec.bandwidth = .wb → t.pctl.internalSampleRate = 16000
  duration : t.pctl.payloadSizeMs.toNat * s.dec.fs.toNat = 1000 * s.dec.frameSize.toNat

/-- One sample after the gain step, which a gain of 0 leaves alone (42_frame_fsm.md R234). -/
def afterGain (gain : BitVec 16) (x : Sample) : Sample := if gain = 0 then x else gainSample gain x

end Sys2Proof.Machine
end

