-- ==== Sys2Proof/Certificates/Slice0/Obligations.lean ====
section
/-! DEFINITION. What is to be proved of PFF, in the order of the spec's files. Each statement's docstring names the rule it
formalises. Draws of the engines stand in the state (`env`): a statement that gives a draw assumes that reply (R13). A
`phase` is the model's own place of the parser (log 8), no rule's. -/

open Sys2Proof Sys2Proof.Machine Host

/-! Encodings (30_encoding.md). -/

/-- The encoder and the decoder agree on every well-formed instruction that has bits; DECODE_FRAME alone has none (30_encoding.md
R81, R90, R95 to R98, 42_frame_fsm.md R200). -/
def Obligations.EncodeDecodes : Prop :=
  ∀ i : Instr, i.wf = true →
    (encode i = .internal ↔ ∃ fb flen o fsz fec, i = .decodeFrame fb flen o fsz fec) ∧
    (encode i ≠ .internal → Sys2Proof.decode (encode i) = .ok i)

/-- Reserved bits of CMD and ARG2 are ignored (30_encoding.md R95; vector X1). -/
def Obligations.ReservedBitsIgnored : Prop :=
  ∀ cmd a0 a1 a2 : Word,
    Sys2Proof.decode (.command cmd a0 a1 a2) = Sys2Proof.decode (.command (cmd &&& 0x00FF07FF) a0 a1 0)

/-- The command words of 95_test_vectors.md section 0, and packet bytes written out from 30_encoding.md R81 and R90. -/
def Obligations.WrittenWordsDecode : Prop :=
  (∀ a0 a1 a2 : Word,
    Sys2Proof.decode (.command 0x00000001 a0 a1 a2) = .ok (.construct a0.toInt a1.toInt) ∧
    Sys2Proof.decode (.command 0x00000002 a0 a1 a2) = .ok (.parse a0.toInt) ∧
    Sys2Proof.decode (.command 0x00000102 a0 a1 a2) = .ok (.parseSd a0.toInt) ∧
    Sys2Proof.decode (.command 0x00000003 a0 a1 a2) = .ok (.decode a0.toInt a1.toInt) ∧
    Sys2Proof.decode (.command 0x00000203 a0 a1 a2) = .ok (.decodeFec a0.toInt a1.toInt) ∧
    Sys2Proof.decode (.command 0x00000403 a0 a1 a2) = .ok (.decodeNull false a1.toInt) ∧
    Sys2Proof.decode (.command 0x00000004 a0 a1 a2) = .ok (.tocInfo a0.toInt a1.toInt) ∧
    Sys2Proof.decode (.command 0x00000005 a0 a1 a2) = .ok (.pktNbFrames a0.toInt) ∧
    Sys2Proof.decode (.command 0x00000006 a0 a1 a2) = .ok (.pktNbSamples a0.toInt a1.toInt) ∧
    Sys2Proof.decode (.command 0x00000007 a0 a1 a2) = .ok .ctlResetState ∧
    Sys2Proof.decode (.command 0x00060007 a0 a1 a2) = .ok (.ctlSetGain a0.toInt) ∧
    Sys2Proof.decode (.command 0x00070007 a0 a1 a2) = .ok .ctlGetLastPacketDuration) ∧
  Sys2Proof.decode (.packetByte .tocMode 0b11111100) = .ok (.tocCfg31 true 0) ∧
  Sys2Proof.decode (.packetByte .tocMode 0b01101010) = .ok (.tocCfg13 false 2) ∧
  Sys2Proof.decode (.packetByte .tocCode 0b00011011) = .ok (.framingCode3 3 false) ∧
  Sys2Proof.decode (.packetByte .countPad 0b01000001) = .ok (.code3Padding false 1) ∧
  Sys2Proof.decode (.packetByte .countRate 0b10000011) = .ok (.code3Vbr false 3) ∧
  Sys2Proof.decode (.packetByte .countRate 0b00000011) = .ok (.code3Cbr false 3)

/-- R96: what each opcode is, and that every other opcode is answered Unimplemented and changes no state. -/
def Obligations.OpcodesAndUnknownOpcodes : Prop :=
  (∀ cmd a0 a1 a2 : Word,
    (cmdOp cmd = 0x01 → Sys2Proof.decode (.command cmd a0 a1 a2) = .ok (.construct a0.toInt a1.toInt)) ∧
    (cmdOp cmd = 0x02 → Sys2Proof.decode (.command cmd a0 a1 a2) = .ok (.parse a0.toInt) ∨
      Sys2Proof.decode (.command cmd a0 a1 a2) = .ok (.parseSd a0.toInt)) ∧
    (cmdOp cmd = 0x03 → Sys2Proof.decode (.command cmd a0 a1 a2) = .ok (.decode a0.toInt a1.toInt) ∨
      Sys2Proof.decode (.command cmd a0 a1 a2) = .ok (.decodeFec a0.toInt a1.toInt) ∨
      ∃ fec, Sys2Proof.decode (.command cmd a0 a1 a2) = .ok (.decodeNull fec a1.toInt)) ∧
    (cmdOp cmd = 0x04 → Sys2Proof.decode (.command cmd a0 a1 a2) = .ok (.tocInfo a0.toInt a1.toInt)) ∧
    (cmdOp cmd = 0x05 → Sys2Proof.decode (.command cmd a0 a1 a2) = .ok (.pktNbFrames a0.toInt)) ∧
    (cmdOp cmd = 0x06 → Sys2Proof.decode (.command cmd a0 a1 a2) = .ok (.pktNbSamples a0.toInt a1.toInt)) ∧
    (cmdOp cmd = 0x07 → Sys2Proof.decode (.command cmd a0 a1 a2) = decodeCtl (cmdReq cmd) a0)) ∧
  ∀ (s : State) (cmd a0 a1 a2 : Word) (rest : List HostMove), s.phase = .idle →
    s.inbox = .command cmd a0 a1 a2 :: rest → (cmdOp cmd = 0 ∨ 8 ≤ cmdOp cmd) →
    ∃ t, step s = .next t ∧ Raised t .unimplemented ∧ OnlyAnswers (latchCommand cmd a0 a1 a2 (s.setInbox rest)) t

/-- R293: a control request on an unconstructed instance is BadArgument whatever its tag, an unknown tag is Unimplemented,
and each known tag is its request. -/
def Obligations.ControlRequests : Prop :=
  (∀ a0 : Word, decodeCtl 0x00 a0 = .ok .ctlResetState ∧ decodeCtl 0x01 a0 = .ok .ctlGetBandwidth ∧
    decodeCtl 0x02 a0 = .ok .ctlGetFinalRange ∧ decodeCtl 0x03 a0 = .ok .ctlGetSampleRate ∧
    decodeCtl 0x04 a0 = .ok .ctlGetPitch ∧ decodeCtl 0x05 a0 = .ok .ctlGetGain ∧
    decodeCtl 0x06 a0 = .ok (.ctlSetGain a0.toInt) ∧ decodeCtl 0x07 a0 = .ok .ctlGetLastPacketDuration) ∧
  ∀ (s : State) (cmd a0 a1 a2 : Word) (rest : List HostMove), s.phase = .idle →
    s.inbox = .command cmd a0 a1 a2 :: rest → cmdOp cmd = 7 →
    (s.constructed = false →
      ∃ t, step s = .next t ∧ Raised t .badArgument ∧ OnlyAnswers (latchCommand cmd a0 a1 a2 (s.setInbox rest)) t) ∧
    (s.constructed = true → 8 ≤ cmdReq cmd →
      ∃ t, step s = .next t ∧ Raised t .unimplemented ∧ OnlyAnswers (latchCommand cmd a0 a1 a2 (s.setInbox rest)) t)

/-- A step runs the instruction decoded from the host's next move, or from the packet byte the parser is at. The moves and
the places are the model's (10_state.md R24; log 1, log 8). -/
def Obligations.StepRunsDecoded : Prop :=
  (∀ (s : State) (cmd a0 a1 a2 : Word) (rest : List HostMove) (i : Instr), s.phase = .idle →
    s.inbox = .command cmd a0 a1 a2 :: rest → Sys2Proof.decode (.command cmd a0 a1 a2) = .ok i →
    step s = exec i (latchCommand cmd a0 a1 a2 (s.setInbox rest))) ∧
  (∀ (s : State) (i : Instr), s.phase = .tocMode →
    Sys2Proof.decode (.packetByte .tocMode (pktRead s 0)) = .ok i → step s = exec i s) ∧
  (∀ (s : State) (i : Instr), s.phase = .tocCode →
    Sys2Proof.decode (.packetByte .tocCode s.parse.toc) = .ok i → step s = exec i s) ∧
  (∀ (s : State) (i : Instr), s.phase = .countPad →
    Sys2Proof.decode (.packetByte .countPad s.parse.cb) = .ok i → step s = exec i s) ∧
  (∀ (s : State) (i : Instr), s.phase = .countRate →
    Sys2Proof.decode (.packetByte .countRate s.parse.cb) = .ok i → step s = exec i s) ∧
  (∀ (s : State) (fb : Option Nat) (flen : Int) (o : Nat) (fsz : Int) (fec : Bool), s.phase = .frame fb flen o fsz fec →
    step s = exec (.decodeFrame fb flen o fsz fec) s) ∧
  (∀ (s : State) (off : Nat) (bytes : List Byte) (rest : List HostMove), s.phase = .idle →
    s.inbox = .load off bytes :: rest → step s = .next (loadPacket off bytes (s.setInbox rest))) ∧
  (∀ s : State, s.phase = .idle → s.inbox = [] → step s = .next s)

/-- R88, R89: reading a size prefix inverts writing one; every readable prefix is the writing of exactly one length; a prefix
is unreadable only where its bytes are cut off. -/
def Obligations.SizePrefixRoundTrip : Prop :=
  (∀ v : Nat, v ≤ 1275 → encodeSize v = if v < 252 then [BitVec.ofNat 8 v]
    else [BitVec.ofNat 8 (252 + v % 4), BitVec.ofNat 8 ((v - (252 + v % 4)) / 4)]) ∧
  (∀ (s : State) (p : Nat) (r : Int) (v : Nat), v ≤ 1275 → PktHolds s p (encodeSize v) → ((encodeSize v).length : Int) ≤ r →
    readSize s p r = .size (encodeSize v).length v) ∧
  (∀ (s : State) (p : Nat) (r : Int) (bytes v : Nat), readSize s p r = .size bytes v →
    v ≤ 1275 ∧ bytes = (encodeSize v).length ∧ PktHolds s p (encodeSize v) ∧ (bytes : Int) ≤ r) ∧
  (∀ (s : State) (p : Nat) (r : Int), readSize s p r = .unreadable ↔ r < 1 ∨ (r < 2 ∧ 252 ≤ (pktRead s p).toNat))

/-- R86: the 32 configurations, with the TOC byte of each, its mode, bandwidth and samples per frame at every rate. -/
def Obligations.ConfigurationTable : Prop :=
  ∀ (config : BitVec 5) (st : Bool) (code : BitVec 2),
    (tocByte config st code).toNat = 8 * config.toNat + (if st then 4 else 0) + code.toNat ∧
    ∃ row, configTable[config.toNat]? = some row ∧ tocMode (tocByte config st code) = row.1 ∧
      tocBandwidth (tocByte config st code) = row.2.1 ∧
      ∀ fs ∈ [8000, 12000, 16000, 24000, 48000], tocSpf (tocByte config st code) fs * 400 = fs * row.2.2

/-- R121, the laws of the TOC decoders. -/
def Obligations.TocLaws : Prop :=
  ∀ (t : Byte) (fs : Nat), legalRate fs = true →
    (tocSpf t fs = f2_5 fs ∨ tocSpf t fs = f5 fs ∨ tocSpf t fs = f10 fs ∨ tocSpf t fs = 2 * f10 fs ∨
      tocSpf t fs = 4 * f10 fs ∨ tocSpf t fs = 6 * f10 fs) ∧ 2 * f10 fs = f20 fs ∧
    f2_5 fs ≤ tocSpf t fs ∧ tocSpf t fs ≤ 3 * f20 fs ∧
    (tocMode t = .xform → tocSpf t fs ≤ f20 fs ∧ tocBandwidth t ≠ .mb) ∧
    (tocMode t = .hybrid → (tocSpf t fs = f10 fs ∨ tocSpf t fs = f20 fs) ∧
      (tocBandwidth t = .swb ∨ tocBandwidth t = .fb)) ∧
    (tocMode t = .pred → (tocSpf t fs = f10 fs ∨ tocSpf t fs = f20 fs ∨ tocSpf t fs = 2 * f20 fs ∨
      tocSpf t fs = 3 * f20 fs) ∧ (tocBandwidth t = .nb ∨ tocBandwidth t = .mb ∨ tocBandwidth t = .wb)) ∧
    tocSpf t 48000 = 48000 / fs * tocSpf t fs ∧
    (∀ u : Byte, u.toNat / 4 = t.toNat / 4 → tocMode u = tocMode t ∧ tocBandwidth u = tocBandwidth t ∧
      tocSpf u fs = tocSpf t fs ∧ tocChannels u = tocChannels t) ∧
    (∀ u : Byte, u.getLsbD 2 = t.getLsbD 2 → tocChannels u = tocChannels t)

/-- Every configuration row completes: the header registers of 41_framing.md R152, the packet metadata of 40_toc_fields.md
R124 at the instance's rate, and the turn to the frame delimiter (log 8). -/
def Obligations.TocRowsComplete : Prop :=
  ∀ (s : State) (config : BitVec 5) (st : Bool) (code : BitVec 2), (s.dec.fs.toNat = 0 ∨ legalRate s.dec.fs.toNat = true) →
    exec (tocCfgInstr config st code) s = .next (((s.setParse { s.parse with
      toc := tocByte config st code, pos := 1, rem := s.parse.len - 1, lastSize := s.parse.len - 1, pad := 0, cbr := false,
      spf48 := tocSpf (tocByte config st code) 48000 }).setDriver { s.driver with
        pm := tocMode (tocByte config st code), pb := tocBandwidth (tocByte config st code),
        pf := tocSpf (tocByte config st code) s.dec.fs.toNat, pc := tocChannels (tocByte config st code) }).setPhase .tocCode)

/-! The frame delimiter (41_framing.md). -/

/-- PARSE and PARSE.SD read back every packet laid out as 30_encoding.md R92 says: the frames, the payload offset and the
packet's length. A self-delimited packet may end before the buffer does. -/
def Obligations.ParseInvertsLayout : Prop :=
  ∀ (f : PacketForm) (config : BitVec 5) (st : Bool) (s : State), f.fits config = true →
    (PktHolds s 0 (f.header false config st) → f.total false config st < 2 ^ 31 →
      ∃ t, exec (.parse (f.total false config st)) s = .next t ∧ Answered t (BitVec.ofNat 32 f.sizes.length) ∧
        ResultFileIs (tocByte config st f.code) (f.header false config st).length f.padding f.sizes s.file t.file ∧
        ParseOnly s t) ∧
    (PktHolds s 0 (f.header true config st) → ∀ len : Int, (f.total true config st : Int) ≤ len → len < 2 ^ 31 →
      ∃ t, exec (.parseSd len) s = .next t ∧ Answered t (BitVec.ofNat 32 f.sizes.length) ∧
        ResultFileIs (tocByte config st f.code) (f.header true config st).length f.padding f.sizes s.file t.file ∧
        ParseOnly s t)

/-- R164, the laws of a successful PARSE. -/
def Obligations.ParseLaws : Prop :=
  ∀ (s t : State) (len : Int), len < 2 ^ 31 → (exec (.parse len) s = .next t ∨ exec (.parseSd len) s = .next t) →
    t.host.err = false →
    1 ≤ t.file.count.toNat ∧ t.file.count.toNat ≤ 48 ∧
    (∀ k < t.file.count.toNat, 0 ≤ resLen t k ∧ resLen t k ≤ 1275) ∧
    1 ≤ t.file.payload.toNat ∧
    (∃ pad : Nat, (∀ k < t.file.count.toNat, (resOff t k : Int) + resLen t k ≤ (t.file.consumed.toNat : Int) - pad) ∧
      (resOff t (t.file.count.toNat - 1) : Int) + resLen t (t.file.count.toNat - 1) + pad = t.file.consumed.toNat) ∧
    (t.file.consumed.toNat : Int) ≤ len ∧
    (exec (.parse len) s = .next t → (t.file.consumed.toNat : Int) = len) ∧
    ((tocCode t.file.toc = 1 ∨ (tocCode t.file.toc = 3 ∧ byteField (pktRead s 1) 7 7 = 0)) →
      ∀ k < t.file.count.toNat, resLen t k = resLen t 0) ∧
    t.file.count.toNat * tocSpf t.file.toc 48000 ≤ 5760 ∧
    t.file.toc = pktRead s 0 ∧
    (∀ k, k + 1 < t.file.count.toNat → (resOff t (k + 1) : Int) = resOff t k + resLen t k) ∧
    resOff t 0 = t.file.payload.toNat

/-- R165: PARSE ends with a response whatever it is given; it writes only `RESP` (with `ERR`) and, on success, the parse
result file, and calls no engine. -/
def Obligations.ParseSideEffects : Prop :=
  ∀ (s : State) (len : Int), ∀ i ∈ [Instr.parse len, Instr.parseSd len],
    ∃ t, exec i s = .next t ∧ ParseOnly s t ∧ (t.host.err = true → t.file = s.file)

/-- PARSE's answer depends on the packet's bytes alone: on no byte at or beyond `len` (20_memory.md R62) and on no register
(41_framing.md R165). -/
def Obligations.ParseReadsOnlyThePacket : Prop :=
  ∀ (s s' t : State) (len : Int), (∀ i : Nat, (i : Int) < len → pktRead s' i = pktRead s i) →
    ∀ i ∈ [Instr.parse len, Instr.parseSd len], exec i s = .next t →
    ∃ t', exec i s' = .next t' ∧ t'.host.resp = t.host.resp ∧ t'.host.err = t.host.err ∧
      (t.host.err = false → t'.file.toc = t.file.toc ∧ t'.file.count = t.file.count ∧
        t'.file.payload = t.file.payload ∧ t'.file.consumed = t.file.consumed ∧
        ∀ k < t.file.count.toNat, t'.file.off[k]? = t.file.off[k]? ∧ t'.file.len[k]? = t.file.len[k]?)

/-- R151 and the split of R163: a negative length is BadArgument, no length is InvalidPacket, and every other failure is
InvalidPacket; a failure changes nothing. -/
def Obligations.ParseErrors : Prop :=
  ∀ (s : State) (len : Int), ∀ i ∈ [Instr.parse len, Instr.parseSd len],
    (len < 0 → RaisesOnly i s .badArgument) ∧ (len = 0 → RaisesOnly i s .invalidPacket) ∧
    (0 ≤ len → ∀ t, exec i s = .next t → t.host.err = true → Raised t .invalidPacket ∧ OnlyAnswers s t)

/-- R153 and R154, the frame-count codes 0 and 1 (the phase: log 8). -/
def Obligations.FramingCodes0And1 : Prop :=
  ∀ (s : State) (config : BitVec 5) (st : Bool),
    exec (.framingCode0 config st) s = .next ((s.setParse { s.parse with count := 1 }).setPhase .tail) ∧
    (s.parse.sd = true → exec (.framingCode1 config st) s =
      .next ((s.setParse { s.parse with count := 2, cbr := true }).setPhase .tail)) ∧
    (∀ half : Int, s.parse.sd = false → s.parse.rem = 2 * half → exec (.framingCode1 config st) s =
      .next ((s.setParse { s.parse with count := 2, cbr := true, lastSize := half, sizes := [half] }).setPhase .tail)) ∧
    (s.parse.sd = false → s.parse.rem % 2 = 1 → RaisesOnly (.framingCode1 config st) s .invalidPacket)

/-- R155, the frame-count code 2 (the phase: log 8). -/
def Obligations.FramingCode2 : Prop :=
  ∀ (s : State) (config : BitVec 5) (st : Bool),
    (∀ bytes v : Nat, readSize s s.parse.pos s.parse.rem = .size bytes v → (v : Int) ≤ s.parse.rem - bytes →
      exec (.framingCode2 config st) s = .next ((s.setParse { s.parse with
        count := 2, rem := s.parse.rem - bytes, sizes := [(v : Int)], pos := s.parse.pos + bytes,
        lastSize := s.parse.rem - bytes - v }).setPhase .tail)) ∧
    (∀ bytes v : Nat, readSize s s.parse.pos s.parse.rem = .size bytes v → s.parse.rem - bytes < v →
      RaisesOnly (.framingCode2 config st) s .invalidPacket) ∧
    (readSize s s.parse.pos s.parse.rem = .unreadable → RaisesOnly (.framingCode2 config st) s .invalidPacket)

/-- R156, the frame-count code 3 (the phase: log 8). -/
def Obligations.FramingCode3 : Prop :=
  ∀ (s : State) (config : BitVec 5) (st : Bool),
    (s.parse.rem < 1 → RaisesOnly (.framingCode3 config st) s .invalidPacket) ∧
    (1 ≤ s.parse.rem → ∀ cb, pktRead s s.parse.pos = cb →
      ((cb.toNat % 64 = 0 ∨ 5760 < s.parse.spf48 * (cb.toNat % 64)) →
        RaisesOnly (.framingCode3 config st) s .invalidPacket) ∧
      (1 ≤ cb.toNat % 64 → s.parse.spf48 * (cb.toNat % 64) ≤ 5760 → exec (.framingCode3 config st) s =
        .next ((s.setParse { s.parse with cb := cb, pos := s.parse.pos + 1, count := cb.toNat % 64,
                                          rem := s.parse.rem - 1 }).setPhase .countPad)))

/-- R157 (with R91): a chain of `k` bytes of 255 and a terminal byte `t` takes `k + 1` bytes and gives `254*k + t` bytes of
padding; it fails exactly when chain and padding do not fit (the phase: log 8). -/
def Obligations.PaddingChain : Prop :=
  ∀ (s : State) (vbr : Bool) (count : BitVec 6) (c : PadChain), c.last < 255 → PktHolds s s.parse.pos c.bytes →
    (((c.bytes.length + c.amount : Nat) : Int) ≤ s.parse.rem → exec (.code3Padding vbr count) s =
      .next ((s.setParse { s.parse with pos := s.parse.pos + c.bytes.length,
                                        rem := s.parse.rem - c.bytes.length - c.amount,
                                        pad := s.parse.pad + c.amount }).setPhase .countRate)) ∧
    (s.parse.rem < ((c.bytes.length + c.amount : Nat) : Int) → RaisesOnly (.code3Padding vbr count) s .invalidPacket)

/-- R158: in VBR framing every frame but the last has a size prefix; it fails exactly when the prefixes and the frames they
announce do not fit (the phase: log 8). -/
def Obligations.VbrSizes : Prop :=
  ∀ (s : State) (pad : Bool) (count : BitVec 6) (vs : List Nat), s.parse.sizes = [] → vs.length + 1 = s.parse.count →
    (∀ v ∈ vs, v ≤ 1275) → PktHolds s s.parse.pos (vs.flatMap encodeSize) →
    ((((vs.flatMap encodeSize).length + vs.sum : Nat) : Int) ≤ s.parse.rem → exec (.code3Vbr pad count) s =
      .next ((s.setParse { s.parse with
        cbr := false, rem := s.parse.rem - (vs.flatMap encodeSize).length,
        pos := s.parse.pos + (vs.flatMap encodeSize).length, sizes := vs.map fun v : Nat => (v : Int),
        lastSize := s.parse.rem - (vs.flatMap encodeSize).length - vs.sum }).setPhase .tail)) ∧
    (s.parse.rem < (((vs.flatMap encodeSize).length + vs.sum : Nat) : Int) →
      RaisesOnly (.code3Vbr pad count) s .invalidPacket)

/-- R159: in CBR framing the remaining bytes divide evenly among the frames; self-delimited, the size comes later (the phase: log 8). -/
def Obligations.CbrSizes : Prop :=
  ∀ (s : State) (pad : Bool) (count : BitVec 6),
    (s.parse.sd = true → exec (.code3Cbr pad count) s = .next ((s.setParse { s.parse with cbr := true }).setPhase .tail)) ∧
    (∀ n : Int, s.parse.sd = false → 1 ≤ s.parse.count → s.parse.rem = n * s.parse.count → exec (.code3Cbr pad count) s =
      .next ((s.setParse { s.parse with cbr := true, lastSize := n, sizes := List.replicate (s.parse.count - 1) n }).setPhase
        .tail)) ∧
    (s.parse.sd = false → 1 ≤ s.parse.count → s.parse.rem % s.parse.count ≠ 0 →
      RaisesOnly (.code3Cbr pad count) s .invalidPacket)

/-- R161 with R162: an implicit last frame takes the remainder, at most 1275 bytes, and the result file is written (the phase: log 8). -/
def Obligations.ImplicitLastFrame : Prop :=
  ∀ (s : State), s.phase = .tail → s.parse.sd = false →
    (1275 < s.parse.lastSize →
      ∃ t, step s = .next t ∧ Raised t .invalidPacket ∧ OnlyAnswers s t) ∧
    (∀ (vs : List Nat) (last pad : Nat), s.parse.sizes = vs.map (fun v : Nat => (v : Int)) → s.parse.lastSize = last →
      s.parse.pad = pad → vs.length + 1 = s.parse.count → s.parse.count ≤ 48 → last ≤ 1275 → (∀ v ∈ vs, v ≤ 1275) →
      s.parse.pos + pad < 2 ^ 31 →
      ∃ t, step s = .next t ∧ Answered t (BitVec.ofNat 32 s.parse.count) ∧ ParseOnly s t ∧
        ResultFileIs s.parse.toc s.parse.pos pad (vs ++ [last]) s.file t.file)

/-- R160 with R162: a self-delimited last frame has its own prefix, whose size CBR framing gives to every frame (the phase: log 8). -/
def Obligations.SelfDelimitedLastFrame : Prop :=
  ∀ (s : State), s.phase = .tail → s.parse.sd = true →
    (readSize s s.parse.pos s.parse.rem = .unreadable →
      ∃ t, step s = .next t ∧ Raised t .invalidPacket ∧ OnlyAnswers s t) ∧
    (∀ bytes v : Nat, readSize s s.parse.pos s.parse.rem = .size bytes v →
      (s.parse.rem - bytes < v ∨ (s.parse.cbr = true ∧ s.parse.rem - bytes < v * s.parse.count) ∨
        (s.parse.cbr = false ∧ s.parse.lastSize < bytes + v)) →
      ∃ t, step s = .next t ∧ Raised t .invalidPacket ∧ OnlyAnswers s t) ∧
    (∀ (bytes v pad : Nat) (vs : List Nat), readSize s s.parse.pos s.parse.rem = .size bytes v →
      (v : Int) ≤ s.parse.rem - bytes → s.parse.pad = pad → 1 ≤ s.parse.count → s.parse.count ≤ 48 →
      s.parse.pos + pad < 2 ^ 31 →
      ((s.parse.cbr = true ∧ (v : Int) * s.parse.count ≤ s.parse.rem - bytes ∧ vs = List.replicate (s.parse.count - 1) v) ∨
        (s.parse.cbr = false ∧ (bytes : Int) + v ≤ s.parse.lastSize ∧ vs.length + 1 = s.parse.count ∧
          s.parse.sizes = vs.map (fun v : Nat => (v : Int)) ∧ ∀ v ∈ vs, v ≤ 1275)) →
      ∃ t, step s = .next t ∧ Answered t (BitVec.ofNat 32 s.parse.count) ∧ ParseOnly s t ∧
        ResultFileIs s.parse.toc (s.parse.pos + bytes) pad (vs ++ [v]) s.file t.file)

/-- A parse one operation at a time, from the TOC byte on, comes to what PARSE comes to in one step: the packet-byte rows are
the parser's own operations (41_framing.md R150; log 8). -/
def Obligations.ParseByMicroSteps : Prop :=
  ∀ (s : State) (len : Int), 1 ≤ len → s.inbox = [] →
    Host.Core.run Sys2Proof.core 5 (atTocByte len false s) = exec (.parse len) s ∧
    Host.Core.run Sys2Proof.core 5 (atTocByte len true s) = exec (.parseSd len) s

/-! The packet queries (40_toc_fields.md). -/

/-- R120, TOC_INFO. -/
def Obligations.TocInfo : Prop :=
  ∀ (s : State) (len fs : Int),
    (len < 1 ∨ legalRate fs = false → RaisesOnly (.tocInfo len fs) s .badArgument) ∧
    (1 ≤ len → legalRate fs = true → ∃ t, exec (.tocInfo len fs) s = .next t ∧ t.host.err = false ∧ OnlyAnswers s t ∧
      (t.host.resp.extractLsb' 0 2).toNat = (tocMode (pktRead s 0)).code ∧
      (t.host.resp.extractLsb' 2 3).toNat = (tocBandwidth (pktRead s 0)).code ∧
      (t.host.resp.extractLsb' 5 2).toNat = tocChannels (pktRead s 0) ∧
      t.host.resp.extractLsb' 7 1 = 0 ∧
      (t.host.resp.extractLsb' 8 2).toNat = (pktRead s 0).toNat % 4 ∧
      t.host.resp.extractLsb' 10 6 = 0 ∧
      (t.host.resp.extractLsb' 16 12).toNat = tocSpf (pktRead s 0) fs.toNat ∧
      t.host.resp.extractLsb' 28 4 = 0 ∧ 0 ≤ t.host.resp.toInt)

/-- R122, PKT_NB_FRAMES. -/
def Obligations.PacketFrameCount : Prop :=
  ∀ (s : State) (len : Int),
    (len < 1 → RaisesOnly (.pktNbFrames len) s .badArgument) ∧
    (1 ≤ len → (pktRead s 0).toNat % 4 = 0 → AnswersOnly (.pktNbFrames len) s 1) ∧
    (1 ≤ len → ((pktRead s 0).toNat % 4 = 1 ∨ (pktRead s 0).toNat % 4 = 2) → AnswersOnly (.pktNbFrames len) s 2) ∧
    (len = 1 → (pktRead s 0).toNat % 4 = 3 → RaisesOnly (.pktNbFrames len) s .invalidPacket) ∧
    (2 ≤ len → (pktRead s 0).toNat % 4 = 3 →
      AnswersOnly (.pktNbFrames len) s (BitVec.ofNat 32 ((pktRead s 1).toNat % 64)))

/-- R123, PKT_NB_SAMPLES: from the frame count `n` that PKT_NB_FRAMES answers; and, with R122's count written out, every
packet whose samples it answers. -/
def Obligations.PacketSampleCount : Prop :=
  ∀ (s : State) (len fs : Int),
    (legalRate fs = false → RaisesOnly (.pktNbSamples len fs) s .badArgument) ∧
    (legalRate fs = true → ∀ e, RaisesOnly (.pktNbFrames len) s e → RaisesOnly (.pktNbSamples len fs) s e) ∧
    (legalRate fs = true → ∀ n : Nat, n < 64 → AnswersOnly (.pktNbFrames len) s (BitVec.ofNat 32 n) →
      (fs * 3 < (n * tocSpf (pktRead s 0) fs.toNat : Nat) * 25 →
        RaisesOnly (.pktNbSamples len fs) s .invalidPacket) ∧
      (((n * tocSpf (pktRead s 0) fs.toNat : Nat) : Int) * 25 ≤ fs * 3 →
        AnswersOnly (.pktNbSamples len fs) s (BitVec.ofNat 32 (n * tocSpf (pktRead s 0) fs.toNat)))) ∧
    (legalRate fs = true → 1 ≤ len → ∀ n : Nat,
      (((pktRead s 0).toNat % 4 = 0 ∧ n = 1) ∨
        (((pktRead s 0).toNat % 4 = 1 ∨ (pktRead s 0).toNat % 4 = 2) ∧ n = 2) ∨
        ((pktRead s 0).toNat % 4 = 3 ∧ 2 ≤ len ∧ n = (pktRead s 1).toNat % 64)) →
      ((n * tocSpf (pktRead s 0) fs.toNat : Nat) : Int) * 25 ≤ fs * 3 →
      ∃ t, exec (.pktNbSamples len fs) s = .next t ∧
        Answered t (BitVec.ofNat 32 (n * tocSpf (pktRead s 0) fs.toNat)) ∧ OnlyAnswers s t)

/-! CONSTRUCT and the control requests (44_control.md). -/

/-- R291, R292: CONSTRUCT with legal arguments initialises every register, the engines and the control block, in the rule's
order; with any other it answers BadArgument and changes nothing. -/
def Obligations.ConstructInitialises : Prop :=
  ∀ (s : State) (fs c : Int),
    (legalRate fs = false ∨ legalChannels c = false → RaisesOnly (.construct fs c) s .badArgument) ∧
    (legalRate fs = true → legalChannels c = true → ∃ t, exec (.construct fs c) s = .next t ∧ Answered t 0 ∧
      t.constructed = true ∧ (t.dec.fs.toNat : Int) = fs ∧ (t.dec.c.toNat : Int) = c ∧ t.dec.mode = .uninit ∧
      t.dec.prevMode = .uninit ∧ t.dec.bandwidth = .unset ∧ t.dec.streamChannels = t.dec.c ∧
      (t.dec.frameSize.toNat : Int) = fs / 400 ∧ t.dec.prevRedundancy = false ∧ t.dec.lastPacketDuration = 0 ∧
      t.dec.decodeGain = 0 ∧ t.dec.rangeFinal = 0 ∧
      t.pctl = { apiSampleRate := t.dec.fs, nChannelsAPI := t.dec.c, nChannelsInternal := 0, internalSampleRate := 0,
                 payloadSizeMs := 0 } ∧
      t.tSignalling = 0 ∧
      t.env.calls = .tSetSignalling 0 :: .tInit fs.toNat c.toNat :: .pInit :: s.env.calls ∧
      SameOutside s t ∧ BetweenCommands t)

/-- R35: `constructed` is 0 at power-on, a successful CONSTRUCT sets it, DECODE and CTL answer BadArgument while it is 0 and
change nothing, and the other commands run and answer alike whatever it is. -/
def Obligations.ConstructedGate : Prop :=
  State.reset.constructed = false ∧
  (∀ (s t : State) (fs c : Int), exec (.construct fs c) s = .next t → t.host.err = false → t.constructed = true) ∧
  (∀ (s : State) (len cap v : Int) (fec : Bool), s.constructed = false →
    ∀ i ∈ [Instr.decode len cap, .decodeFec len cap, .decodeNull fec cap, .ctlResetState, .ctlGetBandwidth,
      .ctlGetFinalRange, .ctlGetSampleRate, .ctlGetPitch, .ctlGetGain, .ctlSetGain v, .ctlGetLastPacketDuration],
      RaisesOnly i s .badArgument) ∧
  (∀ (s : State) (len fs : Int) (b : Bool),
    ∀ i ∈ [Instr.parse len, .parseSd len, .tocInfo len fs, .pktNbFrames len, .pktNbSamples len fs],
      ∃ t t', exec i s = .next t ∧ exec i (s.setConstructed b) = .next t' ∧ t'.host.resp = t.host.resp ∧
        t'.host.err = t.host.err)

/-- R294, RESET_STATE: the registers it clears, the engines it resets, and that the rates, the gain, the control block and
the parse result file stay. -/
def Obligations.ResetState : Prop :=
  ∀ s : State, s.constructed = true → ∃ t, exec .ctlResetState s = .next t ∧ Answered t 0 ∧
    t.dec = { s.dec with streamChannels := s.dec.c, bandwidth := .unset, mode := .uninit, prevMode := .uninit,
                         frameSize := BitVec.ofNat 16 (s.dec.fs.toNat / 400), prevRedundancy := false,
                         lastPacketDuration := 0, rangeFinal := 0 } ∧
    t.env.calls = .pInit :: .tReset :: s.env.calls ∧ t.constructed = true ∧ t.pctl = s.pctl ∧ t.file = s.file ∧
    t.tSignalling = s.tSignalling ∧ SameOutside s t ∧ BetweenCommands t

/-- R298, laws 1 and 2: RESET_STATE is idempotent on the registers, and leaves what CONSTRUCT leaves but for the gain. -/
def Obligations.ResetLikeConstruct : Prop :=
  ∀ s t u v : State, s.constructed = true → LegalDecoder s.dec → exec .ctlResetState s = .next t →
    exec .ctlResetState t = .next u → exec (.construct s.dec.fs.toNat s.dec.c.toNat) s = .next v →
    u.dec = t.dec ∧ u.pctl = t.pctl ∧ u.file = t.file ∧ u.constructed = t.constructed ∧
    t.dec = { v.dec with decodeGain := s.dec.decodeGain }

/-- R295 and R296: each getter answers its register and changes nothing; GET_PITCH answers a draw of the transform engine
after a transform-only frame, else of the prediction engine, and changes no register of PFF. -/
def Obligations.Getters : Prop :=
  ∀ (s : State) (w : Word) (rest : List Word), s.constructed = true →
    AnswersOnly .ctlGetBandwidth s (BitVec.ofNat 32 s.dec.bandwidth.code) ∧
    AnswersOnly .ctlGetFinalRange s s.dec.rangeFinal ∧
    AnswersOnly .ctlGetSampleRate s (BitVec.ofNat 32 s.dec.fs.toNat) ∧
    AnswersOnly .ctlGetGain s (BitVec.ofInt 32 s.dec.decodeGain.toInt) ∧
    AnswersOnly .ctlGetLastPacketDuration s s.dec.lastPacketDuration ∧
    (s.dec.prevMode = .xform → s.env.pitch.given = w :: rest → ∃ t, exec .ctlGetPitch s = .next t ∧ Answered t w ∧
      t.env.calls = .tGetPitch :: s.env.calls ∧ SameDecoder s t ∧ SameOutside s t ∧ t.file = s.file ∧
      BetweenCommands t) ∧
    (s.dec.prevMode ≠ .xform → s.env.pitchLag.given = w :: rest → ∃ t, exec .ctlGetPitch s = .next t ∧ Answered t w ∧
      t.env.calls = .pPrevPitchLag :: s.env.calls ∧ SameDecoder s t ∧ SameOutside s t ∧ t.file = s.file ∧
      BetweenCommands t)

/-- R297, SET_GAIN: a value in range is what GET_GAIN then answers, and no other register changes; any other value is
BadArgument and changes nothing. -/
def Obligations.SetGain : Prop :=
  ∀ (s : State) (v : Int), s.constructed = true →
    (v < -32768 ∨ 32767 < v → RaisesOnly (.ctlSetGain v) s .badArgument) ∧
    (-32768 ≤ v → v ≤ 32767 → ∃ t, exec (.ctlSetGain v) s = .next t ∧ Answered t 0 ∧ t.dec.decodeGain.toInt = v ∧
      t.dec = { s.dec with decodeGain := t.dec.decodeGain } ∧ t.pctl = s.pctl ∧ t.tctl = s.tctl ∧ t.file = s.file ∧
      t.env = s.env ∧ t.constructed = s.constructed ∧ SameOutside s t ∧ BetweenCommands t ∧
      AnswersOnly .ctlGetGain t (BitVec.ofInt 32 v))

/-! Errors (60_exceptions.md). -/

/-- R320: the numbers of the error codes; and every error response of a command holds one of them. -/
def Obligations.ErrorCodes : Prop :=
  ErrCode.badArgument.code = -1 ∧ ErrCode.bufferTooSmall.code = -2 ∧ ErrCode.internalError.code = -3 ∧
  ErrCode.invalidPacket.code = -4 ∧ ErrCode.unimplemented.code = -5 ∧ ErrCode.allocationFailure.code = -7 ∧
  ∀ (s t : State) (i : Instr), Usable s → isCommand i = true → exec i s = .next t → t.host.err = true →
    isErrorCode t.host.resp.toInt = true

/-! DECODE, the packet driver (43_driver.md). -/

/-- R261, the size check of R262, and R263, in the order of R270: each failing check is BadArgument, and a packet that
PARSE rejects ends DECODE as it ends PARSE; nothing changes. -/
def Obligations.DecodeChecksBeforeAnything : Prop :=
  ∀ (s : State) (len cap : Int) (fec : Bool),
    ((s.constructed = false ∨ cap ≤ 0 ∨ (len = 0 ∧ cap % (f2_5 (rate s) : Int) ≠ 0) ∨ len < 0) →
      RaisesOnly (.decode len cap) s .badArgument) ∧
    ((s.constructed = false ∨ cap ≤ 0 ∨ cap % (f2_5 (rate s) : Int) ≠ 0 ∨ len < 0) →
      RaisesOnly (.decodeFec len cap) s .badArgument) ∧
    ((s.constructed = false ∨ cap ≤ 0 ∨ cap % (f2_5 (rate s) : Int) ≠ 0) →
      RaisesOnly (.decodeNull fec cap) s .badArgument) ∧
    (s.constructed = true → 0 < cap → 0 < len → ∀ e, RaisesOnly (.parse len) s e →
      RaisesOnly (.decode len cap) s e ∧
      (cap % (f2_5 (rate s) : Int) = 0 → RaisesOnly (.decodeFec len cap) s e))

/-- R266, the capacity check: a packet that needs more samples than requested is BufferTooSmall before anything is
committed; only the parse result file has been written. -/
def Obligations.CapacityCheckedBeforeCommit : Prop :=
  ∀ (s u : State) (len cap : Int), s.constructed = true → 0 < cap → 0 < len →
    exec (.parse len) s = .next u → u.host.err = false →
    cap < (u.file.count.toNat * tocSpf u.file.toc s.dec.fs.toNat : Nat) →
    ∃ t, exec (.decode len cap) s = .next t ∧ Raised t .bufferTooSmall ∧ SameDecoder s t ∧ SameOutside s t ∧
      t.env = s.env ∧ t.file = u.file ∧ BetweenCommands t

/-- R262 before any mode (42_frame_fsm.md R206; R271 law 4): concealment of an instance that has decoded nothing writes
silence, calls no engine and changes no register but the duration. -/
def Obligations.ConcealmentBeforeAnyMode : Prop :=
  ∀ (s : State) (cap : Int) (fec : Bool), Usable s → s.constructed = true → s.dec.prevMode = .uninit → 0 < cap →
    cap < 2 ^ 31 → cap % (f2_5 (rate s) : Int) = 0 →
    ∀ i ∈ [Instr.decodeNull fec cap, .decode 0 cap, .decodeFec 0 cap],
    ∃ t, exec i s = .next t ∧ Answered t (BitVec.ofInt 32 cap) ∧
      t.dec = { s.dec with lastPacketDuration := BitVec.ofInt 32 cap } ∧ t.pctl = s.pctl ∧ t.tctl = s.tctl ∧
      t.file = s.file ∧ t.env = s.env ∧ DecodeOnly s t ∧
      (∀ j < words cap s, t.out.read j = 0) ∧ OutBeside 0 (words cap s) s t

/-- R262 (R271 laws 3 and 5): concealment answers exactly the samples asked for whatever the engines answer within their
contract; it never fails, and keeps the committed packet's metadata and the previous mode. -/
def Obligations.ConcealmentIsExact : Prop :=
  ∀ (s : State) (cap : Int) (fec : Bool), Usable s → s.constructed = true → 0 < cap → cap < 2 ^ 31 →
    cap % (f2_5 (rate s) : Int) = 0 →
    ∀ i ∈ [Instr.decodeNull fec cap, .decode 0 cap, .decodeFec 0 cap],
    exec i s = .fault .engineContract ∨
    ∃ t, exec i s = .next t ∧ Answered t (BitVec.ofInt 32 cap) ∧
      t.dec = { s.dec with prevRedundancy := t.dec.prevRedundancy, rangeFinal := t.dec.rangeFinal,
                           lastPacketDuration := BitVec.ofInt 32 cap } ∧
      t.file = s.file ∧ DecodeOnly s t ∧ OutBeside 0 (words cap s) s t

/-- R266 to R269 (R271 law 2): on success the normal path answers `RES_COUNT * pf`, at most the request, with the packet's
metadata committed and the duration recorded; an error is one of the codes. After the commit it is the error of a frame
`k`: the commit and the packet's result file stand, the registers are as that frame leaves them, and the samples of the
frames before it are those the frames before it wrote (R268's loop over `k` frames). -/
def Obligations.PacketResult : Prop :=
  ∀ (s : State) (len cap : Int), Usable s → s.constructed = true → 0 < len → len < 2 ^ 31 → 0 < cap → cap < 2 ^ 31 →
    exec (.decode len cap) s = .fault .engineContract ∨
    ∃ t, exec (.decode len cap) s = .next t ∧ DecodeOnly s t ∧ OutBeside 0 (words cap s) s t ∧
      (t.host.err = true → isErrorCode t.host.resp.toInt = true ∧
        t.dec.lastPacketDuration = s.dec.lastPacketDuration ∧
        ∀ p, parsePacket len false s = .go p →
          ((p.file.count.toNat * tocSpf p.file.toc s.dec.fs.toNat : Nat) : Int) ≤ cap →
          HoldsMeta p.file.toc t.dec ∧ t.file = p.file ∧
          ∃ k < p.file.count.toNat, ∃ u v,
            frameLoop cap k (commit ((packetMeta p).setDriver { (packetMeta p).driver with k := 0, nb := 0 })) = .go u ∧
            driveFrame (some (resOff u k)) (resLen u k) (words (k * t.dec.frameSize.toNat : Nat) u)
              (cap - (k * t.dec.frameSize.toNat : Nat)) false u = .done t.host.resp.toInt v ∧
            t.dec = v.dec ∧ t.out = v.out ∧
            ∀ i < words (k * t.dec.frameSize.toNat : Nat) s, t.out.read i = u.out.read i) ∧
      (t.host.err = false → HoldsMeta t.file.toc t.dec ∧
        t.host.resp.toInt = t.file.count.toNat * t.dec.frameSize.toNat ∧ t.host.resp.toInt ≤ cap ∧
        t.dec.lastPacketDuration = t.host.resp ∧ t.file.toc = pktRead s 0)

/-- R265: where the request is too short for the frame, or either mode is transform-only, FEC is plain concealment of the
request, and the packet's metadata is not committed; else the metadata is committed, and the answer is the request or an
error code of the recovered frame. In both the parse result file is the packet's. -/
def Obligations.FecResult : Prop :=
  ∀ (s u : State) (len cap : Int), Usable s → s.constructed = true → 0 < cap → cap < 2 ^ 31 → 0 < len →
    cap % (f2_5 (rate s) : Int) = 0 → exec (.parse len) s = .next u → u.host.err = false →
    exec (.decodeFec len cap) s = .fault .engineContract ∨
    ∃ t, exec (.decodeFec len cap) s = .next t ∧ DecodeOnly s t ∧ OutBeside 0 (words cap s) s t ∧ t.file = u.file ∧
      ((cap < tocSpf u.file.toc s.dec.fs.toNat ∨ tocMode u.file.toc = .xform ∨ s.dec.mode = .xform) →
        Answered t (BitVec.ofInt 32 cap) ∧
        t.dec = { s.dec with prevRedundancy := t.dec.prevRedundancy, rangeFinal := t.dec.rangeFinal,
                             lastPacketDuration := BitVec.ofInt 32 cap }) ∧
      (¬ (cap < tocSpf u.file.toc s.dec.fs.toNat ∨ tocMode u.file.toc = .xform ∨ s.dec.mode = .xform) →
        HoldsMeta u.file.toc t.dec ∧
        (t.host.err = false → Answered t (BitVec.ofInt 32 cap) ∧ t.dec.lastPacketDuration = BitVec.ofInt 32 cap) ∧
        (t.host.err = true → isErrorCode t.host.resp.toInt = true ∧
          t.dec.lastPacketDuration = s.dec.lastPacketDuration))

/-- R265 otherwise: the request but for one frame is concealed, then frame 0 of the packet is decoded with the FEC flag from
its own bytes: the prediction engine is called with the lost flag 2 (42_frame_fsm.md R218) on a cursor over them. Here
nothing has been decoded before, or nothing is left to conceal, and the prediction engine recovers the frame. -/
def Obligations.FecRecoversTheFrame : Prop :=
  ∀ (s : State) (config : BitVec 5) (st : Bool) (n : Nat) (cap : Int) (pf : Nat) (p : List Sample) (rest : List PReply),
    Usable s → s.constructed = true → PktHolds s 0 [tocByte config st 0] → config.toNat < 12 → 2 ≤ n → n ≤ 1275 →
    tocSpf (tocByte config st 0) s.dec.fs.toNat = pf → s.dec.mode ≠ .xform →
    (s.dec.prevMode = .uninit ∨ (s.dec.prevMode = .pred ∧ cap = pf)) → (pf : Int) ≤ cap → cap < 2 ^ 31 →
    cap % (f2_5 (rate s) : Int) = 0 → s.env.pDecode.given = ⟨0, pf, p⟩ :: rest → p.length = words pf s →
    ∃ t, exec (.decodeFec (n + 1) cap) s = .next t ∧ Answered t (BitVec.ofInt 32 cap) ∧ HoldsMeta (tocByte config st 0) t.dec ∧
      t.dec.lastPacketDuration = BitVec.ofInt 32 cap ∧ t.dec.prevMode = .pred ∧ t.dec.prevRedundancy = false ∧
      EngineCall.pDecode t.pctl 2 true (some ⟨1, n⟩) .pcm (words (cap - pf) s) ∈ t.env.calls ∧
      DecodeOnly s t ∧ OutBeside 0 (words cap s) s t ∧
      (∀ j < words (cap - pf) s, t.out.read j = 0) ∧
      (∀ j < words pf s, t.out.read (words (cap - pf) s + j) = afterGain s.dec.decodeGain (p.getD j 0))

/-- R268 with R204 and R206: a packet of any layout whose frames all have 0 or 1 bytes, decoded before any mode, commits its
metadata and gives silence for every frame; no engine is called. -/
def Obligations.DtxPacketIsSilence : Prop :=
  ∀ (s : State) (f : PacketForm) (config : BitVec 5) (st : Bool) (cap : Int), Usable s → s.constructed = true →
    s.dec.prevMode = .uninit → f.fits config = true → (∀ n ∈ f.sizes, n ≤ 1) → PktHolds s 0 (f.header false config st) →
    f.total false config st < 2 ^ 31 → cap < 2 ^ 31 →
    ((f.sizes.length * tocSpf (tocByte config st f.code) s.dec.fs.toNat : Nat) : Int) ≤ cap →
    ∃ t, exec (.decode (f.total false config st) cap) s = .next t ∧
      Answered t (BitVec.ofNat 32 (f.sizes.length * tocSpf (tocByte config st f.code) s.dec.fs.toNat)) ∧
      HoldsMeta (tocByte config st f.code) t.dec ∧ t.dec.lastPacketDuration = t.host.resp ∧
      t.dec.prevMode = .uninit ∧ t.dec.prevRedundancy = s.dec.prevRedundancy ∧ t.dec.rangeFinal = s.dec.rangeFinal ∧
      t.env = s.env ∧ t.pctl = s.pctl ∧ t.tctl = s.tctl ∧ DecodeOnly s t ∧
      ResultFileIs (tocByte config st f.code) (f.header false config st).length f.padding f.sizes s.file t.file ∧
      (∀ j < words (f.sizes.length * tocSpf (tocByte config st f.code) s.dec.fs.toNat : Nat) s, t.out.read j = 0) ∧
      OutBeside 0 (words (f.sizes.length * tocSpf (tocByte config st f.code) s.dec.fs.toNat : Nat) s) s t

/-- R266 to R269 with a plain transform-only frame (vector F3): a one-frame packet decodes to the engine's own samples. -/
def Obligations.XformPacketDecodes : Prop :=
  ∀ (s : State) (config : BitVec 5) (st : Bool) (n : Nat) (cap : Int) (pf : Nat) (ret : Int) (own : List Sample)
    (rest : List TReply), Usable s → s.constructed = true → PktHolds s 0 [tocByte config st 0] → 16 ≤ config.toNat →
    2 ≤ n → n ≤ 1275 → tocSpf (tocByte config st 0) s.dec.fs.toNat = pf →
    (s.dec.prevMode = .uninit ∨ s.dec.prevMode = .xform) → (pf : Int) ≤ cap → cap < 2 ^ 31 →
    s.env.tDecode.given = ⟨ret, own⟩ :: rest → 0 ≤ ret → own.length = words pf s →
    ∃ t, exec (.decode (n + 1) cap) s = .next t ∧ Answered t (BitVec.ofNat 32 pf) ∧ HoldsMeta (tocByte config st 0) t.dec ∧
      t.dec.lastPacketDuration = BitVec.ofNat 32 pf ∧ t.dec.prevMode = .xform ∧ t.dec.prevRedundancy = false ∧
      t.pctl = s.pctl ∧ DecodeOnly s t ∧ OutBeside 0 (words pf s) s t ∧
      (∀ j < words pf s, t.out.read j = afterGain s.dec.decodeGain (own.getD j 0))

/-- R20, the "written by" column: which commands can change each register. -/
def Obligations.RegistersWrittenBy : Prop :=
  ∀ (s t : State) (i : Instr), Usable s → exec i s = .next t →
    ((t.dec.fs ≠ s.dec.fs ∨ t.dec.c ≠ s.dec.c ∨ t.constructed ≠ s.constructed) → ∃ fs c, i = .construct fs c) ∧
    (t.dec.decodeGain ≠ s.dec.decodeGain → (∃ fs c, i = .construct fs c) ∨ ∃ v, i = .ctlSetGain v) ∧
    ((t.dec.mode ≠ s.dec.mode ∨ t.dec.bandwidth ≠ s.dec.bandwidth ∨ t.dec.streamChannels ≠ s.dec.streamChannels ∨
        t.dec.frameSize ≠ s.dec.frameSize) → (∃ fs c, i = .construct fs c) ∨ i = .ctlResetState ∨
      (∃ len cap, i = .decode len cap) ∨ ∃ len cap, i = .decodeFec len cap) ∧
    (t.dec.lastPacketDuration ≠ s.dec.lastPacketDuration → (∃ fs c, i = .construct fs c) ∨ i = .ctlResetState ∨
      (∃ len cap, i = .decode len cap) ∨ (∃ len cap, i = .decodeFec len cap) ∨ ∃ fec cap, i = .decodeNull fec cap) ∧
    ((t.dec.prevMode ≠ s.dec.prevMode ∨ t.dec.prevRedundancy ≠ s.dec.prevRedundancy ∨
        t.dec.rangeFinal ≠ s.dec.rangeFinal) → (∃ fs c, i = .construct fs c) ∨ i = .ctlResetState ∨
      (∃ len cap, i = .decode len cap) ∨ (∃ len cap, i = .decodeFec len cap) ∨ (∃ fec cap, i = .decodeNull fec cap) ∨
      ∃ fb flen o fsz fec, i = .decodeFrame fb flen o fsz fec)

/-- R67 with R60: PFF never writes the packet buffer; only DECODE and DECODE_FRAME write `OUT`, and DECODE nothing at or
beyond `cap*C`. -/
def Obligations.MemoryWriteExtent : Prop :=
  ∀ (s t : State) (i : Instr), Usable s → exec i s = .next t → t.pkt = s.pkt ∧
    (t.out ≠ s.out → (∃ fb flen o fsz fec, i = .decodeFrame fb flen o fsz fec) ∨
      ∃ cap : Int, OutBeside 0 (words cap s) s t ∧
        ((∃ len, i = .decode len cap) ∨ (∃ len, i = .decodeFec len cap) ∨ ∃ fec, i = .decodeNull fec cap))

/-! DECODE_FRAME, the frame-select state machine (42_frame_fsm.md). -/

/-- R202 and R206 (with R203, R204): a request below 2.5 ms is BufferTooSmall and changes nothing; concealment before any
mode is silence of the request, at most the committed frame size, with no engine called and no register changed. -/
def Obligations.FrameMinimumAndSilence : Prop :=
  ∀ (s : State) (fb : Option Nat) (flen : Int) (o : Nat) (fsz : Int) (fec : Bool),
    (fsz < f2_5 (rate s) →
      ∃ t, exec (.decodeFrame fb flen o fsz fec) s = .next t ∧ t.driver.ret = -2 ∧ FrameOnly s t ∧ t.dec = s.dec ∧
        t.pctl = s.pctl ∧ t.tctl = s.tctl ∧ t.env = s.env ∧ t.out = s.out) ∧
    (∀ n : Nat, Usable s → s.constructed = true → s.dec.prevMode = .uninit → flen ≤ 1 → (f2_5 (rate s) : Int) ≤ fsz →
      (n : Int) = min fsz s.dec.frameSize.toNat →
      ∃ t, exec (.decodeFrame fb flen o fsz fec) s = .next t ∧ t.driver.ret = n ∧ FrameOnly s t ∧ t.dec = s.dec ∧
        t.pctl = s.pctl ∧ t.tctl = s.tctl ∧ t.env = s.env ∧ OutBeside o (words n s) s t ∧
        ∀ j < words n s, t.out.read (o + j) = 0)

/-- A plain transform-only frame (vector F3; R205, R221, R225, R226, R234 to R237): the engine's own samples, its calls in
order; and the same frame when the engine fails: its code, with the FSM's registers updated all the same. -/
def Obligations.XformFrame : Prop :=
  ∀ (s : State) (fb : Nat) (flen : Int) (o : Nat) (fsz : Int) (ret : Int) (own : List Sample) (rest : List TReply),
    Usable s → s.constructed = true → s.dec.mode = .xform → (s.dec.prevMode = .uninit ∨ s.dec.prevMode = .xform) →
    2 ≤ flen → (s.dec.frameSize.toNat : Int) ≤ fsz → s.env.tDecode.given = ⟨ret, own⟩ :: rest →
    ((0 ≤ ret ∧ own.length = words s.dec.frameSize.toNat s) ∨ isErrorCode ret = true) →
    ∃ t, exec (.decodeFrame (some fb) flen o fsz false) s = .next t ∧ FrameOnly s t ∧ t.dec.prevMode = .xform ∧
      t.dec.prevRedundancy = false ∧ t.dec.rangeFinal = (s.env.rng.next Config.freeRng).1 ∧ t.pctl = s.pctl ∧
      t.tctl = { startBand := 0, endBand := endBandOf s.dec.bandwidth, channels := s.dec.streamChannels } ∧
      t.env.calls = .eRng ::
        .tDecode (some (.packet fb flen)) flen .pcm o s.dec.frameSize.toNat (some ⟨fb, flen⟩) false ::
        .tSetStartBand 0 :: .tSetChannels s.dec.streamChannels :: .tSetEndBand (endBandOf s.dec.bandwidth) ::
        .eInit fb flen :: s.env.calls ∧
      OutBeside o (words s.dec.frameSize.toNat s) s t ∧
      (0 ≤ ret → t.driver.ret = s.dec.frameSize.toNat ∧
        ∀ j < words s.dec.frameSize.toNat s, t.out.read (o + j) = afterGain s.dec.decodeGain (own.getD j 0)) ∧
      (ret < 0 → t.driver.ret = ret)

/-- A prediction-only frame without redundancy (R209, R216 to R219, R228, R234 to R237): the prediction engine's samples.
After a hybrid frame the transform engine adds its 2.5 ms fade-out frame, driven by the two-byte constant of R228 (vector
F9). The entropy decoder leaves too few bits for redundancy. -/
def Obligations.PredictionFrame : Prop :=
  ∀ (s : State) (fb : Nat) (flen : Int) (o : Nat) (fsz : Int) (p : List Sample) (rest : List PReply) (w : Word)
    (ws : List Word), Usable s → s.constructed = true → s.dec.mode = .pred → 2 ≤ flen →
    (s.dec.frameSize.toNat : Int) ≤ fsz → s.env.pDecode.given = ⟨0, s.dec.frameSize.toNat, p⟩ :: rest →
    p.length = words s.dec.frameSize.toNat s → s.env.tell.given = w :: ws → 1 ≤ w.toInt → 8 * flen < w.toInt + 17 →
    ((s.dec.prevMode = .uninit ∨ s.dec.prevMode = .pred) →
      ∃ t, exec (.decodeFrame (some fb) flen o fsz false) s = .next t ∧ t.driver.ret = s.dec.frameSize.toNat ∧
        FrameOnly s t ∧ t.dec.prevMode = .pred ∧ t.dec.prevRedundancy = false ∧
        t.dec.rangeFinal = (s.env.rng.next Config.freeRng).1 ∧ PredictionControl s t ∧
        t.env.calls = .eRng :: .tSetStartBand 17 :: .tSetChannels s.dec.streamChannels ::
          .tSetEndBand (endBandOf s.dec.bandwidth) :: .eTell ::
          .pDecode t.pctl 0 true (some ⟨fb, flen⟩) .pcm o :: .eInit fb flen :: s.env.calls ∧
        OutBeside o (words s.dec.frameSize.toNat s) s t ∧
        ∀ j < words s.dec.frameSize.toNat s, t.out.read (o + j) = afterGain s.dec.decodeGain (p.getD j 0)) ∧
    (∀ (ret : Int) (d : List Sample) (ts : List TReply), s.dec.prevMode = .hybrid →
      s.env.tDecode.given = ⟨ret, d⟩ :: ts → 0 ≤ ret → d.length = words (f2_5 (rate s)) s →
      ∃ t, exec (.decodeFrame (some fb) flen o fsz false) s = .next t ∧ t.driver.ret = s.dec.frameSize.toNat ∧
        FrameOnly s t ∧ t.dec.prevMode = .pred ∧ t.dec.prevRedundancy = false ∧
        t.dec.rangeFinal = (s.env.rng.next Config.freeRng).1 ∧ PredictionControl s t ∧
        t.tctl = { startBand := 0, endBand := endBandOf s.dec.bandwidth, channels := s.dec.streamChannels } ∧
        t.env.calls = .eRng :: .tDecode (some .silence2) 2 .pcm o (f2_5 (rate s)) none true :: .tSetStartBand 0 ::
          .tSetStartBand 17 :: .tSetChannels s.dec.streamChannels :: .tSetEndBand (endBandOf s.dec.bandwidth) ::
          .eTell :: .pDecode t.pctl 0 true (some ⟨fb, flen⟩) .pcm o :: .eInit fb flen :: s.env.calls ∧
        OutBeside o (words s.dec.frameSize.toNat s) s t ∧
        ∀ j < words s.dec.frameSize.toNat s, t.out.read (o + j) = afterGain s.dec.decodeGain
          (if j < words (f2_5 (rate s)) s then toSample (sat16 ((p.getD j 0).toInt + (d.getD j 0).toInt)) else p.getD j 0))

/-- A hybrid frame (R209, R219, R226, R229, 10_state.md R31): the saturating sum of the two engines' samples. After a
prediction-only or hybrid frame, the entropy decoder leaves too few bits for redundancy or its bit says there is none. After
a transform-only frame, with redundancy at the start of the frame (vector F8; R215, R222, R224, R231): its length is read,
no look-ahead runs, and the redundancy frame is the first 2.5 ms and fades into the sum over the next 2.5 ms. -/
def Obligations.HybridFrameSum : Prop :=
  ∀ (s : State) (fb : Nat) (flen : Int) (o : Nat) (fsz ret : Int) (p own : List Sample) (ps : List PReply) (w : Word)
    (ws : List Word), Usable s → s.constructed = true → s.dec.mode = .hybrid → 2 ≤ flen →
    (s.dec.frameSize.toNat : Int) ≤ fsz → s.env.pDecode.given = ⟨0, s.dec.frameSize.toNat, p⟩ :: ps →
    p.length = words s.dec.frameSize.toNat s → 0 ≤ ret → own.length = words s.dec.frameSize.toNat s →
    s.env.tell.given = w :: ws → 1 ≤ w.toInt →
    (∀ (ts : List TReply) (bits : List Bool), s.dec.prevMode ≠ .xform → s.env.tDecode.given = ⟨ret, own⟩ :: ts →
      (8 * flen < w.toInt + 37 ∨ s.env.bit.given = false :: bits) →
      ∃ t, exec (.decodeFrame (some fb) flen o fsz false) s = .next t ∧ t.driver.ret = s.dec.frameSize.toNat ∧
        FrameOnly s t ∧ t.dec.prevMode = .hybrid ∧ t.dec.prevRedundancy = false ∧
        t.dec.rangeFinal = (s.env.rng.next Config.freeRng).1 ∧ PredictionControl s t ∧
        (xformReset s.dec.prevMode .hybrid s.dec.prevRedundancy = false →
          t.tctl = { startBand := 17, endBand := endBandOf s.dec.bandwidth, channels := s.dec.streamChannels }) ∧
        (EngineCall.tReset ∈ t.env.calls ↔ EngineCall.tReset ∈ s.env.calls ∨
          xformReset s.dec.prevMode .hybrid s.dec.prevRedundancy = true) ∧
        OutBeside o (words s.dec.frameSize.toNat s) s t ∧
        ∀ j < words s.dec.frameSize.toNat s, t.out.read (o + j) =
          afterGain s.dec.decodeGain (toSample (sat16 ((p.getD j 0).toInt + (own.getD j 0).toInt)))) ∧
    (∀ (ra : Int) (a : List Sample) (ts : List TReply) (v w1 r g : Word) (us ws' rs gs : List Word) (bits : List Bool)
        (n : Int), s.dec.prevMode = .xform → s.env.tDecode.given = ⟨ra, a⟩ :: ⟨ret, own⟩ :: ts → 0 ≤ ra →
      a.length = words (f5 (rate s)) s → w.toInt + 37 ≤ 8 * flen → s.env.bit.given = true :: true :: bits →
      s.env.uint.given = v :: us → v.toNat < 256 → flen = n + (v.toNat + 2) → 2 ≤ n → ws = w1 :: ws' → 1 ≤ w1.toInt →
      w1.toInt ≤ 8 * n → s.env.finalRange.given = g :: gs → s.env.rng.given = r :: rs →
      ∃ t, exec (.decodeFrame (some fb) flen o fsz false) s = .next t ∧ t.driver.ret = s.dec.frameSize.toNat ∧
        FrameOnly s t ∧ t.dec.prevMode = .hybrid ∧ t.dec.prevRedundancy = false ∧ t.dec.rangeFinal = r ^^^ g ∧
        PredictionControl s t ∧
        t.env.calls = .eRng ::
          .tDecode (some (.packet fb n)) n .pcm o s.dec.frameSize.toNat (some ⟨fb, n⟩) true :: .tReset ::
          .tSetStartBand 17 :: .tGetFinalRange ::
          .tDecode (some (.packet (fb + n) (v.toNat + 2))) (v.toNat + 2) .ra 0 (f5 (rate s)) none false ::
          .tSetStartBand 0 :: .tSetChannels s.dec.streamChannels :: .tSetEndBand (endBandOf s.dec.bandwidth) ::
          .eShrinkStorage (v.toNat + 2) :: .eTell :: .eUint 256 :: .eBitLogp 1 :: .eBitLogp 12 :: .eTell ::
          .pDecode t.pctl 0 true (some ⟨fb, flen⟩) .pcm o :: .pInit :: .eInit fb flen :: s.env.calls ∧
        OutBeside o (words s.dec.frameSize.toNat s) s t ∧
        ∀ j < words s.dec.frameSize.toNat s, t.out.read (o + j) = afterGain s.dec.decodeGain
          (if j < words (f2_5 (rate s)) s then a.getD j 0
          else if j < words (f5 (rate s)) s then
            fadeBlend (fadeW ((j - words (f2_5 (rate s)) s) / chans s) (rate s)) (a.getD j 0)
              (toSample (sat16 ((p.getD j 0).toInt + (own.getD j 0).toInt)))
          else toSample (sat16 ((p.getD j 0).toInt + (own.getD j 0).toInt))))

/-- A transition without redundancy and without gain (R211, R212, R222, R223, R226, R232): the look-ahead of the previous
mode is concealed (the prediction engine's lost flag 1, R218; no bytes for the transform engine, R226), and the frame's
first 2.5 ms fade from it. From prediction-only into transform-only (vectors F6, F7), where a frame shorter than 5 ms takes
the look-ahead instead; and out of transform-only, into prediction-only or hybrid, where the prediction engine is
initialised first (R215). -/
def Obligations.TransitionFade : Prop :=
  ∀ (s : State) (fb : Nat) (flen : Int) (o : Nat) (fsz ret : Int) (q : List Sample) (ts : List TReply), Usable s →
    s.constructed = true → s.dec.decodeGain = 0 → 2 ≤ flen → (s.dec.frameSize.toNat : Int) ≤ fsz → 0 ≤ ret →
    (∀ (own : List Sample) (ps : List PReply), s.dec.mode = .xform → s.dec.prevMode = .pred →
      s.dec.prevRedundancy = false → s.env.pDecode.given = ⟨0, f10 (rate s), q⟩ :: ps →
      q.length = words (f10 (rate s)) s → s.env.tDecode.given = ⟨ret, own⟩ :: ts →
      own.length = words s.dec.frameSize.toNat s →
      ∃ t, exec (.decodeFrame (some fb) flen o fsz false) s = .next t ∧ t.driver.ret = s.dec.frameSize.toNat ∧
        FrameOnly s t ∧ t.dec.prevMode = .xform ∧ t.dec.prevRedundancy = false ∧
        t.dec.rangeFinal = (s.env.rng.next Config.freeRng).1 ∧ t.pctl = { s.pctl with payloadSizeMs := 10 } ∧
        t.env.calls = .eRng ::
          .tDecode (some (.packet fb flen)) flen .pcm o s.dec.frameSize.toNat (some ⟨fb, flen⟩) false :: .tReset ::
          .tSetStartBand 0 :: .tSetChannels s.dec.streamChannels :: .tSetEndBand (endBandOf s.dec.bandwidth) ::
          .tSetStartBand 17 :: .tSetChannels s.dec.streamChannels :: .tSetEndBand (endBandOf s.dec.bandwidth) ::
          .pDecode t.pctl 1 true none .ps 0 :: .eInit fb flen :: s.env.calls ∧
        OutBeside o (words s.dec.frameSize.toNat s) s t ∧
        (∀ j < words (f2_5 (rate s)) s, t.out.read (o + j) =
          if f5 (rate s) ≤ s.dec.frameSize.toNat then
            fadeBlend (fadeW (j / chans s) (rate s)) (q.getD j 0) (own.getD j 0)
          else q.getD j 0) ∧
        (∀ j, words (f2_5 (rate s)) s ≤ j → j < words s.dec.frameSize.toNat s → t.out.read (o + j) = own.getD j 0)) ∧
    (∀ (p own main : List Sample) (ret' : Int) (ps : List PReply) (w : Word) (ws : List Word), s.dec.prevMode = .xform →
      s.env.pDecode.given = ⟨0, s.dec.frameSize.toNat, p⟩ :: ps → p.length = words s.dec.frameSize.toNat s →
      q.length = words (f5 (rate s)) s → s.env.tell.given = w :: ws → 1 ≤ w.toInt →
      ((s.dec.mode = .pred ∧ s.env.tDecode.given = ⟨ret, q⟩ :: ts ∧ 8 * flen < w.toInt + 17 ∧ main = p) ∨
        (s.dec.mode = .hybrid ∧ s.env.tDecode.given = ⟨ret, q⟩ :: ⟨ret', own⟩ :: ts ∧ 0 ≤ ret' ∧
          own.length = words s.dec.frameSize.toNat s ∧ 8 * flen < w.toInt + 37 ∧
          main = List.zipWith (fun x y => toSample (sat16 (x.toInt + y.toInt))) p own)) →
      ∃ t, exec (.decodeFrame (some fb) flen o fsz false) s = .next t ∧ t.driver.ret = s.dec.frameSize.toNat ∧
        FrameOnly s t ∧ t.dec.prevMode = s.dec.mode ∧ t.dec.prevRedundancy = false ∧
        t.dec.rangeFinal = (s.env.rng.next Config.freeRng).1 ∧ PredictionControl s t ∧
        t.env.calls = .eRng ::
          ((if s.dec.mode = .hybrid then
              [.tDecode (some (.packet fb flen)) flen .pcm o s.dec.frameSize.toNat (some ⟨fb, flen⟩) true, .tReset]
            else []) ++
          .tSetStartBand 17 :: .tDecode none 0 .tr 0 (f5 (rate s)) none false :: .tSetStartBand 0 ::
          .tSetChannels s.dec.streamChannels :: .tSetEndBand (endBandOf s.dec.bandwidth) ::
          .tSetChannels s.dec.streamChannels :: .tSetEndBand (endBandOf s.dec.bandwidth) :: .eTell ::
          .pDecode t.pctl 0 true (some ⟨fb, flen⟩) .pcm o :: .pInit :: .eInit fb flen :: s.env.calls) ∧
        OutBeside o (words s.dec.frameSize.toNat s) s t ∧
        (∀ j < words (f2_5 (rate s)) s, t.out.read (o + j) =
          fadeBlend (fadeW (j / chans s) (rate s)) (q.getD j 0) (main.getD j 0)) ∧
        (∀ j, words (f2_5 (rate s)) s ≤ j → j < words s.dec.frameSize.toNat s → t.out.read (o + j) = main.getD j 0))

/-- Redundancy at the end of a prediction-only frame (vector F10; R219, R230, R235, R236): the frame's last 2.5 ms fade into
the second half of the redundancy frame, whose final range is XORed in, and the next boundary is covered. -/
def Obligations.TrailingRedundancy : Prop :=
  ∀ (s : State) (fb : Nat) (flen : Int) (o : Nat) (fsz ret : Int) (p a : List Sample) (ps : List PReply)
    (ts : List TReply) (w0 w1 w2 r g : Word) (ws bs' : List Word) (bits : List Bool) (gs : List Word),
    Usable s → s.constructed = true → s.dec.mode = .pred → s.dec.prevMode = .pred → s.dec.decodeGain = 0 → 2 ≤ flen →
    (s.dec.frameSize.toNat : Int) ≤ fsz →
    s.env.pDecode.given = ⟨0, s.dec.frameSize.toNat, p⟩ :: ps → p.length = words s.dec.frameSize.toNat s →
    s.env.tell.given = w0 :: w1 :: w2 :: ws → 1 ≤ w0.toInt → w0.toInt + 17 ≤ 8 * flen → 9 ≤ w1.toInt → w1.toInt ≤ 8 * flen →
    1 ≤ w2.toInt → w2.toInt ≤ 8 * ((w1.toInt + 7) / 8) → s.env.bit.given = false :: bits →
    s.env.tDecode.given = ⟨ret, a⟩ :: ts → 0 ≤ ret → a.length = words (f5 (rate s)) s →
    s.env.finalRange.given = g :: gs → s.env.rng.given = r :: bs' →
    ∃ t, exec (.decodeFrame (some fb) flen o fsz false) s = .next t ∧ t.driver.ret = s.dec.frameSize.toNat ∧
      FrameOnly s t ∧ t.dec.prevMode = .pred ∧ t.dec.prevRedundancy = true ∧ t.dec.rangeFinal = r ^^^ g ∧
      EngineCall.tDecode (some (.packet (fb + (w1.toInt + 7) / 8) (flen - (w1.toInt + 7) / 8)))
        (flen - (w1.toInt + 7) / 8) .ra 0 (f5 (rate s)) none false ∈ t.env.calls ∧
      EngineCall.eShrinkStorage (flen - (w1.toInt + 7) / 8) ∈ t.env.calls ∧
      OutBeside o (words s.dec.frameSize.toNat s) s t ∧
      (∀ j < words ((s.dec.frameSize.toNat : Int) - f2_5 (rate s)) s, t.out.read (o + j) = p.getD j 0) ∧
      (∀ j < words (f2_5 (rate s)) s, t.out.read (o + words ((s.dec.frameSize.toNat : Int) - f2_5 (rate s)) s + j) =
        fadeBlend (fadeW (j / chans s) (rate s))
          (p.getD (words ((s.dec.frameSize.toNat : Int) - f2_5 (rate s)) s + j) 0)
          (a.getD (words (f2_5 (rate s)) s + j) 0))

/-- R218: a prediction failure on a frame whose bytes are present is InternalError; the decoder registers are unchanged
(`PCtl` has the frame's values, R216, R217), and nothing beyond the frame's region is written. -/
def Obligations.PredictionFailure : Prop :=
  ∀ (s : State) (fb : Nat) (flen : Int) (o : Nat) (fsz : Int) (r : PReply) (rest : List PReply), Usable s →
    s.constructed = true → (s.dec.mode = .pred ∨ s.dec.mode = .hybrid) → 2 ≤ flen →
    (s.dec.frameSize.toNat : Int) ≤ fsz → s.env.pDecode.given = r :: rest → r.ret ≠ 0 →
    ∃ t, exec (.decodeFrame (some fb) flen o fsz false) s = .next t ∧ t.driver.ret = -3 ∧ FrameOnly s t ∧
      t.dec = s.dec ∧ OutBeside o (words s.dec.frameSize.toNat s) s t

/-- R227: concealment absorbs a transform failure into silence. -/
def Obligations.ConcealmentAbsorbsFailure : Prop :=
  ∀ (s : State) (o n : Nat) (fec : Bool) (r : TReply) (rest : List TReply), Usable s → s.constructed = true →
    s.dec.prevMode = .xform → s.dec.decodeGain = 0 → n ≤ s.dec.frameSize.toNat →
    (n = f2_5 (rate s) ∨ n = f5 (rate s) ∨ n = f10 (rate s) ∨ n = f20 (rate s)) →
    s.env.tDecode.given = r :: rest → isErrorCode r.ret = true →
    ∃ t, exec (.decodeFrame none 0 o n fec) s = .next t ∧ t.driver.ret = n ∧ FrameOnly s t ∧ t.dec.prevMode = .xform ∧
      t.dec.prevRedundancy = false ∧ t.dec.rangeFinal = 0 ∧ t.pctl = s.pctl ∧ OutBeside o (words n s) s t ∧
      ∀ j < words n s, t.out.read (o + j) = 0

/-- R238, laws 1 to 4, with R239: what every invocation comes to from a legal state, whatever the engines answer within
their contract. -/
def Obligations.FrameLaws : Prop :=
  ∀ (s : State) (fb : Option Nat) (flen : Int) (o : Nat) (fsz : Int) (fec : Bool), Usable s → s.constructed = true →
    (2 ≤ flen → s.dec.mode ≠ .uninit) →
    exec (.decodeFrame fb flen o fsz fec) s = .fault .engineContract ∨
    ∃ t, exec (.decodeFrame fb flen o fsz fec) s = .next t ∧ FrameOnly s t ∧ OutBeside o (words fsz s) s t ∧
      t.driver.ret ≤ max 0 (min fsz (frameCap (rate s))) ∧
      (t.driver.ret < 0 → isErrorCode t.driver.ret = true) ∧
      (flen ≤ 1 → t.dec.prevMode = s.dec.prevMode) ∧
      (2 ≤ flen → 0 ≤ t.driver.ret → t.driver.ret = s.dec.frameSize.toNat ∧ t.dec.prevMode = s.dec.mode) ∧
      (t.dec.prevMode = .uninit → s.dec.prevMode = .uninit)

/-- R201, the control decisions of the frame-select machine for a frame whose bytes are present: every row of the table,
with `red` and `c2s` this frame's redundancy and its direction. A look-ahead runs where the transition is left uncovered
(R212, R223): out of transform-only the frame's own redundancy cancels it (R222), and a transform-only frame has none
(R219). The transform engine's reset and the fade-out frame are asked only where R226 and R228 run. A concealment
(`m = prev_mode`) has no transition, no re-init and no reset. -/
def Obligations.FrameSelectTable : Prop :=
  ∀ (m : Mode) (pr red c2s : Bool), m ≠ .uninit → (m = .xform → red = false) →
    (uncoveredTransition (transitionFlag true .uninit m pr) red = false ∧ predReinit .uninit m = false ∧
      (decide (m ≠ .pred) && xformReset .uninit m pr) = false ∧ (decide (m = .pred) && fadeOut .uninit red c2s pr) = false) ∧
    (uncoveredTransition (transitionFlag true .pred m pr) red = (decide (m = .xform) && !pr) ∧ predReinit .pred m = false ∧
      (decide (m ≠ .pred) && xformReset .pred m pr) = (decide (m ≠ .pred) && !pr) ∧
      (decide (m = .pred) && fadeOut .pred red c2s pr) = false) ∧
    (uncoveredTransition (transitionFlag true .hybrid m pr) red = (decide (m = .xform) && !pr) ∧
      predReinit .hybrid m = false ∧ (decide (m ≠ .pred) && xformReset .hybrid m pr) = (decide (m = .xform) && !pr) ∧
      (decide (m = .pred) && fadeOut .hybrid red c2s pr) = (decide (m = .pred) && !(red && c2s && pr))) ∧
    (uncoveredTransition (transitionFlag true .xform m pr) red = (decide (m ≠ .xform) && !red) ∧
      predReinit .xform m = decide (m ≠ .xform) ∧
      (decide (m ≠ .pred) && xformReset .xform m pr) = (decide (m = .hybrid) && !pr) ∧
      (decide (m = .pred) && fadeOut .xform red c2s pr) = false) ∧
    (∀ prev : Mode, transitionFlag false prev m pr = false) ∧ predReinit m m = false ∧ xformReset m m pr = false

/-- R233 and R234: the fade's weights rise from at least 0 to at most 32767, a blend is the weighted mean and never leaves
-32767..32766, and a gained sample never leaves -32767..32767. -/
def Obligations.FadeAndGainLaws : Prop :=
  (∀ fs i j : Nat, i ≤ j → fadeW i fs ≤ fadeW j fs ∧ fadeW j fs ≤ 32767) ∧
  (∀ (w : Nat) (a b : Sample), w ≤ 32767 →
    (fadeBlend w a b).toInt = ((w : Int) * b.toInt + (32767 - (w : Int)) * a.toInt) / 32768 ∧
    -32767 ≤ (fadeBlend w a b).toInt ∧ (fadeBlend w a b).toInt ≤ 32766) ∧
  (∀ (gain : BitVec 16) (x : Sample), -32767 ≤ (gainSample gain x).toInt ∧ (gainSample gain x).toInt ≤ 32767)

/-! The whole machine. -/

/-- 20_memory.md R60, R74: what the host loads is what PFF reads next; bytes elsewhere stay. -/
def Obligations.LoadedBytesAreRead : Prop :=
  ∀ (s : State) (off : Nat) (bytes : List Byte) (rest : List HostMove), s.pkt.wf = true → s.phase = .idle →
    s.inbox = .load off bytes :: rest → ∃ t, step s = .next t ∧ t.pkt.wf = true ∧ t = (s.setInbox rest).setPkt t.pkt ∧
      ∀ i < 2 ^ 31 - 1, pktRead t i = if off ≤ i ∧ i < off + bytes.length then bytes.getD (i - off) 0 else pktRead s i

/-- 70_reset_and_hazards.md R350: at power-on `constructed` is 0; the invariant of every run holds. The values of the other
registers are the model's choice (log 2), and no clause here rests on them. -/
def Obligations.PowerOn : Prop := State.reset.constructed = false ∧ Inv State.reset

/-- The invariant is kept by every step: canonical memories, nothing in progress between commands, and once constructed legal
registers (10_state.md R20, R21, R25, R26; 42_frame_fsm.md R201). -/
def Obligations.InvariantKept : Prop := ∀ s t : State, Inv s → step s = .next t → Inv t

/-- From the invariant a step always answers a next state, unless an engine breaks its contract (60_exceptions.md R331): no
command is refused, and no loop runs without end (70_reset_and_hazards.md R361). -/
def Obligations.StepAnswers : Prop :=
  ∀ s : State, Inv s → (∃ t, step s = .next t) ∨ step s = .fault .engineContract
end

