-- ==== Sys2Proof/Laws/Memory.lean ====
section
/-! SUPPORT. The laws of the memories: read after write, and that every operation keeps the canonical form. -/

namespace Sys2Proof.Machine.Memory

variable {w : Nat}

/-! Reading what was put or erased. -/

theorem lookup_put (m : Memory w) (a b : Nat) (v : BitVec w) :
    (m.put a v).lookup b = if b = a then some v else m.lookup b := by
  induction m with
  | nil => simp [put, lookup]
  | cons e m ih =>
    obtain ⟨c, u⟩ := e
    by_cases h1 : a < c
    · simp [put, h1, lookup]
    · by_cases h2 : a = c
      · subst h2; by_cases h3 : b = a <;> simp [put, lookup, h3]
      · by_cases h3 : b = c
        · subst h3; simp [put, h1, h2, lookup, Ne.symm h2]
        · simp [put, h1, h2, lookup, h3, ih]

theorem lookup_eq_none_of_risingFrom {m : Memory w} {lo a : Nat} (h : risingFrom lo m = true) (ha : a < lo) :
    m.lookup a = none := by
  induction m generalizing lo with
  | nil => rfl
  | cons e m ih =>
    obtain ⟨c, u⟩ := e
    simp only [risingFrom, Bool.and_eq_true, decide_eq_true_eq] at h
    have hne : a ≠ c := by omega
    simp only [lookup, hne, if_false]
    exact ih h.2 (by omega)

theorem risingFrom_mono {m : Memory w} {lo lo' : Nat} (h : risingFrom lo m = true) (hl : lo' ≤ lo) :
    risingFrom lo' m = true := by
  cases m with
  | nil => rfl
  | cons e m =>
    simp only [risingFrom, Bool.and_eq_true, decide_eq_true_eq] at h ⊢
    exact ⟨by omega, h.2⟩

theorem lookup_erase {m : Memory w} {lo : Nat} (h : risingFrom lo m = true) (a b : Nat) :
    (m.erase a).lookup b = if b = a then none else m.lookup b := by
  induction m generalizing lo with
  | nil => simp [erase, lookup]
  | cons e m ih =>
    obtain ⟨c, u⟩ := e
    simp only [risingFrom, Bool.and_eq_true, decide_eq_true_eq] at h
    by_cases h2 : a = c
    · subst h2
      by_cases h3 : b = a
      · subst h3; simp [erase, lookup_eq_none_of_risingFrom h.2 (Nat.lt_succ_self _)]
      · simp [erase, lookup, h3]
    · by_cases h3 : b = c
      · subst h3; simp [erase, h2, lookup, Ne.symm h2]
      · simp [erase, h2, lookup, h3, ih h.2]

/-! The form of a memory. -/

theorem risingFrom_put {m : Memory w} {lo : Nat} (h : risingFrom lo m = true) {a : Nat} (ha : lo ≤ a) (v : BitVec w) :
    risingFrom lo (m.put a v) = true := by
  induction m generalizing lo with
  | nil => simp [put, risingFrom, ha]
  | cons e m ih =>
    obtain ⟨c, u⟩ := e
    simp only [risingFrom, Bool.and_eq_true, decide_eq_true_eq] at h
    by_cases h1 : a < c
    · simp only [put, h1, if_true, risingFrom, Bool.and_eq_true, decide_eq_true_eq]
      exact ⟨ha, by omega, h.2⟩
    · by_cases h2 : a = c
      · subst h2; simpa [put, risingFrom] using h
      · simp only [put, h1, h2, if_false, risingFrom, Bool.and_eq_true, decide_eq_true_eq]
        exact ⟨h.1, ih h.2 (by omega)⟩

theorem risingFrom_erase {m : Memory w} {lo : Nat} (h : risingFrom lo m = true) (a : Nat) :
    risingFrom lo (m.erase a) = true := by
  induction m generalizing lo with
  | nil => rfl
  | cons e m ih =>
    obtain ⟨c, u⟩ := e
    simp only [risingFrom, Bool.and_eq_true, decide_eq_true_eq] at h
    by_cases h2 : a = c
    · simpa [erase, h2] using risingFrom_mono h.2 (by omega)
    · simp only [erase, h2, if_false, risingFrom, Bool.and_eq_true, decide_eq_true_eq]
      exact ⟨h.1, ih h.2⟩

theorem rising_put {m : Memory w} (h : m.rising = true) (a : Nat) (v : BitVec w) : (m.put a v).rising = true :=
  risingFrom_put h (Nat.zero_le a) v

theorem rising_erase {m : Memory w} (h : m.rising = true) (a : Nat) : (m.erase a).rising = true := risingFrom_erase h a

theorem mem_put {m : Memory w} {a : Nat} {v : BitVec w} {e : Nat × BitVec w} (h : e ∈ m.put a v) :
    e = (a, v) ∨ e ∈ m := by
  induction m with
  | nil => simpa [put] using h
  | cons d m ih =>
    obtain ⟨c, u⟩ := d
    simp only [put] at h
    split at h
    · simpa using h
    · split at h
      · rcases List.mem_cons.1 h with h | h
        · exact .inl h
        · exact .inr (List.mem_cons_of_mem _ h)
      · rcases List.mem_cons.1 h with h | h
        · exact .inr (h ▸ List.mem_cons_self)
        · exact (ih h).imp id (List.mem_cons_of_mem _)

theorem mem_erase {m : Memory w} {a : Nat} {e : Nat × BitVec w} (h : e ∈ m.erase a) : e ∈ m := by
  induction m with
  | nil => exact h
  | cons d m ih =>
    obtain ⟨c, u⟩ := d
    simp only [erase] at h
    split at h
    · exact List.mem_cons_of_mem _ h
    · rcases List.mem_cons.1 h with h | h
      · exact h ▸ List.mem_cons_self
      · exact List.mem_cons_of_mem _ (ih h)

theorem wf_rising {m : Memory w} (h : m.wf = true) : m.rising = true := by
  simp only [wf, Bool.and_eq_true] at h; exact h.1

theorem wf_nil : wf ([] : Memory w) = true := rfl

/-- A write keeps the canonical form. -/
theorem wf_write {m : Memory w} (h : m.wf = true) (a : Nat) (v : BitVec w) : (m.write a v).wf = true := by
  have hr := wf_rising h
  simp only [wf, Bool.and_eq_true, List.all_eq_true, decide_eq_true_eq] at h ⊢
  unfold write
  split
  · exact ⟨rising_erase hr a, fun e he => h.2 e (mem_erase he)⟩
  · rename_i hv
    refine ⟨rising_put hr a v, fun e he => ?_⟩
    rcases mem_put he with rfl | he
    · exact hv
    · exact h.2 e he

/-- A read after a write. -/
theorem read_write {m : Memory w} (h : m.wf = true) (a b : Nat) (v : BitVec w) :
    (m.write a v).read b = if b = a then v else m.read b := by
  unfold write read
  split
  · rename_i hv
    rw [lookup_erase (wf_rising h)]
    by_cases hb : b = a <;> simp [hb, hv]
  · rw [lookup_put]
    by_cases hb : b = a <;> simp [hb]

/-- A range of writes keeps the canonical form. -/
theorem wf_fill {m : Memory w} (h : m.wf = true) (base n : Nat) (f : Nat → BitVec w) : (m.fill base n f).wf = true := by
  induction n with
  | zero => exact h
  | succ n ih => exact wf_write ih _ _

/-- A read after a range of writes. -/
theorem read_fill {m : Memory w} (h : m.wf = true) (base n : Nat) (f : Nat → BitVec w) (a : Nat) :
    (m.fill base n f).read a = if base ≤ a ∧ a < base + n then f (a - base) else m.read a := by
  induction n with
  | zero => simp only [fill]; rw [if_neg (by omega)]
  | succ n ih =>
    simp only [fill]
    rw [read_write (wf_fill h base n f), ih]
    by_cases h1 : a = base + n
    · subst h1; rw [if_pos rfl, if_pos (by omega)]; congr 1; omega
    · rw [if_neg h1]
      by_cases h2 : base ≤ a ∧ a < base + n
      · rw [if_pos h2, if_pos (by omega)]
      · rw [if_neg h2, if_neg (by omega)]

/-- A range put into a scratch buffer keeps its addresses rising. -/
theorem rising_putRange {m : Memory w} (h : m.rising = true) (base n : Nat) (f : Nat → BitVec w) :
    (m.putRange base n f).rising = true := by
  induction n with
  | zero => exact h
  | succ n ih => exact rising_put ih _ _

/-- A lookup after a range put. -/
theorem lookup_putRange (m : Memory w) (base n : Nat) (f : Nat → BitVec w) (a : Nat) :
    (m.putRange base n f).lookup a = if base ≤ a ∧ a < base + n then some (f (a - base)) else m.lookup a := by
  induction n with
  | zero => simp only [putRange]; rw [if_neg (by omega)]
  | succ n ih =>
    simp only [putRange]
    rw [lookup_put, ih]
    by_cases h1 : a = base + n
    · subst h1; rw [if_pos rfl, if_pos (by omega)]; congr 2; omega
    · rw [if_neg h1]
      by_cases h2 : base ≤ a ∧ a < base + n
      · rw [if_pos h2, if_pos (by omega)]
      · rw [if_neg h2, if_neg (by omega)]

theorem read_nil (a : Nat) : read ([] : Memory w) a = unlisted w := rfl

/-- Canonical memories that read the same everywhere are the same list. -/
theorem eq_of_read {m m' : Memory w} (h : m.wf = true) (h' : m'.wf = true) (hr : ∀ a, m.read a = m'.read a) : m = m' := by
  have key : ∀ (m m' : Memory w) (lo : Nat), risingFrom lo m = true → risingFrom lo m' = true →
      (∀ e ∈ m, e.2 ≠ unlisted w) → (∀ e ∈ m', e.2 ≠ unlisted w) → (∀ a, m.read a = m'.read a) → m = m' := by
    intro m
    induction m with
    | nil =>
      intro m' lo _ hm' _ hn' hr
      cases m' with
      | nil => rfl
      | cons e m' =>
        have := hr e.1
        simp only [read_nil] at this
        simp only [read, lookup, if_true, Option.getD_some] at this
        exact absurd this.symm (hn' e List.mem_cons_self)
    | cons e m ih =>
      intro m' lo hm hm' hn hn' hr
      obtain ⟨c, u⟩ := e
      cases m' with
      | nil =>
        have := hr c
        simp only [read_nil] at this
        simp only [read, lookup, if_true, Option.getD_some] at this
        exact absurd this (hn (c, u) List.mem_cons_self)
      | cons e' m' =>
        obtain ⟨c', u'⟩ := e'
        simp only [risingFrom, Bool.and_eq_true, decide_eq_true_eq] at hm hm'
        have hcc : c = c' := by
          rcases Nat.lt_trichotomy c c' with hlt | heq | hgt
          · have h0 := hr c
            simp only [read, lookup, if_true, Option.getD_some, Nat.ne_of_lt hlt, if_false,
              lookup_eq_none_of_risingFrom hm'.2 (Nat.lt_succ_of_lt hlt), Option.getD_none] at h0
            exact absurd h0 (hn (c, u) List.mem_cons_self)
          · exact heq
          · have h0 := hr c'
            simp only [read, lookup, if_true, Option.getD_some, Nat.ne_of_lt hgt, if_false,
              lookup_eq_none_of_risingFrom hm.2 (Nat.lt_succ_of_lt hgt), Option.getD_none] at h0
            exact absurd h0.symm (hn' (c', u') List.mem_cons_self)
        subst hcc
        have huu : u = u' := by simpa [read, lookup] using hr c
        subst huu
        have := ih m' (c + 1) hm.2 hm'.2 (fun e he => hn e (List.mem_cons_of_mem _ he))
          (fun e he => hn' e (List.mem_cons_of_mem _ he)) (fun a => by
            by_cases ha : a = c
            · subst ha
              simp [read, lookup_eq_none_of_risingFrom hm.2 (Nat.lt_succ_self _),
                lookup_eq_none_of_risingFrom hm'.2 (Nat.lt_succ_self _)]
            · simpa [read, lookup, ha] using hr a)
        rw [this]
  simp only [wf, Bool.and_eq_true, List.all_eq_true, decide_eq_true_eq] at h h'
  exact key m m' 0 h.1 h'.1 h.2 h'.2 hr

end Sys2Proof.Machine.Memory
end

