-- ==== Sys2Proof/Laws/State.lean ====
section
/-! SUPPORT. What each shared update of the state changes, field by field. (The lemmas of the plain register updates stand
with them: `@[simps]` in Machine/Ops.) -/

namespace Sys2Proof.Machine

/-! The end of a command, the response and the error response. -/


@[simp] theorem respondWord_constructed (w : Word) (s : State) : (respondWord w s).constructed = s.constructed := endCommand_constructed ..
@[simp] theorem respondWord_dec (w : Word) (s : State) : (respondWord w s).dec = s.dec := endCommand_dec ..
@[simp] theorem respondWord_pctl (w : Word) (s : State) : (respondWord w s).pctl = s.pctl := endCommand_pctl ..
@[simp] theorem respondWord_tctl (w : Word) (s : State) : (respondWord w s).tctl = s.tctl := endCommand_tctl ..
@[simp] theorem respondWord_tSignalling (w : Word) (s : State) : (respondWord w s).tSignalling = s.tSignalling := endCommand_tSignalling ..
@[simp] theorem respondWord_file (w : Word) (s : State) : (respondWord w s).file = s.file := endCommand_file ..
@[simp] theorem respondWord_host (w : Word) (s : State) : (respondWord w s).host = { s.host with resp := w, err := false } := endCommand_host ..
@[simp] theorem respondWord_pkt (w : Word) (s : State) : (respondWord w s).pkt = s.pkt := endCommand_pkt ..
@[simp] theorem respondWord_out (w : Word) (s : State) : (respondWord w s).out = s.out := endCommand_out ..
@[simp] theorem respondWord_tr (w : Word) (s : State) : (respondWord w s).tr = [] := endCommand_tr ..
@[simp] theorem respondWord_phase (w : Word) (s : State) : (respondWord w s).phase = .idle := endCommand_phase ..
@[simp] theorem respondWord_parse (w : Word) (s : State) : (respondWord w s).parse = ParseRegs.clear := endCommand_parse ..
@[simp] theorem respondWord_driver (w : Word) (s : State) : (respondWord w s).driver = DriverRegs.clear := endCommand_driver ..
@[simp] theorem respondWord_frame (w : Word) (s : State) : (respondWord w s).frame = FrameRegs.clear := endCommand_frame ..
@[simp] theorem respondWord_env (w : Word) (s : State) : (respondWord w s).env = s.env := endCommand_env ..
@[simp] theorem respondWord_fresh (w : Word) (s : State) : (respondWord w s).fresh = s.fresh := endCommand_fresh ..
@[simp] theorem respondWord_inbox (w : Word) (s : State) : (respondWord w s).inbox = s.inbox := endCommand_inbox ..

@[simp] theorem respond_constructed (v : Int) (s : State) : (respond v s).constructed = s.constructed := endCommand_constructed ..
@[simp] theorem respond_dec (v : Int) (s : State) : (respond v s).dec = s.dec := endCommand_dec ..
@[simp] theorem respond_pctl (v : Int) (s : State) : (respond v s).pctl = s.pctl := endCommand_pctl ..
@[simp] theorem respond_tctl (v : Int) (s : State) : (respond v s).tctl = s.tctl := endCommand_tctl ..
@[simp] theorem respond_tSignalling (v : Int) (s : State) : (respond v s).tSignalling = s.tSignalling := endCommand_tSignalling ..
@[simp] theorem respond_file (v : Int) (s : State) : (respond v s).file = s.file := endCommand_file ..
@[simp] theorem respond_host (v : Int) (s : State) : (respond v s).host = { s.host with resp := BitVec.ofInt 32 v, err := false } := endCommand_host ..
@[simp] theorem respond_pkt (v : Int) (s : State) : (respond v s).pkt = s.pkt := endCommand_pkt ..
@[simp] theorem respond_out (v : Int) (s : State) : (respond v s).out = s.out := endCommand_out ..
@[simp] theorem respond_tr (v : Int) (s : State) : (respond v s).tr = [] := endCommand_tr ..
@[simp] theorem respond_phase (v : Int) (s : State) : (respond v s).phase = .idle := endCommand_phase ..
@[simp] theorem respond_parse (v : Int) (s : State) : (respond v s).parse = ParseRegs.clear := endCommand_parse ..
@[simp] theorem respond_driver (v : Int) (s : State) : (respond v s).driver = DriverRegs.clear := endCommand_driver ..
@[simp] theorem respond_frame (v : Int) (s : State) : (respond v s).frame = FrameRegs.clear := endCommand_frame ..
@[simp] theorem respond_env (v : Int) (s : State) : (respond v s).env = s.env := endCommand_env ..
@[simp] theorem respond_fresh (v : Int) (s : State) : (respond v s).fresh = s.fresh := endCommand_fresh ..
@[simp] theorem respond_inbox (v : Int) (s : State) : (respond v s).inbox = s.inbox := endCommand_inbox ..

@[simp] theorem raiseErr_constructed (e : Int) (s : State) : (raiseErr e s).constructed = s.constructed := endCommand_constructed ..
@[simp] theorem raiseErr_dec (e : Int) (s : State) : (raiseErr e s).dec = s.dec := endCommand_dec ..
@[simp] theorem raiseErr_pctl (e : Int) (s : State) : (raiseErr e s).pctl = s.pctl := endCommand_pctl ..
@[simp] theorem raiseErr_tctl (e : Int) (s : State) : (raiseErr e s).tctl = s.tctl := endCommand_tctl ..
@[simp] theorem raiseErr_tSignalling (e : Int) (s : State) : (raiseErr e s).tSignalling = s.tSignalling := endCommand_tSignalling ..
@[simp] theorem raiseErr_file (e : Int) (s : State) : (raiseErr e s).file = s.file := endCommand_file ..
@[simp] theorem raiseErr_host (e : Int) (s : State) : (raiseErr e s).host = { s.host with resp := BitVec.ofInt 32 e, err := true } := endCommand_host ..
@[simp] theorem raiseErr_pkt (e : Int) (s : State) : (raiseErr e s).pkt = s.pkt := endCommand_pkt ..
@[simp] theorem raiseErr_out (e : Int) (s : State) : (raiseErr e s).out = s.out := endCommand_out ..
@[simp] theorem raiseErr_tr (e : Int) (s : State) : (raiseErr e s).tr = [] := endCommand_tr ..
@[simp] theorem raiseErr_phase (e : Int) (s : State) : (raiseErr e s).phase = .idle := endCommand_phase ..
@[simp] theorem raiseErr_parse (e : Int) (s : State) : (raiseErr e s).parse = ParseRegs.clear := endCommand_parse ..
@[simp] theorem raiseErr_driver (e : Int) (s : State) : (raiseErr e s).driver = DriverRegs.clear := endCommand_driver ..
@[simp] theorem raiseErr_frame (e : Int) (s : State) : (raiseErr e s).frame = FrameRegs.clear := endCommand_frame ..
@[simp] theorem raiseErr_env (e : Int) (s : State) : (raiseErr e s).env = s.env := endCommand_env ..
@[simp] theorem raiseErr_fresh (e : Int) (s : State) : (raiseErr e s).fresh = s.fresh := endCommand_fresh ..
@[simp] theorem raiseErr_inbox (e : Int) (s : State) : (raiseErr e s).inbox = s.inbox := endCommand_inbox ..

/-! Engine calls: each records itself and changes only what it says. -/

@[simp] theorem logCall_constructed (c : EngineCall) (s : State) : (logCall c s).constructed = s.constructed := rfl
@[simp] theorem logCall_dec (c : EngineCall) (s : State) : (logCall c s).dec = s.dec := rfl
@[simp] theorem logCall_pctl (c : EngineCall) (s : State) : (logCall c s).pctl = s.pctl := rfl
@[simp] theorem logCall_tctl (c : EngineCall) (s : State) : (logCall c s).tctl = s.tctl := rfl
@[simp] theorem logCall_tSignalling (c : EngineCall) (s : State) : (logCall c s).tSignalling = s.tSignalling := rfl
@[simp] theorem logCall_file (c : EngineCall) (s : State) : (logCall c s).file = s.file := rfl
@[simp] theorem logCall_host (c : EngineCall) (s : State) : (logCall c s).host = s.host := rfl
@[simp] theorem logCall_pkt (c : EngineCall) (s : State) : (logCall c s).pkt = s.pkt := rfl
@[simp] theorem logCall_out (c : EngineCall) (s : State) : (logCall c s).out = s.out := rfl
@[simp] theorem logCall_tr (c : EngineCall) (s : State) : (logCall c s).tr = s.tr := rfl
@[simp] theorem logCall_phase (c : EngineCall) (s : State) : (logCall c s).phase = s.phase := rfl
@[simp] theorem logCall_parse (c : EngineCall) (s : State) : (logCall c s).parse = s.parse := rfl
@[simp] theorem logCall_driver (c : EngineCall) (s : State) : (logCall c s).driver = s.driver := rfl
@[simp] theorem logCall_frame (c : EngineCall) (s : State) : (logCall c s).frame = s.frame := rfl
@[simp] theorem logCall_env (c : EngineCall) (s : State) : (logCall c s).env = { s.env with calls := c :: s.env.calls } := rfl
@[simp] theorem logCall_fresh (c : EngineCall) (s : State) : (logCall c s).fresh = s.fresh := rfl
@[simp] theorem logCall_inbox (c : EngineCall) (s : State) : (logCall c s).inbox = s.inbox := rfl

@[simp] theorem pInit_constructed (s : State) : (pInit s).constructed = s.constructed := rfl
@[simp] theorem pInit_dec (s : State) : (pInit s).dec = s.dec := rfl
@[simp] theorem pInit_pctl (s : State) : (pInit s).pctl = s.pctl := rfl
@[simp] theorem pInit_tctl (s : State) : (pInit s).tctl = s.tctl := rfl
@[simp] theorem pInit_tSignalling (s : State) : (pInit s).tSignalling = s.tSignalling := rfl
@[simp] theorem pInit_file (s : State) : (pInit s).file = s.file := rfl
@[simp] theorem pInit_host (s : State) : (pInit s).host = s.host := rfl
@[simp] theorem pInit_pkt (s : State) : (pInit s).pkt = s.pkt := rfl
@[simp] theorem pInit_out (s : State) : (pInit s).out = s.out := rfl
@[simp] theorem pInit_tr (s : State) : (pInit s).tr = s.tr := rfl
@[simp] theorem pInit_phase (s : State) : (pInit s).phase = s.phase := rfl
@[simp] theorem pInit_parse (s : State) : (pInit s).parse = s.parse := rfl
@[simp] theorem pInit_driver (s : State) : (pInit s).driver = s.driver := rfl
@[simp] theorem pInit_frame (s : State) : (pInit s).frame = s.frame := rfl
@[simp] theorem pInit_env (s : State) : (pInit s).env = { s.env with calls := .pInit :: s.env.calls } := rfl
@[simp] theorem pInit_fresh (s : State) : (pInit s).fresh = s.fresh := rfl
@[simp] theorem pInit_inbox (s : State) : (pInit s).inbox = s.inbox := rfl

@[simp] theorem tInit_constructed (f c : Nat) (s : State) : (tInit f c s).constructed = s.constructed := rfl
@[simp] theorem tInit_dec (f c : Nat) (s : State) : (tInit f c s).dec = s.dec := rfl
@[simp] theorem tInit_pctl (f c : Nat) (s : State) : (tInit f c s).pctl = s.pctl := rfl
@[simp] theorem tInit_tctl (f c : Nat) (s : State) : (tInit f c s).tctl = Config.tInitControls f c s.tctl := rfl
@[simp] theorem tInit_tSignalling (f c : Nat) (s : State) : (tInit f c s).tSignalling = s.tSignalling := rfl
@[simp] theorem tInit_file (f c : Nat) (s : State) : (tInit f c s).file = s.file := rfl
@[simp] theorem tInit_host (f c : Nat) (s : State) : (tInit f c s).host = s.host := rfl
@[simp] theorem tInit_pkt (f c : Nat) (s : State) : (tInit f c s).pkt = s.pkt := rfl
@[simp] theorem tInit_out (f c : Nat) (s : State) : (tInit f c s).out = s.out := rfl
@[simp] theorem tInit_tr (f c : Nat) (s : State) : (tInit f c s).tr = s.tr := rfl
@[simp] theorem tInit_phase (f c : Nat) (s : State) : (tInit f c s).phase = s.phase := rfl
@[simp] theorem tInit_parse (f c : Nat) (s : State) : (tInit f c s).parse = s.parse := rfl
@[simp] theorem tInit_driver (f c : Nat) (s : State) : (tInit f c s).driver = s.driver := rfl
@[simp] theorem tInit_frame (f c : Nat) (s : State) : (tInit f c s).frame = s.frame := rfl
@[simp] theorem tInit_env (f c : Nat) (s : State) : (tInit f c s).env = { s.env with calls := .tInit f c :: s.env.calls } := rfl
@[simp] theorem tInit_fresh (f c : Nat) (s : State) : (tInit f c s).fresh = s.fresh := rfl
@[simp] theorem tInit_inbox (f c : Nat) (s : State) : (tInit f c s).inbox = s.inbox := rfl

@[simp] theorem tReset_constructed (s : State) : (tReset s).constructed = s.constructed := rfl
@[simp] theorem tReset_dec (s : State) : (tReset s).dec = s.dec := rfl
@[simp] theorem tReset_pctl (s : State) : (tReset s).pctl = s.pctl := rfl
@[simp] theorem tReset_tctl (s : State) : (tReset s).tctl = Config.tResetControls s.tctl := rfl
@[simp] theorem tReset_tSignalling (s : State) : (tReset s).tSignalling = s.tSignalling := rfl
@[simp] theorem tReset_file (s : State) : (tReset s).file = s.file := rfl
@[simp] theorem tReset_host (s : State) : (tReset s).host = s.host := rfl
@[simp] theorem tReset_pkt (s : State) : (tReset s).pkt = s.pkt := rfl
@[simp] theorem tReset_out (s : State) : (tReset s).out = s.out := rfl
@[simp] theorem tReset_tr (s : State) : (tReset s).tr = s.tr := rfl
@[simp] theorem tReset_phase (s : State) : (tReset s).phase = s.phase := rfl
@[simp] theorem tReset_parse (s : State) : (tReset s).parse = s.parse := rfl
@[simp] theorem tReset_driver (s : State) : (tReset s).driver = s.driver := rfl
@[simp] theorem tReset_frame (s : State) : (tReset s).frame = s.frame := rfl
@[simp] theorem tReset_env (s : State) : (tReset s).env = { s.env with calls := .tReset :: s.env.calls } := rfl
@[simp] theorem tReset_fresh (s : State) : (tReset s).fresh = s.fresh := rfl
@[simp] theorem tReset_inbox (s : State) : (tReset s).inbox = s.inbox := rfl

@[simp] theorem tSetStartBand_constructed (b : BitVec 5) (s : State) : (tSetStartBand b s).constructed = s.constructed := rfl
@[simp] theorem tSetStartBand_dec (b : BitVec 5) (s : State) : (tSetStartBand b s).dec = s.dec := rfl
@[simp] theorem tSetStartBand_pctl (b : BitVec 5) (s : State) : (tSetStartBand b s).pctl = s.pctl := rfl
@[simp] theorem tSetStartBand_tctl (b : BitVec 5) (s : State) : (tSetStartBand b s).tctl = { s.tctl with startBand := b } := rfl
@[simp] theorem tSetStartBand_tSignalling (b : BitVec 5) (s : State) : (tSetStartBand b s).tSignalling = s.tSignalling := rfl
@[simp] theorem tSetStartBand_file (b : BitVec 5) (s : State) : (tSetStartBand b s).file = s.file := rfl
@[simp] theorem tSetStartBand_host (b : BitVec 5) (s : State) : (tSetStartBand b s).host = s.host := rfl
@[simp] theorem tSetStartBand_pkt (b : BitVec 5) (s : State) : (tSetStartBand b s).pkt = s.pkt := rfl
@[simp] theorem tSetStartBand_out (b : BitVec 5) (s : State) : (tSetStartBand b s).out = s.out := rfl
@[simp] theorem tSetStartBand_tr (b : BitVec 5) (s : State) : (tSetStartBand b s).tr = s.tr := rfl
@[simp] theorem tSetStartBand_phase (b : BitVec 5) (s : State) : (tSetStartBand b s).phase = s.phase := rfl
@[simp] theorem tSetStartBand_parse (b : BitVec 5) (s : State) : (tSetStartBand b s).parse = s.parse := rfl
@[simp] theorem tSetStartBand_driver (b : BitVec 5) (s : State) : (tSetStartBand b s).driver = s.driver := rfl
@[simp] theorem tSetStartBand_frame (b : BitVec 5) (s : State) : (tSetStartBand b s).frame = s.frame := rfl
@[simp] theorem tSetStartBand_env (b : BitVec 5) (s : State) : (tSetStartBand b s).env = { s.env with calls := .tSetStartBand b :: s.env.calls } := rfl
@[simp] theorem tSetStartBand_fresh (b : BitVec 5) (s : State) : (tSetStartBand b s).fresh = s.fresh := rfl
@[simp] theorem tSetStartBand_inbox (b : BitVec 5) (s : State) : (tSetStartBand b s).inbox = s.inbox := rfl

@[simp] theorem tSetEndBand_constructed (b : BitVec 5) (s : State) : (tSetEndBand b s).constructed = s.constructed := rfl
@[simp] theorem tSetEndBand_dec (b : BitVec 5) (s : State) : (tSetEndBand b s).dec = s.dec := rfl
@[simp] theorem tSetEndBand_pctl (b : BitVec 5) (s : State) : (tSetEndBand b s).pctl = s.pctl := rfl
@[simp] theorem tSetEndBand_tctl (b : BitVec 5) (s : State) : (tSetEndBand b s).tctl = { s.tctl with endBand := b } := rfl
@[simp] theorem tSetEndBand_tSignalling (b : BitVec 5) (s : State) : (tSetEndBand b s).tSignalling = s.tSignalling := rfl
@[simp] theorem tSetEndBand_file (b : BitVec 5) (s : State) : (tSetEndBand b s).file = s.file := rfl
@[simp] theorem tSetEndBand_host (b : BitVec 5) (s : State) : (tSetEndBand b s).host = s.host := rfl
@[simp] theorem tSetEndBand_pkt (b : BitVec 5) (s : State) : (tSetEndBand b s).pkt = s.pkt := rfl
@[simp] theorem tSetEndBand_out (b : BitVec 5) (s : State) : (tSetEndBand b s).out = s.out := rfl
@[simp] theorem tSetEndBand_tr (b : BitVec 5) (s : State) : (tSetEndBand b s).tr = s.tr := rfl
@[simp] theorem tSetEndBand_phase (b : BitVec 5) (s : State) : (tSetEndBand b s).phase = s.phase := rfl
@[simp] theorem tSetEndBand_parse (b : BitVec 5) (s : State) : (tSetEndBand b s).parse = s.parse := rfl
@[simp] theorem tSetEndBand_driver (b : BitVec 5) (s : State) : (tSetEndBand b s).driver = s.driver := rfl
@[simp] theorem tSetEndBand_frame (b : BitVec 5) (s : State) : (tSetEndBand b s).frame = s.frame := rfl
@[simp] theorem tSetEndBand_env (b : BitVec 5) (s : State) : (tSetEndBand b s).env = { s.env with calls := .tSetEndBand b :: s.env.calls } := rfl
@[simp] theorem tSetEndBand_fresh (b : BitVec 5) (s : State) : (tSetEndBand b s).fresh = s.fresh := rfl
@[simp] theorem tSetEndBand_inbox (b : BitVec 5) (s : State) : (tSetEndBand b s).inbox = s.inbox := rfl

@[simp] theorem tSetChannels_constructed (c : BitVec 2) (s : State) : (tSetChannels c s).constructed = s.constructed := rfl
@[simp] theorem tSetChannels_dec (c : BitVec 2) (s : State) : (tSetChannels c s).dec = s.dec := rfl
@[simp] theorem tSetChannels_pctl (c : BitVec 2) (s : State) : (tSetChannels c s).pctl = s.pctl := rfl
@[simp] theorem tSetChannels_tctl (c : BitVec 2) (s : State) : (tSetChannels c s).tctl = { s.tctl with channels := c } := rfl
@[simp] theorem tSetChannels_tSignalling (c : BitVec 2) (s : State) : (tSetChannels c s).tSignalling = s.tSignalling := rfl
@[simp] theorem tSetChannels_file (c : BitVec 2) (s : State) : (tSetChannels c s).file = s.file := rfl
@[simp] theorem tSetChannels_host (c : BitVec 2) (s : State) : (tSetChannels c s).host = s.host := rfl
@[simp] theorem tSetChannels_pkt (c : BitVec 2) (s : State) : (tSetChannels c s).pkt = s.pkt := rfl
@[simp] theorem tSetChannels_out (c : BitVec 2) (s : State) : (tSetChannels c s).out = s.out := rfl
@[simp] theorem tSetChannels_tr (c : BitVec 2) (s : State) : (tSetChannels c s).tr = s.tr := rfl
@[simp] theorem tSetChannels_phase (c : BitVec 2) (s : State) : (tSetChannels c s).phase = s.phase := rfl
@[simp] theorem tSetChannels_parse (c : BitVec 2) (s : State) : (tSetChannels c s).parse = s.parse := rfl
@[simp] theorem tSetChannels_driver (c : BitVec 2) (s : State) : (tSetChannels c s).driver = s.driver := rfl
@[simp] theorem tSetChannels_frame (c : BitVec 2) (s : State) : (tSetChannels c s).frame = s.frame := rfl
@[simp] theorem tSetChannels_env (c : BitVec 2) (s : State) : (tSetChannels c s).env = { s.env with calls := .tSetChannels c :: s.env.calls } := rfl
@[simp] theorem tSetChannels_fresh (c : BitVec 2) (s : State) : (tSetChannels c s).fresh = s.fresh := rfl
@[simp] theorem tSetChannels_inbox (c : BitVec 2) (s : State) : (tSetChannels c s).inbox = s.inbox := rfl

@[simp] theorem tSetSignalling_constructed (v : Word) (s : State) : (tSetSignalling v s).constructed = s.constructed := rfl
@[simp] theorem tSetSignalling_dec (v : Word) (s : State) : (tSetSignalling v s).dec = s.dec := rfl
@[simp] theorem tSetSignalling_pctl (v : Word) (s : State) : (tSetSignalling v s).pctl = s.pctl := rfl
@[simp] theorem tSetSignalling_tctl (v : Word) (s : State) : (tSetSignalling v s).tctl = s.tctl := rfl
@[simp] theorem tSetSignalling_tSignalling (v : Word) (s : State) : (tSetSignalling v s).tSignalling = v := rfl
@[simp] theorem tSetSignalling_file (v : Word) (s : State) : (tSetSignalling v s).file = s.file := rfl
@[simp] theorem tSetSignalling_host (v : Word) (s : State) : (tSetSignalling v s).host = s.host := rfl
@[simp] theorem tSetSignalling_pkt (v : Word) (s : State) : (tSetSignalling v s).pkt = s.pkt := rfl
@[simp] theorem tSetSignalling_out (v : Word) (s : State) : (tSetSignalling v s).out = s.out := rfl
@[simp] theorem tSetSignalling_tr (v : Word) (s : State) : (tSetSignalling v s).tr = s.tr := rfl
@[simp] theorem tSetSignalling_phase (v : Word) (s : State) : (tSetSignalling v s).phase = s.phase := rfl
@[simp] theorem tSetSignalling_parse (v : Word) (s : State) : (tSetSignalling v s).parse = s.parse := rfl
@[simp] theorem tSetSignalling_driver (v : Word) (s : State) : (tSetSignalling v s).driver = s.driver := rfl
@[simp] theorem tSetSignalling_frame (v : Word) (s : State) : (tSetSignalling v s).frame = s.frame := rfl
@[simp] theorem tSetSignalling_env (v : Word) (s : State) : (tSetSignalling v s).env = { s.env with calls := .tSetSignalling v :: s.env.calls } := rfl
@[simp] theorem tSetSignalling_fresh (v : Word) (s : State) : (tSetSignalling v s).fresh = s.fresh := rfl
@[simp] theorem tSetSignalling_inbox (v : Word) (s : State) : (tSetSignalling v s).inbox = s.inbox := rfl

@[simp] theorem eInit_constructed (a n : Int) (s : State) : (eInit a n s).constructed = s.constructed := rfl
@[simp] theorem eInit_dec (a n : Int) (s : State) : (eInit a n s).dec = s.dec := rfl
@[simp] theorem eInit_pctl (a n : Int) (s : State) : (eInit a n s).pctl = s.pctl := rfl
@[simp] theorem eInit_tctl (a n : Int) (s : State) : (eInit a n s).tctl = s.tctl := rfl
@[simp] theorem eInit_tSignalling (a n : Int) (s : State) : (eInit a n s).tSignalling = s.tSignalling := rfl
@[simp] theorem eInit_file (a n : Int) (s : State) : (eInit a n s).file = s.file := rfl
@[simp] theorem eInit_host (a n : Int) (s : State) : (eInit a n s).host = s.host := rfl
@[simp] theorem eInit_pkt (a n : Int) (s : State) : (eInit a n s).pkt = s.pkt := rfl
@[simp] theorem eInit_out (a n : Int) (s : State) : (eInit a n s).out = s.out := rfl
@[simp] theorem eInit_tr (a n : Int) (s : State) : (eInit a n s).tr = s.tr := rfl
@[simp] theorem eInit_phase (a n : Int) (s : State) : (eInit a n s).phase = s.phase := rfl
@[simp] theorem eInit_parse (a n : Int) (s : State) : (eInit a n s).parse = s.parse := rfl
@[simp] theorem eInit_driver (a n : Int) (s : State) : (eInit a n s).driver = s.driver := rfl
@[simp] theorem eInit_frame (a n : Int) (s : State) : (eInit a n s).frame = { s.frame with ec := some { off := a, len := n } } := rfl
@[simp] theorem eInit_env (a n : Int) (s : State) : (eInit a n s).env = { s.env with calls := .eInit a n :: s.env.calls } := rfl
@[simp] theorem eInit_fresh (a n : Int) (s : State) : (eInit a n s).fresh = s.fresh := rfl
@[simp] theorem eInit_inbox (a n : Int) (s : State) : (eInit a n s).inbox = s.inbox := rfl

@[simp] theorem eShrinkStorage_constructed (n : Int) (s : State) : (eShrinkStorage n s).constructed = s.constructed := rfl
@[simp] theorem eShrinkStorage_dec (n : Int) (s : State) : (eShrinkStorage n s).dec = s.dec := rfl
@[simp] theorem eShrinkStorage_pctl (n : Int) (s : State) : (eShrinkStorage n s).pctl = s.pctl := rfl
@[simp] theorem eShrinkStorage_tctl (n : Int) (s : State) : (eShrinkStorage n s).tctl = s.tctl := rfl
@[simp] theorem eShrinkStorage_tSignalling (n : Int) (s : State) : (eShrinkStorage n s).tSignalling = s.tSignalling := rfl
@[simp] theorem eShrinkStorage_file (n : Int) (s : State) : (eShrinkStorage n s).file = s.file := rfl
@[simp] theorem eShrinkStorage_host (n : Int) (s : State) : (eShrinkStorage n s).host = s.host := rfl
@[simp] theorem eShrinkStorage_pkt (n : Int) (s : State) : (eShrinkStorage n s).pkt = s.pkt := rfl
@[simp] theorem eShrinkStorage_out (n : Int) (s : State) : (eShrinkStorage n s).out = s.out := rfl
@[simp] theorem eShrinkStorage_tr (n : Int) (s : State) : (eShrinkStorage n s).tr = s.tr := rfl
@[simp] theorem eShrinkStorage_phase (n : Int) (s : State) : (eShrinkStorage n s).phase = s.phase := rfl
@[simp] theorem eShrinkStorage_parse (n : Int) (s : State) : (eShrinkStorage n s).parse = s.parse := rfl
@[simp] theorem eShrinkStorage_driver (n : Int) (s : State) : (eShrinkStorage n s).driver = s.driver := rfl
@[simp] theorem eShrinkStorage_frame (n : Int) (s : State) : (eShrinkStorage n s).frame = { s.frame with ec := s.frame.ec.map fun c => { c with len := c.len - n } } := rfl
@[simp] theorem eShrinkStorage_env (n : Int) (s : State) : (eShrinkStorage n s).env = { s.env with calls := .eShrinkStorage n :: s.env.calls } := rfl
@[simp] theorem eShrinkStorage_fresh (n : Int) (s : State) : (eShrinkStorage n s).fresh = s.fresh := rfl
@[simp] theorem eShrinkStorage_inbox (n : Int) (s : State) : (eShrinkStorage n s).inbox = s.inbox := rfl

/-! Buffers. -/

@[simp] theorem bufFill_constructed (b : Buf) (base n : Nat) (f : Nat → Sample) (s : State) :
    (bufFill b base n f s).constructed = s.constructed := by cases b <;> rfl
@[simp] theorem bufFill_dec (b : Buf) (base n : Nat) (f : Nat → Sample) (s : State) :
    (bufFill b base n f s).dec = s.dec := by cases b <;> rfl
@[simp] theorem bufFill_pctl (b : Buf) (base n : Nat) (f : Nat → Sample) (s : State) :
    (bufFill b base n f s).pctl = s.pctl := by cases b <;> rfl
@[simp] theorem bufFill_tctl (b : Buf) (base n : Nat) (f : Nat → Sample) (s : State) :
    (bufFill b base n f s).tctl = s.tctl := by cases b <;> rfl
@[simp] theorem bufFill_tSignalling (b : Buf) (base n : Nat) (f : Nat → Sample) (s : State) :
    (bufFill b base n f s).tSignalling = s.tSignalling := by cases b <;> rfl
@[simp] theorem bufFill_file (b : Buf) (base n : Nat) (f : Nat → Sample) (s : State) :
    (bufFill b base n f s).file = s.file := by cases b <;> rfl
@[simp] theorem bufFill_host (b : Buf) (base n : Nat) (f : Nat → Sample) (s : State) :
    (bufFill b base n f s).host = s.host := by cases b <;> rfl
@[simp] theorem bufFill_pkt (b : Buf) (base n : Nat) (f : Nat → Sample) (s : State) :
    (bufFill b base n f s).pkt = s.pkt := by cases b <;> rfl
@[simp] theorem bufFill_phase (b : Buf) (base n : Nat) (f : Nat → Sample) (s : State) :
    (bufFill b base n f s).phase = s.phase := by cases b <;> rfl
@[simp] theorem bufFill_parse (b : Buf) (base n : Nat) (f : Nat → Sample) (s : State) :
    (bufFill b base n f s).parse = s.parse := by cases b <;> rfl
@[simp] theorem bufFill_driver (b : Buf) (base n : Nat) (f : Nat → Sample) (s : State) :
    (bufFill b base n f s).driver = s.driver := by cases b <;> rfl
@[simp] theorem bufFill_env (b : Buf) (base n : Nat) (f : Nat → Sample) (s : State) :
    (bufFill b base n f s).env = s.env := by cases b <;> rfl
@[simp] theorem bufFill_fresh (b : Buf) (base n : Nat) (f : Nat → Sample) (s : State) :
    (bufFill b base n f s).fresh = s.fresh := by cases b <;> rfl
@[simp] theorem bufFill_inbox (b : Buf) (base n : Nat) (f : Nat → Sample) (s : State) :
    (bufFill b base n f s).inbox = s.inbox := by cases b <;> rfl

/-- Of an invocation's registers, a write to a buffer changes the scratch buffers only. -/
theorem bufFill_frame (b : Buf) (base n : Nat) (f : Nat → Sample) (s : State) :
    (bufFill b base n f s).frame =
      { s.frame with ra := (bufFill b base n f s).frame.ra, ps := (bufFill b base n f s).frame.ps } := by
  cases b <;> rfl

/-- OUT is written by a write to OUT only. -/
theorem bufFill_out (b : Buf) (base n : Nat) (f : Nat → Sample) (s : State) :
    (bufFill b base n f s).out = if b = .pcm then s.out.fill base n f else s.out := by
  cases b <;> rfl

/-- A write to a buffer keeps OUT in canonical form. -/
theorem bufFill_out_wf {s : State} (h : s.out.wf = true) (b : Buf) (base n : Nat) (f : Nat → Sample) :
    (bufFill b base n f s).out.wf = true := by
  cases b
  · exact Memory.wf_fill h base n f
  all_goals exact h

/-- A read after a write to OUT. -/
theorem bufRead_bufFill_pcm {s : State} (h : s.out.wf = true) (base n : Nat) (f : Nat → Sample) (i : Nat) :
    bufRead .pcm i (bufFill .pcm base n f s) = if base ≤ i ∧ i < base + n then f (i - base) else bufRead .pcm i s :=
  Memory.read_fill h base n f i

/-- A read after a write to the look-ahead buffer. -/
theorem bufRead_bufFill_tr (s : State) (base n : Nat) (f : Nat → Sample) (i : Nat) :
    bufRead .tr i (bufFill .tr base n f s) = if base ≤ i ∧ i < base + n then f (i - base) else bufRead .tr i s := by
  simp only [bufRead, bufFill, scratchRead, State.setTr_tr, State.setTr_frame, Memory.lookup_putRange]
  split <;> rfl

/-- A read after a write to the redundancy buffer. -/
theorem bufRead_bufFill_ra (s : State) (base n : Nat) (f : Nat → Sample) (i : Nat) :
    bufRead .ra i (bufFill .ra base n f s) = if base ≤ i ∧ i < base + n then f (i - base) else bufRead .ra i s := by
  simp only [bufRead, bufFill, scratchRead, State.setFrame_frame, Memory.lookup_putRange]
  split <;> rfl

/-- A read after a write to the prediction buffer. -/
theorem bufRead_bufFill_ps (s : State) (base n : Nat) (f : Nat → Sample) (i : Nat) :
    bufRead .ps i (bufFill .ps base n f s) = if base ≤ i ∧ i < base + n then f (i - base) else bufRead .ps i s := by
  simp only [bufRead, bufFill, scratchRead, State.setFrame_frame, Memory.lookup_putRange]
  split <;> rfl

/-! The packet buffer. -/

/-- A packet byte after the host wrote bytes. -/
theorem pktRead_loadPacket {s : State} (h : s.pkt.wf = true) (off : Nat) (bytes : List Byte) (i : Nat) :
    pktRead (loadPacket off bytes s) i =
      if off ≤ i ∧ i < off + min bytes.length (pktSize - off) then bytes.getD (i - off) 0 else pktRead s i :=
  Memory.read_fill h _ _ _ i

/-- The host's write keeps PKT in canonical form. -/
theorem loadPacket_pkt_wf {s : State} (h : s.pkt.wf = true) (off : Nat) (bytes : List Byte) :
    (loadPacket off bytes s).pkt.wf = true := Memory.wf_fill h _ _ _

end Sys2Proof.Machine
end

