-- ==== Sys2Proof/Laws/Answers.lean ====
section
/-! SUPPORT. How a command's answer is recognised: an error or a result that leaves everything else alone. -/

namespace Sys2Proof.Machine

variable {i : Instr} {s t : State} {e : ErrCode} {w : Word}

theorem SameDecoder.refl (s : State) : SameDecoder s s := ⟨rfl, rfl, rfl, rfl, rfl⟩
theorem SameOutside.refl (s : State) : SameOutside s s := ⟨rfl, rfl, rfl, rfl, rfl, rfl, rfl⟩

/-- The end of a command changes nothing but the response and what is in progress. -/
theorem onlyAnswers_endCommand (resp : Word) (err : Bool) (s : State) : OnlyAnswers s (endCommand resp err s) :=
  ⟨⟨endCommand_constructed .., endCommand_dec .., endCommand_pctl .., endCommand_tctl .., endCommand_tSignalling ..⟩,
    ⟨endCommand_pkt .., endCommand_out .., by simp, by simp, by simp, by simp, endCommand_inbox ..⟩, endCommand_file ..,
    endCommand_env .., ⟨by simp, by simp, by simp, by simp, by simp⟩⟩

theorem OnlyAnswers.setParse (p : ParseRegs) (h : OnlyAnswers (s.setParse p) t) : OnlyAnswers s t :=
  ⟨⟨h.decoder.constructed, h.decoder.dec, h.decoder.pctl, h.decoder.tctl, h.decoder.tSignalling⟩,
    ⟨h.outside.pkt, h.outside.out, h.outside.cmd, h.outside.arg0, h.outside.arg1, h.outside.arg2, h.outside.inbox⟩,
    h.file, h.env, h.between⟩

/-- An error of PFF's own, with nothing changed before it. -/
theorem raisesOnly_self (h : exec i s = raises e s) : RaisesOnly i s e :=
  ⟨_, h, ⟨by simp, by simp⟩, onlyAnswers_endCommand ..⟩

/-- An error of PFF's own, with only parse working registers changed before it. -/
theorem raisesOnly_setParse (p : ParseRegs) (h : exec i s = raises e (s.setParse p)) : RaisesOnly i s e :=
  ⟨_, h, ⟨by simp, by simp⟩, (onlyAnswers_endCommand ..).setParse p⟩

/-- A result, with nothing changed before it. -/
theorem answersOnly_self (h : exec i s = .next (respondWord w s)) : AnswersOnly i s w :=
  ⟨_, h, ⟨by simp, by simp⟩, onlyAnswers_endCommand ..⟩

end Sys2Proof.Machine
end

