-- ==== Sys2Proof/Laws/Flow.lean ====
section
/-! SUPPORT. The laws of sequencing: what holds of every state a sequence of rules ends in. -/

namespace Sys2Proof.Machine

@[simp] theorem Flow.andThen_go (s : State) (k : State → Flow) : (Flow.go s).andThen k = k s := rfl
@[simp] theorem Flow.andThen_done (r : Int) (s : State) (k : State → Flow) : (Flow.done r s).andThen k = .done r s := rfl
@[simp] theorem Flow.andThen_fault (f : Fault) (k : State → Flow) : (Flow.fault f).andThen k = .fault f := rfl
@[simp] theorem Flow.settle_go (s : State) (k : State → State) : (Flow.go s).settle k = .next (k s) := rfl
@[simp] theorem Flow.settle_done (r : Int) (s : State) (k : State → State) :
    (Flow.done r s).settle k = .next (raiseErr r s) := rfl
@[simp] theorem Flow.settle_fault (f : Fault) (k : State → State) : (Flow.fault f).settle k = .fault f := rfl

theorem Flow.andThen_assoc (m : Flow) (k l : State → Flow) :
    (m.andThen k).andThen l = m.andThen fun s => (k s).andThen l := by
  cases m <;> rfl

/-- What a flow comes to: `G` of the state it goes on in, `D` of the result and state it ends in, `F` of its fault. -/
def Flow.Post (G : State → Prop) (D : Int → State → Prop) (F : Fault → Prop) : Flow → Prop
  | .go s => G s
  | .done r s => D r s
  | .fault f => F f

/-- Every state a flow may come to, going on or ending, has the property. -/
abbrev Flow.All (P : State → Prop) : Flow → Prop := Flow.Post P (fun _ => P) fun _ => True

variable {G G' : State → Prop} {D D' : Int → State → Prop} {F : Fault → Prop}

@[simp] theorem Flow.post_go (s : State) : (Flow.go s).Post G D F ↔ G s := Iff.rfl
@[simp] theorem Flow.post_done (r : Int) (s : State) : (Flow.done r s).Post G D F ↔ D r s := Iff.rfl
@[simp] theorem Flow.post_err (e : ErrCode) (s : State) : (Flow.err e s).Post G D F ↔ D e.code s := Iff.rfl
@[simp] theorem Flow.post_fault (f : Fault) : (Flow.fault f).Post G D F ↔ F f := Iff.rfl

theorem Flow.Post.mono {m : Flow} (h : m.Post G D F) (hg : ∀ s, G s → G' s) (hd : ∀ r s, D r s → D' r s) :
    m.Post G' D' F := by
  cases m with
  | go s => exact hg s h
  | done r s => exact hd r s h
  | fault f => exact h

/-- A flow that branches. -/
theorem Flow.Post.ite {c : Prop} [Decidable c] {m m' : Flow} (h : c → m.Post G D F) (h' : ¬c → m'.Post G D F) :
    (if c then m else m').Post G D F := by
  by_cases hc : c
  · rw [if_pos hc]; exact h hc
  · rw [if_neg hc]; exact h' hc

theorem Flow.Post.andThen {m : Flow} {k : State → Flow} (h : m.Post G D F) (hk : ∀ s, G s → (k s).Post G' D F) :
    (m.andThen k).Post G' D F := by
  cases m with
  | go s => exact hk s h
  | done r s => exact h
  | fault f => exact h

/-- Two facts about the same flow. -/
theorem Flow.Post.and {m : Flow} {P : State → Prop} (h : m.Post G D F) (ha : m.All P) :
    m.Post (fun s => G s ∧ P s) (fun r s => D r s ∧ P s) F := by
  cases m with
  | go s => exact ⟨h, ha⟩
  | done r s => exact ⟨h, ha⟩
  | fault f => exact h

/-- A relation that every step of a sequence keeps, from whatever state it starts in. -/
theorem Flow.All.andThen_trans {R : State → State → Prop} (htrans : ∀ a b c, R a b → R b c → R a c) {s : State}
    {m : Flow} {k : State → Flow} (h : m.All (R s)) (hk : ∀ t, (k t).All (R t)) : (m.andThen k).All (R s) :=
  Flow.Post.andThen h fun t ht => (hk t).mono (fun u hu => htrans s t u ht hu) fun _ u hu => htrans s t u ht hu

end Sys2Proof.Machine
end

