-- ==== Sys2Proof/Laws/Engines.lean ====
section
/-! SUPPORT. What an engine call can do: it records itself, takes its draw, writes the buffer it was given, and goes on; or
it is the fault `engineContract`. -/

namespace Sys2Proof.Machine

/-- Everything an engine call with a reply leaves alone: all but the engines, the sample buffers and the controls. -/
structure EngineStep (s t : State) : Prop where
  constructed : t.constructed = s.constructed
  dec : t.dec = s.dec
  pctl : t.pctl = s.pctl
  tctl : t.tctl = s.tctl
  tSignalling : t.tSignalling = s.tSignalling
  file : t.file = s.file
  host : t.host = s.host
  pkt : t.pkt = s.pkt
  phase : t.phase = s.phase
  parse : t.parse = s.parse
  driver : t.driver = s.driver
  frame : t.frame = { s.frame with ra := t.frame.ra, ps := t.frame.ps }
  fresh : t.fresh = s.fresh
  inbox : t.inbox = s.inbox
  out : s.out.wf = true → t.out.wf = true

theorem EngineStep.refl (s : State) : EngineStep s s := by
  constructor <;> first | rfl | exact id

theorem EngineStep.trans {s t u : State} (h : EngineStep s t) (h' : EngineStep t u) : EngineStep s u where
  constructed := h'.constructed.trans h.constructed
  dec := h'.dec.trans h.dec
  pctl := h'.pctl.trans h.pctl
  tctl := h'.tctl.trans h.tctl
  tSignalling := h'.tSignalling.trans h.tSignalling
  file := h'.file.trans h.file
  host := h'.host.trans h.host
  pkt := h'.pkt.trans h.pkt
  phase := h'.phase.trans h.phase
  parse := h'.parse.trans h.parse
  driver := h'.driver.trans h.driver
  frame := by rw [h'.frame, h.frame]
  fresh := h'.fresh.trans h.fresh
  inbox := h'.inbox.trans h.inbox
  out := fun hw => h'.out (h.out hw)

/-- Recording a call and taking a draw. -/
theorem EngineStep.setEnv (s : State) (e : Engines) : EngineStep s (s.setEnv e) := by
  constructor <;> first | rfl | exact id

/-- Writing a buffer. -/
theorem EngineStep.bufFill (b : Buf) (base n : Nat) (f : Nat → Sample) (s : State) :
    EngineStep s (bufFill b base n f s) := by
  constructor <;> first | exact bufFill_frame b base n f s | exact (bufFill_out_wf · b base n f) | simp

variable {G : State → Prop} {D : Int → State → Prop} {F : Fault → Prop}

/-- `E.Tell` answers at least 1 and goes on. -/
theorem eTell_post {s : State} {k : Int → State → Flow} (hF : F .engineContract)
    (h : ∀ v t, EngineStep s t → t.out = s.out → 1 ≤ v → (k v t).Post G D F) : (eTell s k).Post G D F := by
  unfold eTell
  simp only
  split
  · exact hF
  · rename_i hv
    exact h _ _ (EngineStep.setEnv s _) rfl (by omega)

/-- `E.BitLogp` answers a bit and goes on. -/
theorem eBitLogp_post {n : Nat} {s : State} {k : Bool → State → Flow}
    (h : ∀ v t, EngineStep s t → t.out = s.out → (k v t).Post G D F) : (eBitLogp n s k).Post G D F :=
  h _ _ (EngineStep.setEnv s _) rfl

/-- `E.Uint(ft)` answers a value below `ft` and goes on. -/
theorem eUint_post {ft : Nat} {s : State} {k : Int → State → Flow} (hF : F .engineContract)
    (h : ∀ v t, EngineStep s t → t.out = s.out → 0 ≤ v → v < ft → (k v t).Post G D F) : (eUint ft s k).Post G D F := by
  unfold eUint
  simp only
  split
  · exact hF
  · rename_i hv
    exact h _ _ (EngineStep.setEnv s _) rfl (by omega) (by omega)

theorem eRng_step (s : State) : EngineStep s (eRng s).2 := EngineStep.setEnv s _
theorem tGetFinalRange_step (s : State) : EngineStep s (tGetFinalRange s).2 := EngineStep.setEnv s _
theorem tGetPitch_step (s : State) : EngineStep s (tGetPitch s).2 := EngineStep.setEnv s _
theorem pPrevPitchLag_step (s : State) : EngineStep s (pPrevPitchLag s).2 := EngineStep.setEnv s _

/-- What writing a buffer leaves alone in OUT: everything but the range written, and everything if it is another buffer. -/
def OutWithin (b : Buf) (lo n : Nat) (s t : State) : Prop :=
  s.out.wf = true → ∀ i, (b = .pcm → i < lo ∨ lo + n ≤ i) → t.out.read i = s.out.read i

theorem OutWithin.refl (b : Buf) (lo n : Nat) (s : State) : OutWithin b lo n s s := fun _ _ _ => rfl

theorem outWithin_bufFill (b : Buf) (lo n : Nat) (f : Nat → Sample) (s : State) :
    OutWithin b lo n s (bufFill b lo n f s) := by
  intro h i hi
  cases b
  · have := hi rfl
    simp only [bufFill, State.setOut_out]
    rw [Memory.read_fill h, if_neg (by omega)]
  all_goals rfl

theorem OutWithin.mono {b : Buf} {lo n lo' n' : Nat} {s t : State} (h : OutWithin b lo' n' s t) (hlo : lo ≤ lo')
    (hn : lo' + n' ≤ lo + n) : OutWithin b lo n s t :=
  fun hw i hi => h hw i fun hb => by have := hi hb; omega

theorem OutWithin.setEnv {b : Buf} {lo n : Nat} {s t : State} {e : Engines} (h : OutWithin b lo n (s.setEnv e) t) :
    OutWithin b lo n s t := h

/-- `P.Decode` succeeds with at least one sample per channel that fit its target, or fails; it writes its target only. -/
theorem pDecode_post {lost : Nat} {decoded cap : Int} {b : Buf} {base : Nat} {s : State} {k : Int → Int → State → Flow}
    (hF : F .engineContract)
    (h : ∀ ret n t, EngineStep s t → (ret = 0 → 1 ≤ n ∧ decoded + n ≤ cap) →
      OutWithin b (base + (decoded * chans s).toNat) ((cap - decoded) * chans s).toNat s t → (k ret n t).Post G D F) :
    (pDecode lost decoded cap b base s k).Post G D F := by
  unfold pDecode
  simp only
  split
  · split
    · exact hF
    · rename_i hbad
      simp only [not_or, Int.not_lt, ne_eq, Decidable.not_not] at hbad
      refine h _ _ _ ((EngineStep.setEnv s _).trans (EngineStep.bufFill _ _ _ _ _)) (fun _ => ⟨hbad.1, hbad.2.1⟩) ?_
      refine OutWithin.setEnv ((outWithin_bufFill _ _ _ _ _).mono (Nat.le_refl _) (Nat.add_le_add_left ?_ _))
      have h1 := Int.mul_le_mul_of_nonneg_right (Int.le_sub_left_of_add_le hbad.2.1) (Int.natCast_nonneg (chans s))
      have h2 := hbad.2.2
      omega
  · rename_i hret
    refine h _ _ _ ((EngineStep.setEnv s _).trans (EngineStep.bufFill _ _ _ _ _)) (fun h0 => absurd h0 hret) ?_
    exact OutWithin.setEnv ((outWithin_bufFill _ _ _ _ _).mono (Nat.le_refl _) (Nat.add_le_add_left (Nat.min_le_right _ _) _))

/-- `T.Decode` succeeds, or fails with an error code; it writes its output only. -/
theorem tDecode_post {src : Option ByteSource} {nBytes : Int} {b : Buf} {idx n : Nat} {ec : Option Cursor} {accum : Bool}
    {s : State} {k : Int → State → Flow} (hF : F .engineContract)
    (h : ∀ ret t, EngineStep s t → (ret < 0 → isErrorCode ret = true) → OutWithin b idx (n * chans s) s t →
      (k ret t).Post G D F) :
    (tDecode src nBytes b idx n ec accum s k).Post G D F := by
  unfold tDecode
  simp only
  split
  · rename_i hret
    split
    · exact hF
    · rename_i hlen
      simp only [ne_eq, Decidable.not_not] at hlen
      split
      all_goals
        refine h _ _ ((EngineStep.setEnv s _).trans (EngineStep.bufFill _ _ _ _ _)) (fun h0 => by omega) ?_
        rw [hlen]
        exact OutWithin.setEnv (outWithin_bufFill _ _ _ _ _)
  · split
    · rename_i hcode
      refine h _ _ ((EngineStep.setEnv s _).trans (EngineStep.bufFill _ _ _ _ _)) (fun _ => hcode) ?_
      exact OutWithin.setEnv ((outWithin_bufFill _ _ _ _ _).mono (Nat.le_refl _) (Nat.add_le_add_left (Nat.min_le_right _ _) _))
    · exact hF

end Sys2Proof.Machine
end

