-- ==== Sys2Proof/Laws/Frame.lean ====
section
/-! SUPPORT. What DECODE_FRAME leaves alone, from any state (42_frame_fsm.md R200 "State written", R238 law 2). -/

namespace Sys2Proof.Machine

/-- What an invocation of DECODE_FRAME leaves alone. -/
structure FrameKeeps (s t : State) : Prop where
  constructed : t.constructed = s.constructed
  dec : t.dec = { s.dec with prevMode := t.dec.prevMode, prevRedundancy := t.dec.prevRedundancy,
                             rangeFinal := t.dec.rangeFinal }
  pctl : t.pctl = { s.pctl with nChannelsInternal := t.pctl.nChannelsInternal,
                                internalSampleRate := t.pctl.internalSampleRate,
                                payloadSizeMs := t.pctl.payloadSizeMs }
  tSignalling : t.tSignalling = s.tSignalling
  file : t.file = s.file
  host : t.host = s.host
  pkt : t.pkt = s.pkt
  phase : t.phase = s.phase
  parse : t.parse = s.parse
  driver : t.driver = s.driver
  inbox : t.inbox = s.inbox
  out : s.out.wf = true → t.out.wf = true

theorem FrameKeeps.refl (s : State) : FrameKeeps s s := by
  constructor <;> first | rfl | exact id

theorem FrameKeeps.trans {s t u : State} (h : FrameKeeps s t) (h' : FrameKeeps t u) : FrameKeeps s u where
  constructed := h'.constructed.trans h.constructed
  dec := by rw [h'.dec, h.dec]
  pctl := by rw [h'.pctl, h.pctl]
  tSignalling := h'.tSignalling.trans h.tSignalling
  file := h'.file.trans h.file
  host := h'.host.trans h.host
  pkt := h'.pkt.trans h.pkt
  phase := h'.phase.trans h.phase
  parse := h'.parse.trans h.parse
  driver := h'.driver.trans h.driver
  inbox := h'.inbox.trans h.inbox
  out := fun hw => h'.out (h.out hw)

theorem EngineStep.keeps {s t : State} (h : EngineStep s t) : FrameKeeps s t where
  constructed := h.constructed
  dec := by rw [h.dec]
  pctl := by rw [h.pctl]
  tSignalling := h.tSignalling
  file := h.file
  host := h.host
  pkt := h.pkt
  phase := h.phase
  parse := h.parse
  driver := h.driver
  inbox := h.inbox
  out := h.out

theorem keeps_setFrame (s : State) (f : FrameRegs) : FrameKeeps s (s.setFrame f) := by
  constructor <;> first | rfl | exact id
theorem keeps_setFresh (s : State) (n : Nat) : FrameKeeps s (s.setFresh n) := by
  constructor <;> first | rfl | exact id
theorem keeps_logCall (s : State) (c : EngineCall) : FrameKeeps s (logCall c s) := by
  constructor <;> first | rfl | exact id
theorem keeps_pInit (s : State) : FrameKeeps s (pInit s) := by
  constructor <;> first | rfl | exact id
theorem keeps_tReset (s : State) : FrameKeeps s (tReset s) := by
  constructor <;> first | rfl | exact id
theorem keeps_tSetStartBand (s : State) (b : BitVec 5) : FrameKeeps s (tSetStartBand b s) := by
  constructor <;> first | rfl | exact id
theorem keeps_tSetEndBand (s : State) (b : BitVec 5) : FrameKeeps s (tSetEndBand b s) := by
  constructor <;> first | rfl | exact id
theorem keeps_tSetChannels (s : State) (c : BitVec 2) : FrameKeeps s (tSetChannels c s) := by
  constructor <;> first | rfl | exact id
theorem keeps_eInit (s : State) (a n : Int) : FrameKeeps s (eInit a n s) := by
  constructor <;> first | rfl | exact id
theorem keeps_eShrinkStorage (s : State) (n : Int) : FrameKeeps s (eShrinkStorage n s) := by
  constructor <;> first | rfl | exact id
theorem keeps_bufFill (s : State) (b : Buf) (base n : Nat) (f : Nat → Sample) : FrameKeeps s (bufFill b base n f s) :=
  (EngineStep.bufFill b base n f s).keeps
theorem keeps_outFill (s : State) (base n : Nat) (f : Nat → Sample) : FrameKeeps s (outFill base n f s) :=
  keeps_bufFill s _ _ _ _
theorem keeps_spoilRegion (s : State) : FrameKeeps s (spoilRegion s) :=
  (keeps_outFill s _ _ _).trans (keeps_setFresh _ _)

/-- A flow keeps what DECODE_FRAME leaves alone. -/
abbrev Kept (s : State) (m : Flow) : Prop := m.All (FrameKeeps s)

theorem Kept.trans {s t : State} {m : Flow} (h : FrameKeeps s t) (hm : Kept t m) : Kept s m :=
  Flow.Post.mono hm (fun _ hu => h.trans hu) fun _ _ hu => h.trans hu

theorem Kept.andThen {s : State} {m : Flow} {k : State → Flow} (h : Kept s m) (hk : ∀ t, Kept t (k t)) :
    Kept s (m.andThen k) :=
  Flow.All.andThen_trans (R := FrameKeeps) (fun _ _ _ => FrameKeeps.trans) h hk

theorem kept_go {s t : State} (h : FrameKeeps s t) : Kept s (.go t) := h
theorem kept_done {s t : State} {r : Int} (h : FrameKeeps s t) : Kept s (.done r t) := h

/-- A nested invocation keeps what it should. -/
def NestedKeeps (nested : FrameArgs → State → FrameResult) : Prop :=
  ∀ a s r t, nested a s = .ok (r, t) → FrameKeeps s t

variable {nested : FrameArgs → State → FrameResult}

theorem kept_callNested (hn : NestedKeeps nested) {a : FrameArgs} {s : State} {k : Int → State → Flow}
    (hk : ∀ r t, FrameKeeps s t → Kept s (k r t)) : Kept s (callNested nested a s k) := by
  unfold callNested
  split
  · trivial
  · rename_i r s1 heq
    exact hk _ _ ((hn _ _ _ _ heq).trans (keeps_setFrame _ _))

theorem kept_atStep (n : Nat) (s : State) : Kept s (atStep n s) := keeps_setFrame s _
theorem kept_rule202 (s : State) : Kept s (rule202 s) := by unfold rule202; split <;> exact .refl s
theorem kept_rule203 (s : State) : Kept s (rule203 s) := keeps_setFrame s _
theorem kept_rule204 (s : State) : Kept s (rule204 s) := by unfold rule204; split <;> exact keeps_setFrame s _
theorem kept_rule205 (s : State) : Kept s (rule205 s) := by
  unfold rule205
  split
  · exact (keeps_setFrame s _).trans (keeps_eInit _ _ _)
  · exact keeps_setFrame s _
theorem kept_rule206 (s : State) : Kept s (rule206 s) := by
  unfold rule206
  split
  · exact keeps_outFill s _ _ _
  · exact .refl s
theorem kept_chunkLoop (hn : NestedKeeps nested) (fuel : Nat) (made : Int) (s : State) :
    Kept s (chunkLoop nested fuel made s) := by
  induction fuel generalizing made s with
  | zero => trivial
  | succ fuel ih =>
    refine kept_callNested hn fun r t ht => ?_
    split
    · exact ht
    · simp only
      split
      · exact ht.trans (keeps_setFrame _ _)
      · exact (ih _ _).trans (ht.trans (keeps_setFrame _ _))
theorem kept_rule207 (hn : NestedKeeps nested) (s : State) : Kept s (rule207 nested s) := by
  unfold rule207
  split
  · exact kept_chunkLoop hn _ _ _
  · exact .refl s
theorem kept_rule208 (s : State) : Kept s (rule208 s) := by
  unfold rule208; split <;> exact keeps_setFrame s _
theorem kept_rule209 (s : State) : Kept s (rule209 s) := keeps_setFrame s _
theorem kept_rule210 (s : State) : Kept s (rule210 s) := keeps_setFrame s _
theorem kept_rule211 (s : State) : Kept s (rule211 s) := keeps_setFrame s _
theorem kept_lookAhead (hn : NestedKeeps nested) (s : State) : Kept s (lookAhead nested s) :=
  kept_callNested hn fun _ _ ht => ht
theorem kept_rule212 (hn : NestedKeeps nested) (s : State) : Kept s (rule212 nested s) := by
  unfold rule212; split <;> first | exact kept_lookAhead hn s | exact .refl s
theorem kept_rule213 (s : State) : Kept s (rule213 s) := by
  unfold rule213; split <;> first | exact .refl s | exact keeps_setFrame s _
theorem kept_rule215 (s : State) : Kept s (rule215 s) := by
  unfold rule215; split <;> first | exact keeps_pInit s | exact .refl s
theorem keeps_payload (s : State) (v : BitVec 8) : FrameKeeps s (s.setPctl { s.pctl with payloadSizeMs := v }) := by
  constructor <;> first | rfl | exact id
theorem kept_rule216 (s : State) : Kept s (rule216 s) := by
  unfold rule216; split <;> exact keeps_payload s _
theorem keeps_internal (s : State) (v : BitVec 2) (r : BitVec 16) :
    FrameKeeps s (s.setPctl { s.pctl with nChannelsInternal := v, internalSampleRate := r }) := by
  constructor <;> first | rfl | exact id
theorem kept_rule217 (s : State) : Kept s (rule217 s) := by
  unfold rule217; split <;> exact keeps_internal s _ _
theorem keeps_silencePred (d : Int) (s : State) : FrameKeeps s (silencePred d s) := keeps_bufFill s _ _ _ _
theorem kept_predLoop (fuel : Nat) (d : Int) (s : State) : Kept s (predLoop fuel d s) := by
  induction fuel generalizing d s with
  | zero => trivial
  | succ fuel ih =>
    refine pDecode_post trivial fun ret n t ht _ _ => ?_
    refine Flow.Post.ite (fun _ => ht.keeps.trans (keeps_spoilRegion t)) fun _ => ?_
    have h1 : FrameKeeps s (if ret ≠ 0 then silencePred d t else t) := by
      split
      · exact ht.keeps.trans (keeps_silencePred _ _)
      · exact ht.keeps
    exact Flow.Post.ite (fun _ => h1) fun _ => (ih _ _).trans h1
theorem kept_rule218 (s : State) : Kept s (rule218 s) := by
  unfold rule218; split <;> first | exact kept_predLoop _ _ _ | exact .refl s
theorem kept_redundancyTake (n : Int) (s : State) : Kept s (redundancyTake n s) := by
  refine eTell_post trivial fun v t ht _ _ => ?_
  have h := (keeps_setFrame s _).trans ht.keeps
  split
  · exact h.trans ((keeps_setFrame _ _).trans (keeps_eShrinkStorage _ _))
  · exact h.trans (keeps_eShrinkStorage _ _)
theorem kept_redundancyRead (s : State) : Kept s (redundancyRead s) := by
  refine eBitLogp_post fun b t ht _ => ?_
  have h := ((keeps_setFrame s _).trans ht.keeps).trans (keeps_setFrame t { t.frame with celtToSilk := b })
  simp only
  split
  · exact eUint_post trivial fun v u hu _ _ _ => (kept_redundancyTake _ _).trans (h.trans hu.keeps)
  · exact eTell_post trivial fun v u hu _ _ => (kept_redundancyTake _ _).trans (h.trans hu.keeps)
theorem kept_rule219 (s : State) : Kept s (rule219 s) := by
  unfold rule219
  split
  · refine eTell_post trivial fun v t ht _ _ => ?_
    refine Flow.Post.ite (fun _ => Flow.Post.ite (fun _ => eBitLogp_post fun b u hu _ => ?_) fun _ => ?_) fun _ => ht.keeps
    · exact Flow.Post.ite (fun _ => (kept_redundancyRead _).trans (ht.keeps.trans hu.keeps))
        fun _ => ht.keeps.trans hu.keeps
    · exact (kept_redundancyRead _).trans ht.keeps
  · exact .refl s
theorem kept_rule220 (s : State) : Kept s (rule220 s) := keeps_setFrame s _
theorem kept_rule221 (s : State) : Kept s (rule221 s) := (keeps_tSetEndBand s _).trans (keeps_tSetChannels _ _)
theorem kept_rule222 (s : State) : Kept s (rule222 s) := keeps_setFrame s _
theorem kept_rule223 (hn : NestedKeeps nested) (s : State) : Kept s (rule223 nested s) := by
  unfold rule223; split <;> first | exact kept_lookAhead hn s | exact .refl s
theorem kept_decodeRedundancy (s : State) : Kept s (decodeRedundancy s) :=
  tDecode_post trivial fun _ t ht _ _ =>
    (ht.keeps.trans (tGetFinalRange_step t).keeps).trans (keeps_setFrame _ _)
theorem kept_rule224 (s : State) : Kept s (rule224 s) := by
  unfold rule224
  split
  · exact (kept_decodeRedundancy _).trans (keeps_tSetStartBand s 0)
  · exact .refl s
theorem kept_rule225 (s : State) : Kept s (rule225 s) := keeps_tSetStartBand s _
theorem kept_rule226 (s : State) : Kept s (rule226 s) := by
  unfold rule226
  split
  · simp only
    refine tDecode_post trivial fun _ t ht _ _ => ?_
    refine FrameKeeps.trans ?_ (ht.keeps.trans (keeps_setFrame _ _))
    split <;> first | exact keeps_tReset s | exact .refl s
  · exact .refl s
theorem kept_rule227 (s : State) : Kept s (rule227 s) := by
  unfold rule227
  split
  · exact (keeps_outFill s _ _ _).trans (keeps_setFrame _ _)
  · exact .refl s
theorem kept_rule228 (s : State) : Kept s (rule228 s) := by
  unfold rule228
  split
  · simp only
    have h : FrameKeeps s (if s.frame.celtAccum then s else outFill 0 (words s.frame.fsz s) (fun _ => 0) s) := by
      split
      · exact .refl s
      · exact keeps_outFill s _ _ _
    split
    · exact tDecode_post trivial fun _ t ht _ _ => (h.trans (keeps_tSetStartBand _ _)).trans ht.keeps
    · exact h
  · exact .refl s
theorem kept_rule229 (s : State) : Kept s (rule229 s) := by
  unfold rule229; split <;> first | exact keeps_outFill s _ _ _ | exact .refl s
theorem keeps_fadeInto (base : Nat) (n : Int) (f g : Nat → Sample) (s : State) : FrameKeeps s (fadeInto base n f g s) :=
  keeps_outFill s _ _ _
theorem kept_rule230 (s : State) : Kept s (rule230 s) := by
  unfold rule230
  split
  · exact Kept.andThen ((kept_decodeRedundancy _).trans ((keeps_tReset s).trans (keeps_tSetStartBand _ _)))
      fun t => keeps_fadeInto _ _ _ _ t
  · exact .refl s
theorem kept_rule231 (s : State) : Kept s (rule231 s) := by
  unfold rule231
  split
  · exact (keeps_outFill s _ _ _).trans (keeps_fadeInto _ _ _ _ _)
  · exact .refl s
theorem kept_rule232 (s : State) : Kept s (rule232 s) := by
  unfold rule232
  split
  · split
    · exact keeps_fadeInto _ _ _ _ s
    · exact keeps_outFill s _ _ _
  · exact .refl s
theorem kept_rule234 (s : State) : Kept s (rule234 s) := by
  unfold rule234; split <;> first | exact keeps_outFill s _ _ _ | exact .refl s
theorem keeps_rangeFinal (s : State) (v : Word) : FrameKeeps s (s.setDec { s.dec with rangeFinal := v }) := by
  constructor <;> first | rfl | exact id
theorem kept_rule235 (s : State) : Kept s (rule235 s) := by
  unfold rule235
  split
  · exact keeps_rangeFinal s 0
  · exact (eRng_step s).keeps.trans (keeps_rangeFinal _ _)
theorem keeps_fsm (s : State) (m : Mode) (b : Bool) :
    FrameKeeps s (s.setDec { s.dec with prevMode := m, prevRedundancy := b }) := by
  constructor <;> first | rfl | exact id
theorem kept_rule236 (s : State) : Kept s (rule236 s) := keeps_fsm s _ _
theorem keeps_rule237 (s : State) : FrameKeeps s (rule237 s).2 := by
  unfold rule237; split <;> first | exact keeps_spoilRegion s | exact .refl s

/-- Rules that each keep something keep it run in order. -/
theorem kept_runRules {rs : List (State → Flow)} (h : ∀ r ∈ rs, ∀ s, Kept s (r s)) (s : State) :
    Kept s (runRules rs s) := by
  induction rs generalizing s with
  | nil => exact .refl s
  | cons r rs ih =>
    exact Kept.andThen (h r List.mem_cons_self s) (ih fun q hq => h q (List.mem_cons_of_mem _ hq))

theorem kept_frameRules (hn : NestedKeeps nested) : ∀ r ∈ frameRules nested, ∀ s, Kept s (r s) := by
  simp only [frameRules, List.forall_mem_cons]
  exact ⟨kept_atStep 1, kept_rule202, kept_rule203, kept_atStep 2, kept_rule204, kept_rule205, kept_rule206,
    kept_rule207 hn, kept_rule208, kept_rule209, kept_rule210, kept_atStep 3, kept_rule211, kept_rule212 hn, kept_rule213,
    kept_atStep 4, kept_rule215, kept_rule216, kept_rule217, kept_rule218, kept_atStep 5, kept_rule219, kept_rule220,
    kept_rule221, kept_rule222, kept_rule223 hn, kept_rule224, kept_atStep 6, kept_rule225, kept_rule226, kept_rule227,
    kept_rule228, kept_atStep 7, kept_rule229, kept_atStep 8, kept_rule230, kept_rule231, kept_atStep 9, kept_rule232,
    kept_atStep 10, kept_rule234, kept_atStep 11, kept_rule235, kept_rule236, fun _ h => nomatch h⟩

theorem keeps_frameEnter (a : FrameArgs) (s : State) : FrameKeeps s (frameEnter a s) :=
  (keeps_setFrame s _).trans (keeps_setFresh _ _)

theorem keeps_decodeFrameWith (hn : NestedKeeps nested) {a : FrameArgs} {s : State} {r : Int} {t : State}
    (h : decodeFrameWith nested a s = .ok (r, t)) : FrameKeeps s t := by
  have hk := (kept_runRules (kept_frameRules hn) (frameEnter a s)).trans (keeps_frameEnter a s)
  unfold decodeFrameWith at h
  generalize runRules (frameRules nested) (frameEnter a s) = m at h hk
  cases m with
  | go u =>
    simp only [Flow.close, Except.ok.injEq] at h
    have := keeps_rule237 u
    rw [h] at this
    exact FrameKeeps.trans hk this
  | done r' u =>
    simp only [Flow.close, Except.ok.injEq, Prod.mk.injEq] at h
    exact h.2 ▸ hk
  | fault f => simp [Flow.close] at h

theorem nestedKeeps_none : NestedKeeps fun _ _ => .error .stuck := fun _ _ _ _ h => by simp at h

theorem nestedKeeps_decodeFrameNested : NestedKeeps decodeFrameNested :=
  fun _ _ _ _ h => keeps_decodeFrameWith nestedKeeps_none h

/-- An invocation that returns keeps everything it should, from any state. -/
theorem keeps_decodeFrame {a : FrameArgs} {s : State} {r : Int} {t : State} (h : decodeFrame a s = .ok (r, t)) :
    FrameKeeps s t := keeps_decodeFrameWith nestedKeeps_decodeFrameNested h

end Sys2Proof.Machine
end

