-- ==== Sys2Proof/Laws/Legal.lean ====
section
/-! SUPPORT. What DECODE_FRAME comes to in a legal decoder state: its result, what it writes, that it stays legal, and
that its only fault is an engine's (42_frame_fsm.md R238, R239, 43_driver.md R262, 20_memory.md R67). -/

namespace Sys2Proof.Machine

/-- The sizes of a legal rate, all multiples of 2.5 ms (00_scope.md R8), and the last committed frame size. -/
theorem LegalDecoder.sizes {d : Decoder} (h : LegalDecoder d) :
    ∃ F units : Nat, 20 ≤ F ∧ F ≤ 120 ∧ f2_5 d.fs.toNat = F ∧ f5 d.fs.toNat = 2 * F ∧ f10 d.fs.toNat = 4 * F ∧
      f20 d.fs.toNat = 8 * F ∧ frameCap d.fs.toNat = 48 * F ∧ d.fs.toNat = 400 * F ∧ d.frameSize.toNat = units * F ∧
      legalMeta d.mode d.bandwidth units = true := by
  obtain ⟨u, hm, hf⟩ := h.packetMeta
  have hr := h.rate
  simp only [legalRate, Bool.or_eq_true, decide_eq_true_eq] at hr
  have hr' : d.fs.toNat = 8000 ∨ d.fs.toNat = 12000 ∨ d.fs.toNat = 16000 ∨ d.fs.toNat = 24000 ∨ d.fs.toNat = 48000 := by
    omega
  rw [hf]
  rcases hr' with h | h | h | h | h <;> rw [h]
  · exact ⟨20, u, by omega, by omega, rfl, rfl, rfl, rfl, rfl, rfl, by omega, hm⟩
  · exact ⟨30, u, by omega, by omega, rfl, rfl, rfl, rfl, rfl, rfl, by omega, hm⟩
  · exact ⟨40, u, by omega, by omega, rfl, rfl, rfl, rfl, rfl, rfl, by omega, hm⟩
  · exact ⟨60, u, by omega, by omega, rfl, rfl, rfl, rfl, rfl, rfl, by omega, hm⟩
  · exact ⟨120, u, by omega, by omega, rfl, rfl, rfl, rfl, rfl, rfl, by omega, hm⟩

/-- The frame durations of a legal mode, in units of 2.5 ms. -/
theorem legalMeta_units {m : Mode} {b : Bandwidth} {u : Nat} (h : legalMeta m b u = true) :
    (u = 1 ∨ u = 2 ∨ u = 4 ∨ u = 8 ∨ u = 16 ∨ u = 24) ∧ (m = .pred ∨ m = .hybrid → 4 ≤ u) ∧
      (m = .hybrid ∨ m = .xform → u ≤ 8) := by
  cases m <;> simp [legalMeta] at h <;> simp <;> omega

/-- The channels of a legal decoder. -/
theorem LegalDecoder.chans {s : State} (h : LegalDecoder s.dec) : chans s = 1 ∨ chans s = 2 := by
  have := h.channels
  simp only [legalChannels, Bool.or_eq_true, decide_eq_true_eq] at this
  unfold Machine.chans
  omega

/-- Rules in order, in two parts. -/
theorem runRules_append (l l' : List (State → Flow)) (s : State) :
    runRules (l ++ l') s = (runRules l s).andThen (runRules l') := by
  induction l generalizing s with
  | nil => rfl
  | cons r rs ih =>
    simp only [List.cons_append, runRules, Flow.andThen_assoc]
    congr 1
    funext t
    exact ih t

/-- What a caller of DECODE_FRAME gives it (42_frame_fsm.md R200, 20_memory.md R66): a legal decoder, OUT in canonical
form, OUT or TR to write, and a frame with bytes only once a mode is committed. -/
structure FrameEntry (a : FrameArgs) (s : State) : Prop where
  legal : LegalDecoder s.dec
  wf : s.out.wf = true
  dst : a.dst = .pcm ∨ a.dst = .tr
  committed : 1 < a.flen → s.dec.mode ≠ .uninit

/-- The words of OUT an invocation must leave alone. -/
def Outside (a : FrameArgs) (s : State) (i : Nat) : Prop :=
  a.dst = .pcm → i < a.o ∨ a.o + (a.fsz * chans s).toNat ≤ i

/-- The size to conceal is a multiple of 2.5 ms. -/
def Whole (a : FrameArgs) (s : State) : Prop := (f2_5 (rate s) : Int) ∣ min a.fsz s.dec.frameSize.toNat

theorem LegalDecoder.dvd_frameSize {s : State} (h : LegalDecoder s.dec) :
    (f2_5 (Machine.rate s) : Int) ∣ (s.dec.frameSize.toNat : Int) := by
  obtain ⟨F, u, _, _, h25, _, _, _, _, _, hfs, _⟩ := h.sizes
  unfold Machine.rate
  rw [h25, hfs]
  exact Int.natCast_dvd_natCast.2 (Nat.dvd_mul_left F u)

theorem whole_of_dvd {a : FrameArgs} {s : State} (h : LegalDecoder s.dec) (hd : (f2_5 (rate s) : Int) ∣ a.fsz) :
    Whole a s := by
  unfold Whole
  rcases min_choice a.fsz (s.dec.frameSize.toNat : Int) with h1 | h1 <;> rw [h1]
  · exact hd
  · exact h.dvd_frameSize

theorem whole_of_le {a : FrameArgs} {s : State} (h : LegalDecoder s.dec) (hle : (s.dec.frameSize.toNat : Int) ≤ a.fsz) :
    Whole a s := by
  unfold Whole
  rw [min_eq_right hle]
  exact h.dvd_frameSize

/-- What an invocation that returns has done. -/
structure FrameOutcome (a : FrameArgs) (s : State) (r : Int) (t : State) : Prop where
  legal : LegalDecoder t.dec
  outside : ∀ i, Outside a s i → t.out.read i = s.out.read i
  code : r < 0 → isErrorCode r = true
  size : 0 ≤ r → 1 ≤ r ∧ r ≤ a.fsz
  real : 1 < a.flen → 0 ≤ r → r = s.dec.frameSize.toNat ∧ t.dec.prevMode = s.dec.mode
  conceal : a.flen ≤ 1 → t.dec.prevMode = s.dec.prevMode ∧
    (t.dec.prevRedundancy = true → s.dec.prevRedundancy = true)
  concealed : a.flen ≤ 1 → Whole a s → 1 ≤ a.fsz →
    1 ≤ r ∧ (f2_5 (rate s) : Int) ∣ r ∧ ((s.dec.frameSize.toNat : Int) ≤ a.fsz → r = s.dec.frameSize.toNat)
  silent : a.flen ≤ 1 → s.dec.prevMode = .uninit → t.dec = s.dec ∧ t.env = s.env ∧ t.pctl = s.pctl ∧ t.tctl = s.tctl ∧
    ((f2_5 (rate s) : Int) ≤ a.fsz → r = min a.fsz s.dec.frameSize.toNat ∧
      (a.dst = .pcm → ∀ i, a.o ≤ i → i < a.o + (r * chans s).toNat → t.out.read i = 0))
  prevMode : t.dec.prevMode = s.dec.prevMode ∨ (1 < a.flen ∧ t.dec.prevMode = s.dec.mode)

/-- What an invocation comes to. -/
def FrameSpec (a : FrameArgs) (s : State) : FrameResult → Prop
  | .error f => f = .engineContract
  | .ok (r, t) => FrameOutcome a s r t

/-- What a nested invocation, a leaf (R239), comes to. -/
def NestedSpec (nested : FrameArgs → State → FrameResult) : Prop :=
  ∀ a s, FrameEntry a s → a.flen ≤ 1 → a.fsz ≤ f20 (rate s) → FrameSpec a s (nested a s)

/-- An invocation between its source selection (R205) and its end, entered in state `s`. -/
structure Mid (a : FrameArgs) (s t : State) : Prop where
  dec : t.dec = { s.dec with prevRedundancy := t.dec.prevRedundancy, rangeFinal := t.dec.rangeFinal }
  red : t.dec.prevRedundancy = true → s.dec.prevRedundancy = true
  wf : t.out.wf = true
  outside : ∀ i, Outside a s i → t.out.read i = s.out.read i
  dst : t.frame.dst = a.dst
  o : t.frame.o = a.o
  present : t.frame.dataPresent = decide (1 < a.flen)
  m : t.frame.m = if 1 < a.flen then s.dec.mode else s.dec.prevMode
  redundancy : t.frame.redundancy = true → t.frame.m ≠ .xform ∧ 1 < a.flen
  transition : t.frame.transition = true → 1 < a.flen

variable {a : FrameArgs} {s t u : State} {A : Int} {nested : FrameArgs → State → FrameResult}

theorem Mid.chans (h : Mid a s t) : chans t = chans s := by unfold Machine.chans; rw [h.dec]
theorem Mid.rate (h : Mid a s t) : rate t = rate s := by unfold Machine.rate; rw [h.dec]
theorem Mid.words (h : Mid a s t) (n : Int) : words n t = (n * Machine.chans s).toNat := by
  unfold Machine.words; rw [h.chans]

theorem Mid.legal (h : Mid a s t) (hl : LegalDecoder s.dec) : LegalDecoder t.dec := by
  rw [h.dec]
  exact ⟨hl.rate, hl.channels, hl.streamChannels, hl.packetMeta, hl.prevMode, fun hr => hl.prevRedundancy (h.red hr)⟩

/-- An engine call that writes a buffer inside the invocation's region. -/
theorem Mid.engine (h : Mid a s t) (hs : EngineStep t u) {b : Buf} {lo n : Nat} (ho : OutWithin b lo n t u)
    (hb : b = .pcm → a.dst = .pcm ∧ a.o ≤ lo ∧ lo + n ≤ a.o + (a.fsz * Machine.chans s).toNat) : Mid a s u where
  dec := by rw [hs.dec]; exact h.dec
  red := by rw [hs.dec]; exact h.red
  wf := hs.out h.wf
  outside := fun i hi => by
    rw [ho h.wf i fun hp => ?_]
    · exact h.outside i hi
    · obtain ⟨h1, h2, h3⟩ := hb hp
      have := hi h1
      omega
  dst := by rw [hs.frame]; exact h.dst
  o := by rw [hs.frame]; exact h.o
  present := by rw [hs.frame]; exact h.present
  m := by rw [hs.frame]; exact h.m
  redundancy := by rw [hs.frame]; exact h.redundancy
  transition := by rw [hs.frame]; exact h.transition

/-- An engine call that writes no buffer. -/
theorem Mid.call (h : Mid a s t) (hs : EngineStep t u) (ho : u.out = t.out) : Mid a s u :=
  h.engine hs (b := .tr) (lo := 0) (n := 0) (fun _ i _ => by rw [ho]) (fun hb => by simp at hb)

theorem Mid.outFill (h : Mid a s t) {base n : Nat} (hn : base + n ≤ (a.fsz * Machine.chans s).toNat)
    (f : Nat → Sample) : Mid a s (outFill base n f t) :=
  h.engine (EngineStep.bufFill ..) (outWithin_bufFill _ _ _ _ _) fun hb => by
    rw [h.o]; exact ⟨h.dst.symm.trans hb, by omega, by omega⟩

/-- The invocation's registers change only where nothing is claimed. -/
theorem Mid.setFrame (h : Mid a s t) {f : FrameRegs} (h1 : f.dst = t.frame.dst) (h2 : f.o = t.frame.o)
    (h3 : f.dataPresent = t.frame.dataPresent) (h4 : f.m = t.frame.m)
    (h5 : f.redundancy = true → t.frame.m ≠ .xform ∧ 1 < a.flen) (h6 : f.transition = true → 1 < a.flen) :
    Mid a s (t.setFrame f) :=
  { dec := h.dec, red := h.red, wf := h.wf, outside := h.outside, dst := h1.trans h.dst, o := h2.trans h.o,
    present := h3.trans h.present, m := h4.trans h.m
    redundancy := fun hr => by
      have := h5 hr
      simp only [State.setFrame_frame, h4]
      exact this
    transition := h6 }

/-! The rules after the capacity check (R213): the region is exactly the frame. -/

/-- After R213: both sizes are `A`, within the request; the legal constants; no negative code but on a real frame. -/
structure Back (a : FrameArgs) (s : State) (A : Int) (t : State) : Prop where
  mid : Mid a s t
  mode : t.frame.m ≠ .uninit
  fsz : t.frame.fsz = A
  audiosize : t.frame.audiosize = A
  celt : t.frame.celtRet < 0 → isErrorCode t.frame.celtRet = true ∧ 1 < a.flen

/-- What the size `A` of an invocation is, once R213 is passed. -/
structure Fits (a : FrameArgs) (s : State) (A : Int) : Prop where
  pos : (f2_5 (rate s) : Int) ≤ A
  le : A ≤ a.fsz
  real : 1 < a.flen → A = s.dec.frameSize.toNat
  conceal : a.flen ≤ 1 → Whole a s →
    (f2_5 (rate s) : Int) ∣ A ∧ ((s.dec.frameSize.toNat : Int) ≤ a.fsz → A = s.dec.frameSize.toNat)
  started : a.flen ≤ 1 → s.dec.prevMode ≠ .uninit

theorem Back.engine (h : Back a s A t) (hs : EngineStep t u) {b : Buf} {lo n : Nat} (ho : OutWithin b lo n t u)
    (hb : b = .pcm → a.dst = .pcm ∧ a.o ≤ lo ∧ lo + n ≤ a.o + (a.fsz * Machine.chans s).toNat) : Back a s A u where
  mid := h.mid.engine hs ho hb
  mode := by rw [hs.frame]; exact h.mode
  fsz := by rw [hs.frame]; exact h.fsz
  audiosize := by rw [hs.frame]; exact h.audiosize
  celt := by rw [hs.frame]; exact h.celt

theorem Back.call (h : Back a s A t) (hs : EngineStep t u) (ho : u.out = t.out) : Back a s A u :=
  h.engine hs (b := .tr) (lo := 0) (n := 0) (fun _ i _ => by rw [ho]) (fun hb => by simp at hb)

theorem Back.outFill (h : Back a s A t) {base n : Nat} (hn : base + n ≤ (a.fsz * Machine.chans s).toNat)
    (f : Nat → Sample) : Back a s A (outFill base n f t) :=
  h.engine (EngineStep.bufFill ..) (outWithin_bufFill _ _ _ _ _) fun hb => by
    rw [h.mid.o]; exact ⟨h.mid.dst.symm.trans hb, by omega, by omega⟩

/-- The invocation's registers change only where nothing is claimed. -/
theorem Back.setFrame (h : Back a s A t) {f : FrameRegs} (h1 : f.dst = t.frame.dst) (h2 : f.o = t.frame.o)
    (h3 : f.dataPresent = t.frame.dataPresent) (h4 : f.m = t.frame.m)
    (h5 : f.redundancy = true → t.frame.m ≠ .xform ∧ 1 < a.flen) (h6 : f.transition = true → 1 < a.flen)
    (h7 : f.fsz = t.frame.fsz) (h8 : f.audiosize = t.frame.audiosize)
    (h9 : f.celtRet < 0 → isErrorCode f.celtRet = true ∧ 1 < a.flen) : Back a s A (t.setFrame f) where
  mid := h.mid.setFrame h1 h2 h3 h4 h5 h6
  mode := by simp only [State.setFrame_frame, h4]; exact h.mode
  fsz := h7.trans h.fsz
  audiosize := h8.trans h.audiosize
  celt := h9

theorem Back.setPctl (h : Back a s A t) (p : PCtl) : Back a s A (t.setPctl p) :=
  ⟨⟨h.mid.dec, h.mid.red, h.mid.wf, h.mid.outside, h.mid.dst, h.mid.o, h.mid.present, h.mid.m, h.mid.redundancy,
    h.mid.transition⟩, h.mode, h.fsz, h.audiosize, h.celt⟩

theorem Back.setTctl (h : Back a s A t) (p : BandControls) (e : Engines) : Back a s A ((t.setEnv e).setTctl p) :=
  ⟨⟨h.mid.dec, h.mid.red, h.mid.wf, h.mid.outside, h.mid.dst, h.mid.o, h.mid.present, h.mid.m, h.mid.redundancy,
    h.mid.transition⟩, h.mode, h.fsz, h.audiosize, h.celt⟩

theorem Back.setFresh (h : Back a s A t) (n : Nat) : Back a s A (t.setFresh n) :=
  ⟨⟨h.mid.dec, h.mid.red, h.mid.wf, h.mid.outside, h.mid.dst, h.mid.o, h.mid.present, h.mid.m, h.mid.redundancy,
    h.mid.transition⟩, h.mode, h.fsz, h.audiosize, h.celt⟩

/-- What a rule of the back part comes to. -/
abbrev Goes (a : FrameArgs) (s : State) (A : Int) (m : Flow) : Prop :=
  m.Post (Back a s A) (FrameOutcome a s) (· = .engineContract)

/-- A real frame that fails: its code, with the registers as they stand. -/
theorem Mid.failed (h : Mid a s t) (hl : LegalDecoder s.dec) (hp : 1 < a.flen) {r : Int} (hr : r < 0)
    (hc : isErrorCode r = true) : FrameOutcome a s r t where
  legal := h.legal hl
  outside := h.outside
  code := fun _ => hc
  size := fun h0 => by omega
  real := fun _ h0 => by omega
  conceal := fun h0 => by omega
  concealed := fun h0 => by omega
  silent := fun h0 => by omega
  prevMode := .inl (by rw [h.dec])

theorem Back.lost (h : Back a s A t) : lostFlag t = if 1 < a.flen then (if t.frame.fec then 2 else 0) else 1 := by
  unfold lostFlag; rw [h.mid.present]; by_cases hp : 1 < a.flen <;> simp [hp]

theorem words_le {n m : Int} {c : Nat} (h : n ≤ m) : (n * c).toNat ≤ (m * c).toNat :=
  Int.toNat_le_toNat (Int.mul_le_mul_of_nonneg_right h (Int.natCast_nonneg c))

theorem words_add {n m : Int} {c : Nat} (hn : 0 ≤ n) (hm : 0 ≤ m) : (n * c).toNat + (m * c).toNat = ((n + m) * c).toNat := by
  rw [Int.add_mul, Int.toNat_add (Int.mul_nonneg hn (Int.natCast_nonneg c)) (Int.mul_nonneg hm (Int.natCast_nonneg c))]

theorem Back.spoil (h : Back a s A t) (hf : Fits a s A) : Back a s A (spoilRegion t) :=
  (h.outFill (by rw [h.mid.words, h.audiosize, Nat.zero_add]; exact words_le hf.le) _).setFresh _

/-- R218's loop: it always decodes the frame or ends it. -/
theorem goes_predLoop (hl : LegalDecoder s.dec) (hf : Fits a s A) (fuel : Nat) (d : Int) (h : Back a s A t) (h0 : 0 ≤ d)
    (hd : d < A) (hfuel : A - d < fuel + 1) : Goes a s A (predLoop fuel d t) := by
  induction fuel generalizing d t with
  | zero => simp only [Nat.cast_zero] at hfuel; omega
  | succ fuel ih =>
    refine pDecode_post rfl fun ret n u hu hret ho => ?_
    have hb : Back a s A u := by
      refine h.engine hu ho fun hpcm => ?_
      have hacc : t.frame.celtAccum = true := by
        by_contra hc
        simp [predTarget, hc] at hpcm
      simp only [predTarget, hacc, if_true] at hpcm ⊢
      simp only [predCap, hacc, if_true, h.fsz, h.mid.chans, h.mid.o]
      refine ⟨h.mid.dst.symm.trans hpcm, by omega, ?_⟩
      have h1 := words_add (n := d) (m := A - d) (c := chans s) h0 (by omega)
      have h2 := words_le (c := chans s) (show d + (A - d) ≤ a.fsz by have := hf.le; omega)
      omega
    refine Flow.Post.ite (fun hc => ?_) fun hc => ?_
    · have hp : 1 < a.flen := by
        by_contra hp
        rw [hb.lost, if_neg hp] at hc
        simp at hc
      exact (hb.spoil hf).mid.failed hl hp (by decide) (by decide)
    · by_cases hr : ret = 0
      · obtain ⟨hn, hcap⟩ := hret hr
        simp only [hr, ne_eq, not_true_eq_false, if_false]
        refine Flow.Post.ite (fun _ => hb) fun hle => ih _ hb (by omega) ?_ ?_
        · rw [hb.fsz] at hle; omega
        · push_cast at hfuel; omega
      · simp only [ne_eq, hr, not_false_eq_true, if_true]
        refine Flow.Post.ite (fun _ => ?_) fun hle => ?_
        · refine hb.engine (EngineStep.bufFill ..) (outWithin_bufFill _ _ _ _ _) fun hpcm => ?_
          have hacc : u.frame.celtAccum = true := by
            by_contra hc
            simp [predTarget, hc] at hpcm
          simp only [predTarget, hacc, if_true] at hpcm ⊢
          simp only [predCap, hacc, if_true, hb.fsz, hb.mid.words, hb.mid.o]
          refine ⟨hb.mid.dst.symm.trans hpcm, by omega, ?_⟩
          have h2 := words_le (c := chans s) (show min (d + A) A ≤ a.fsz by have := hf.le; omega)
          have h3 := words_le (c := chans s) (show d ≤ min (d + A) A by omega)
          omega
        · exfalso
          omega

theorem goes_atStep (h : Back a s A t) (n : Nat) : Goes a s A (atStep n t) :=
  h.setFrame rfl rfl rfl rfl h.mid.redundancy h.mid.transition rfl rfl h.celt

theorem goes_rule215 (h : Back a s A t) : Goes a s A (rule215 t) := by
  unfold rule215; split
  · exact h.call (EngineStep.setEnv t _) rfl
  · exact h
theorem goes_rule216 (h : Back a s A t) : Goes a s A (rule216 t) := by
  unfold rule216; split
  · exact h.setPctl _
  · exact h
theorem goes_rule217 (h : Back a s A t) : Goes a s A (rule217 t) := by
  unfold rule217; split
  · exact h.setPctl _
  · exact h
theorem goes_rule218 (hl : LegalDecoder s.dec) (hf : Fits a s A) (h : Back a s A t) : Goes a s A (rule218 t) := by
  unfold rule218; split
  · have hpos := hf.pos
    obtain ⟨F, _, h1, _, h2, _⟩ := hl.sizes
    have : 1 ≤ A := by unfold rate at hpos; omega
    exact goes_predLoop hl hf _ _ h (by omega) (by omega) (by rw [h.fsz]; push_cast; omega)
  · exact h

/-- The mode an invocation decodes in (42_frame_fsm.md R205). -/
abbrev frameMode (a : FrameArgs) (s : State) : Mode := if 1 < a.flen then s.dec.mode else s.dec.prevMode

/-- Redundancy is written only where R219 allows it. -/
theorem Back.setRedundancy (h : Back a s A t) (hp : 1 < a.flen) (hx : frameMode a s ≠ .xform) {f : FrameRegs}
    (h1 : f.dst = t.frame.dst) (h2 : f.o = t.frame.o) (h3 : f.dataPresent = t.frame.dataPresent) (h4 : f.m = t.frame.m)
    (h7 : f.fsz = t.frame.fsz) (h8 : f.audiosize = t.frame.audiosize) (h9 : f.celtRet = t.frame.celtRet) :
    Back a s A (t.setFrame f) :=
  h.setFrame h1 h2 h3 h4 (fun _ => ⟨by rw [h.mid.m]; exact hx, hp⟩) (fun _ => hp) h7 h8 (by rw [h9]; exact h.celt)

theorem Back.shrink (h : Back a s A t) (n : Int) : Back a s A (eShrinkStorage n t) :=
  (h.call (EngineStep.setEnv t { t.env with calls := .eShrinkStorage n :: t.env.calls }) rfl).setFrame
    (f := { t.frame with ec := t.frame.ec.map fun c => { c with len := c.len - n } })
    rfl rfl rfl rfl h.mid.redundancy h.mid.transition rfl rfl h.celt

theorem goes_redundancyTake (h : Back a s A t) (hp : 1 < a.flen) (hx : frameMode a s ≠ .xform) (n : Int) :
    Goes a s A (redundancyTake n t) := by
  refine eTell_post rfl fun v u hu ho _ => ?_
  have hb := (h.setRedundancy (f := { t.frame with redundancyBytes := n, lenL := t.frame.lenL - n }) hp hx
    rfl rfl rfl rfl rfl rfl rfl).call hu ho
  exact Flow.Post.ite
    (fun _ => (hb.setRedundancy (f := { u.frame with lenL := 0, redundancyBytes := 0, redundancy := false }) hp hx
      rfl rfl rfl rfl rfl rfl rfl).shrink _)
    fun _ => hb.shrink _

theorem goes_redundancyRead (h : Back a s A t) (hp : 1 < a.flen) (hx : frameMode a s ≠ .xform) :
    Goes a s A (redundancyRead t) := by
  refine eBitLogp_post fun b u hu ho => ?_
  have hb := ((h.setRedundancy (f := { t.frame with redundancy := true }) hp hx rfl rfl rfl rfl rfl rfl rfl).call hu
    ho).setRedundancy (f := { u.frame with celtToSilk := b }) hp hx rfl rfl rfl rfl rfl rfl rfl
  exact Flow.Post.ite
    (fun _ => eUint_post rfl fun v w hw ho _ _ => goes_redundancyTake (hb.call hw ho) hp hx _)
    fun _ => eTell_post rfl fun v w hw ho _ => goes_redundancyTake (hb.call hw ho) hp hx _

theorem goes_rule219 (h : Back a s A t) : Goes a s A (rule219 t) := by
  refine Flow.Post.ite (fun hc => ?_) fun _ => h
  simp only [Bool.and_eq_true, decide_eq_true_eq, h.mid.present, h.mid.m] at hc
  obtain ⟨⟨_, hx⟩, hp⟩ := hc
  refine eTell_post rfl fun v u hu ho _ => ?_
  have hb := h.call hu ho
  exact Flow.Post.ite
    (fun _ => Flow.Post.ite
      (fun _ => eBitLogp_post fun b w hw ho =>
        Flow.Post.ite (fun _ => goes_redundancyRead (hb.call hw ho) hp hx) fun _ => hb.call hw ho)
      fun _ => goes_redundancyRead hb hp hx)
    fun _ => hb

theorem goes_rule220 (h : Back a s A t) : Goes a s A (rule220 t) :=
  h.setFrame rfl rfl rfl rfl h.mid.redundancy h.mid.transition rfl rfl h.celt
theorem Back.tSetStartBand (h : Back a s A t) (b : BitVec 5) : Back a s A (tSetStartBand b t) := h.setTctl _ _
theorem Back.tReset (h : Back a s A t) : Back a s A (tReset t) := h.setTctl _ _
theorem goes_rule221 (h : Back a s A t) : Goes a s A (rule221 t) :=
  Back.setTctl (t := tSetEndBand (endBandOf t.dec.bandwidth) t) (h.setTctl _ _) _ _
theorem goes_rule222 (h : Back a s A t) : Goes a s A (rule222 t) :=
  h.setFrame rfl rfl rfl rfl h.mid.redundancy
    (fun hc => h.mid.transition (by simp only [uncoveredTransition, Bool.and_eq_true] at hc; exact hc.1)) rfl rfl h.celt

/-- The look-ahead (R212, R223): a nested concealment into TR. -/
theorem Mid.lookAhead (hl : LegalDecoder s.dec) (h : Mid a s t) (hn : NestedSpec nested) (hk : NestedKeeps nested) :
    (lookAhead nested t).Post (fun u => Mid a s u ∧ u.frame = t.frame) (FrameOutcome a s) (· = .engineContract) := by
  have hspec := hn { fb := none, flen := 0, dst := .tr, o := 0, fsz := min (f5 (Machine.rate t)) t.frame.audiosize, fec := false } t
    ⟨h.legal hl, h.wf, .inr rfl, fun hc => by simp only at hc; omega⟩ (by simp only; omega)
    (by have : f5 (Machine.rate t) ≤ f20 (Machine.rate t) := by unfold f5 f10; omega
        simp only; omega)
  have hkeep := hk { fb := none, flen := 0, dst := .tr, o := 0, fsz := min (f5 (Machine.rate t)) t.frame.audiosize, fec := false } t
  unfold Machine.lookAhead callNested
  generalize nested _ t = res at hspec hkeep
  match res with
  | .error f => exact hspec
  | .ok (r, u) =>
    have ho : FrameOutcome _ t r u := hspec
    have hd := (hkeep r u rfl).dec
    have hc := ho.conceal (by simp only; omega)
    refine ⟨⟨?_, ?_, (hkeep r u rfl).out h.wf, fun i hi => ?_, h.dst, h.o, h.present, h.m, h.redundancy, h.transition⟩, rfl⟩
    · simp only [State.setFrame_dec]
      rw [hd, hc.1, h.dec]
    · exact fun hr => h.red (hc.2 hr)
    · exact (ho.outside i (fun hb => by simp at hb)).trans (h.outside i hi)

theorem goes_rule223 (hl : LegalDecoder s.dec) (hn : 1 < a.flen → NestedSpec nested) (hk : NestedKeeps nested)
    (h : Back a s A t) : Goes a s A (rule223 nested t) := by
  refine Flow.Post.ite (fun hc => ?_) fun _ => h
  simp only [Bool.and_eq_true] at hc
  refine Flow.Post.mono (h.mid.lookAhead hl (hn (h.mid.transition hc.1)) hk) (fun u hu => ?_) fun _ _ hd => hd
  exact ⟨hu.1, by rw [hu.2]; exact h.mode, by rw [hu.2]; exact h.fsz, by rw [hu.2]; exact h.audiosize,
    by rw [hu.2]; exact h.celt⟩

theorem goes_decodeRedundancy (h : Back a s A t) : Goes a s A (decodeRedundancy t) :=
  tDecode_post rfl fun _ _ hu _ ho =>
    Back.setFrame ((h.engine hu ho (fun hb => by simp at hb)).call (tGetFinalRange_step _) rfl)
      rfl rfl rfl rfl (by have := (h.engine hu ho (fun hb => by simp at hb)).mid.redundancy; exact this)
      (by have := (h.engine hu ho (fun hb => by simp at hb)).mid.transition; exact this) rfl rfl
      (by have := (h.engine hu ho (fun hb => by simp at hb)).celt; exact this)
theorem goes_rule224 (h : Back a s A t) : Goes a s A (rule224 t) :=
  Flow.Post.ite (fun _ => goes_decodeRedundancy (h.tSetStartBand 0)) fun _ => h
theorem goes_rule225 (h : Back a s A t) : Goes a s A (rule225 t) := h.tSetStartBand _

/-- A size within the frame is within the request. -/
theorem Back.within (h : Back a s A t) (hf : Fits a s A) {n : Int} (hn : n ≤ A) :
    words n t ≤ (a.fsz * Machine.chans s).toNat := by
  rw [h.mid.words]; exact words_le (hn.trans hf.le)

theorem toNat_mul (n c : Nat) : n * c = ((n : Int) * c).toNat := by
  rw [← Int.natCast_mul, Int.toNat_natCast]

theorem outFill_frame (base n : Nat) (f : Nat → Sample) (s : State) :
    (outFill base n f s).frame =
      { s.frame with ra := (outFill base n f s).frame.ra, ps := (outFill base n f s).frame.ps } :=
  bufFill_frame ..

/-- R227: a transform failure is left only on a real frame. -/
theorem goes_rule227 (hf : Fits a s A) (h : Mid a s t) (hm : t.frame.m ≠ .uninit) (hz : t.frame.fsz = A)
    (ha : t.frame.audiosize = A) (hr : t.frame.celtRet < 0 → isErrorCode t.frame.celtRet = true) :
    Goes a s A (rule227 t) := by
  refine Flow.Post.ite (fun _ => ?_) fun hc => ⟨h, hm, hz, ha, fun h0 => ⟨hr h0, ?_⟩⟩
  · have hb := h.outFill (base := 0) (n := words (mainSize t) t) (by
      have := words_le (c := Machine.chans s) (show mainSize t ≤ a.fsz by
        have := hf.le
        unfold mainSize
        omega)
      rw [h.words]
      omega) fun _ => 0
    refine ⟨hb.setFrame rfl rfl rfl rfl hb.redundancy hb.transition, ?_, ?_, ?_, fun h0 => by simp at h0⟩ <;>
      simp only [State.setFrame_frame] <;> rw [outFill_frame] <;> assumption
  · simp only [h.present, Bool.and_eq_true, decide_eq_true_eq, not_and, Bool.not_eq_true',
      decide_eq_false_iff_not] at hc
    by_contra hp
    exact hc hp h0

/-- R226, then R227. -/
theorem goes_rule226 (hf : Fits a s A) (h : Back a s A t) : Goes a s A ((rule226 t).andThen rule227) := by
  have h1 : Back a s A (if xformReset t.dec.prevMode t.frame.m t.dec.prevRedundancy then Machine.tReset t else t) := by
    split
    · exact h.tReset
    · exact h
  unfold rule226
  by_cases hc : t.frame.m ≠ .pred
  · rw [if_pos hc]
    refine Flow.Post.andThen (G := fun u => Mid a s u ∧ u.frame.m ≠ .uninit ∧ u.frame.fsz = A ∧
      u.frame.audiosize = A ∧ (u.frame.celtRet < 0 → isErrorCode u.frame.celtRet = true)) ?_
      fun u hu => goes_rule227 hf hu.1 hu.2.1 hu.2.2.1 hu.2.2.2.1 hu.2.2.2.2
    refine tDecode_post rfl fun r u hu hr ho => ?_
    have hb := h1.engine hu ho fun hb => by
      refine ⟨h.mid.dst.symm.trans hb, by rw [h.mid.o], ?_⟩
      rw [h.mid.o, h1.mid.chans, toNat_mul]
      refine Nat.add_le_add_left (words_le ?_) _
      have h2 := hf.le
      have h3 := hf.pos
      have h4 := h.fsz
      unfold mainSize
      omega
    exact ⟨hb.mid.setFrame rfl rfl rfl rfl hb.mid.redundancy hb.mid.transition, hb.mode, hb.fsz, hb.audiosize, hr⟩
  · rw [if_neg hc]
    exact goes_rule227 hf h.mid h.mode h.fsz h.audiosize fun hr => (h.celt hr).1

theorem goes_rule228 (hf : Fits a s A) (h : Back a s A t) : Goes a s A (rule228 t) := by
  refine Flow.Post.ite (fun _ => ?_) fun _ => h
  have h1 : Back a s A (if t.frame.celtAccum then t else Machine.outFill 0 (words t.frame.fsz t) (fun _ => 0) t) := by
    split
    · exact h
    · exact h.outFill (by have := h.within hf h.fsz.le; omega) _
  refine Flow.Post.ite (fun _ => tDecode_post rfl fun r u hu _ ho =>
    (h1.tSetStartBand 0).engine hu ho fun hb => ?_) fun _ => h1
  refine ⟨h.mid.dst.symm.trans hb, by rw [h.mid.o], ?_⟩
  rw [h.mid.o, (h1.tSetStartBand 0).mid.chans, toNat_mul]
  refine Nat.add_le_add_left (words_le ?_) _
  have := hf.le
  have := hf.pos
  rw [h.mid.rate]
  omega

theorem goes_rule229 (hf : Fits a s A) (h : Back a s A t) : Goes a s A (rule229 t) :=
  Flow.Post.ite (fun _ => h.outFill (by have := h.within hf h.fsz.le; omega) _) fun _ => h

/-- A frame with redundancy is at least 10 ms. -/
theorem Back.long (hl : LegalDecoder s.dec) (hf : Fits a s A) (hc : 1 < a.flen → s.dec.mode ≠ .uninit)
    (h : Back a s A t) (hr : t.frame.redundancy = true) : (f10 (rate s) : Int) ≤ A := by
  obtain ⟨hx, hp⟩ := h.mid.redundancy hr
  obtain ⟨F, u, h1, _, _, _, h10, _, _, _, hfs, hm⟩ := hl.sizes
  have hu := legalMeta_units hm
  rw [h.mid.m, if_pos hp] at hx
  have h4 : 4 ≤ u := hu.2.1 (by
    have := hc hp
    cases hmm : s.dec.mode <;> simp_all)
  have : F * 4 ≤ F * u := Nat.mul_le_mul_left F h4
  rw [hf.real hp, hfs]
  unfold rate
  rw [h10, Nat.mul_comm u F]
  omega

theorem Back.fadeInto (hf : Fits a s A) (h : Back a s A t) {base : Nat} {n m : Int} (hm : 0 ≤ m) (hn : 0 ≤ n)
    (hb : base = (m * Machine.chans s).toNat) (hA : m + n ≤ A) (f g : Nat → Sample) : Back a s A (fadeInto base n f g t) :=
  h.outFill (by
    rw [hb, h.mid.words, words_add hm hn]; exact words_le (hA.trans hf.le)) _

theorem goes_rule230 (hf : Fits a s A) (h : Back a s A t) : Goes a s A (rule230 t) := by
  refine Flow.Post.ite (fun _ => ?_) fun _ => h
  refine Flow.Post.andThen (goes_decodeRedundancy (h.tReset.tSetStartBand 0)) fun u hu => ?_
  refine hu.fadeInto hf (m := A - f2_5 (rate s)) (n := f2_5 (rate u)) ?_ ?_ ?_ ?_ _ _
  · have := hf.pos; omega
  · omega
  · rw [hu.mid.words, hu.fsz, hu.mid.rate]
  · rw [hu.mid.rate]; omega

theorem goes_rule231 (hl : LegalDecoder s.dec) (hf : Fits a s A) (hc : 1 < a.flen → s.dec.mode ≠ .uninit)
    (h : Back a s A t) : Goes a s A (rule231 t) := by
  refine Flow.Post.ite (fun hr => ?_) fun _ => h
  simp only [Bool.and_eq_true] at hr
  have hlong := h.long hl hf hc hr.1
  obtain ⟨F, _, h1, _, h2, _, h10, _⟩ := hl.sizes
  have hA : (f2_5 (rate s) : Int) + f2_5 (rate s) ≤ A := by unfold rate at hlong ⊢; omega
  have hb : Back a s A (Machine.outFill 0 (words (f2_5 (rate t)) t) (fun j => bufRead .ra j t) t) :=
    h.outFill (by have := h.within hf (n := f2_5 (rate t)) (by rw [h.mid.rate]; omega); omega) _
  refine hb.fadeInto hf (m := f2_5 (rate s)) (n := f2_5 (rate t)) (by omega) (by omega) ?_ (by rw [h.mid.rate]; exact hA) _ _
  rw [h.mid.words, h.mid.rate]

theorem goes_rule232 (hf : Fits a s A) (h : Back a s A t) : Goes a s A (rule232 t) := by
  have hpos := hf.pos
  refine Flow.Post.ite (fun _ => Flow.Post.ite (fun _ => ?_) fun _ => ?_) fun _ => h
  · exact h.fadeInto hf (m := 0) (by omega) (by omega) (by simp) (by rw [h.mid.rate]; omega) _ _
  · exact h.outFill (by have := h.within hf (n := f2_5 (rate t)) (by rw [h.mid.rate]; omega); omega) _

theorem goes_rule234 (hf : Fits a s A) (h : Back a s A t) : Goes a s A (rule234 t) :=
  Flow.Post.ite (fun _ => h.outFill (by have := h.within hf h.fsz.le; omega) _) fun _ => h

theorem Back.setRange (h : Back a s A t) (w : Word) : Back a s A (t.setDec { t.dec with rangeFinal := w }) :=
  ⟨⟨by simp only [State.setDec_dec]; rw [h.mid.dec], h.mid.red, h.mid.wf, h.mid.outside, h.mid.dst, h.mid.o,
    h.mid.present, h.mid.m, h.mid.redundancy, h.mid.transition⟩, h.mode, h.fsz, h.audiosize, h.celt⟩

theorem goes_rule235 (h : Back a s A t) : Goes a s A (rule235 t) := by
  refine Flow.Post.ite (fun _ => h.setRange 0) fun _ => ?_
  exact (h.call (eRng_step t) rfl).setRange _

/-- The FSM update (R236) keeps the decoder legal. -/
theorem Back.update (hl : LegalDecoder s.dec) (hf : Fits a s A) (hc : 1 < a.flen → s.dec.mode ≠ .uninit)
    (h : Back a s A t) : LegalDecoder { t.dec with
      prevMode := t.frame.m, prevRedundancy := nextRedundancy t.frame.redundancy t.frame.celtToSilk } := by
  rw [h.mid.dec]
  refine ⟨hl.rate, hl.channels, hl.streamChannels, hl.packetMeta, fun _ => ?_, fun hr => ?_⟩
  · by_cases hp : 1 < a.flen
    · exact hc hp
    · exact hl.prevMode (hf.started (by omega))
  · simp only [nextRedundancy, Bool.and_eq_true] at hr
    have hx := (h.mid.redundancy hr.1).1
    have hm := h.mode
    cases hmm : t.frame.m <;> simp_all

/-- R236 and R237: the end of an invocation. -/
theorem Back.close (hl : LegalDecoder s.dec) (hf : Fits a s A) (hc : 1 < a.flen → s.dec.mode ≠ .uninit)
    (h : Back a s A t) : (rule236 t).Post (fun u => FrameOutcome a s (rule237 u).1 (rule237 u).2) (FrameOutcome a s)
      (· = .engineContract) := by
  obtain ⟨F, _, h20, _, h25, _⟩ := hl.sizes
  have hpos := hf.pos
  have hle := hf.le
  have hup := h.update hl hf hc
  have hcon : a.flen ≤ 1 → t.frame.m = s.dec.prevMode ∧
      (nextRedundancy t.frame.redundancy t.frame.celtToSilk = true → s.dec.prevRedundancy = true) := fun hq =>
    ⟨by rw [h.mid.m, if_neg (by omega)], fun hr => by
      simp only [nextRedundancy, Bool.and_eq_true] at hr
      have := (h.mid.redundancy hr.1).2
      omega⟩
  show FrameOutcome a s (rule237 _).1 (rule237 _).2
  unfold rule237
  simp only [State.setDec_frame]
  by_cases hneg : t.frame.celtRet < 0
  · rw [if_pos hneg]
    obtain ⟨hcode, hp⟩ := h.celt hneg
    have hs := h.outFill (base := 0) (n := words t.frame.audiosize t)
      (by have := h.within hf h.audiosize.le; omega) (Config.freeSample t.fresh Buf.pcm.number)
    refine ⟨?_, ?_, fun _ => hcode, fun h0 => by simp only at h0; omega, fun _ h0 => by simp only at h0; omega,
      fun h0 => by omega, fun h0 => by omega, fun h0 => by omega, .inr ⟨hp, ?_⟩⟩
    · have : (spoilRegion (t.setDec { t.dec with
          prevMode := t.frame.m, prevRedundancy := nextRedundancy t.frame.redundancy t.frame.celtToSilk })).dec = _ :=
        bufFill_dec _ _ _ _ _
      rw [this]
      exact hup
    · intro i hi
      have hh := hs.mid.outside i hi
      rw [← hh]
      unfold spoilRegion Machine.outFill
      simp only [State.setFresh_out, bufFill_out]
      rfl
    · have : (spoilRegion (t.setDec { t.dec with
          prevMode := t.frame.m, prevRedundancy := nextRedundancy t.frame.redundancy t.frame.celtToSilk })).dec = _ :=
        bufFill_dec _ _ _ _ _
      rw [this]
      show t.frame.m = _
      rw [h.mid.m, if_pos hp]
  · rw [if_neg hneg]
    simp only
    refine ⟨hup, h.mid.outside, fun h0 => ?_, fun _ => ?_, fun hp _ => ?_, hcon, fun hq hd h1 => ?_, fun hq hu => ?_,
      ?_⟩
    · rw [h.audiosize] at h0; unfold rate at hpos; omega
    · rw [h.audiosize]; unfold rate at hpos; omega
    · refine ⟨by rw [h.audiosize]; exact hf.real hp, ?_⟩
      show t.frame.m = _
      rw [h.mid.m, if_pos hp]
    · rw [h.audiosize]
      have := hf.conceal hq hd
      refine ⟨by unfold rate at hpos; omega, this.1, this.2⟩
    · exact absurd hu (hf.started hq)
    · by_cases hp : 1 < a.flen
      · refine .inr ⟨hp, ?_⟩
        show t.frame.m = _
        rw [h.mid.m, if_pos hp]
      · exact .inl (hcon (by omega)).1

/-- The rules from step 4 on. -/
def backRules (nested : FrameArgs → State → FrameResult) : List (State → Flow) :=
  [atStep 4, rule215, rule216, rule217, rule218,
   atStep 5, rule219, rule220, rule221, rule222, rule223 nested, rule224, atStep 6, rule225, rule226, rule227, rule228,
   atStep 7, rule229, atStep 8, rule230, rule231, atStep 9, rule232, atStep 10, rule234, atStep 11, rule235, rule236]

theorem outcome_backRules (hl : LegalDecoder s.dec) (hf : Fits a s A) (hc : 1 < a.flen → s.dec.mode ≠ .uninit)
    (hn : 1 < a.flen → NestedSpec nested) (hk : NestedKeeps nested) (h : Back a s A t) :
    (runRules (backRules nested) t).Post (fun u => FrameOutcome a s (rule237 u).1 (rule237 u).2) (FrameOutcome a s)
      (· = .engineContract) := by
  refine Flow.Post.andThen (goes_atStep h 4) fun t h => ?_
  refine Flow.Post.andThen (goes_rule215 h) fun t h => ?_
  refine Flow.Post.andThen (goes_rule216 h) fun t h => ?_
  refine Flow.Post.andThen (goes_rule217 h) fun t h => ?_
  refine Flow.Post.andThen (goes_rule218 hl hf h) fun t h => ?_
  refine Flow.Post.andThen (goes_atStep h 5) fun t h => ?_
  refine Flow.Post.andThen (goes_rule219 h) fun t h => ?_
  refine Flow.Post.andThen (goes_rule220 h) fun t h => ?_
  refine Flow.Post.andThen (goes_rule221 h) fun t h => ?_
  refine Flow.Post.andThen (goes_rule222 h) fun t h => ?_
  refine Flow.Post.andThen (goes_rule223 hl hn hk h) fun t h => ?_
  refine Flow.Post.andThen (goes_rule224 h) fun t h => ?_
  refine Flow.Post.andThen (goes_atStep h 6) fun t h => ?_
  refine Flow.Post.andThen (goes_rule225 h) fun t h => ?_
  show ((rule226 t).andThen fun t => (rule227 t).andThen _).Post _ _ _
  rw [← Flow.andThen_assoc]
  refine Flow.Post.andThen (goes_rule226 hf h) fun t h => ?_
  refine Flow.Post.andThen (goes_rule228 hf h) fun t h => ?_
  refine Flow.Post.andThen (goes_atStep h 7) fun t h => ?_
  refine Flow.Post.andThen (goes_rule229 hf h) fun t h => ?_
  refine Flow.Post.andThen (goes_atStep h 8) fun t h => ?_
  refine Flow.Post.andThen (goes_rule230 hf h) fun t h => ?_
  refine Flow.Post.andThen (goes_rule231 hl hf hc h) fun t h => ?_
  refine Flow.Post.andThen (goes_atStep h 9) fun t h => ?_
  refine Flow.Post.andThen (goes_rule232 hf h) fun t h => ?_
  refine Flow.Post.andThen (goes_atStep h 10) fun t h => ?_
  refine Flow.Post.andThen (goes_rule234 hf h) fun t h => ?_
  refine Flow.Post.andThen (goes_atStep h 11) fun t h => ?_
  refine Flow.Post.andThen (goes_rule235 h) fun t h => ?_
  exact Flow.Post.andThen (h.close hl hf hc) fun u hu => hu

/-! The rules before step 4. -/

/-- The requested size as R203 and R204 leave it. -/
def clampSize (a : FrameArgs) (s : State) : Int :=
  if 1 < a.flen then min a.fsz (frameCap (rate s)) else min (min a.fsz (frameCap (rate s))) s.dec.frameSize.toNat

/-- The size R205 selects. -/
def sourceSize (a : FrameArgs) (s : State) : Int := if 1 < a.flen then s.dec.frameSize.toNat else clampSize a s

/-- An invocation between R205 and R213: the request is `Z`, the size to make is `A`. -/
structure Ready (a : FrameArgs) (s : State) (Z A : Int) (t : State) : Prop where
  mid : Mid a s t
  fsz : t.frame.fsz = Z
  audiosize : t.frame.audiosize = A
  celt : t.frame.celtRet = 0

/-- A concealment that has called no engine. -/
structure Untouched (s t : State) : Prop where
  dec : t.dec = s.dec
  out : t.out = s.out
  env : t.env = s.env
  pctl : t.pctl = s.pctl
  tctl : t.tctl = s.tctl

theorem Untouched.setFrame (h : Untouched s t) (f : FrameRegs) : Untouched s (t.setFrame f) :=
  ⟨h.dec, h.out, h.env, h.pctl, h.tctl⟩

theorem Untouched.mid_dec (h : Untouched s t) :
    t.dec = { s.dec with prevRedundancy := t.dec.prevRedundancy, rangeFinal := t.dec.rangeFinal } := by rw [h.dec]

/-- An invocation that has done nothing yet, with the request `Z`. -/
structure Start (a : FrameArgs) (s : State) (Z : Int) (t : State) : Prop where
  same : Untouched s t
  dst : t.frame.dst = a.dst
  o : t.frame.o = a.o
  flen : t.frame.flen = a.flen
  redundancy : t.frame.redundancy = false
  transition : t.frame.transition = false
  celt : t.frame.celtRet = 0
  fsz : t.frame.fsz = Z

theorem Start.rate {Z : Int} (h : Start a s Z t) : Machine.rate t = Machine.rate s := by
  unfold Machine.rate; rw [h.same.dec]

/-- The rules up to the source selection. -/
def sourceRules : List (State → Flow) := [atStep 1, rule202, rule203, atStep 2, rule204, rule205]

/-- R202: nothing happens. -/
theorem Start.tooSmall (he : FrameEntry a s) (h : Start a s a.fsz t) (hz : a.fsz < f2_5 (Machine.rate s)) :
    FrameOutcome a s ErrCode.bufferTooSmall.code t where
  legal := by rw [h.same.dec]; exact he.legal
  outside := fun _ _ => by rw [h.same.out]
  code := fun _ => by decide
  size := fun h => by simp [ErrCode.code] at h
  real := fun _ h => by simp [ErrCode.code] at h
  conceal := fun _ => by rw [h.same.dec]; exact ⟨rfl, id⟩
  concealed := fun _ hd hp => by
    obtain ⟨F, u, h1, _, h25, _, _, _, _, _, hfs, hm⟩ := he.legal.sizes
    have hu := (legalMeta_units hm).1
    have hF : F ≤ u * F := by
      calc F = 1 * F := (Nat.one_mul F).symm
        _ ≤ u * F := Nat.mul_le_mul_right F (by omega)
    unfold Whole at hd
    have := Int.le_of_dvd (by omega) hd
    unfold Machine.rate at *
    omega
  silent := fun _ _ => ⟨h.same.dec, h.same.env, h.same.pctl, h.same.tctl, fun h => by omega⟩
  prevMode := .inl (by rw [h.same.dec])

theorem Start.mid (he : FrameEntry a s) {Z : Int} (h : Start a s Z t) (hp : t.frame.dataPresent = decide (1 < a.flen))
    (hm : t.frame.m = frameMode a s) : Mid a s t where
  dec := h.same.mid_dec
  red := by rw [h.same.dec]; exact id
  wf := by rw [h.same.out]; exact he.wf
  outside := fun _ _ => by rw [h.same.out]
  dst := h.dst
  o := h.o
  present := hp
  m := hm
  redundancy := fun hr => by rw [h.redundancy] at hr; simp at hr
  transition := fun hr => by rw [h.transition] at hr; simp at hr

theorem outcome_sourceRules (he : FrameEntry a s) : (runRules sourceRules (frameEnter a s)).Post
    (fun t => Ready a s (clampSize a s) (sourceSize a s) t ∧ (a.flen ≤ 1 → Untouched s t) ∧
      (f2_5 (rate s) : Int) ≤ a.fsz) (FrameOutcome a s) (· = .engineContract) := by
  have h0 : Start a s a.fsz (frameEnter a s) := ⟨⟨rfl, rfl, rfl, rfl, rfl⟩, rfl, rfl, rfl, rfl, rfl, rfl, rfl⟩
  generalize frameEnter a s = t at h0
  have h1 : (runRules [atStep 1, rule202] t).Post (fun t => Start a s a.fsz t ∧ (f2_5 (rate s) : Int) ≤ a.fsz)
      (FrameOutcome a s) (· = .engineContract) := by
    have h : Start a s a.fsz (t.setFrame { t.frame with stepIdx := 1 }) :=
      ⟨h0.same.setFrame _, h0.dst, h0.o, h0.flen, h0.redundancy, h0.transition, h0.celt, h0.fsz⟩
    refine Flow.Post.andThen (G := Start a s a.fsz) h fun u hu => Flow.Post.andThen (G := fun t => Start a s a.fsz t ∧
      (f2_5 (rate s) : Int) ≤ a.fsz) (Flow.Post.ite (fun hc => ?_) fun hc => ?_) fun u hu => hu
    · rw [hu.rate, hu.fsz] at hc
      exact hu.tooSmall he hc
    · rw [hu.rate, hu.fsz] at hc
      exact ⟨hu, by omega⟩
  show (runRules ([atStep 1, rule202] ++ _) t).Post _ _ _
  rw [runRules_append]
  refine Flow.Post.andThen h1 fun u hu => ?_
  obtain ⟨hu, hmin⟩ := hu
  refine Flow.Post.andThen (G := Start a s (min a.fsz (frameCap (rate s)))) ?_ fun u hu => ?_
  · refine ⟨hu.same.setFrame _, hu.dst, hu.o, hu.flen, hu.redundancy, hu.transition, hu.celt, ?_⟩
    simp only [State.setFrame_frame, hu.fsz, hu.rate]
  refine Flow.Post.andThen (G := Start a s (min a.fsz (frameCap (rate s)))) ?_ fun u hu => ?_
  · exact ⟨hu.same.setFrame _, hu.dst, hu.o, hu.flen, hu.redundancy, hu.transition, hu.celt, hu.fsz⟩
  refine Flow.Post.andThen (G := fun t => Start a s (clampSize a s) t ∧ t.frame.dataPresent = decide (1 < a.flen))
    (Flow.Post.ite (fun hc => ?_) fun hc => ?_) fun u hu => ?_
  · rw [hu.flen] at hc
    refine ⟨⟨hu.same.setFrame _, hu.dst, hu.o, hu.flen, hu.redundancy, hu.transition, hu.celt, ?_⟩, ?_⟩
    · simp only [State.setFrame_frame, hu.fsz, hu.same.dec, clampSize, if_neg (show ¬ 1 < a.flen by omega)]
    · simp [show ¬ 1 < a.flen by omega]
  · rw [hu.flen] at hc
    refine ⟨⟨hu.same.setFrame _, hu.dst, hu.o, hu.flen, hu.redundancy, hu.transition, hu.celt, ?_⟩, ?_⟩
    · simp only [State.setFrame_frame, hu.fsz, clampSize, if_pos (show 1 < a.flen by omega)]
    · simp [show 1 < a.flen by omega]
  obtain ⟨hu, hp⟩ := hu
  refine Flow.Post.andThen (G := fun t => Ready a s (clampSize a s) (sourceSize a s) t ∧ (a.flen ≤ 1 → Untouched s t) ∧
      (f2_5 (rate s) : Int) ≤ a.fsz) (Flow.Post.ite (fun hc => ?_) fun hc => ?_) fun u hu => hu
  · rw [hp, decide_eq_true_eq] at hc
    refine ⟨⟨⟨hu.same.mid_dec, ?_, ?_, ?_, hu.dst, hu.o, hp, ?_, ?_, ?_⟩, hu.fsz, ?_, hu.celt⟩,
      fun h => by omega, hmin⟩
    · intro hr
      simp only [eInit_dec, State.setFrame_dec, hu.same.dec] at hr
      exact hr
    · simp only [eInit_out, State.setFrame_out, hu.same.out]; exact he.wf
    · intro _ _; simp only [eInit_out, State.setFrame_out, hu.same.out]
    · simp only [eInit_frame, State.setFrame_frame, hu.same.dec, if_pos hc]
    · intro hr; exact absurd (hu.redundancy.symm.trans hr) (by decide)
    · intro _; exact hc
    · simp only [eInit_frame, State.setFrame_frame, hu.same.dec, sourceSize, if_pos hc]
  · rw [hp, decide_eq_true_eq] at hc
    have hs : Start a s (clampSize a s) (u.setFrame { u.frame with
        audiosize := u.frame.fsz, m := u.dec.prevMode, ec := none, lenL := u.frame.flen }) :=
      ⟨hu.same.setFrame _, hu.dst, hu.o, hu.flen, hu.redundancy, hu.transition, hu.celt, hu.fsz⟩
    refine ⟨⟨hs.mid he hp ?_, hu.fsz, ?_, hu.celt⟩, fun _ => hs.same, hmin⟩
    · simp only [State.setFrame_frame, hu.same.dec, frameMode, if_neg hc]
    · simp only [State.setFrame_frame, hu.fsz, sourceSize, if_neg hc]

/-- The size of a concealment: the request, at most the last committed frame size. -/
theorem conceal_size (hl : LegalDecoder s.dec) (hq : a.flen ≤ 1) (hmin : (f2_5 (rate s) : Int) ≤ a.fsz) :
    sourceSize a s = clampSize a s ∧ clampSize a s = min a.fsz s.dec.frameSize.toNat ∧
      (f2_5 (rate s) : Int) ≤ clampSize a s ∧
      (Whole a s → (f2_5 (rate s) : Int) ∣ clampSize a s) := by
  obtain ⟨F, u, h1, h2, h25, _, _, _, hcap, _, hfs, hm⟩ := hl.sizes
  have hu := (legalMeta_units hm).1
  have hz : clampSize a s = min a.fsz s.dec.frameSize.toNat := by
    unfold clampSize rate
    rw [if_neg (by omega), hcap, hfs]
    rcases hu with rfl | rfl | rfl | rfl | rfl | rfl <;> omega
  have hF : F ≤ u * F := by
    calc F = 1 * F := (Nat.one_mul F).symm
      _ ≤ u * F := Nat.mul_le_mul_right F (by omega)
  refine ⟨by unfold sourceSize; rw [if_neg (by omega)], hz, ?_, fun hd => ?_⟩
  · rw [hz, hfs]; unfold rate at *; omega
  · rw [hz]; exact hd

/-- R206: silence before any mode, else an invocation with a mode. -/
theorem outcome_rule206 (he : FrameEntry a s) (h : Ready a s (clampSize a s) (sourceSize a s) t)
    (ht : a.flen ≤ 1 → Untouched s t) (hmin : (f2_5 (rate s) : Int) ≤ a.fsz) :
    (rule206 t).Post (fun u => u = t ∧ t.frame.m ≠ .uninit) (FrameOutcome a s) (· = .engineContract) := by
  refine Flow.Post.ite (fun hc => ?_) fun hc => ⟨rfl, fun hm => ?_⟩
  · simp only [Bool.and_eq_true, Bool.not_eq_true', decide_eq_true_eq, h.mid.present, decide_eq_false_iff_not] at hc
    obtain ⟨hq, hu⟩ := hc
    have hq : a.flen ≤ 1 := by omega
    obtain ⟨hsrc, hz, hlo, hdvd⟩ := conceal_size he.legal hq hmin
    obtain ⟨F, u, h20, _, h25, _, _, _, _, _, hfs, _⟩ := he.legal.sizes
    have hA : t.frame.audiosize = clampSize a s := by rw [h.audiosize, hsrc]
    have hT := ht hq
    have hb := h.mid.outFill (base := 0) (n := words t.frame.audiosize t)
      (by rw [h.mid.words, hA]; have := words_le (c := chans s) (show clampSize a s ≤ a.fsz by omega); omega) fun _ => 0
    have hdec : (outFill 0 (words t.frame.audiosize t) (fun _ => 0) t).dec = s.dec :=
      (bufFill_dec _ _ _ _ _).trans hT.dec
    have hF1 : (1 : Int) ≤ f2_5 (rate s) := by unfold rate; omega
    refine ⟨?_, hb.outside, fun h0 => ?_, fun _ => ?_, fun hp => by omega, fun _ => ?_, fun _ hd _ => ?_, fun _ _ => ?_,
      .inl (by rw [hdec])⟩
    · rw [hdec]; exact he.legal
    · omega
    · rw [hA]; omega
    · rw [hdec]; exact ⟨rfl, id⟩
    · rw [hA]
      refine ⟨by omega, hdvd hd, fun hle => ?_⟩
      rw [hz]; omega
    · refine ⟨hdec, (bufFill_env _ _ _ _ _).trans hT.env, (bufFill_pctl _ _ _ _ _).trans hT.pctl,
        (bufFill_tctl _ _ _ _ _).trans hT.tctl, fun _ => ⟨by rw [hA, hz], fun hp i hlo hhi => ?_⟩⟩
      have hd : t.frame.dst = .pcm := h.mid.dst.trans hp
      have : (outFill 0 (words t.frame.audiosize t) (fun _ => 0) t).out =
          t.out.fill (a.o + 0) (words t.frame.audiosize t) fun _ => 0 := by
        unfold outFill; rw [hd, h.mid.o]; rfl
      rw [this, Memory.read_fill h.mid.wf, h.mid.words, if_pos ⟨by omega, by omega⟩]
  · rw [h.mid.present, hm] at hc
    by_cases hp : 1 < a.flen
    · have := h.mid.m
      rw [hm, if_pos hp] at this
      exact he.committed hp this.symm
    · simp [hp] at hc

/-- The arguments of a concealment chunk (R207). -/
abbrev chunkArgs (made : Int) (s : State) : FrameArgs :=
  { fb := none, flen := 0, dst := s.frame.dst, o := s.frame.o + words made s,
    fsz := min s.frame.audiosize (f20 (rate s)), fec := false }

/-- R207's chunks: the whole request, or a chunk's error. -/
theorem outcome_chunkLoop (hl : LegalDecoder s.dec) (hq : a.flen ≤ 1) (hstart : s.dec.prevMode ≠ .uninit)
    (hdst : a.dst = .pcm ∨ a.dst = .tr) (hn : NestedSpec nested) (hk : NestedKeeps nested) {Z : Int} (hZ : Z ≤ a.fsz)
    (hd : Whole a s → (f2_5 (rate s) : Int) ∣ Z ∧
      ((s.dec.frameSize.toNat : Int) ≤ a.fsz → Z = s.dec.frameSize.toNat))
    (fuel : Nat) (L : Int) (h : Ready a s Z L t) (hL : 1 ≤ L) (hLZ : L ≤ Z) (hfuel : L ≤ fuel)
    (hdL : Whole a s → (f2_5 (rate s) : Int) ∣ L) :
    (chunkLoop nested fuel (Z - L) t).Post (fun _ => False) (FrameOutcome a s) (· = .engineContract) := by
  induction fuel generalizing L t with
  | zero => simp only [Nat.cast_zero] at hfuel; omega
  | succ fuel ih =>
    unfold chunkLoop callNested
    obtain ⟨F, _, h20, _, h25, _, _, hf20, _⟩ := hl.sizes
    have hrate : (rate t) = rate s := h.mid.rate
    have hspec := hn (chunkArgs (Z - L) t) t
      ⟨h.mid.legal hl, h.mid.wf, by show t.frame.dst = _ ∨ t.frame.dst = _; rw [h.mid.dst]; exact hdst, fun hc => by simp only at hc; omega⟩ (by simp only; omega)
      (by simp only; omega)
    have hkeep := hk (chunkArgs (Z - L) t) t
    generalize nested _ t = res at hspec hkeep
    match res with
    | .error f => exact hspec
    | .ok (r, u) =>
      have ho : FrameOutcome _ t r u := hspec
      have hkp := (hkeep r u rfl)
      have hc := ho.conceal (by simp only; omega)
      simp only
      have hmid : Mid a s (u.setFrame t.frame) := by
        refine ⟨?_, fun hr => h.mid.red (hc.2 hr), hkp.out h.mid.wf, fun i hi => ?_, h.mid.dst, h.mid.o, h.mid.present,
          h.mid.m, h.mid.redundancy, h.mid.transition⟩
        · simp only [State.setFrame_dec]
          rw [hkp.dec, hc.1, h.mid.dec]
        · refine (ho.outside i fun hp => ?_).trans (h.mid.outside i hi)
          simp only at hp ⊢
          rw [h.mid.dst] at hp
          have hi := hi hp
          rw [h.mid.o, h.mid.words, h.mid.chans, h.audiosize]
          have h1 := words_add (n := Z - L) (m := L) (c := chans s) (by omega) (by omega)
          have h2 := words_le (c := chans s) (show min L (f20 (rate t) : Int) ≤ L by omega)
          have h3 := words_le (c := chans s) (show Z - L + L ≤ a.fsz by omega)
          omega
      have hconc := ho.concealed (by simp only; omega)
      have hdmin : Whole a s → (f2_5 (rate s) : Int) ∣ min L (f20 (rate s) : Int) := fun hdd => by
        rcases min_choice L (f20 (rate s) : Int) with h | h <;> rw [h]
        · exact hdL hdd
        · unfold rate; rw [hf20, h25]; exact Int.natCast_dvd_natCast.2 (Nat.dvd_mul_left F 8)
      have hwhole : Whole a s → Whole (chunkArgs (Z - L) t) t := fun hdd =>
        whole_of_dvd (h.mid.legal hl) (by simp only [h.audiosize, hrate]; exact hdmin hdd)
      have hfin : ∀ {v : State} {q : Int}, Mid a s v → (q < 0 → isErrorCode q = true) → (0 ≤ q → q = Z) →
          (Whole a s → 0 ≤ q) → FrameOutcome a s q v := fun hv hcode hq0 hq1 =>
        ⟨hv.legal hl, hv.outside, hcode, fun h0 => by have := hq0 h0; omega, fun hp => by omega,
          fun _ => ⟨by rw [hv.dec], hv.red⟩,
          fun _ hdd _ => by
            have h0 := hq0 (hq1 hdd)
            rw [h0]
            exact ⟨by omega, hd hdd⟩,
          fun _ hu => absurd hu hstart, .inl (by rw [hv.dec])⟩
      refine Flow.Post.ite (fun hneg => ?_) fun hneg => ?_
      · refine hfin hmid (fun _ => ho.code hneg) (fun h0 => by omega) fun hdd => ?_
        have := hconc (hwhole hdd) (by simp only [h.audiosize, hrate]; unfold rate; omega)
        omega
      · have hsz := ho.size (by omega)
        simp only [h.audiosize] at hsz
        have hmid' : Mid a s ((u.setFrame t.frame).setFrame { t.frame with audiosize := t.frame.audiosize - r }) :=
          hmid.setFrame rfl rfl rfl rfl hmid.redundancy hmid.transition
        refine Flow.Post.ite (fun hle => ?_) fun hle => ?_
        · refine hfin hmid' (fun h0 => ?_) (fun _ => h.fsz) fun _ => ?_
          · have := h.fsz
            simp only [State.setFrame_frame] at h0
            omega
          · have := h.fsz
            simp only [State.setFrame_frame]
            omega
        · simp only [State.setFrame_frame, h.audiosize] at hle
          have hmade : Z - L + r = Z - (L - r) := by omega
          rw [hmade]
          refine ih (L - r) ⟨hmid', h.fsz, ?_, h.celt⟩ (by omega) (by omega) (by push_cast at hfuel; omega) fun hdd => ?_
          · simp only [State.setFrame_frame, h.audiosize]
          · have := (hconc (hwhole hdd) (by simp only [h.audiosize, hrate]; unfold rate; omega)).2.1
            rw [hrate] at this
            exact Int.dvd_sub (hdL hdd) this

/-- Between R207 and R213, with the facts R208 leaves about the size. -/
theorem outcome_rule208 (he : FrameEntry a s) (hmin : (f2_5 (rate s) : Int) ≤ a.fsz)
    (hm : t.frame.m ≠ .uninit) (h : Ready a s (clampSize a s) (sourceSize a s) t)
    (hshort : a.flen ≤ 1 → sourceSize a s ≤ f20 (rate s)) :
    (rule208 t).Post (fun u => ∃ A, Ready a s (clampSize a s) A u ∧ u.frame.m = t.frame.m ∧
      (A ≤ clampSize a s → Fits a s A) ∧ (a.flen ≤ 1 → A ≤ clampSize a s)) (FrameOutcome a s)
      (· = .engineContract) := by
  obtain ⟨F, u, h20, _, h25, hf5, hf10, hf20, hcap, _, hfs, hmeta⟩ := he.legal.sizes
  have hu := (legalMeta_units hmeta).1
  have hF : F ≤ u * F := by
    calc F = 1 * F := (Nat.one_mul F).symm
      _ ≤ u * F := Nat.mul_le_mul_right F (by omega)
  have hcl : clampSize a s ≤ a.fsz := by unfold clampSize; split <;> omega
  have hstart : a.flen ≤ 1 → s.dec.prevMode ≠ .uninit := fun hq => by
    have := h.mid.m
    rw [if_neg (by omega)] at this
    rw [← this]; exact hm
  by_cases hp : 1 < a.flen
  · have hpres : t.frame.dataPresent = true := by rw [h.mid.present]; simp [hp]
    have : rule208 t = .go t := by simp [rule208, hpres]
    rw [this]
    refine ⟨sourceSize a s, h, rfl, fun hle => ?_, fun hq => by omega⟩
    have hs : sourceSize a s = s.dec.frameSize.toNat := if_pos hp
    exact ⟨by rw [hs, hfs]; unfold rate; omega, by omega, fun _ => hs, fun hq => by omega, hstart⟩
  · have hq : a.flen ≤ 1 := by omega
    have hpres : t.frame.dataPresent = false := by rw [h.mid.present]; simp [hp]
    obtain ⟨hsrc, hz, hlo, hdvd⟩ := conceal_size he.legal hq hmin
    have hs := hshort hq
    rw [hsrc] at h hs
    have hrate : rate t = rate s := h.mid.rate
    -- the size after rounding
    have hround : ∀ m, (f2_5 (rate s) : Int) ≤ roundConceal m (rate s) (clampSize a s) ∧
        roundConceal m (rate s) (clampSize a s) ≤ clampSize a s ∧
        ((f2_5 (rate s) : Int) ∣ clampSize a s → (f2_5 (rate s) : Int) ∣ roundConceal m (rate s) (clampSize a s)) ∧
        (clampSize a s = s.dec.frameSize.toNat → clampSize a s < f20 (rate s) →
          roundConceal m (rate s) (clampSize a s) = clampSize a s) := by
      intro m
      unfold rate at hlo hs ⊢
      rw [h25] at hlo ⊢
      rw [hf20] at hs ⊢
      unfold roundConceal
      rw [hf10, hf5, hfs]
      refine ⟨by split_ifs <;> omega, by split_ifs <;> omega, fun hd => ?_, fun h1 h2 => ?_⟩
      · split_ifs
        · exact Int.natCast_dvd_natCast.2 (Nat.dvd_mul_left F 4)
        · exact Int.natCast_dvd_natCast.2 (Nat.dvd_mul_left F 2)
        · exact hd
      · rcases hu with rfl | rfl | rfl | rfl | rfl | rfl <;> split_ifs <;> omega
    have hfits : ∀ A, (f2_5 (rate s) : Int) ≤ A → A ≤ clampSize a s →
        ((f2_5 (rate s) : Int) ∣ clampSize a s → (f2_5 (rate s) : Int) ∣ A) →
        (clampSize a s = s.dec.frameSize.toNat → A = clampSize a s) → Fits a s A := fun A h1 h2 h3 h4 =>
      ⟨h1, by omega, fun hp => by omega, fun _ hd => ⟨h3 (hdvd hd), fun hle => by
        have h5 : clampSize a s = s.dec.frameSize.toNat := by rw [hz]; omega
        rw [h4 h5, h5]⟩, hstart⟩
    refine Flow.Post.ite (fun hc => ?_) fun hc => ?_
    · simp only [hpres, Bool.not_false, Bool.true_and, decide_eq_true_eq, h.audiosize, hrate] at hc
      obtain ⟨r1, r2, r3, r4⟩ := hround t.frame.m
      refine ⟨roundConceal t.frame.m (rate s) (clampSize a s), ⟨h.mid.setFrame rfl rfl rfl rfl h.mid.redundancy
        h.mid.transition, h.fsz, ?_, h.celt⟩, rfl, fun hle => hfits _ r1 hle r3 fun h5 => r4 h5 hc, fun _ => r2⟩
      simp only [State.setFrame_frame, h.audiosize, hrate]
    · exact ⟨clampSize a s, h, rfl, fun _ => hfits _ hlo (by omega) id fun _ => rfl, fun _ => by omega⟩

/-- The rules between the silence of R206 and step 4. -/
def middleRules (nested : FrameArgs → State → FrameResult) : List (State → Flow) :=
  [rule207 nested, rule208, rule209, rule210, atStep 3, rule211, rule212 nested, rule213]

/-- An invocation needs a nested one only where it is no leaf (R239). -/
def Nests (a : FrameArgs) (s : State) (nested : FrameArgs → State → FrameResult) : Prop :=
  (a.flen ≤ 1 ∧ a.fsz ≤ f20 (rate s)) ∨ NestedSpec nested

theorem Nests.spec (h : Nests a s nested) (hp : 1 < a.flen) : NestedSpec nested := h.resolve_left fun h => by omega

theorem outcome_middleRules (he : FrameEntry a s) (hn : Nests a s nested) (hk : NestedKeeps nested)
    (hmin : (f2_5 (rate s) : Int) ≤ a.fsz) (hm : t.frame.m ≠ .uninit)
    (h : Ready a s (clampSize a s) (sourceSize a s) t) :
    (runRules (middleRules nested) t).Post (fun u => ∃ A, Fits a s A ∧ Back a s A u) (FrameOutcome a s)
      (· = .engineContract) := by
  have hcl : clampSize a s ≤ a.fsz := by unfold clampSize; split <;> omega
  have hrate : rate t = rate s := h.mid.rate
  refine Flow.Post.andThen (G := fun u => u = t ∧ (a.flen ≤ 1 → sourceSize a s ≤ f20 (rate s)))
    (Flow.Post.ite (fun hc => ?_) fun hc => ⟨rfl, fun hq => ?_⟩) ?_
  · simp only [h.mid.present, Bool.and_eq_true, Bool.not_eq_true', decide_eq_false_iff_not, decide_eq_true_eq,
      h.audiosize, hrate] at hc
    have hq : a.flen ≤ 1 := by omega
    obtain ⟨hsrc, hz, hlo, hdvd⟩ := conceal_size he.legal hq hmin
    rw [hsrc] at h hc
    have hstart : s.dec.prevMode ≠ .uninit := by
      have := h.mid.m
      rw [if_neg (by omega)] at this
      rw [← this]; exact hm
    have hspec : NestedSpec nested := hn.resolve_left fun hh => by omega
    have := outcome_chunkLoop he.legal hq hstart he.dst hspec hk hcl
      (fun hd => ⟨hdvd hd, fun hle => by rw [hz]; omega⟩) (clampSize a s).toNat (clampSize a s) h (by omega) (by omega)
      (by omega) hdvd
    rw [Int.sub_self, ← h.audiosize] at this
    exact this.mono (fun _ hf => hf.elim) fun _ _ hd => hd
  · simp only [h.mid.present, Bool.and_eq_true, Bool.not_eq_true', decide_eq_false_iff_not, decide_eq_true_eq,
      h.audiosize, hrate, not_and] at hc
    have := hc (by omega)
    omega
  rintro u ⟨rfl, hshort⟩
  refine Flow.Post.andThen (outcome_rule208 he hmin hm h hshort) fun u hu => ?_
  obtain ⟨A, hr, hmu, hfit, hA⟩ := hu
  have hm := hmu ▸ hm
  refine Flow.Post.andThen (G := fun u => Ready a s (clampSize a s) A u ∧ u.frame.m ≠ .uninit)
    ⟨⟨hr.mid.setFrame rfl rfl rfl rfl hr.mid.redundancy hr.mid.transition, hr.fsz, hr.audiosize, hr.celt⟩, hm⟩
    fun u hu => ?_
  obtain ⟨hr, hm⟩ := hu
  refine Flow.Post.andThen (G := fun u => Ready a s (clampSize a s) A u ∧ u.frame.m ≠ .uninit)
    ⟨⟨hr.mid.setFrame rfl rfl rfl rfl (fun hc => by simp at hc) (fun hc => by simp at hc), hr.fsz, hr.audiosize, rfl⟩, hm⟩
    fun u hu => ?_
  obtain ⟨hr, hm⟩ := hu
  refine Flow.Post.andThen (G := fun u => Ready a s (clampSize a s) A u ∧ u.frame.m ≠ .uninit)
    ⟨⟨hr.mid.setFrame rfl rfl rfl rfl hr.mid.redundancy hr.mid.transition, hr.fsz, hr.audiosize, hr.celt⟩, hm⟩
    fun u hu => ?_
  obtain ⟨hr, hm⟩ := hu
  refine Flow.Post.andThen (G := fun u => Ready a s (clampSize a s) A u ∧ u.frame.m ≠ .uninit)
    ⟨⟨hr.mid.setFrame rfl rfl rfl rfl hr.mid.redundancy (fun hc => ?_), hr.fsz, hr.audiosize, hr.celt⟩, hm⟩
    fun u hu => ?_
  · simp only [transitionFlag, Bool.and_eq_true, hr.mid.present, decide_eq_true_eq] at hc
    exact hc.1.1
  obtain ⟨hr, hm⟩ := hu
  refine Flow.Post.andThen (G := fun u => Ready a s (clampSize a s) A u ∧ u.frame.m ≠ .uninit)
    (Flow.Post.ite (fun hc => ?_) fun hc => ⟨hr, hm⟩) fun u hu => ?_
  · simp only [Bool.and_eq_true] at hc
    refine Flow.Post.mono (hr.mid.lookAhead he.legal (hn.spec (hr.mid.transition hc.1)) hk) (fun u hu => ?_)
      fun _ _ hd => hd
    exact ⟨⟨hu.1, by rw [hu.2]; exact hr.fsz, by rw [hu.2]; exact hr.audiosize, by rw [hu.2]; exact hr.celt⟩,
      by rw [hu.2]; exact hm⟩
  obtain ⟨hr, hm⟩ := hu
  refine Flow.Post.andThen (G := fun u => ∃ A, Fits a s A ∧ Back a s A u)
    (Flow.Post.ite (fun hc => ?_) fun hc => ?_) fun u hu => hu
  · rw [hr.fsz, hr.audiosize] at hc
    exact hr.mid.failed he.legal (by by_contra hp; have := hA (by omega); omega) (by decide) (by decide)
  · rw [hr.fsz, hr.audiosize] at hc
    exact ⟨A, hfit (by omega), ⟨hr.mid.setFrame rfl rfl rfl rfl hr.mid.redundancy hr.mid.transition, hm, hr.audiosize,
      hr.audiosize, fun h0 => by simp only [State.setFrame_frame, hr.celt] at h0; omega⟩⟩

/-- What an invocation does from a legal state. -/
theorem spec_decodeFrameWith (he : FrameEntry a s) (hn : Nests a s nested) (hk : NestedKeeps nested) :
    FrameSpec a s (decodeFrameWith nested a s) := by
  have hlist : frameRules nested = sourceRules ++ (rule206 :: (middleRules nested ++ backRules nested)) := rfl
  have hpost : (runRules (frameRules nested) (frameEnter a s)).Post
      (fun u => FrameOutcome a s (rule237 u).1 (rule237 u).2) (FrameOutcome a s) (· = .engineContract) := by
    rw [hlist, runRules_append]
    refine Flow.Post.andThen (outcome_sourceRules he) fun t ht => ?_
    obtain ⟨hr, hun, hmin⟩ := ht
    refine Flow.Post.andThen (outcome_rule206 he hr hun hmin) fun u hu => ?_
    obtain ⟨rfl, hm⟩ := hu
    rw [runRules_append]
    refine Flow.Post.andThen (outcome_middleRules he hn hk hmin hm hr) fun u hu => ?_
    obtain ⟨A, hf, hb⟩ := hu
    exact outcome_backRules he.legal hf he.committed hn.spec hk hb
  unfold decodeFrameWith
  generalize runRules (frameRules nested) (frameEnter a s) = m at hpost
  cases m with
  | go u => exact hpost
  | done r u => exact hpost
  | fault f => exact hpost

/-- A nested invocation is a leaf (R239), and does what its caller needs. -/
theorem nestedSpec_decodeFrameNested : NestedSpec decodeFrameNested :=
  fun _ _ he hq hz => spec_decodeFrameWith he (.inl ⟨hq, hz⟩) nestedKeeps_none

/-- DECODE_FRAME from a legal state. -/
theorem spec_decodeFrame (he : FrameEntry a s) : FrameSpec a s (decodeFrame a s) :=
  spec_decodeFrameWith he (.inr nestedSpec_decodeFrameNested) nestedKeeps_decodeFrameNested

end Sys2Proof.Machine
end

