-- ==== Sys2Proof/Laws/Parse.lean ====
section
/-! SUPPORT. What a parse can do: it changes its working registers only, fails with one of two codes, and leaves registers
whose sizes fit the packet (41_framing.md R163 to R166). -/

namespace Sys2Proof.Machine

/-- What `ReadSize` finds lies within its range (30_encoding.md R88). -/
theorem readSize_bounds {s : State} {p : Nat} {r : Int} {bytes v : Nat} (h : readSize s p r = .size bytes v) :
    v ≤ 1275 ∧ (bytes = 1 ∨ bytes = 2) ∧ (bytes : Int) ≤ r := by
  unfold readSize at h
  have h0 := (pktRead s p).isLt
  have h1 := (pktRead s (p + 1)).isLt
  split at h
  · simp at h
  · split at h
    · simp only [SizePrefix.size.injEq] at h; omega
    · split at h
      · simp at h
      · simp only [SizePrefix.size.injEq] at h; omega

/-- What a parse in progress keeps: the bytes read, the bytes left and the padding are the packet. -/
structure Parsing (s : State) (len : Int) (sd : Bool) (t : State) : Prop where
  only : ∃ p, t = s.setParse p
  pos : 1 ≤ t.parse.pos
  total : t.parse.pos + t.parse.rem + t.parse.pad = len
  pad : 0 ≤ t.parse.pad
  isSd : t.parse.sd = sd
  toc : t.parse.toc = pktRead s 0
  spf : t.parse.spf48 = tocSpf (pktRead s 0) 48000

/-- A parse that fails: one of two codes, and only working registers changed. -/
def ParseFailed (s : State) (r : Int) (t : State) : Prop := (r = -1 ∨ r = -4) ∧ ∃ p, t = s.setParse p

/-- Sizes as far as they are known before the last frame's. -/
structure Sized (s : State) (len : Int) (sd : Bool) (t : State) : Prop where
  parsing : Parsing s len sd t
  count : 1 ≤ t.parse.count ∧ t.parse.count ≤ 48
  duration : t.parse.count * t.parse.spf48 ≤ 5760
  rem : 0 ≤ t.parse.rem
  last : 0 ≤ t.parse.lastSize
  known : (t.parse.cbr = false ∨ sd = false) →
    t.parse.sizes.length + 1 = t.parse.count ∧ t.parse.sizes.sum + t.parse.lastSize = t.parse.rem
  sizes : ∀ n ∈ t.parse.sizes, 0 ≤ n ∧ (t.parse.cbr = false → n ≤ 1275) ∧ (t.parse.cbr = true → n = t.parse.lastSize)

variable {s t : State} {len : Int} {sd : Bool}

theorem Parsing.failed (h : Parsing s len sd t) : ParseFailed s ErrCode.invalidPacket.code t := ⟨.inr rfl, h.only⟩

theorem Parsing.pktRead (h : Parsing s len sd t) (i : Nat) : pktRead t i = Machine.pktRead s i := by
  obtain ⟨p, hp⟩ := h.only
  rw [hp]; rfl

/-- The parse's registers change, with what is kept. -/
theorem Parsing.setParse (h : Parsing s len sd t) {p : ParseRegs} (h1 : 1 ≤ p.pos) (h2 : p.pos + p.rem + p.pad = len)
    (h3 : 0 ≤ p.pad) (h4 : p.sd = t.parse.sd) (h5 : p.toc = t.parse.toc) (h6 : p.spf48 = t.parse.spf48) :
    Parsing s len sd (t.setParse p) :=
  ⟨by obtain ⟨q, hq⟩ := h.only; exact ⟨p, by rw [hq]; rfl⟩, h1, h2, h3, h4.trans h.isSd, h5.trans h.toc, h6.trans h.spf⟩

/-- What a rule of the parse comes to. -/
abbrev Parses (s : State) (G : State → Prop) (m : Flow) : Prop := m.Post G (ParseFailed s) fun _ => False

/-- The header (R151, R152): the registers of a packet of `len` bytes. -/
structure Header (s : State) (len : Int) (sd : Bool) (t : State) : Prop where
  parsing : Parsing s len sd t
  rem : 0 ≤ t.parse.rem
  last : t.parse.lastSize = t.parse.rem
  cbr : t.parse.cbr = false
  sizes : t.parse.sizes = []

theorem parses_header (s : State) (len : Int) (sd : Bool) :
    Parses s (Header s len sd) ((parseArgs (parseStart len sd s)).andThen parseHeader) := by
  unfold parseArgs
  split
  · exact ⟨.inl rfl, _, rfl⟩
  · split
    · exact ⟨.inr rfl, _, rfl⟩
    · rename_i h1 h2
      have h1 : ¬ len < 0 := h1
      have h2 : ¬ len = 0 := h2
      refine ⟨⟨⟨_, rfl⟩, Nat.le_refl 1, ?_, Int.le_refl 0, rfl, rfl, rfl⟩, ?_, rfl, rfl, rfl⟩
      · show ((1 : Nat) : Int) + (len - 1) + 0 = len
        omega
      · show 0 ≤ len - 1
        omega

/-- The frame duration at 48 kHz is one of six (40_toc_fields.md R121). -/
theorem tocSpf_48000 (b : Byte) : 120 ≤ tocSpf b 48000 ∧ tocSpf b 48000 ≤ 2880 := by
  revert b; decide

theorem sized_code0 (h : Header s len sd t) : Parses s (Sized s len sd) (parseCode0 t) := by
  have hp := h.parsing.setParse (p := { t.parse with count := 1 }) h.parsing.pos h.parsing.total h.parsing.pad rfl rfl rfl
  refine ⟨hp, ⟨Nat.le_refl 1, ?_⟩, ?_, h.rem, ?_, fun _ => ⟨?_, ?_⟩, ?_⟩
  · show 1 ≤ 48; omega
  · show 1 * t.parse.spf48 ≤ 5760
    have := tocSpf_48000 (pktRead s 0)
    rw [h.parsing.spf]; omega
  · show 0 ≤ t.parse.lastSize
    rw [h.last]; exact h.rem
  · show t.parse.sizes.length + 1 = 1
    rw [h.sizes]; rfl
  · show t.parse.sizes.sum + t.parse.lastSize = t.parse.rem
    rw [h.sizes, h.last]; simp
  · intro n hn
    have hn : n ∈ t.parse.sizes := hn
    rw [h.sizes] at hn; simp at hn

theorem sized_code1 (h : Header s len sd t) : Parses s (Sized s len sd) (parseCode1 t) := by
  have h48 := tocSpf_48000 (pktRead s 0)
  have hspf := h.parsing.spf
  have hrem := h.rem
  unfold parseCode1
  simp only
  split
  · rename_i hsd
    have hsd' : sd = true := h.parsing.isSd.symm.trans hsd
    have hp := h.parsing.setParse (p := { t.parse with count := 2, cbr := true }) h.parsing.pos h.parsing.total
      h.parsing.pad rfl rfl rfl
    refine ⟨hp, by simp, ?_, h.rem, ?_, fun hc => ?_, fun n hn => ?_⟩
    · show 2 * t.parse.spf48 ≤ 5760; omega
    · show 0 ≤ t.parse.lastSize; rw [h.last]; exact h.rem
    · simp [hsd'] at hc
    · have hn : n ∈ t.parse.sizes := hn
      rw [h.sizes] at hn; simp at hn
  · split
    · exact ⟨.inr rfl, by obtain ⟨q, hq⟩ := h.parsing.only; exact ⟨_, by rw [hq]; rfl⟩⟩
    · rename_i hsd hodd
      have hp := h.parsing.setParse (p := { t.parse with count := 2, cbr := true, lastSize := t.parse.rem / 2,
                                                          sizes := [t.parse.rem / 2] }) h.parsing.pos h.parsing.total
        h.parsing.pad rfl rfl rfl
      refine ⟨hp, by simp, ?_, h.rem, ?_, fun _ => ⟨rfl, ?_⟩, fun n hn => ?_⟩
      · show 2 * t.parse.spf48 ≤ 5760; omega
      · show 0 ≤ t.parse.rem / 2; omega
      · show [t.parse.rem / 2].sum + t.parse.rem / 2 = t.parse.rem
        simp only [List.sum_cons, List.sum_nil]; omega
      · have hn : n ∈ [t.parse.rem / 2] := hn
        simp only [List.mem_singleton] at hn
        exact ⟨by omega, fun hc => by simp at hc, fun _ => hn⟩

theorem sized_code2 (h : Header s len sd t) : Parses s (Sized s len sd) (parseCode2 t) := by
  have h48 := tocSpf_48000 (pktRead s 0)
  have hspf := h.parsing.spf
  have hpos := h.parsing.pos
  have htot := h.parsing.total
  have honly : ∀ p, ∃ q, t.setParse p = s.setParse q := fun p => by
    obtain ⟨q, hq⟩ := h.parsing.only; exact ⟨p, by rw [hq]; rfl⟩
  unfold parseCode2
  simp only
  split
  · exact ⟨.inr rfl, honly _⟩
  · rename_i bytes v hr
    obtain ⟨hv, _, hb⟩ := readSize_bounds hr
    simp only [State.setParse_parse] at hb ⊢
    refine Flow.Post.ite (fun _ => ⟨.inr rfl, honly _⟩) fun hle => ?_
    have hp := h.parsing.setParse (p := { t.parse with count := 2, rem := t.parse.rem - bytes, sizes := [(v : Int)],
                                                        pos := t.parse.pos + bytes,
                                                        lastSize := t.parse.rem - bytes - v })
      (by simp only; omega) (by simp only; push_cast; omega) h.parsing.pad rfl rfl rfl
    refine ⟨hp, by simp, ?_, ?_, ?_, fun _ => ⟨rfl, ?_⟩, fun n hn => ?_⟩
    · show 2 * t.parse.spf48 ≤ 5760; omega
    · show 0 ≤ t.parse.rem - bytes; omega
    · show 0 ≤ t.parse.rem - bytes - v; omega
    · show [(v : Int)].sum + (t.parse.rem - bytes - v) = t.parse.rem - bytes
      simp only [List.sum_cons, List.sum_nil]; omega
    · have hn : n ∈ [(v : Int)] := hn
      simp only [List.mem_singleton] at hn
      refine ⟨by omega, fun _ => by omega, fun hc => ?_⟩
      have hc : t.parse.cbr = true := hc
      rw [h.cbr] at hc; simp at hc

/-- After the count byte (R156). -/
structure Counted (s : State) (len : Int) (sd : Bool) (t : State) : Prop where
  parsing : Parsing s len sd t
  count : 1 ≤ t.parse.count ∧ t.parse.count ≤ 48
  duration : t.parse.count * t.parse.spf48 ≤ 5760
  last : 0 ≤ t.parse.lastSize
  sizes : t.parse.sizes = []

theorem counted_code3 (h : Header s len sd t) : Parses s (Counted s len sd) (parseCode3 t) := by
  have h48 := tocSpf_48000 (pktRead s 0)
  have hspf := h.parsing.spf
  have hpos := h.parsing.pos
  have htot := h.parsing.total
  unfold parseCode3
  refine Flow.Post.ite (fun _ => h.parsing.failed) fun hrem => ?_
  simp only [State.setParse_parse]
  have honly : ∀ p, ∃ q, t.setParse p = s.setParse q := fun p => by
    obtain ⟨q, hq⟩ := h.parsing.only; exact ⟨p, by rw [hq]; rfl⟩
  refine Flow.Post.ite (fun _ => ⟨.inr rfl, honly _⟩) fun hc => ?_
  simp only [not_or, Nat.not_lt, maxSamples48k] at hc
  have h1 : 1 ≤ byteField (pktRead t t.parse.pos) 5 0 := by omega
  have h2 : t.parse.spf48 * byteField (pktRead t t.parse.pos) 5 0 ≤ 5760 := by omega
  refine ⟨h.parsing.setParse ?_ ?_ h.parsing.pad rfl rfl rfl, ⟨h1, ?_⟩, ?_, h.last ▸ h.rem, h.sizes⟩
  · simp only; omega
  · simp only; push_cast; omega
  · show byteField (pktRead t t.parse.pos) 5 0 ≤ 48
    have h3 : 120 * byteField (pktRead t t.parse.pos) 5 0 ≤ t.parse.spf48 * byteField (pktRead t t.parse.pos) 5 0 :=
      Nat.mul_le_mul_right _ (by omega)
    omega
  · show byteField (pktRead t t.parse.pos) 5 0 * t.parse.spf48 ≤ 5760
    rw [Nat.mul_comm]; exact h2

theorem counted_padChain (fuel : Nat) (h : Counted s len sd t) : Parses s (Counted s len sd) (padChain fuel t) := by
  induction fuel generalizing t with
  | zero => exact h.parsing.failed
  | succ fuel ih =>
    unfold padChain
    refine Flow.Post.ite (fun _ => h.parsing.failed) fun hrem => ?_
    simp only
    have hpos := h.parsing.pos
    have htot := h.parsing.total
    have hpad := h.parsing.pad
    have ht : ∀ x : Nat, (0 : Int) ≤ if x = 255 then (254 : Int) else x := fun x => by split <;> omega
    have hc : Counted s len sd (t.setParse { t.parse with
        pos := t.parse.pos + 1
        rem := t.parse.rem - 1 - (if (pktRead t t.parse.pos).toNat = 255 then 254 else (pktRead t t.parse.pos).toNat : Int)
        pad := t.parse.pad + (if (pktRead t t.parse.pos).toNat = 255 then 254 else (pktRead t t.parse.pos).toNat : Int) }) := by
      refine ⟨h.parsing.setParse ?_ ?_ ?_ rfl rfl rfl, h.count, h.duration, h.last, h.sizes⟩
      · simp only; omega
      · simp only; push_cast; omega
      · have := ht (pktRead t t.parse.pos).toNat
        simp only; omega
    exact Flow.Post.ite (fun _ => hc) fun _ => ih hc

/-- After the padding check (R157). -/
theorem padded_padCheck (h : Counted s len sd t) :
    Parses s (fun u => Counted s len sd u ∧ 0 ≤ u.parse.rem) (padCheck t) :=
  Flow.Post.ite (fun _ => h.parsing.failed) fun hrem => ⟨h, by omega⟩

theorem padded_parsePadding (h : Counted s len sd t) :
    Parses s (fun u => Counted s len sd u ∧ 0 ≤ u.parse.rem) (parsePadding t) :=
  Flow.Post.andThen (counted_padChain _ h) fun _ hu => padded_padCheck hu

/-- R158's loop keeps the sizes in step with the bytes left. -/
structure Listing (s : State) (len : Int) (sd : Bool) (k : Nat) (t : State) : Prop where
  parsing : Parsing s len sd t
  count : 1 ≤ t.parse.count ∧ t.parse.count ≤ 48
  duration : t.parse.count * t.parse.spf48 ≤ 5760
  rem : 0 ≤ t.parse.rem
  cbr : t.parse.cbr = false
  length : t.parse.sizes.length + k + 1 = t.parse.count
  sum : t.parse.sizes.sum + t.parse.lastSize = t.parse.rem
  sizes : ∀ n ∈ t.parse.sizes, 0 ≤ n ∧ n ≤ 1275

theorem listing_vbrSizes (k : Nat) (h : Listing s len sd k t) : Parses s (Listing s len sd 0) (vbrSizes k t) := by
  induction k generalizing t with
  | zero => exact h
  | succ k ih =>
    unfold vbrSizes
    have hpos := h.parsing.pos
    have htot := h.parsing.total
    split
    · exact h.parsing.failed
    · rename_i bytes v hr
      obtain ⟨hv, _, hb⟩ := readSize_bounds hr
      simp only
      refine Flow.Post.ite (fun _ => ⟨.inr rfl, ?_⟩) fun hle => ih ?_
      · obtain ⟨q, hq⟩ := h.parsing.only
        exact ⟨_, by rw [hq]; rfl⟩
      · refine ⟨h.parsing.setParse ?_ ?_ h.parsing.pad rfl rfl rfl, h.count, h.duration, ?_, h.cbr, ?_, ?_, fun n hn => ?_⟩
        · simp only; omega
        · simp only; push_cast; omega
        · show 0 ≤ t.parse.rem - bytes; omega
        · have := h.length
          simp only [State.setParse_parse, List.length_append, List.length_singleton]; omega
        · have := h.sum
          simp only [State.setParse_parse, List.sum_append, List.sum_singleton]; omega
        · simp only [State.setParse_parse, List.mem_append, List.mem_singleton] at hn
          rcases hn with hn | hn
          · exact h.sizes n hn
          · omega

theorem sized_parseVbr (h : Counted s len sd t) (hrem : 0 ≤ t.parse.rem) : Parses s (Sized s len sd) (parseVbr t) := by
  have hcnt := h.count
  have hl : Listing s len sd (t.parse.count - 1) (t.setParse { t.parse with cbr := false, lastSize := t.parse.rem }) := by
    refine ⟨h.parsing.setParse h.parsing.pos h.parsing.total h.parsing.pad rfl rfl rfl, h.count, h.duration, hrem, rfl,
      ?_, ?_, fun n hn => ?_⟩
    · simp only [State.setParse_parse, h.sizes, List.length_nil]; omega
    · simp only [State.setParse_parse, h.sizes, List.sum_nil]; omega
    · simp only [State.setParse_parse, h.sizes] at hn; simp at hn
  refine Flow.Post.andThen (listing_vbrSizes _ hl) fun u hu => ?_
  refine Flow.Post.ite (fun _ => hu.parsing.failed) fun hlast => ?_
  exact ⟨hu.parsing, hu.count, hu.duration, hu.rem, by omega, fun _ => ⟨hu.length, hu.sum⟩, fun n hn =>
    ⟨(hu.sizes n hn).1, fun _ => (hu.sizes n hn).2, fun hc => by rw [hu.cbr] at hc; simp at hc⟩⟩

theorem sized_parseCbr (h : Counted s len sd t) (hrem : 0 ≤ t.parse.rem) : Parses s (Sized s len sd) (parseCbr t) := by
  have hcnt := h.count
  have honly : ∀ p, ∃ q, t.setParse p = s.setParse q := fun p => by
    obtain ⟨q, hq⟩ := h.parsing.only; exact ⟨p, by rw [hq]; rfl⟩
  unfold parseCbr
  simp only [State.setParse_parse]
  refine Flow.Post.ite (fun hsd => ?_) fun hsd => ?_
  · have hsd' : sd = true := h.parsing.isSd.symm.trans hsd
    refine ⟨h.parsing.setParse h.parsing.pos h.parsing.total h.parsing.pad rfl rfl rfl, h.count, h.duration, hrem, h.last,
      fun hc => by simp [hsd'] at hc, fun n hn => ?_⟩
    simp only [State.setParse_parse, h.sizes] at hn; simp at hn
  · refine Flow.Post.ite (fun _ => ⟨.inr rfl, honly _⟩) fun hdiv => ?_
    simp only [ne_eq, Decidable.not_not] at hdiv
    have h0 : 0 ≤ t.parse.rem / (t.parse.count : Int) := Int.ediv_nonneg hrem (by omega)
    refine ⟨h.parsing.setParse h.parsing.pos h.parsing.total h.parsing.pad rfl rfl rfl, h.count, h.duration, hrem, h0,
      fun _ => ⟨?_, ?_⟩, fun n hn => ?_⟩
    · simp only [State.setParse_parse, List.length_replicate]; omega
    · simp only [State.setParse_parse, List.sum_replicate, nsmul_eq_mul]
      have : ((t.parse.count - 1 : Nat) : Int) = t.parse.count - 1 := by omega
      rw [this, Int.sub_mul, Int.one_mul, Int.mul_comm]
      omega
    · simp only [State.setParse_parse] at hn
      have := List.eq_of_mem_replicate hn
      exact ⟨by omega, fun hc => by simp at hc, fun _ => this⟩

/-- The rule of the frame-count code, before the last frame's size. -/
theorem sized_parseByCode (h : Header s len sd t) : Parses s (Sized s len sd) (parseByCode t) := by
  unfold parseByCode
  split
  · exact sized_code0 h
  · exact sized_code1 h
  · exact sized_code2 h
  · refine Flow.Post.andThen (counted_code3 h) fun u hu => ?_
    refine Flow.Post.andThen (G := fun v => Counted s len sd v ∧ 0 ≤ v.parse.rem) ?_ fun v hv => ?_
    · split
      · exact padded_parsePadding hu
      · exact padded_padCheck hu
    · exact Flow.Post.ite (fun _ => sized_parseVbr hv.1 hv.2) fun _ => sized_parseCbr hv.1 hv.2

/-- The registers of a parse with no check left: what the result file is written from (R164). -/
structure Parsed (s : State) (len : Int) (sd : Bool) (p : ParseRegs) : Prop where
  pos : 1 ≤ p.pos
  pad : 0 ≤ p.pad
  toc : p.toc = pktRead s 0
  count : 1 ≤ p.count ∧ p.count ≤ 48
  duration : p.count * tocSpf p.toc 48000 ≤ 5760
  length : p.sizes.length = p.count
  sizes : ∀ n ∈ p.sizes, 0 ≤ n ∧ n ≤ 1275
  equal : p.cbr = true → ∃ v, ∀ n ∈ p.sizes, n = v
  within : p.pad + (p.pos + p.sizes.sum) ≤ len
  whole : sd = false → p.pad + (p.pos + p.sizes.sum) = len

theorem parsed_tailSelfDelimited (hsd : sd = true) (h : Sized s len sd t) :
    Parses s (fun u => (∃ p, u = s.setParse p) ∧ Parsed s len sd u.parse) (tailSelfDelimited t) := by
  have honly : ∀ p, ∃ q, t.setParse p = s.setParse q := fun p => by
    obtain ⟨q, hq⟩ := h.parsing.only; exact ⟨p, by rw [hq]; rfl⟩
  have hpos := h.parsing.pos
  have htot := h.parsing.total
  have hpad := h.parsing.pad
  have hcount := h.count
  have hdur := h.duration
  rw [h.parsing.spf, ← h.parsing.toc] at hdur
  unfold tailSelfDelimited
  split
  · exact h.parsing.failed
  · rename_i bytes v hr
    obtain ⟨hv, _, hb⟩ := readSize_bounds hr
    simp only [State.setParse_parse]
    refine Flow.Post.ite (fun _ => ⟨.inr rfl, honly _⟩) fun hle => ?_
    by_cases hcbr : t.parse.cbr = true
    · rw [if_pos hcbr]
      refine Flow.Post.ite (fun _ => ⟨.inr rfl, honly _⟩) fun hfit => ⟨honly _, ?_⟩
      refine ⟨?_, hpad, h.parsing.toc, h.count, hdur, List.length_replicate, fun n hn => ?_, fun _ => ⟨v, fun n hn =>
        List.eq_of_mem_replicate hn⟩, ?_, fun hc => by simp [hsd] at hc⟩
      · simp only [State.setParse_parse]; omega
      · have := List.eq_of_mem_replicate hn; omega
      · simp only [State.setParse_parse, List.sum_replicate, nsmul_eq_mul]
        rw [Int.mul_comm]
        push_cast
        omega
    · rw [if_neg hcbr]
      simp only [Bool.not_eq_true] at hcbr
      obtain ⟨hl, hs⟩ := h.known (.inl hcbr)
      refine Flow.Post.ite (fun _ => ⟨.inr rfl, honly _⟩) fun hfit => ⟨honly _, ?_⟩
      refine ⟨?_, hpad, h.parsing.toc, h.count, hdur, ?_, fun n hn => ?_, fun hc => ?_, ?_, fun hc => by simp [hsd] at hc⟩
      · simp only [State.setParse_parse]; omega
      · simp only [State.setParse_parse, List.length_append, List.length_singleton]; exact hl
      · simp only [State.setParse_parse, List.mem_append, List.mem_singleton] at hn
        rcases hn with hn | hn
        · have := h.sizes n hn
          exact ⟨this.1, this.2.1 hcbr⟩
        · omega
      · have hc : t.parse.cbr = true := hc
        rw [hcbr] at hc; simp at hc
      · simp only [State.setParse_parse, List.sum_append, List.sum_singleton]
        push_cast
        omega

theorem parsed_tailImplicit (hsd : sd = false) (h : Sized s len sd t) :
    Parses s (fun u => (∃ p, u = s.setParse p) ∧ Parsed s len sd u.parse) (tailImplicit t) := by
  have honly : ∀ p, ∃ q, t.setParse p = s.setParse q := fun p => by
    obtain ⟨q, hq⟩ := h.parsing.only; exact ⟨p, by rw [hq]; rfl⟩
  have hpos := h.parsing.pos
  have htot := h.parsing.total
  have hcount := h.count
  have hlast := h.last
  have hdur := h.duration
  rw [h.parsing.spf, ← h.parsing.toc] at hdur
  obtain ⟨hl, hs⟩ := h.known (.inr hsd)
  unfold tailImplicit
  refine Flow.Post.ite (fun _ => h.parsing.failed) fun hmax => ⟨honly _, ?_⟩
  simp only [maxImplicit] at hmax
  have hsum : (t.parse.sizes ++ [t.parse.lastSize]).sum = t.parse.rem := by
    rw [List.sum_append, List.sum_singleton]; exact hs
  refine ⟨hpos, h.parsing.pad, h.parsing.toc, h.count, hdur, ?_, fun n hn => ?_, fun hc => ⟨t.parse.lastSize,
    fun n hn => ?_⟩, ?_, fun _ => ?_⟩
  · simp only [State.setParse_parse, List.length_append, List.length_singleton]; exact hl
  · simp only [State.setParse_parse, List.mem_append, List.mem_singleton] at hn
    rcases hn with hn | hn
    · have := h.sizes n hn
      refine ⟨this.1, ?_⟩
      cases hcbr : t.parse.cbr
      · exact this.2.1 hcbr
      · have := this.2.2 hcbr; omega
    · omega
  · simp only [State.setParse_parse, List.mem_append, List.mem_singleton] at hn
    rcases hn with hn | hn
    · exact (h.sizes n hn).2.2 hc
    · exact hn
  · simp only [State.setParse_parse, hsum]; omega
  · simp only [State.setParse_parse, hsum]; omega

/-- A parse comes to the result file of its registers, or to one of two codes with nothing but its registers changed. -/
theorem parses_parsePacket (len : Int) (sd : Bool) (s : State) : (parsePacket len sd s).Post
    (fun u => ∃ p, u = (s.setParse p).setFile (resultFile p s.file) ∧ Parsed s len sd p) (ParseFailed s)
    fun _ => False := by
  have hassoc : parsePacket len sd s = ((parseArgs (parseStart len sd s)).andThen parseHeader).andThen fun s =>
      (parseByCode s).andThen fun s => (parseTail s).andThen fun s => .go (parseResult s) := by
    unfold parsePacket
    rw [Flow.andThen_assoc]
  rw [hassoc]
  refine Flow.Post.andThen (parses_header s len sd) fun t ht => ?_
  refine Flow.Post.andThen (sized_parseByCode ht) fun u hu => ?_
  refine Flow.Post.andThen (G := fun u => (∃ p, u = s.setParse p) ∧ Parsed s len sd u.parse) ?_ fun v hv => ?_
  · unfold parseTail
    split
    · rename_i hsd
      exact parsed_tailSelfDelimited (hu.parsing.isSd.symm.trans hsd) hu
    · rename_i hsd
      simp only [Bool.not_eq_true] at hsd
      exact parsed_tailImplicit (hu.parsing.isSd.symm.trans hsd) hu
  · obtain ⟨⟨p, rfl⟩, hp⟩ := hv
    exact ⟨p, rfl, hp⟩

/-! The result file. -/

theorem overlay_get {α : Type} {n : Nat} (l : List α) (v : Vector α n) (k i : Nat) :
    (overlay k l v)[i]? = if k ≤ i ∧ i < k + l.length ∧ i < n then l[i - k]? else v[i]? := by
  induction l generalizing k v with
  | nil => simp only [overlay, List.length_nil]; rw [if_neg (by omega)]
  | cons x xs ih =>
    simp only [overlay, List.length_cons]
    rw [ih]
    by_cases h1 : k + 1 ≤ i ∧ i < k + 1 + xs.length ∧ i < n
    · rw [if_pos h1, if_pos ⟨by omega, by omega, h1.2.2⟩]
      have : i - k = (i - (k + 1)) + 1 := by omega
      rw [this, List.getElem?_cons_succ]
    · rw [if_neg h1]
      by_cases h2 : i = k ∧ i < n
      · obtain ⟨rfl, h2⟩ := h2
        rw [if_pos ⟨Nat.le_refl _, by omega, h2⟩]
        simp [h2]
      · rw [if_neg (by omega)]
        by_cases h3 : i < n
        · have : k ≠ i := by omega
          simp [this]
        · simp [h3]

theorem frameOffsets_length (off : Int) (l : List Int) : (frameOffsets off l).length = l.length := by
  induction l generalizing off with
  | nil => rfl
  | cons n l ih => simp [frameOffsets, ih]

theorem frameOffsets_get (off : Int) (l : List Int) (k : Nat) (hk : k < l.length) :
    (frameOffsets off l)[k]? = some (off + (l.take k).sum) := by
  induction l generalizing off k with
  | nil => simp at hk
  | cons n l ih =>
    cases k with
    | zero => simp [frameOffsets]
    | succ k =>
      simp only [frameOffsets, List.getElem?_cons_succ, List.take_succ_cons, List.sum_cons]
      rw [ih (off + n) k (by simpa using hk)]
      congr 1; omega

end Sys2Proof.Machine
end

