-- ==== Sys2Proof/Laws/Driver.lean ====
section
/-! SUPPORT. What the loops of DECODE come to in a legal state (43_driver.md R262, R265, R268). -/

namespace Sys2Proof.Machine

/-- What DECODE's loops leave alone: all but the engines, OUT, the FSM's registers and the driver's counters. -/
structure DriveKeeps (s t : State) : Prop where
  constructed : t.constructed = s.constructed
  dec : t.dec = { s.dec with prevMode := t.dec.prevMode, prevRedundancy := t.dec.prevRedundancy,
                             rangeFinal := t.dec.rangeFinal }
  pctl : t.pctl = { s.pctl with nChannelsInternal := t.pctl.nChannelsInternal,
                                internalSampleRate := t.pctl.internalSampleRate,
                                payloadSizeMs := t.pctl.payloadSizeMs }
  tSignalling : t.tSignalling = s.tSignalling
  file : t.file = s.file
  host : t.host = s.host
  pkt : t.pkt = s.pkt
  inbox : t.inbox = s.inbox
  driver : ∃ k nb, t.driver = { s.driver with k := k, nb := nb }

theorem DriveKeeps.refl (s : State) : DriveKeeps s s := ⟨rfl, rfl, rfl, rfl, rfl, rfl, rfl, rfl, _, _, rfl⟩

theorem DriveKeeps.trans {s t u : State} (h : DriveKeeps s t) (h' : DriveKeeps t u) : DriveKeeps s u where
  constructed := h'.constructed.trans h.constructed
  dec := by rw [h'.dec, h.dec]
  pctl := by rw [h'.pctl, h.pctl]
  tSignalling := h'.tSignalling.trans h.tSignalling
  file := h'.file.trans h.file
  host := h'.host.trans h.host
  pkt := h'.pkt.trans h.pkt
  inbox := h'.inbox.trans h.inbox
  driver := by
    obtain ⟨k, n, h⟩ := h.driver
    obtain ⟨k', n', h'⟩ := h'.driver
    exact ⟨k', n', by rw [h', h]⟩

theorem DriveKeeps.chans {s t : State} (h : DriveKeeps s t) : chans t = chans s := by
  unfold Machine.chans; rw [h.dec]
theorem DriveKeeps.rate {s t : State} (h : DriveKeeps s t) : rate t = rate s := by
  unfold Machine.rate; rw [h.dec]
theorem DriveKeeps.frameSize {s t : State} (h : DriveKeeps s t) : t.dec.frameSize = s.dec.frameSize := by rw [h.dec]
theorem DriveKeeps.mode {s t : State} (h : DriveKeeps s t) : t.dec.mode = s.dec.mode := by rw [h.dec]

/-- The arguments DECODE gives an invocation. -/
abbrev driveArgs (fb : Option Nat) (flen : Int) (o : Nat) (fsz : Int) (fec : Bool) : FrameArgs :=
  { fb := fb, flen := flen, dst := .pcm, o := o, fsz := fsz, fec := fec }

variable {s t u : State} {fb : Option Nat} {flen : Int} {o : Nat} {fsz : Int} {fec : Bool}

/-- The state after an invocation inside DECODE, with `n` samples done. -/
abbrev afterFrame (t : State) (n : Int) : State :=
  ((t.setFrame FrameRegs.clear).setTr []).setDriver { t.driver with nb := n }

theorem FrameKeeps.drive (h : FrameKeeps s t) (n : Int) : DriveKeeps s (afterFrame t n) :=
  ⟨h.constructed, h.dec, h.pctl, h.tSignalling, h.file, h.host, h.pkt, h.inbox, s.driver.k, n, by
    show { t.driver with nb := n } = _
    rw [h.driver]⟩

/-- One invocation inside DECODE. -/
theorem drives (he : FrameEntry (driveArgs fb flen o fsz fec) s) : (driveFrame fb flen o fsz fec s).Post
    (fun u => ∃ r t, 0 ≤ r ∧ FrameOutcome (driveArgs fb flen o fsz fec) s r t ∧ FrameKeeps s t ∧
      u = afterFrame t (s.driver.nb + r))
    (fun r u => r < 0 ∧ ∃ t, FrameOutcome (driveArgs fb flen o fsz fec) s r t ∧ FrameKeeps s t ∧
      u = afterFrame t s.driver.nb)
    (· = .engineContract) := by
  have hspec := spec_decodeFrame he
  have hkeep := fun r t => keeps_decodeFrame (a := driveArgs fb flen o fsz fec) (s := s) (r := r) (t := t)
  unfold driveFrame
  generalize decodeFrame _ s = res at hspec hkeep
  match res with
  | .error f => exact hspec
  | .ok (r, t) =>
    have hk := hkeep r t rfl
    refine Flow.Post.ite (fun hr => ⟨hr, t, hspec, hk, ?_⟩) fun hr => ⟨r, t, by omega, hspec, hk, ?_⟩
    · show _ = ((t.setFrame FrameRegs.clear).setTr []).setDriver { t.driver with nb := s.driver.nb }
      rw [← hk.driver]; rfl
    · show ((t.setFrame FrameRegs.clear).setTr []).setDriver { t.driver with nb := t.driver.nb + r } = _
      rw [show t.driver.nb = s.driver.nb by rw [hk.driver]]

/-- A concealment in progress, begun in `s`: `total` samples from the start of OUT. -/
structure Concealing (total : Int) (s t : State) : Prop where
  keeps : DriveKeeps s t
  prevMode : t.dec.prevMode = s.dec.prevMode
  red : t.dec.prevRedundancy = true → s.dec.prevRedundancy = true
  wf : t.out.wf = true
  outside : ∀ i, (total * Machine.chans s).toNat ≤ i → t.out.read i = s.out.read i
  silent : s.dec.prevMode = .uninit → t.dec = s.dec ∧ t.env = s.env ∧ t.pctl = s.pctl ∧ t.tctl = s.tctl ∧
    ∀ i, i < (t.driver.nb * Machine.chans s).toNat → t.out.read i = 0

theorem Concealing.legal {total : Int} (h : Concealing total s t) (hl : LegalDecoder s.dec) : LegalDecoder t.dec := by
  rw [h.keeps.dec]
  exact ⟨hl.rate, hl.channels, hl.streamChannels, hl.packetMeta, fun hp => hl.prevMode (h.prevMode ▸ hp),
    fun hr => by
      have := hl.prevRedundancy (h.red hr)
      rw [← h.prevMode] at this
      exact this⟩

/-- R262's loop: all of it, whatever the engines answer. -/
theorem conceals_loop (hl : LegalDecoder s.dec) {total : Int} (hd : (f2_5 (rate s) : Int) ∣ total) (fuel : Nat)
    (h : Concealing total s t) (h0 : 0 ≤ t.driver.nb) (hnb : t.driver.nb < total)
    (hdn : (f2_5 (rate s) : Int) ∣ t.driver.nb) (hfuel : total - t.driver.nb ≤ fuel) :
    (concealLoop total fuel t).Post (fun u => Concealing total s u ∧ u.driver.nb = total) (fun _ _ => False)
      (· = .engineContract) := by
  induction fuel generalizing t with
  | zero => simp only [Nat.cast_zero] at hfuel; omega
  | succ fuel ih =>
    have hlt := h.legal hl
    have hentry : FrameEntry (driveArgs none 0 (words t.driver.nb t) (total - t.driver.nb) false) t :=
      ⟨hlt, h.wf, .inl rfl, fun hc => by simp only at hc; omega⟩
    have hdvd : (f2_5 (rate t) : Int) ∣ total - t.driver.nb := by
      rw [h.keeps.rate]; exact Int.dvd_sub hd hdn
    have hw : words t.driver.nb t = (t.driver.nb * Machine.chans s).toNat := by
      unfold words; rw [h.keeps.chans]
    have hstep : ∀ r t', FrameOutcome (driveArgs none 0 (words t.driver.nb t) (total - t.driver.nb) false) t r t' →
        FrameKeeps t t' → 1 ≤ r → Concealing total s (afterFrame t' (t.driver.nb + r)) := fun r t' ho hk hr => by
      have hc := ho.conceal (by simp only; omega)
      have hsz := ho.size (by omega)
      simp only at hsz
      have hadd := words_add (n := t.driver.nb) (m := r) (c := Machine.chans s) h0 (by omega)
      have hle := words_le (c := Machine.chans s) (show t.driver.nb + (total - t.driver.nb) ≤ total by omega)
      have hadd' := words_add (n := t.driver.nb) (m := total - t.driver.nb) (c := Machine.chans s) h0 (by omega)
      refine ⟨h.keeps.trans (hk.drive _), hc.1.trans h.prevMode, fun hr => h.red (hc.2 hr), hk.out h.wf, fun i hi => ?_,
        fun hu => ?_⟩
      · refine (ho.outside i fun _ => .inr ?_).trans (h.outside i hi)
        simp only [hw, h.keeps.chans]
        omega
      · obtain ⟨s1, s2, s3, s4, s5⟩ := h.silent hu
        obtain ⟨d1, d2, d3, d4, d5⟩ := ho.silent (by simp only; omega) (h.prevMode.trans hu)
        have hF : (f2_5 (rate t) : Int) ≤ total - t.driver.nb := Int.le_of_dvd (by omega) hdvd
        obtain ⟨_, d6⟩ := d5 hF
        refine ⟨d1.trans s1, d2.trans s2, d3.trans s3, d4.trans s4, fun i hi => ?_⟩
        have hi : i < ((t.driver.nb + r) * Machine.chans s).toNat := hi
        by_cases hlo : i < (t.driver.nb * Machine.chans s).toNat
        · exact (ho.outside i fun _ => .inl (by simp only [hw]; exact hlo)).trans (s5 i hlo)
        · refine d6 rfl i (by simp only [hw]; omega) ?_
          simp only [hw, h.keeps.chans]
          omega
    unfold concealLoop
    refine Flow.Post.andThen (G := fun u => ∃ r t', 1 ≤ r ∧ FrameOutcome (driveArgs none 0 (words t.driver.nb t)
      (total - t.driver.nb) false) t r t' ∧ FrameKeeps t t' ∧ u = afterFrame t' (t.driver.nb + r)) ?_ fun u hu => ?_
    · have hdr := drives hentry
      generalize driveFrame none 0 (words t.driver.nb t) (total - t.driver.nb) false t = m at hdr
      have hpos : ∀ r t', FrameOutcome (driveArgs none 0 (words t.driver.nb t) (total - t.driver.nb) false) t r t' →
          1 ≤ r := fun r t' ho =>
        (ho.concealed (by simp only; omega) (whole_of_dvd hlt hdvd) (by simp only; omega)).1
      match m with
      | .go u =>
        obtain ⟨r, t', _, ho, hk, rfl⟩ := hdr
        exact ⟨r, t', hpos r t' ho, ho, hk, rfl⟩
      | .done r u =>
        obtain ⟨hneg, t', ho, _⟩ := hdr
        have := hpos r t' ho
        exact absurd hneg (by omega)
      | .fault f => exact hdr
    · obtain ⟨r, t', hr, ho, hk, rfl⟩ := hu
      have hc := hstep r t' ho hk hr
      have hsz := ho.size (by omega)
      simp only at hsz
      have hdr := (ho.concealed (by simp only; omega) (whole_of_dvd hlt hdvd) (by simp only; omega)).2.1
      rw [h.keeps.rate] at hdr
      refine Flow.Post.ite (fun hle => ⟨hc, ?_⟩) fun hle => ?_
      · have hle : total ≤ t.driver.nb + r := hle
        show t.driver.nb + r = total
        omega
      · have hle : ¬ total ≤ t.driver.nb + r := hle
        refine ih hc ?_ ?_ ?_ ?_
        · show 0 ≤ t.driver.nb + r; omega
        · show t.driver.nb + r < total; omega
        · exact Int.dvd_add hdn hdr
        · show total - (t.driver.nb + r) ≤ fuel
          push_cast at hfuel; omega

/-- Concealing a positive multiple of 2.5 ms. -/
theorem conceals (hl : LegalDecoder s.dec) (hw : s.out.wf = true) {total : Int} (hd : (f2_5 (rate s) : Int) ∣ total)
    (h1 : 0 < total) : (conceal total s).Post (fun u => Concealing total s u ∧ u.driver.nb = total) (fun _ _ => False)
      (· = .engineContract) :=
  conceals_loop hl hd _
    ⟨⟨rfl, rfl, rfl, rfl, rfl, rfl, rfl, rfl, _, _, rfl⟩, rfl, id, hw, fun _ _ => rfl, fun _ => ⟨rfl, rfl, rfl, rfl,
      fun i hi => by
        have hi : i < ((0 : Int) * Machine.chans s).toNat := hi
        simp at hi⟩⟩ (Int.le_refl 0) h1 (Int.dvd_zero _) (by
      show total - 0 ≤ total.toNat
      omega)

/-- Frames in progress, begun in `s` with the packet's metadata committed. -/
structure Framing (cap : Int) (s t : State) : Prop where
  keeps : DriveKeeps s t
  legal : LegalDecoder t.dec
  wf : t.out.wf = true
  outside : ∀ i, (cap * Machine.chans s).toNat ≤ i → t.out.read i = s.out.read i

/-- R268's loop: every frame makes the committed frame size, or the loop ends with its code. -/
theorem frames (hm : s.dec.mode ≠ .uninit) {cap : Int} (n : Nat) (h : Framing cap s t) (h0 : 0 ≤ t.driver.nb)
    (hroom : t.driver.nb + n * s.dec.frameSize.toNat ≤ cap) :
    (frameLoop cap n t).Post
      (fun u => Framing cap s u ∧ u.driver.nb = t.driver.nb + n * s.dec.frameSize.toNat)
      (fun r u => Framing cap s u ∧ isErrorCode r = true) (· = .engineContract) := by
  induction n generalizing t with
  | zero => exact ⟨h, by push_cast; omega⟩
  | succ n ih =>
    have hfs : t.dec.frameSize = s.dec.frameSize := h.keeps.frameSize
    have hmul : ((n + 1 : Nat) : Int) * s.dec.frameSize.toNat = n * s.dec.frameSize.toNat + s.dec.frameSize.toNat := by
      push_cast; ring
    have hnn : 0 ≤ (n : Int) * s.dec.frameSize.toNat := Int.mul_nonneg (by omega) (by omega)
    rw [hmul] at hroom ⊢
    have hentry : FrameEntry (driveArgs (some (resOff t t.driver.k)) (resLen t t.driver.k) (words t.driver.nb t)
        (cap - t.driver.nb) false) t := ⟨h.legal, h.wf, .inl rfl, fun _ => by rw [h.keeps.mode]; exact hm⟩
    have hframing : ∀ r t' n, FrameOutcome (driveArgs (some (resOff t t.driver.k)) (resLen t t.driver.k)
        (words t.driver.nb t) (cap - t.driver.nb) false) t r t' → FrameKeeps t t' → Framing cap s (afterFrame t' n) :=
      fun r t' n ho hk => by
        refine ⟨h.keeps.trans (hk.drive _), ho.legal, hk.out h.wf, fun i hi => ?_⟩
        refine (ho.outside i fun _ => .inr ?_).trans (h.outside i hi)
        have hadd := words_add (n := t.driver.nb) (m := cap - t.driver.nb) (c := Machine.chans s) h0 (by omega)
        have hle := words_le (c := Machine.chans s) (show t.driver.nb + (cap - t.driver.nb) ≤ cap by omega)
        simp only [words, h.keeps.chans]
        omega
    unfold frameLoop
    have hsize : ∀ r t', 0 ≤ r → FrameOutcome (driveArgs (some (resOff t t.driver.k)) (resLen t t.driver.k)
        (words t.driver.nb t) (cap - t.driver.nb) false) t r t' → r = s.dec.frameSize.toNat := fun r t' hr ho => by
      by_cases hp : 1 < resLen t t.driver.k
      · rw [← hfs]; exact (ho.real hp hr).1
      · have hle : (t.dec.frameSize.toNat : Int) ≤ cap - t.driver.nb := by rw [hfs]; omega
        have hpos : 1 ≤ cap - t.driver.nb := by
          obtain ⟨F, u, h1, _, _, _, _, _, _, _, hfs', hmt⟩ := h.legal.sizes
          have hu := (legalMeta_units hmt).1
          have : F ≤ u * F := by
            calc F = 1 * F := (Nat.one_mul F).symm
              _ ≤ u * F := Nat.mul_le_mul_right F (by omega)
          omega
        rw [← hfs]
        exact (ho.concealed (by simp only; omega) (whole_of_le h.legal hle) hpos).2.2 hle
    refine Flow.Post.andThen (G := fun u => ∃ t', FrameOutcome (driveArgs (some (resOff t t.driver.k))
      (resLen t t.driver.k) (words t.driver.nb t) (cap - t.driver.nb) false) t s.dec.frameSize.toNat t' ∧
        FrameKeeps t t' ∧ u = afterFrame t' (t.driver.nb + s.dec.frameSize.toNat)) ?_ fun u hu => ?_
    · have hdr := drives hentry
      generalize driveFrame (some (resOff t t.driver.k)) (resLen t t.driver.k) (words t.driver.nb t) (cap - t.driver.nb)
        false t = m at hdr
      match m with
      | .go u =>
        obtain ⟨r, t', hr, ho, hk, rfl⟩ := hdr
        have := hsize r t' hr ho
        exact ⟨t', this ▸ ho, hk, by rw [this]⟩
      | .done r u =>
        obtain ⟨hneg, t', ho, hk, rfl⟩ := hdr
        exact ⟨hframing r t' _ ho hk, ho.code hneg⟩
      | .fault f => exact hdr
    · obtain ⟨t', ho, hk, rfl⟩ := hu
      have hf := hframing _ t' (t.driver.nb + s.dec.frameSize.toNat) ho hk
      have hf' : Framing cap s ((afterFrame t' (t.driver.nb + s.dec.frameSize.toNat)).setDriver
          { (afterFrame t' (t.driver.nb + s.dec.frameSize.toNat)).driver with
            k := (afterFrame t' (t.driver.nb + s.dec.frameSize.toNat)).driver.k + 1 }) :=
        ⟨⟨hf.keeps.constructed, hf.keeps.dec, hf.keeps.pctl, hf.keeps.tSignalling, hf.keeps.file, hf.keeps.host,
          hf.keeps.pkt, hf.keeps.inbox, by
            obtain ⟨k, m, hd⟩ := hf.keeps.driver
            exact ⟨k + 1, m, by rw [State.setDriver_driver, hd]⟩⟩, hf.legal, hf.wf, hf.outside⟩
      refine (ih hf' ?_ ?_).mono (fun v hv => ⟨hv.1, ?_⟩) fun _ _ hd => hd
      · show 0 ≤ t.driver.nb + s.dec.frameSize.toNat; omega
      · show t.driver.nb + s.dec.frameSize.toNat + _ ≤ cap; omega
      · rw [hv.2]
        show t.driver.nb + s.dec.frameSize.toNat + _ = _
        omega

/-- Each frame done counts one, in the driver's frame index (10_state.md R24). -/
theorem frameLoop_index {cap : Int} {n : Nat} (h : frameLoop cap n s = .go u) : u.driver.k = s.driver.k + n := by
  induction n generalizing s with
  | zero => cases h; rfl
  | succ n ih =>
    unfold frameLoop at h
    unfold driveFrame at h
    split at h
    · cases h
    · rename_i r t heq
      simp only at h
      split at h
      · cases h
      · have hk : t.driver.k = s.driver.k := by rw [(keeps_decodeFrame heq).driver]
        have := ih h
        simp only [State.setDriver_driver, State.setTr_driver, State.setFrame_driver, hk] at this
        omega

/-- R268's loop fails at one frame: the frames before it are done, and it ends as that frame does. -/
theorem frameLoop_failed {cap r : Int} {n : Nat} (h : frameLoop cap n s = .done r t) : ∃ k < n, ∃ u,
    frameLoop cap k s = .go u ∧
    driveFrame (some (resOff u u.driver.k)) (resLen u u.driver.k) (words u.driver.nb u) (cap - u.driver.nb) false u =
      .done r t := by
  induction n generalizing s with
  | zero => cases h
  | succ n ih =>
    unfold frameLoop at h
    generalize hm : driveFrame _ _ _ _ _ _ = m at h
    match m with
    | .fault f => cases h
    | .done r' t' =>
      cases h
      exact ⟨0, by omega, s, rfl, hm⟩
    | .go s1 =>
      obtain ⟨k, hk, u, hu, hd⟩ := ih h
      exact ⟨k + 1, by omega, u, by rw [frameLoop, hm]; exact hu, hd⟩

/-- What stands when R268's loop fails, begun at frame 0 with nothing done: at some frame, at its place in the packet and in
`OUT`, and the samples of the frames before it are as they left them. -/
theorem frames_failed (hm : s.dec.mode ≠ .uninit) (hl : LegalDecoder s.dec) (hw : s.out.wf = true) {cap r : Int} {n : Nat}
    (hk : s.driver.k = 0) (hnb : s.driver.nb = 0) (hroom : n * s.dec.frameSize.toNat ≤ cap)
    (h : frameLoop cap n s = .done r t) : ∃ k < n, ∃ u, frameLoop cap k s = .go u ∧
      driveFrame (some (resOff u k)) (resLen u k) (words (k * s.dec.frameSize.toNat : Nat) u)
        (cap - (k * s.dec.frameSize.toNat : Nat)) false u = .done r t ∧
      ∀ i < words (k * s.dec.frameSize.toNat : Nat) s, t.out.read i = u.out.read i := by
  obtain ⟨k, hkn, u, hu, hd⟩ := frameLoop_failed h
  have hmul : (k : Int) * s.dec.frameSize.toNat ≤ n * s.dec.frameSize.toNat :=
    Int.mul_le_mul_of_nonneg_right (by omega) (by omega)
  have hf := frames (s := s) (cap := cap) hm k (t := s) ⟨.refl s, hl, hw, fun _ _ => rfl⟩ (by omega) (by omega)
  rw [hu] at hf
  obtain ⟨hf, hn⟩ := hf
  have hn : u.driver.nb = (k * s.dec.frameSize.toNat : Nat) := by rw [hn, hnb]; push_cast; omega
  have hi : u.driver.k = k := by rw [frameLoop_index hu, hk]; omega
  rw [hi, hn] at hd
  refine ⟨k, hkn, u, hu, hd, fun i hlt => ?_⟩
  have hdr := drives (s := u) (fb := some (resOff u k)) (flen := resLen u k)
    (o := words (k * s.dec.frameSize.toNat : Nat) u) (fsz := cap - (k * s.dec.frameSize.toNat : Nat)) (fec := false)
    ⟨hf.legal, hf.wf, .inl rfl, fun _ => by rw [hf.keeps.mode]; exact hm⟩
  rw [hd] at hdr
  obtain ⟨-, v, ho, -, rfl⟩ := hdr
  refine ho.outside i fun _ => .inl ?_
  simpa only [words, hf.keeps.chans] using hlt

/-! The metadata a packet commits. -/

/-- The duration of a TOC byte's frames, in units of 2.5 ms (30_encoding.md R86). -/
def tocUnits (toc : Byte) : Nat := tocSpf toc 400

/-- Every TOC byte names a legal configuration (30_encoding.md R86). -/
theorem legalMeta_toc (toc : Byte) : legalMeta (tocMode toc) (tocBandwidth toc) (tocUnits toc) = true := by
  revert toc; decide

/-- The frame size of a TOC byte at a legal rate, exactly (30_encoding.md R84). -/
theorem tocSpf_eq (toc : Byte) {fs : Nat} (h : legalRate fs = true) : tocSpf toc fs = fs * tocUnits toc / 400 := by
  simp only [legalRate, Bool.or_eq_true, decide_eq_true_eq] at h
  have h' : fs = 8000 ∨ fs = 12000 ∨ fs = 16000 ∨ fs = 24000 ∨ fs = 48000 := by omega
  revert toc
  rcases h' with rfl | rfl | rfl | rfl | rfl <;> decide

theorem tocSpf_le (toc : Byte) {fs : Nat} (h : legalRate fs = true) : 20 ≤ tocSpf toc fs ∧ tocSpf toc fs ≤ 2880 := by
  simp only [legalRate, Bool.or_eq_true, decide_eq_true_eq] at h
  have h' : fs = 8000 ∨ fs = 12000 ∨ fs = 16000 ∨ fs = 24000 ∨ fs = 48000 := by omega
  revert toc
  rcases h' with rfl | rfl | rfl | rfl | rfl <;> decide

theorem tocMode_committed (toc : Byte) : tocMode toc ≠ .uninit := by
  revert toc; decide

end Sys2Proof.Machine
end

