-- ==== Sys2Proof/Laws/Packet.lean ====
section
/-! SUPPORT. What the three paths of DECODE come to in a legal state: concealment (43_driver.md R262), the FEC path (R265),
the normal path (R266 to R269). -/

namespace Sys2Proof.Machine

variable {s t u : State} {cap : Int}

/-- The concealment path answers the whole request. -/
theorem concealCommand_outcome (hl : LegalDecoder s.dec) (hw : s.out.wf = true)
    (hd : (f2_5 (rate s) : Int) ∣ cap) (h1 : 0 < cap) : concealCommand cap s = .fault .engineContract ∨
      ∃ u, Concealing cap s u ∧ concealCommand cap s = .next (respondDuration cap u) := by
  have h := conceals hl hw hd h1
  unfold concealCommand
  generalize conceal cap s = m at h
  match m with
  | .go u => exact .inr ⟨u, h.1, by rw [Flow.settle_go, h.2]⟩
  | .done r u => exact h.elim
  | .fault f => exact .inl (by rw [Flow.settle_fault]; exact congrArg _ h)

/-- The driver holds the metadata of the parsed packet (43_driver.md R264). -/
structure HasMeta (s : State) : Prop where
  pm : s.driver.pm = tocMode s.file.toc
  pb : s.driver.pb = tocBandwidth s.file.toc
  pf : s.driver.pf = tocSpf s.file.toc (rate s)
  pc : s.driver.pc = tocChannels s.file.toc

theorem hasMeta_packetMeta (s : State) : HasMeta (packetMeta s) := ⟨rfl, rfl, rfl, rfl⟩

theorem HasMeta.size (h : HasMeta s) (hl : LegalDecoder s.dec) : 20 ≤ s.driver.pf ∧ s.driver.pf ≤ 2880 := by
  rw [h.pf]; exact tocSpf_le _ hl.rate

/-- The commit of a packet's metadata keeps the decoder legal. -/
theorem HasMeta.commit (h : HasMeta s) (hl : LegalDecoder s.dec) : LegalDecoder (Machine.commit s).dec := by
  have hsz := h.size hl
  refine ⟨hl.rate, hl.channels, ?_, ⟨tocUnits s.file.toc, ?_, ?_⟩, fun _ => ?_, hl.prevRedundancy⟩
  · show legalChannels (BitVec.ofNat 2 s.driver.pc).toNat = true
    rw [h.pc]
    unfold tocChannels
    split <;> decide
  · show legalMeta s.driver.pm s.driver.pb _ = true
    rw [h.pm, h.pb]; exact legalMeta_toc _
  · show (BitVec.ofNat 16 s.driver.pf).toNat = s.dec.fs.toNat * _ / 400
    rw [BitVec.toNat_ofNat, Nat.mod_eq_of_lt (by omega), h.pf]
    exact tocSpf_eq _ hl.rate
  · show s.driver.pm ≠ .uninit
    rw [h.pm]; exact tocMode_committed _

theorem HasMeta.frameSize (h : HasMeta s) (hl : LegalDecoder s.dec) : (Machine.commit s).dec.frameSize.toNat = s.driver.pf := by
  have hsz := h.size hl
  show (BitVec.ofNat 16 s.driver.pf).toNat = _
  rw [BitVec.toNat_ofNat, Nat.mod_eq_of_lt (by omega)]

theorem HasMeta.mode (h : HasMeta s) : (Machine.commit s).dec.mode ≠ .uninit := by
  show s.driver.pm ≠ .uninit
  rw [h.pm]; exact tocMode_committed _

/-- The normal path (R266 to R269): nothing when the packet does not fit, else the frames after the commit. -/
theorem packetCommand_outcome (hl : LegalDecoder s.dec) (hw : s.out.wf = true) (hm : HasMeta s) :
    ((cap < s.file.count.toNat * s.driver.pf ∧ packetCommand cap s = raises .bufferTooSmall s) ∨
      (s.file.count.toNat * s.driver.pf ≤ cap ∧
        (packetCommand cap s = .fault .engineContract ∨
          ∃ u, Framing cap (commit (s.setDriver { s.driver with k := 0, nb := 0 })) u ∧
            (packetCommand cap s = .next (respondDuration (s.file.count.toNat * s.driver.pf) u) ∨
              ∃ r, isErrorCode r = true ∧ packetCommand cap s = .next (raiseErr r u))))) := by
  unfold packetCommand
  by_cases hc : (s.file.count.toNat : Int) * s.driver.pf > cap
  · rw [if_pos hc]; exact .inl ⟨hc, rfl⟩
  · rw [if_neg hc]
    refine .inr ⟨by omega, ?_⟩
    have hm' : HasMeta (s.setDriver { s.driver with k := 0, nb := 0 }) := ⟨hm.pm, hm.pb, hm.pf, hm.pc⟩
    have hl' : LegalDecoder (s.setDriver { s.driver with k := 0, nb := 0 }).dec := hl
    have hfs := hm'.frameSize hl'
    have h := frames (s := commit (s.setDriver { s.driver with k := 0, nb := 0 })) (cap := cap) hm'.mode
      s.file.count.toNat (t := commit (s.setDriver { s.driver with k := 0, nb := 0 }))
      ⟨.refl _, hm'.commit hl', hw, fun _ _ => rfl⟩ (Int.le_refl 0) (by
        rw [hfs]
        show (0 : Int) + _ * s.driver.pf ≤ cap
        omega)
    generalize frameLoop cap s.file.count.toNat _ = m at h
    match m with
    | .go u =>
      refine .inr ⟨u, h.1, .inl ?_⟩
      have hnb := h.2
      rw [hfs] at hnb
      have hnb : u.driver.nb = 0 + s.file.count.toNat * s.driver.pf := hnb
      rw [Flow.settle_go, hnb, Int.zero_add]
    | .done r u => exact .inr ⟨u, h.1, .inr ⟨r, h.2, by rw [Flow.settle_done]⟩⟩
    | .fault f => exact .inl (by rw [Flow.settle_fault]; exact congrArg _ h)

/-- What the prefix of the FEC path leaves behind. -/
structure Prefixed (total : Int) (s u : State) : Prop where
  keeps : DriveKeeps s u
  legal : LegalDecoder u.dec
  prevMode : u.dec.prevMode = s.dec.prevMode
  wf : u.out.wf = true
  outside : ∀ i, (total * Machine.chans s).toNat ≤ i → u.out.read i = s.out.read i

/-- The prefix of the FEC path (R265), empty or concealed, never fails from a legal state. -/
theorem fecPrefix_outcome (hl : LegalDecoder s.dec) (hw : s.out.wf = true) {total : Int} (h0 : 0 ≤ total)
    (hd : (f2_5 (rate s) : Int) ∣ total) :
    (fecPrefix total s).Post (Prefixed total s) (fun _ _ => False) (· = .engineContract) := by
  unfold fecPrefix
  refine Flow.Post.ite (fun _ => ⟨.refl s, hl, rfl, hw, fun _ _ => rfl⟩) fun hz => ?_
  have h := conceals hl hw hd (by omega)
  generalize conceal total s = m at h
  match m with
  | .go u => exact ⟨h.1.keeps, h.1.legal hl, h.1.prevMode, h.1.wf, h.1.outside⟩
  | .done r u => exact h.elim
  | .fault f => exact h

/-- What the FEC path leaves behind: the packet's metadata committed. -/
structure Recovered (cap : Int) (s u : State) : Prop where
  keeps : DriveKeeps (commit (s.setDriver { s.driver with saved := s.dec.lastPacketDuration })) u
  legal : LegalDecoder u.dec
  wf : u.out.wf = true
  outside : ∀ i, (cap * Machine.chans s).toNat ≤ i → u.out.read i = s.out.read i

theorem DriveKeeps.commit (h : DriveKeeps s u) : DriveKeeps (Machine.commit s) (Machine.commit u) where
  constructed := h.constructed
  dec := by
    obtain ⟨k, n, hd⟩ := h.driver
    show ({ u.dec with mode := _, bandwidth := _, frameSize := _, streamChannels := _ } : Decoder) = _
    rw [hd, h.dec]
    rfl
  pctl := h.pctl
  tSignalling := h.tSignalling
  file := h.file
  host := h.host
  pkt := h.pkt
  inbox := h.inbox
  driver := h.driver

/-- The FEC path (R265): plain concealment, or the prefix and the recovered frame. -/
theorem fecCommand_outcome (hl : LegalDecoder s.dec) (hw : s.out.wf = true) (hm : HasMeta s)
    (hd : (f2_5 (rate s) : Int) ∣ cap) :
    ((cap < s.driver.pf ∨ s.driver.pm = .xform ∨ s.dec.mode = .xform) ∧ fecCommand cap s = concealCommand cap s) ∨
      (¬ (cap < s.driver.pf ∨ s.driver.pm = .xform ∨ s.dec.mode = .xform) ∧
        (fecCommand cap s = .fault .engineContract ∨ ∃ u, Recovered cap s u ∧
          (fecCommand cap s = .next (respondDuration cap u) ∨
            ∃ r, isErrorCode r = true ∧ fecCommand cap s = .next (raiseErr r u)))) := by
  unfold fecCommand
  by_cases hc : cap < s.driver.pf ∨ s.driver.pm = .xform ∨ s.dec.mode = .xform
  · rw [if_pos hc]; exact .inl ⟨hc, rfl⟩
  rw [if_neg hc]
  refine .inr ⟨hc, ?_⟩
  have hcap : (s.driver.pf : Int) ≤ cap := by
    by_contra h
    exact hc (.inl (by omega))
  have hsz := hm.size hl
  simp only
  generalize hs1 : s.setDriver { s.driver with saved := s.dec.lastPacketDuration } = s1
  have hm1 : HasMeta s1 := by subst hs1; exact ⟨hm.pm, hm.pb, hm.pf, hm.pc⟩
  have hl1 : LegalDecoder s1.dec := by subst hs1; exact hl
  have hpf : s1.driver.pf = s.driver.pf := by subst hs1; rfl
  have hdvd : (f2_5 (rate s1) : Int) ∣ cap - s.driver.pf := by
    have h1 := (hm1.commit hl1).dvd_frameSize
    rw [hm1.frameSize hl1, hpf] at h1
    have h2 : rate (commit s1) = rate s := by subst hs1; rfl
    have h3 : rate s1 = rate s := by subst hs1; rfl
    rw [h2] at h1
    rw [h3]
    exact Int.dvd_sub hd h1
  have hpre := fecPrefix_outcome (s := s1) hl1 (by subst hs1; exact hw) (total := cap - s.driver.pf) (by omega) hdvd
  generalize fecPrefix (cap - s.driver.pf) s1 = m at hpre
  match m with
  | .fault f => exact .inl (congrArg _ hpre)
  | .done r u => exact hpre.elim
  | .go u =>
    have hpre : Prefixed (cap - s.driver.pf) s1 u := hpre
    have hmu : HasMeta u := by
      obtain ⟨k, n, hdr⟩ := hpre.keeps.driver
      refine ⟨?_, ?_, ?_, ?_⟩ <;> rw [hdr, hpre.keeps.file]
      · exact hm1.pm
      · exact hm1.pb
      · rw [hpre.keeps.rate]; exact hm1.pf
      · exact hm1.pc
    have hupf : u.driver.pf = s.driver.pf := by
      obtain ⟨k, n, hdr⟩ := hpre.keeps.driver
      rw [hdr, ← hpf]
    have hchans : chans (commit u) = chans s := by
      have h1 : chans (commit u) = chans u := rfl
      have h2 : chans s1 = chans s := by subst hs1; rfl
      rw [h1, hpre.keeps.chans, h2]
    have hentry : FrameEntry (driveArgs (some (resOff u 0)) (resLen u 0) (words (cap - s.driver.pf) u) u.driver.pf true)
        (commit u) := ⟨hmu.commit hpre.legal, hpre.wf, .inl rfl, fun _ => hmu.mode⟩
    have hrec : ∀ r t n, FrameOutcome (driveArgs (some (resOff u 0)) (resLen u 0) (words (cap - s.driver.pf) u)
        u.driver.pf true) (commit u) r t → FrameKeeps (commit u) t → Recovered cap s (afterFrame t n) :=
      fun r t n ho hk => by
        refine ⟨?_, ho.legal, hk.out hpre.wf, fun i hi => ?_⟩
        · rw [hs1]; exact hpre.keeps.commit.trans (hk.drive n)
        · have hadd := words_add (n := cap - s.driver.pf) (m := (s.driver.pf : Int)) (c := Machine.chans s) (by omega)
            (by omega)
          have hsum : cap - (s.driver.pf : Int) + s.driver.pf = cap := by omega
          rw [hsum] at hadd
          have hcu : chans u = chans s := hchans
          have hout : (commit u).out.read i = s.out.read i := by
            have := hpre.outside i (by
              have h2 : chans s1 = chans s := by subst hs1; rfl
              rw [h2]; omega)
            have h3 : s1.out = s.out := by subst hs1; rfl
            rw [h3] at this
            exact this
          refine (ho.outside i fun _ => .inr ?_).trans hout
          simp only [words, hchans, hcu, hupf]
          omega
    have hdr := drives hentry
    show (driveFrame (some (resOff u 0)) (resLen u 0) (words (cap - s.driver.pf) u) u.driver.pf true (commit u)).settle
      (respondDuration cap) = _ ∨ _
    have hgo : ((Flow.go u).andThen fun s_1 => driveFrame (some (resOff s_1 0)) (resLen s_1 0)
        (words (cap - s.driver.pf) s_1) s_1.driver.pf true (commit s_1)) =
      driveFrame (some (resOff u 0)) (resLen u 0) (words (cap - s.driver.pf) u) u.driver.pf true (commit u) := rfl
    rw [hgo]
    generalize driveFrame (some (resOff u 0)) (resLen u 0) (words (cap - s.driver.pf) u) u.driver.pf true (commit u) = m'
      at hdr
    match m' with
    | .go v =>
      obtain ⟨r, t, _, ho, hk, rfl⟩ := hdr
      exact .inr ⟨_, hrec r t _ ho hk, .inl rfl⟩
    | .done r v =>
      obtain ⟨hneg, t, ho, hk, rfl⟩ := hdr
      exact .inr ⟨_, hrec r t _ ho hk, .inr ⟨r, ho.code hneg, rfl⟩⟩
    | .fault f => exact .inl (congrArg _ hdr)

end Sys2Proof.Machine
end

