-- ==== Sys2Proof/Laws/Commands.lean ====
section
/-! SUPPORT. What a command of DECODE comes to from a legal state, whichever path it takes (43_driver.md R270). -/

namespace Sys2Proof.Machine

variable {s t u : State} {cap : Int}

/-- A command of DECODE ended in `t`, begun in `s`. -/
structure Decoded (cap : Int) (s t : State) : Prop where
  only : DecodeOnly s t
  outside : OutBeside 0 (words cap s) s t
  wf : t.out.wf = true
  legal : LegalInstance t
  code : t.host.err = true → isErrorCode t.host.resp.toInt = true

/-- An error code survives RESP's width. -/
theorem isErrorCode_resp {r : Int} (h : isErrorCode r = true) : isErrorCode (BitVec.ofInt 32 r).toInt = true := by
  simp only [isErrorCode, Bool.or_eq_true, decide_eq_true_eq] at h
  have h' : r = -1 ∨ r = -2 ∨ r = -3 ∨ r = -4 ∨ r = -5 ∨ r = -7 := by omega
  rcases h' with rfl | rfl | rfl | rfl | rfl | rfl <;> decide

/-- `t` is where DECODE, begun in `s`, starts to decode: nothing differs but the parse registers, the result file, the
driver's registers and the committed metadata (43_driver.md R263 to R266). -/
structure Begun (s t : State) : Prop where
  constructed : t.constructed = s.constructed
  fs : t.dec.fs = s.dec.fs
  c : t.dec.c = s.dec.c
  gain : t.dec.decodeGain = s.dec.decodeGain
  pctl : t.pctl = s.pctl
  tSignalling : t.tSignalling = s.tSignalling
  host : t.host = s.host
  pkt : t.pkt = s.pkt
  inbox : t.inbox = s.inbox

theorem begun_working (s : State) (p : ParseRegs) (f : ResultFile) (d : DriverRegs) :
    Begun s (((s.setParse p).setFile f).setDriver d) := by constructor <;> rfl

theorem Begun.committed (h : Begun s t) (d : DriverRegs) : Begun s (commit (t.setDriver d)) :=
  ⟨h.constructed, h.fs, h.c, h.gain, h.pctl, h.tSignalling, h.host, h.pkt, h.inbox⟩

/-- A command of DECODE whose working state `u` holds what DECODE's loops keep. -/
theorem DriveKeeps.decoded (hi : LegalInstance s) (h : DriveKeeps t u) (hb : Begun s t) (hl : LegalDecoder u.dec)
    (hw : u.out.wf = true) (ho : ∀ i, (cap * Machine.chans s).toNat ≤ i → u.out.read i = s.out.read i) (resp : Word)
    (err : Bool) (d : Word) (hcode : err = true → isErrorCode resp.toInt = true) :
    Decoded cap s (endCommand resp err (u.setDec { u.dec with lastPacketDuration := d })) where
  only := by
    constructor
    case between => constructor <;> simp
    all_goals
      simp [h.constructed, h.tSignalling, h.pkt, h.host, h.inbox, hb.constructed, hb.tSignalling, hb.pkt, hb.host, hb.inbox]
    · rw [h.dec]; exact ⟨hb.fs, hb.c, hb.gain⟩
    · rw [h.pctl]; simp [hb.pctl]
  outside := fun i hi => by simpa using ho i (by unfold words at hi; omega)
  wf := by simpa using hw
  legal := by
    refine ⟨⟨by simpa using hl.rate, by simpa using hl.channels, by simpa using hl.streamChannels,
      by simpa using hl.packetMeta, by simpa using hl.prevMode, by simpa using hl.prevRedundancy⟩, ?_, ?_, ?_⟩
    · have := hi.apiSampleRate
      simp only [endCommand_pctl, State.setDec_pctl, endCommand_dec, State.setDec_dec]
      rw [h.pctl, h.dec, hb.pctl, hb.fs]; exact this
    · have := hi.nChannelsAPI
      simp only [endCommand_pctl, State.setDec_pctl, endCommand_dec, State.setDec_dec]
      rw [h.pctl, h.dec, hb.pctl, hb.c]; exact this
    · simp only [endCommand_tSignalling, State.setDec_tSignalling]
      rw [h.tSignalling, hb.tSignalling]; exact hi.signalling
  code := by simpa using hcode

/-- An answer that changes nothing but the response and, at most, the parse result file. -/
theorem OnlyAnswers.decoded (hi : LegalInstance s) (hw : s.out.wf = true) (h : OnlyAnswers (s.setFile f) t)
    (hcode : t.host.err = true → isErrorCode t.host.resp.toInt = true) : Decoded cap s t := by
  obtain ⟨⟨h1, h2, h3, h4, h5⟩, ⟨k1, k2, k3, k4, k5, k6, k7⟩, -, -, hb⟩ := h
  simp only [State.setFile_constructed, State.setFile_dec, State.setFile_pctl, State.setFile_tSignalling, State.setFile_pkt,
    State.setFile_out, State.setFile_host, State.setFile_inbox] at h1 h2 h3 h5 k1 k2 k3 k4 k5 k6 k7
  refine ⟨⟨h1, by simp [h2], by simp [h3], h5, k1, k3, k4, k5, k6, k7, hb⟩, fun i _ => by rw [k2], by rw [k2]; exact hw,
    ⟨h2 ▸ hi.dec, ?_, ?_, by rw [h5]; exact hi.signalling⟩, hcode⟩
  · rw [h3, h2]; exact hi.apiSampleRate
  · rw [h3, h2]; exact hi.nChannelsAPI

theorem decoded_raises (hi : LegalInstance s) (hw : s.out.wf = true) {r : Int} (hr : isErrorCode r = true) :
    Decoded cap s (raiseErr r s) :=
  (onlyAnswers_endCommand _ _ s).decoded (f := s.file) hi hw fun _ => by simpa using isErrorCode_resp hr

/-- The concealment path, from a state that differs from `s` in the parse working registers, the result file and the
driver's counters. -/
theorem decoded_conceal (hi : LegalInstance s) (hw : s.out.wf = true) (hd : (f2_5 (rate s) : Int) ∣ cap) (h1 : 0 < cap)
    (p : ParseRegs) (f : ResultFile) (d : DriverRegs) :
    concealCommand cap (((s.setParse p).setFile f).setDriver d) = .fault .engineContract ∨
      ∃ u, Concealing cap (((s.setParse p).setFile f).setDriver d) u ∧
        concealCommand cap (((s.setParse p).setFile f).setDriver d) = .next (respondDuration cap u) ∧
        Decoded cap s (respondDuration cap u) := by
  rcases concealCommand_outcome (s := ((s.setParse p).setFile f).setDriver d) hi.dec hw hd h1 with h | ⟨u, hu, h⟩
  · exact .inl h
  · exact .inr ⟨u, hu, h, hu.keeps.decoded hi (begun_working s p f d) (hu.legal hi.dec) hu.wf hu.outside _ _ _ (by simp)⟩

/-- DECODE's loops have run and the command ends, with its result or with an error code. -/
theorem DriveKeeps.ended (hi : LegalInstance s) (h : DriveKeeps t u) (hb : Begun s t) (hl : LegalDecoder u.dec)
    (hw : u.out.wf = true) (ho : ∀ i, (cap * Machine.chans s).toNat ≤ i → u.out.read i = s.out.read i) {ans : Answer}
    {n : Int} (ha : ans = .next (respondDuration n u) ∨ ∃ r, isErrorCode r = true ∧ ans = .next (raiseErr r u)) :
    ∃ v, ans = .next v ∧ Decoded cap s v := by
  rcases ha with ha | ⟨r, hr, ha⟩
  · exact ⟨_, ha, h.decoded hi hb hl hw ho _ false _ (by simp)⟩
  · exact ⟨_, ha, h.decoded hi hb hl hw ho _ true u.dec.lastPacketDuration fun _ => isErrorCode_resp hr⟩

/-- A command of DECODE, whichever path it takes. -/
theorem decoded_decodeCommand (hi : LegalInstance s) (hw : s.out.wf = true) (fec nul : Bool) (len : Int) :
    decodeCommand fec nul len cap s = .fault .engineContract ∨
      ∃ t, decodeCommand fec nul len cap s = .next t ∧ Decoded cap s t := by
  have hraise : ∀ e : ErrCode, ∃ t, raises e s = .next t ∧ Decoded cap s t := fun e =>
    ⟨_, rfl, decoded_raises hi hw (by cases e <;> decide)⟩
  unfold decodeCommand
  split
  · exact .inr (hraise _)
  split
  · exact .inr (hraise _)
  rename_i _ hcap
  split
  · exact .inr (hraise _)
  rename_i hmod
  have hdvd : (fec = true ∨ len = 0 ∨ nul = true) → (f2_5 (rate s) : Int) ∣ cap := fun h =>
    Int.dvd_of_emod_eq_zero (by by_contra hne; exact hmod ⟨h, hne⟩)
  split
  · rename_i hnull
    rcases decoded_conceal hi hw (hdvd (.inr hnull)) (by omega) s.parse s.file s.driver with h | ⟨u, _, h, hu⟩
    · exact .inl h
    · exact .inr ⟨_, h, hu⟩
  split
  · exact .inr (hraise _)
  have hp := parses_parsePacket len false s
  unfold parsedCommand
  generalize parsePacket len false s = m at hp
  match m with
  | .fault f => exact hp.elim
  | .done code u =>
    obtain ⟨hc, p, rfl⟩ := hp
    refine .inr ⟨_, rfl, ?_⟩
    have : OnlyAnswers s (raiseErr code (s.setParse p)) := (onlyAnswers_endCommand _ _ (s.setParse p)).setParse p
    exact OnlyAnswers.decoded (f := s.file) hi hw this fun _ => by
      rcases hc with rfl | rfl <;> simp [isErrorCode]
  | .go u =>
    obtain ⟨p, rfl, -⟩ := hp
    simp only
    generalize hv : packetMeta ((s.setParse p).setFile (resultFile p s.file)) = v
    have hm : HasMeta v := hv ▸ hasMeta_packetMeta _
    have hvl : LegalDecoder v.dec := by subst hv; exact hi.dec
    have hvw : v.out.wf = true := by subst hv; exact hw
    split
    · rename_i hfec
      have hd := hdvd (.inl hfec)
      have hdv : (f2_5 (rate v) : Int) ∣ cap := by subst hv; exact hd
      rcases fecCommand_outcome hvl hvw hm hdv with ⟨-, h⟩ | ⟨-, h⟩
      · rw [h]
        subst hv
        rcases decoded_conceal hi hw hd (by omega) p (resultFile p s.file) _ with h | ⟨u, _, h, hu⟩
        · exact .inl h
        · exact .inr ⟨_, h, hu⟩
      · rcases h with h | ⟨w, hw', h⟩
        · exact .inl h
        · subst hv
          exact .inr (hw'.keeps.ended hi ((begun_working s p _ _).committed _) hw'.legal hw'.wf hw'.outside h)
    · rcases packetCommand_outcome (cap := cap) hvl hvw hm with ⟨-, h⟩ | ⟨-, h⟩
      · refine .inr ⟨_, h, ?_⟩
        have : OnlyAnswers (s.setFile (resultFile p s.file)) (raiseErr ErrCode.bufferTooSmall.code v) := by
          subst hv
          have h0 := onlyAnswers_endCommand (BitVec.ofInt 32 ErrCode.bufferTooSmall.code) true
            (packetMeta ((s.setParse p).setFile (resultFile p s.file)))
          exact ⟨⟨h0.decoder.constructed, h0.decoder.dec, h0.decoder.pctl, h0.decoder.tctl, h0.decoder.tSignalling⟩,
            ⟨h0.outside.pkt, h0.outside.out, h0.outside.cmd, h0.outside.arg0, h0.outside.arg1, h0.outside.arg2,
              h0.outside.inbox⟩, h0.file, h0.env, h0.between⟩
        exact this.decoded hi hw fun _ => by simp only [raiseErr_host]; decide
      · rcases h with h | ⟨w, hw', h⟩
        · exact .inl h
        · subst hv
          exact .inr (hw'.keeps.ended hi ((begun_working s p _ _).committed _) hw'.legal hw'.wf hw'.outside h)

end Sys2Proof.Machine
end

