-- ==== Sys2Proof/Laws/PerInstr.lean ====
section
/-! SUPPORT. Instruction by instruction: the encoder's bits are those of the instruction's row of spec/opcode_table.json. -/

namespace Sys2Proof.Laws.TableBits

/-- A row's mask and match. -/
inductive Row where
  | word (mask value : Word)
  | byte (mask value : Byte)
  | noBits
deriving DecidableEq, Repr

/-- The mask and the match of each row of spec/opcode_table.json. -/
def row : Instr → Row
  | .construct _ _ => .word 0x000000FF 0x00000001
  | .parse _ => .word 0x000001FF 0x00000002
  | .parseSd _ => .word 0x000001FF 0x00000102
  | .decode _ _ => .word 0x000006FF 0x00000003
  | .decodeFec _ _ => .word 0x000006FF 0x00000203
  | .decodeNull _ _ => .word 0x000004FF 0x00000403
  | .tocInfo _ _ => .word 0x000000FF 0x00000004
  | .pktNbFrames _ => .word 0x000000FF 0x00000005
  | .pktNbSamples _ _ => .word 0x000000FF 0x00000006
  | .ctlResetState => .word 0x00FF00FF 0x00000007
  | .ctlGetBandwidth => .word 0x00FF00FF 0x00010007
  | .ctlGetFinalRange => .word 0x00FF00FF 0x00020007
  | .ctlGetSampleRate => .word 0x00FF00FF 0x00030007
  | .ctlGetPitch => .word 0x00FF00FF 0x00040007
  | .ctlGetGain => .word 0x00FF00FF 0x00050007
  | .ctlSetGain _ => .word 0x00FF00FF 0x00060007
  | .ctlGetLastPacketDuration => .word 0x00FF00FF 0x00070007
  | .decodeFrame _ _ _ _ _ => .noBits
  | .framingCode0 _ _ => .byte 0x03 0x00
  | .framingCode1 _ _ => .byte 0x03 0x01
  | .framingCode2 _ _ => .byte 0x03 0x02
  | .framingCode3 _ _ => .byte 0x03 0x03
  | .code3Cbr _ _ => .byte 0x80 0x00
  | .code3Vbr _ _ => .byte 0x80 0x80
  | .code3Padding _ _ => .byte 0x40 0x40
  | .tocCfg0 _ _ => .byte 0xF8 0x00
  | .tocCfg1 _ _ => .byte 0xF8 0x08
  | .tocCfg2 _ _ => .byte 0xF8 0x10
  | .tocCfg3 _ _ => .byte 0xF8 0x18
  | .tocCfg4 _ _ => .byte 0xF8 0x20
  | .tocCfg5 _ _ => .byte 0xF8 0x28
  | .tocCfg6 _ _ => .byte 0xF8 0x30
  | .tocCfg7 _ _ => .byte 0xF8 0x38
  | .tocCfg8 _ _ => .byte 0xF8 0x40
  | .tocCfg9 _ _ => .byte 0xF8 0x48
  | .tocCfg10 _ _ => .byte 0xF8 0x50
  | .tocCfg11 _ _ => .byte 0xF8 0x58
  | .tocCfg12 _ _ => .byte 0xF8 0x60
  | .tocCfg13 _ _ => .byte 0xF8 0x68
  | .tocCfg14 _ _ => .byte 0xF8 0x70
  | .tocCfg15 _ _ => .byte 0xF8 0x78
  | .tocCfg16 _ _ => .byte 0xF8 0x80
  | .tocCfg17 _ _ => .byte 0xF8 0x88
  | .tocCfg18 _ _ => .byte 0xF8 0x90
  | .tocCfg19 _ _ => .byte 0xF8 0x98
  | .tocCfg20 _ _ => .byte 0xF8 0xA0
  | .tocCfg21 _ _ => .byte 0xF8 0xA8
  | .tocCfg22 _ _ => .byte 0xF8 0xB0
  | .tocCfg23 _ _ => .byte 0xF8 0xB8
  | .tocCfg24 _ _ => .byte 0xF8 0xC0
  | .tocCfg25 _ _ => .byte 0xF8 0xC8
  | .tocCfg26 _ _ => .byte 0xF8 0xD0
  | .tocCfg27 _ _ => .byte 0xF8 0xD8
  | .tocCfg28 _ _ => .byte 0xF8 0xE0
  | .tocCfg29 _ _ => .byte 0xF8 0xE8
  | .tocCfg30 _ _ => .byte 0xF8 0xF0
  | .tocCfg31 _ _ => .byte 0xF8 0xF8

/-- The bits fit the row. -/
def Row.fits : Row → Encoding → Bool
  | .word mask value, .command cmd _ _ _ => decide (cmd &&& mask = value)
  | .byte mask value, .packetByte _ b => decide (b &&& mask = value)
  | .noBits, .internal => true
  | .word _ _, .packetByte _ _ | .word _ _, .internal | .byte _ _, .command _ _ _ _ | .byte _ _, .internal => false
  | .noBits, .command _ _ _ _ | .noBits, .packetByte _ _ => false

/-- The encoder gives an instruction the fixed bits of its row. -/
def Statement (i : Instr) : Prop := (row i).fits (encode i) = true

theorem construct (fs channels : Int) : Statement (.construct fs channels) := rfl

theorem parse (len : Int) : Statement (.parse len) := rfl

theorem parseSd (len : Int) : Statement (.parseSd len) := rfl

theorem decode (len cap : Int) : Statement (.decode len cap) := rfl

theorem decodeFec (len cap : Int) : Statement (.decodeFec len cap) := rfl

theorem decodeNull (fec : Bool) (cap : Int) : Statement (.decodeNull fec cap) := by cases fec <;> rfl

theorem tocInfo (len fs : Int) : Statement (.tocInfo len fs) := rfl

theorem pktNbFrames (len : Int) : Statement (.pktNbFrames len) := rfl

theorem pktNbSamples (len fs : Int) : Statement (.pktNbSamples len fs) := rfl

theorem ctlResetState : Statement .ctlResetState := rfl

theorem ctlGetBandwidth : Statement .ctlGetBandwidth := rfl

theorem ctlGetFinalRange : Statement .ctlGetFinalRange := rfl

theorem ctlGetSampleRate : Statement .ctlGetSampleRate := rfl

theorem ctlGetPitch : Statement .ctlGetPitch := rfl

theorem ctlGetGain : Statement .ctlGetGain := rfl

theorem ctlSetGain (v : Int) : Statement (.ctlSetGain v) := rfl

theorem ctlGetLastPacketDuration : Statement .ctlGetLastPacketDuration := rfl

theorem decodeFrame (fb : Option Nat) (flen : Int) (o : Nat) (fsz : Int) (fec : Bool) :
    Statement (.decodeFrame fb flen o fsz fec) := rfl

theorem framingCode0 (config : BitVec 5) (st : Bool) : Statement (.framingCode0 config st) := by
  unfold Statement; revert config st; decide

theorem framingCode1 (config : BitVec 5) (st : Bool) : Statement (.framingCode1 config st) := by
  unfold Statement; revert config st; decide

theorem framingCode2 (config : BitVec 5) (st : Bool) : Statement (.framingCode2 config st) := by
  unfold Statement; revert config st; decide

theorem framingCode3 (config : BitVec 5) (st : Bool) : Statement (.framingCode3 config st) := by
  unfold Statement; revert config st; decide

theorem code3Cbr (pad : Bool) (count : BitVec 6) : Statement (.code3Cbr pad count) := by
  unfold Statement; revert pad count; decide

theorem code3Vbr (pad : Bool) (count : BitVec 6) : Statement (.code3Vbr pad count) := by
  unfold Statement; revert pad count; decide

theorem code3Padding (vbr : Bool) (count : BitVec 6) : Statement (.code3Padding vbr count) := by
  unfold Statement; revert vbr count; decide

theorem tocCfg0 (st : Bool) (code : BitVec 2) : Statement (.tocCfg0 st code) := by
  unfold Statement; revert st code; decide

theorem tocCfg1 (st : Bool) (code : BitVec 2) : Statement (.tocCfg1 st code) := by
  unfold Statement; revert st code; decide

theorem tocCfg2 (st : Bool) (code : BitVec 2) : Statement (.tocCfg2 st code) := by
  unfold Statement; revert st code; decide

theorem tocCfg3 (st : Bool) (code : BitVec 2) : Statement (.tocCfg3 st code) := by
  unfold Statement; revert st code; decide

theorem tocCfg4 (st : Bool) (code : BitVec 2) : Statement (.tocCfg4 st code) := by
  unfold Statement; revert st code; decide

theorem tocCfg5 (st : Bool) (code : BitVec 2) : Statement (.tocCfg5 st code) := by
  unfold Statement; revert st code; decide

theorem tocCfg6 (st : Bool) (code : BitVec 2) : Statement (.tocCfg6 st code) := by
  unfold Statement; revert st code; decide

theorem tocCfg7 (st : Bool) (code : BitVec 2) : Statement (.tocCfg7 st code) := by
  unfold Statement; revert st code; decide

theorem tocCfg8 (st : Bool) (code : BitVec 2) : Statement (.tocCfg8 st code) := by
  unfold Statement; revert st code; decide

theorem tocCfg9 (st : Bool) (code : BitVec 2) : Statement (.tocCfg9 st code) := by
  unfold Statement; revert st code; decide

theorem tocCfg10 (st : Bool) (code : BitVec 2) : Statement (.tocCfg10 st code) := by
  unfold Statement; revert st code; decide

theorem tocCfg11 (st : Bool) (code : BitVec 2) : Statement (.tocCfg11 st code) := by
  unfold Statement; revert st code; decide

theorem tocCfg12 (st : Bool) (code : BitVec 2) : Statement (.tocCfg12 st code) := by
  unfold Statement; revert st code; decide

theorem tocCfg13 (st : Bool) (code : BitVec 2) : Statement (.tocCfg13 st code) := by
  unfold Statement; revert st code; decide

theorem tocCfg14 (st : Bool) (code : BitVec 2) : Statement (.tocCfg14 st code) := by
  unfold Statement; revert st code; decide

theorem tocCfg15 (st : Bool) (code : BitVec 2) : Statement (.tocCfg15 st code) := by
  unfold Statement; revert st code; decide

theorem tocCfg16 (st : Bool) (code : BitVec 2) : Statement (.tocCfg16 st code) := by
  unfold Statement; revert st code; decide

theorem tocCfg17 (st : Bool) (code : BitVec 2) : Statement (.tocCfg17 st code) := by
  unfold Statement; revert st code; decide

theorem tocCfg18 (st : Bool) (code : BitVec 2) : Statement (.tocCfg18 st code) := by
  unfold Statement; revert st code; decide

theorem tocCfg19 (st : Bool) (code : BitVec 2) : Statement (.tocCfg19 st code) := by
  unfold Statement; revert st code; decide

theorem tocCfg20 (st : Bool) (code : BitVec 2) : Statement (.tocCfg20 st code) := by
  unfold Statement; revert st code; decide

theorem tocCfg21 (st : Bool) (code : BitVec 2) : Statement (.tocCfg21 st code) := by
  unfold Statement; revert st code; decide

theorem tocCfg22 (st : Bool) (code : BitVec 2) : Statement (.tocCfg22 st code) := by
  unfold Statement; revert st code; decide

theorem tocCfg23 (st : Bool) (code : BitVec 2) : Statement (.tocCfg23 st code) := by
  unfold Statement; revert st code; decide

theorem tocCfg24 (st : Bool) (code : BitVec 2) : Statement (.tocCfg24 st code) := by
  unfold Statement; revert st code; decide

theorem tocCfg25 (st : Bool) (code : BitVec 2) : Statement (.tocCfg25 st code) := by
  unfold Statement; revert st code; decide

theorem tocCfg26 (st : Bool) (code : BitVec 2) : Statement (.tocCfg26 st code) := by
  unfold Statement; revert st code; decide

theorem tocCfg27 (st : Bool) (code : BitVec 2) : Statement (.tocCfg27 st code) := by
  unfold Statement; revert st code; decide

theorem tocCfg28 (st : Bool) (code : BitVec 2) : Statement (.tocCfg28 st code) := by
  unfold Statement; revert st code; decide

theorem tocCfg29 (st : Bool) (code : BitVec 2) : Statement (.tocCfg29 st code) := by
  unfold Statement; revert st code; decide

theorem tocCfg30 (st : Bool) (code : BitVec 2) : Statement (.tocCfg30 st code) := by
  unfold Statement; revert st code; decide

theorem tocCfg31 (st : Bool) (code : BitVec 2) : Statement (.tocCfg31 st code) := by
  unfold Statement; revert st code; decide

end Sys2Proof.Laws.TableBits
end

