-- ==== Sys2Proof/Laws/Silence.lean ====
section
/-! SUPPORT. Concealment before any mode (42_frame_fsm.md R206): exactly what an invocation, and DECODE's loops, come to. No
engine is called, so nothing here can fault. -/

namespace Sys2Proof.Machine

variable {s t : State} {a : FrameArgs}

/-- A frame of a legal instance fits the cap of R203. -/
theorem LegalDecoder.frameSize_le_cap (h : LegalDecoder s.dec) :
    s.dec.frameSize.toNat ≤ frameCap (Machine.rate s) ∧
    f2_5 (Machine.rate s) ≤ s.dec.frameSize.toNat ∧ 0 < f2_5 (Machine.rate s) := by
  obtain ⟨units, hm, hf⟩ := h.packetMeta
  have hu := legalMeta_units hm
  have hr := h.rate
  simp only [legalRate, Bool.or_eq_true, decide_eq_true_eq] at hr
  have hr' : s.dec.fs.toNat = 8000 ∨ s.dec.fs.toNat = 12000 ∨ s.dec.fs.toNat = 16000 ∨ s.dec.fs.toNat = 24000 ∨
      s.dec.fs.toNat = 48000 := by omega
  rw [hf]
  unfold Machine.rate frameCap f2_5 f5 f10 f20
  rcases hr' with h | h | h | h | h <;> rw [h] <;> omega

/-- The state after a silent invocation that conceals `n` samples per channel. -/
def silenced (a : FrameArgs) (n : Int) (s : State) : State :=
  (s.setOut (s.out.fill a.o (words n s) fun _ => 0)).setFresh (s.fresh + 1)

theorem setFrame_setFresh_setFrame (f g : FrameRegs) (n : Nat) (s : State) :
    ((s.setFrame f).setFresh n).setFrame g = (s.setFrame g).setFresh n := rfl

/-- The working registers with which a silent invocation ends. -/
def silentFrame (a : FrameArgs) (n : Int) (s : State) : FrameRegs :=
  { FrameRegs.clear with fb := a.fb, flen := a.flen, dst := .pcm, o := a.o, fec := a.fec, seed := s.fresh,
                         stepIdx := 2, dataPresent := false, lenL := a.flen, fsz := n, audiosize := n,
                         m := .uninit, ec := none }

/-- The rules up to R206 end an invocation that conceals before any mode. -/
theorem runRules_silence (hu : s.dec.prevMode = .uninit) (hp : a.flen ≤ 1) (hd : a.dst = .pcm)
    (hz : ¬ a.fsz < f2_5 (rate s))
    (hmin : min (min a.fsz (frameCap (rate s))) (s.dec.frameSize.toNat : Int) = min a.fsz s.dec.frameSize.toNat) :
    runRules (sourceRules ++ [rule206]) (frameEnter a s) = .done (min a.fsz s.dec.frameSize.toNat)
      ((silenced a (min a.fsz s.dec.frameSize.toNat) s).setFrame
        (silentFrame a (min a.fsz s.dec.frameSize.toNat) s)) := by
  unfold rate at hz hmin
  rw [runRules_append]
  have h1 : runRules sourceRules (frameEnter a s) = .go ((s.setFrame
      (silentFrame a (min a.fsz s.dec.frameSize.toNat) s)).setFresh (s.fresh + 1)) := by
    simp only [sourceRules, runRules, atStep, rule202, rule203, rule204, rule205, frameEnter, rate, silentFrame,
      State.setFresh_frame, State.setFrame_frame, State.setFresh_dec, State.setFrame_dec, if_neg hz, if_pos hp, hmin, hu,
      hd, Flow.andThen_go, Bool.false_eq_true, if_false]
    simp only [FrameRegs.clear, setFrame_setFresh_setFrame]
  rw [h1, Flow.andThen_go]
  simp only [runRules, rule206, silentFrame, State.setFresh_frame, State.setFrame_frame, Bool.not_false, decide_true,
    Bool.and_self, if_true, Flow.andThen_done, outFill, bufFill, words, chans, silenced, State.setFresh_dec,
    State.setFrame_dec, State.setFresh_out, State.setFrame_out, Nat.add_zero]
  rfl

/-- An invocation that conceals before any mode. -/
theorem decodeFrame_silence (hl : LegalDecoder s.dec) (hu : s.dec.prevMode = .uninit) (hp : a.flen ≤ 1)
    (hd : a.dst = .pcm) (hz : (f2_5 (rate s) : Int) ≤ a.fsz) :
    decodeFrame a s = .ok (min a.fsz s.dec.frameSize.toNat,
      (silenced a (min a.fsz s.dec.frameSize.toNat) s).setFrame (silentFrame a (min a.fsz s.dec.frameSize.toNat) s)) := by
  obtain ⟨h1, -, -⟩ := hl.frameSize_le_cap
  have h := runRules_silence hu hp hd (by omega) (by omega : min (min a.fsz (frameCap (rate s)))
    (s.dec.frameSize.toNat : Int) = min a.fsz s.dec.frameSize.toNat)
  have hlist : frameRules decodeFrameNested =
      (sourceRules ++ [rule206]) ++ (middleRules decodeFrameNested ++ backRules decodeFrameNested) := rfl
  unfold decodeFrame decodeFrameWith
  rw [hlist, runRules_append, h]
  rfl

end Sys2Proof.Machine
end

