-- ==== Sys2Proof/Tests/Slice0.lean ====
section
/-! SUPPORT. Tests of the model against words and vectors worked out outside it (30_encoding.md's encodings written out bit
by bit, the vectors of 95_test_vectors.md), and a witness for the hypotheses of every obligation that has any. -/

namespace Sys2Proof.Tests

open Sys2Proof Sys2Proof.Machine

/-! Ill-formed terms are refused, one for each check; the values at the boundary are accepted. -/

theorem test_wf_construct_rate :
    (Instr.wf (.construct 2147483648 1), Instr.wf (.construct 2147483647 1)) = (false, true) := by decide
theorem test_wf_construct_channels :
    (Instr.wf (.construct 8000 (-2147483649)), Instr.wf (.construct 8000 (-2147483648))) = (false, true) := by decide
theorem test_wf_parse :
    (Instr.wf (.parse 2147483648), Instr.wf (.parse 2147483647)) = (false, true) := by decide
theorem test_wf_parse_sd :
    (Instr.wf (.parseSd (-2147483649)), Instr.wf (.parseSd (-2147483648))) = (false, true) := by decide
theorem test_wf_decode_len :
    (Instr.wf (.decode 2147483648 20), Instr.wf (.decode 2147483647 20)) = (false, true) := by decide
theorem test_wf_decode_cap :
    (Instr.wf (.decode 1 2147483648), Instr.wf (.decode 1 2147483647)) = (false, true) := by decide
theorem test_wf_decode_fec_len :
    (Instr.wf (.decodeFec (-2147483649) 20), Instr.wf (.decodeFec (-2147483648) 20)) = (false, true) := by decide
theorem test_wf_decode_fec_cap :
    (Instr.wf (.decodeFec 1 (-2147483649)), Instr.wf (.decodeFec 1 (-2147483648))) = (false, true) := by decide
theorem test_wf_decode_null_cap :
    (Instr.wf (.decodeNull true 2147483648), Instr.wf (.decodeNull true 2147483647)) = (false, true) := by decide
theorem test_wf_toc_info_len :
    (Instr.wf (.tocInfo 2147483648 8000), Instr.wf (.tocInfo 2147483647 8000)) = (false, true) := by decide
theorem test_wf_toc_info_rate :
    (Instr.wf (.tocInfo 1 (-2147483649)), Instr.wf (.tocInfo 1 (-2147483648))) = (false, true) := by decide
theorem test_wf_nb_frames_len :
    (Instr.wf (.pktNbFrames 2147483648), Instr.wf (.pktNbFrames 2147483647)) = (false, true) := by decide
theorem test_wf_nb_samples_len :
    (Instr.wf (.pktNbSamples 2147483648 8000), Instr.wf (.pktNbSamples 2147483647 8000)) = (false, true) := by decide
theorem test_wf_nb_samples_rate :
    (Instr.wf (.pktNbSamples 1 2147483648), Instr.wf (.pktNbSamples 1 2147483647)) = (false, true) := by decide
theorem test_wf_set_gain :
    (Instr.wf (.ctlSetGain (-2147483649)), Instr.wf (.ctlSetGain (-2147483648))) = (false, true) := by decide
theorem test_wf_frame_size :
    (Instr.wf (.decodeFrame none 0 0 2147483648 false), Instr.wf (.decodeFrame none 0 0 2147483647 false)) = (false, true) := by decide
theorem test_wf_null_length :
    (Instr.wf (.decodeFrame none 1 0 20 false), Instr.wf (.decodeFrame (some 1) 1 0 20 false)) = (false, true) := by decide
theorem test_wf_frame_negative :
    (Instr.wf (.decodeFrame (some 0) (-1) 0 20 false), Instr.wf (.decodeFrame (some 0) 0 0 20 false)) = (false, true) := by decide
theorem test_wf_frame_long :
    (Instr.wf (.decodeFrame (some 0) 1276 0 20 false), Instr.wf (.decodeFrame (some 0) 1275 0 20 false)) = (false, true) := by decide
theorem test_wf_frame_offset :
    (Instr.wf (.decodeFrame (some 2147483648) 2 0 20 false), Instr.wf (.decodeFrame (some 2147483647) 2 0 20 false)) = (false, true) := by decide
theorem test_wf_frame_target :
    (Instr.wf (.decodeFrame none 0 4294967296 20 false), Instr.wf (.decodeFrame none 0 4294967295 20 false)) = (false, true) := by decide

/-! Decoding: every constructor from a word written out from its encoding. Commands: 95_test_vectors.md section 0. -/

theorem test_decode_construct : Sys2Proof.decode (.command 0x00000001 48000 2 0) = .ok (.construct 48000 2) := by decide
theorem test_decode_parse : Sys2Proof.decode (.command 0x00000002 8 9 0) = .ok (.parse 8) := by decide
theorem test_decode_parse_sd : Sys2Proof.decode (.command 0x00000102 0xFFFFFFFF 9 0) = .ok (.parseSd (-1)) := by decide
theorem test_decode_decode : Sys2Proof.decode (.command 0x00000003 41 960 0) = .ok (.decode 41 960) := by decide
theorem test_decode_decode_fec : Sys2Proof.decode (.command 0x00000203 51 1920 0) = .ok (.decodeFec 51 1920) := by decide
theorem test_decode_decode_null : Sys2Proof.decode (.command 0x00000403 7 0xFFFFFC40 0) = .ok (.decodeNull false (-960)) := by decide
theorem test_decode_decode_null_fec : Sys2Proof.decode (.command 0x00000603 7 960 0) = .ok (.decodeNull true 960) := by decide
theorem test_decode_toc_info : Sys2Proof.decode (.command 0x00000004 1 48000 0) = .ok (.tocInfo 1 48000) := by decide
theorem test_decode_nb_frames : Sys2Proof.decode (.command 0x00000005 2 3 0) = .ok (.pktNbFrames 2) := by decide
theorem test_decode_nb_samples : Sys2Proof.decode (.command 0x00000006 2 48000 0) = .ok (.pktNbSamples 2 48000) := by decide
theorem test_decode_reset_state : Sys2Proof.decode (.command 0x00000007 0 0 0) = .ok (.ctlResetState) := by decide
theorem test_decode_get_bandwidth : Sys2Proof.decode (.command 0x00010007 0 0 0) = .ok (.ctlGetBandwidth) := by decide
theorem test_decode_get_final_range : Sys2Proof.decode (.command 0x00020007 0 0 0) = .ok (.ctlGetFinalRange) := by decide
theorem test_decode_get_sample_rate : Sys2Proof.decode (.command 0x00030007 0 0 0) = .ok (.ctlGetSampleRate) := by decide
theorem test_decode_get_pitch : Sys2Proof.decode (.command 0x00040007 0 0 0) = .ok (.ctlGetPitch) := by decide
theorem test_decode_get_gain : Sys2Proof.decode (.command 0x00050007 0 0 0) = .ok (.ctlGetGain) := by decide
theorem test_decode_set_gain : Sys2Proof.decode (.command 0x00060007 0xFFFFFFFC 0 0) = .ok (.ctlSetGain (-4)) := by decide
theorem test_decode_get_duration : Sys2Proof.decode (.command 0x00070007 0 0 0) = .ok (.ctlGetLastPacketDuration) := by decide

/-- Vector X1: reserved bits are ignored, and PARSE reads only `sd`. -/
theorem test_decode_reserved : Sys2Proof.decode (.command 0xFF00F802 8 0 0) = .ok (.parse 8) ∧
    Sys2Proof.decode (.command 0x00000202 8 0 0) = .ok (.parse 8) := by decide

theorem test_decode_unknown : Sys2Proof.decode (.command 0 0 0 0) = .rejected (.unknownOpcode 0) ∧
    Sys2Proof.decode (.command 0x00080007 0 0 0) = .rejected (.unknownRequest 8) := by decide

theorem test_frame_has_no_word : Sys2Proof.decode (encode (.decodeFrame none 0 0 20 false)) = .rejected .noEncoding := by
  decide

/-! Packet bytes, from the bit layout of 30_encoding.md R81 (config, s, code) and R90 (vbr, p, count). -/

theorem test_decode_framing0 : Sys2Proof.decode (.packetByte .tocCode 0b00101100) = .ok (.framingCode0 5 true) := by decide
theorem test_decode_framing1 : Sys2Proof.decode (.packetByte .tocCode 0b11111001) = .ok (.framingCode1 31 false) := by decide
theorem test_decode_framing2 : Sys2Proof.decode (.packetByte .tocCode 0b01101110) = .ok (.framingCode2 13 true) := by decide
theorem test_decode_framing3 : Sys2Proof.decode (.packetByte .tocCode 0b10000011) = .ok (.framingCode3 16 false) := by decide
theorem test_decode_cbr : Sys2Proof.decode (.packetByte .countRate 0b01110000) = .ok (.code3Cbr true 48) := by decide
theorem test_decode_vbr : Sys2Proof.decode (.packetByte .countRate 0b10000011) = .ok (.code3Vbr false 3) := by decide
theorem test_decode_padding : Sys2Proof.decode (.packetByte .countPad 0b11000101) = .ok (.code3Padding true 5) := by decide
theorem test_decode_no_padding : Sys2Proof.decode (.packetByte .countPad 0b10000101) = .rejected .noPadding := by decide

theorem test_decode_toc_cfg_0_to_7 :
    Sys2Proof.decode (.packetByte .tocMode 0b00000001) = .ok (.tocCfg0 false 1) ∧
    Sys2Proof.decode (.packetByte .tocMode 0b00001100) = .ok (.tocCfg1 true 0) ∧
    Sys2Proof.decode (.packetByte .tocMode 0b00010011) = .ok (.tocCfg2 false 3) ∧
    Sys2Proof.decode (.packetByte .tocMode 0b00011110) = .ok (.tocCfg3 true 2) ∧
    Sys2Proof.decode (.packetByte .tocMode 0b00100001) = .ok (.tocCfg4 false 1) ∧
    Sys2Proof.decode (.packetByte .tocMode 0b00101100) = .ok (.tocCfg5 true 0) ∧
    Sys2Proof.decode (.packetByte .tocMode 0b00110011) = .ok (.tocCfg6 false 3) ∧
    Sys2Proof.decode (.packetByte .tocMode 0b00111110) = .ok (.tocCfg7 true 2) := by
  decide

theorem test_decode_toc_cfg_8_to_15 :
    Sys2Proof.decode (.packetByte .tocMode 0b01000001) = .ok (.tocCfg8 false 1) ∧
    Sys2Proof.decode (.packetByte .tocMode 0b01001100) = .ok (.tocCfg9 true 0) ∧
    Sys2Proof.decode (.packetByte .tocMode 0b01010011) = .ok (.tocCfg10 false 3) ∧
    Sys2Proof.decode (.packetByte .tocMode 0b01011110) = .ok (.tocCfg11 true 2) ∧
    Sys2Proof.decode (.packetByte .tocMode 0b01100001) = .ok (.tocCfg12 false 1) ∧
    Sys2Proof.decode (.packetByte .tocMode 0b01101100) = .ok (.tocCfg13 true 0) ∧
    Sys2Proof.decode (.packetByte .tocMode 0b01110011) = .ok (.tocCfg14 false 3) ∧
    Sys2Proof.decode (.packetByte .tocMode 0b01111110) = .ok (.tocCfg15 true 2) := by
  decide

theorem test_decode_toc_cfg_16_to_23 :
    Sys2Proof.decode (.packetByte .tocMode 0b10000001) = .ok (.tocCfg16 false 1) ∧
    Sys2Proof.decode (.packetByte .tocMode 0b10001100) = .ok (.tocCfg17 true 0) ∧
    Sys2Proof.decode (.packetByte .tocMode 0b10010011) = .ok (.tocCfg18 false 3) ∧
    Sys2Proof.decode (.packetByte .tocMode 0b10011110) = .ok (.tocCfg19 true 2) ∧
    Sys2Proof.decode (.packetByte .tocMode 0b10100001) = .ok (.tocCfg20 false 1) ∧
    Sys2Proof.decode (.packetByte .tocMode 0b10101100) = .ok (.tocCfg21 true 0) ∧
    Sys2Proof.decode (.packetByte .tocMode 0b10110011) = .ok (.tocCfg22 false 3) ∧
    Sys2Proof.decode (.packetByte .tocMode 0b10111110) = .ok (.tocCfg23 true 2) := by
  decide

theorem test_decode_toc_cfg_24_to_31 :
    Sys2Proof.decode (.packetByte .tocMode 0b11000001) = .ok (.tocCfg24 false 1) ∧
    Sys2Proof.decode (.packetByte .tocMode 0b11001100) = .ok (.tocCfg25 true 0) ∧
    Sys2Proof.decode (.packetByte .tocMode 0b11010011) = .ok (.tocCfg26 false 3) ∧
    Sys2Proof.decode (.packetByte .tocMode 0b11011110) = .ok (.tocCfg27 true 2) ∧
    Sys2Proof.decode (.packetByte .tocMode 0b11100001) = .ok (.tocCfg28 false 1) ∧
    Sys2Proof.decode (.packetByte .tocMode 0b11101100) = .ok (.tocCfg29 true 0) ∧
    Sys2Proof.decode (.packetByte .tocMode 0b11110011) = .ok (.tocCfg30 false 3) ∧
    Sys2Proof.decode (.packetByte .tocMode 0b11111110) = .ok (.tocCfg31 true 2) := by
  decide

theorem test_table_word_reads_commands : decodeTableWord 32 0x00000102 = some (.parseSd 0) ∧
    decodeTableWord 8 0x6A = some (.tocCfg13 false 2) ∧ decodeTableWord 32 0x00080007 = none := by decide

theorem test_step_runs_table_word : (∃ t, step (State.reset.withFetchWord 32 0x00030007) = .next t ∧ t.host.err = true) ∧
    ∃ t, step (State.reset.withFetchWord 8 0xFC) = .next t ∧ t.phase = .tocCode ∧ t.parse.toc = 0xFC :=
  ⟨⟨_, rfl, rfl⟩, ⟨_, rfl, rfl, rfl⟩⟩

/-! Small states. -/

/-- The state an answer gives (the reset state where it stops). -/
def after : Answer → State
  | .next t => t
  | .fault _ => State.reset
  | .refused _ => State.reset

/-- The response with its error flag. -/
def answer : Answer → Option (Int × Bool)
  | .next t => some (t.host.resp.toInt, t.host.err)
  | .fault _ => none
  | .refused _ => none

/-- The first `n` frames of the parse result file, the payload's offset, the packet's length. -/
def parsed (n : Nat) (o : Answer) : List (Nat × Int) × Nat × Nat :=
  ((List.range n).map fun k => (resOff (after o) k, resLen (after o) k), (after o).file.payload.toNat,
    (after o).file.consumed.toNat)

/-- These bytes in `PKT`. -/
def loaded (bytes : List Byte) (s : State) : State := loadPacket 0 bytes s

/-- An instance at 8000 Hz, mono, between commands. -/
def machine8k (m prev : Mode) (b : Bandwidth) (units : Nat) : State :=
  (((State.reset.setConstructed true).setPctl (constructedPCtl 8000 1))).setDec
    { fs := 8000, c := 1, mode := m, prevMode := prev, bandwidth := b, streamChannels := 1,
      frameSize := BitVec.ofNat 16 (20 * units), prevRedundancy := false, lastPacketDuration := 0, decodeGain := 0,
      rangeFinal := 0 }

/-- The same with pending draws of the engines. -/
def withDraws (p : List PReply) (t : List TReply) (tell rng : List Word) (s : State) : State :=
  s.setEnv { s.env with pDecode := ⟨p, 0⟩, tDecode := ⟨t, 0⟩, tell := ⟨tell, 0⟩, rng := ⟨rng, 0⟩ }

/-- The instance with a gain. -/
def withGain (g : BitVec 16) (s : State) : State := s.setDec { s.dec with decodeGain := g }

/-- So many samples, all of the same value. -/
def tone (n : Nat) (v : Sample) : List Sample := List.replicate n v

/-! Vectors of 95_test_vectors.md. -/

/-- K1b. -/
theorem test_construct : answer (exec (.construct 8000 1) State.reset) = some (0, false) ∧
    (after (exec (.construct 8000 1) State.reset)).dec = (machine8k .uninit .uninit .unset 1).dec ∧
    (after (exec (.construct 8000 1) State.reset)).constructed = true := by decide

/-- K1, K1a. -/
theorem test_construct_rejects : answer (exec (.construct 44100 2) State.reset) = some (-1, true) ∧
    answer (exec (.construct 48000 3) State.reset) = some (-1, true) := by decide

/-- P25. -/
theorem test_parse_vbr : parsed 3 (exec (.parse 8) (loaded [0x03, 0x83, 1, 2, 0xA0, 0xB0, 0xB1, 0xC0] State.reset)) =
    ([(4, 1), (5, 2), (7, 1)], 4, 8) := by decide +kernel

/-- P9, P12, P17, P19, P27: what PARSE rejects. -/
theorem test_parse_rejects :
    answer (exec (.parse 3) (loaded [0x02, 0x05, 0xAA] State.reset)) = some (-4, true) ∧
    answer (exec (.parse 5) (loaded [0x1B, 0x03, 0xAA, 0xBB, 0xCC] State.reset)) = some (-4, true) ∧
    answer (exec (.parse 4) (loaded [0x03, 0x41, 0x05, 0xAA] State.reset)) = some (-4, true) ∧
    answer (exec (.parse 3) (loaded [0x03, 0x41, 0xFF] State.reset)) = some (-4, true) ∧
    answer (exec (.parse 6) (loaded [0x03, 0x83, 2, 2, 0xAA, 0xBB] State.reset)) = some (-4, true) := by decide +kernel

/-- P30. -/
theorem test_parse_sd : parsed 2 (exec (.parseSd 7) (loaded [1, 2, 0xA0, 0xA1, 0xB0, 0xB1, 0xFF] State.reset)) =
    ([(2, 2), (4, 2)], 2, 6) := by decide +kernel

/-- P32, P33. -/
theorem test_parse_sd_rejects :
    answer (exec (.parseSd 5) (loaded [1, 3, 0xAA, 0xBB, 0xCC] State.reset)) = some (-4, true) ∧
    answer (exec (.parseSd 1) (loaded [8] State.reset)) = some (-4, true) := by decide +kernel

/-- V11 at 8000 Hz: three 10 ms frames of one byte are silence before any mode. -/
theorem test_decode_dtx : answer (exec (.decode 5 240) (loaded [3, 3, 0xA0, 0xB0, 0xC0] (machine8k .uninit .uninit .unset 1))) =
    some (240, false) ∧ (after (exec (.decode 5 240) (loaded [3, 3, 0xA0, 0xB0, 0xC0]
      (machine8k .uninit .uninit .unset 1)))).dec =
      { (machine8k .pred .uninit .nb 4).dec with lastPacketDuration := 240 } := by decide +kernel

/-- V12 and V8 at 8000 Hz. -/
theorem test_decode_rejects : answer (exec (.decode 5 239) (loaded [3, 3, 0xA0, 0xB0, 0xC0]
      (machine8k .uninit .uninit .unset 1))) = some (-2, true) ∧
    answer (exec (.decode 4 20) (loaded [1, 0x11, 0x22, 0x33] (machine8k .uninit .uninit .unset 1))) = some (-4, true) := by
  decide +kernel

/-- V13 and V14 at 8000 Hz: FEC degrades to concealment, and the packet's metadata is not committed. -/
theorem test_decode_fec : answer (exec (.decodeFec 3 80) (loaded [8, 0xAA, 0xBB] (machine8k .uninit .uninit .unset 1))) =
    some (80, false) ∧ (after (exec (.decodeFec 3 80) (loaded [8, 0xAA, 0xBB]
      (machine8k .uninit .uninit .unset 1)))).dec.mode = .uninit ∧
    answer (exec (.decodeFec 3 90) (loaded [8, 0xAA, 0xBB] (machine8k .uninit .uninit .unset 1))) = some (-1, true) := by
  decide +kernel

/-- V16 at 8000 Hz: a prefix is concealed, then the frame is recovered; the second call has `lost_flag` 2 (R217). -/
theorem test_decode_fec_recovers : answer (exec (.decodeFec 51 320) (loaded [0x48] (withDraws
      [⟨0, 160, tone 160 5⟩, ⟨0, 160, tone 160 9⟩] [] [] [] (machine8k .pred .pred .wb 8)))) = some (320, false) ∧
    (after (exec (.decodeFec 51 320) (loaded [0x48] (withDraws
      [⟨0, 160, tone 160 5⟩, ⟨0, 160, tone 160 9⟩] [] [] [] (machine8k .pred .pred .wb 8))))).out.read 159 = 5 ∧
    (after (exec (.decodeFec 51 320) (loaded [0x48] (withDraws
      [⟨0, 160, tone 160 5⟩, ⟨0, 160, tone 160 9⟩] [] [] [] (machine8k .pred .pred .wb 8))))).out.read 160 = 9 := by
  decide +kernel

/-- W2 at 8000 Hz, and V3. -/
theorem test_decode_null : answer (exec (.decodeNull false 160) (machine8k .uninit .uninit .unset 1)) = some (160, false) ∧
    answer (exec (.decodeNull false 100) (machine8k .uninit .uninit .unset 1)) = some (100, false) ∧
    answer (exec (.decodeNull true 90) (machine8k .uninit .uninit .unset 1)) = some (-1, true) := by decide +kernel

/-- V5 at 8000 Hz: 50 ms of transform-only concealment are calls of 20, 20 and 10 ms. -/
theorem test_decode_null_chunks : answer (exec (.decodeNull false 400) (withDraws [] [⟨0, tone 160 1⟩, ⟨0, tone 160 2⟩,
    ⟨0, tone 80 3⟩] [] [] (machine8k .xform .xform .fb 8))) = some (400, false) := by decide +kernel

/-- T2, T6. -/
theorem test_toc_info : answer (exec (.tocInfo 1 48000) (loaded [0xFC] State.reset)) = some (0x03C00057, false) ∧
    answer (exec (.tocInfo 1 24000) (loaded [0x6A] State.reset)) = some (0x01E00232, false) := by decide

/-- Q4 to Q7. -/
theorem test_nb_frames : answer (exec (.pktNbFrames 1) (loaded [3] State.reset)) = some (-4, true) ∧
    answer (exec (.pktNbFrames 2) (loaded [3, 0x85] State.reset)) = some (5, false) ∧
    answer (exec (.pktNbFrames 2) (loaded [3, 0xFF] State.reset)) = some (63, false) := by decide

/-- Q11, Q14, Q15. -/
theorem test_nb_samples : answer (exec (.pktNbSamples 2 48000) (loaded [0x1B, 2] State.reset)) = some (5760, false) ∧
    answer (exec (.pktNbSamples 2 48000) (loaded [0x83, 0x31] State.reset)) = some (-4, true) ∧
    answer (exec (.pktNbSamples 0 44100) (loaded [0] State.reset)) = some (-1, true) := by decide

/-- K3. -/
theorem test_reset_state : (after (exec .ctlResetState (withGain 1536 (machine8k .xform .pred .fb 8)))).dec =
    (withGain 1536 (machine8k .uninit .uninit .unset 1)).dec := by decide

/-- K10, K4, K5, K7. -/
theorem test_getters : answer (exec .ctlGetBandwidth (machine8k .pred .pred .nb 4)) = some (1, false) ∧
    answer (exec .ctlGetSampleRate (machine8k .pred .pred .nb 4)) = some (8000, false) ∧
    answer (exec .ctlGetGain (withGain 0x8000 (machine8k .pred .pred .nb 4))) = some (-32768, false) := by decide

/-- K15, K12. -/
theorem test_get_final_range : answer (exec .ctlGetFinalRange ((machine8k .pred .pred .nb 4).setDec
      { (machine8k .pred .pred .nb 4).dec with rangeFinal := 0x80000001, lastPacketDuration := 480 })) =
        some (-2147483647, false) ∧
    answer (exec .ctlGetLastPacketDuration ((machine8k .pred .pred .nb 4).setDec
      { (machine8k .pred .pred .nb 4).dec with rangeFinal := 0x80000001, lastPacketDuration := 480 })) = some (480, false) := by
  decide

/-- K13, K14: the two engines' pitches. -/
theorem test_get_pitch : (after (exec .ctlGetPitch (machine8k .uninit .uninit .unset 1))).env.calls = [.pPrevPitchLag] ∧
    (after (exec .ctlGetPitch (machine8k .xform .xform .fb 8))).env.calls = [.tGetPitch] := by decide

/-- K6, K8, K9. -/
theorem test_set_gain : answer (exec (.ctlSetGain 40000) (machine8k .pred .pred .nb 4)) = some (-1, true) ∧
    answer (exec (.ctlSetGain (-32769)) (machine8k .pred .pred .nb 4)) = some (-1, true) ∧
    (after (exec (.ctlSetGain (-4)) (machine8k .pred .pred .nb 4))).dec.decodeGain = 0xFFFC := by decide

/-- F1 at 8000 Hz, and F13's second case: the transform engine's code. -/
theorem test_frame_errors :
    (after (exec (.decodeFrame none 0 0 19 false) (machine8k .xform .xform .fb 1))).driver.ret = -2 ∧
    (after (exec (.decodeFrame (some 1) 5 0 20 false) (withDraws [] [⟨-3, []⟩] [] [7]
      (machine8k .xform .xform .fb 1)))).driver.ret = -3 := by decide +kernel

/-- F7 at 8000 Hz: a 2.5 ms transform-only frame after a prediction-only one is the look-ahead's audio. -/
theorem test_frame_transition_copy :
    (after (exec (.decodeFrame (some 1) 20 0 20 false) (withDraws [⟨0, 80, tone 80 1000⟩] [⟨0, tone 20 4⟩] [] [9]
      (machine8k .xform .pred .fb 1)))).out.read 19 = 1000 ∧
    (after (exec (.decodeFrame (some 1) 20 0 20 false) (withDraws [⟨0, 80, tone 80 1000⟩] [⟨0, tone 20 4⟩] [] [9]
      (machine8k .xform .pred .fb 1)))).driver.ret = 20 := by decide +kernel

/-- A1 to A5. -/
theorem test_fade : (fadeBlend 0 1000 (-1000)).toInt = 999 ∧ (fadeBlend 32767 1000 (-1000)).toInt = -1000 ∧
    (fadeBlend 16384 1000 (-1000)).toInt = -1 ∧ (fadeBlend 5 32767 32767).toInt = 32766 ∧
    (fadeBlend 5 (-32768) (-32768)).toInt = -32767 := by decide

/-- Section 5.2. -/
theorem test_sat16 : sat16 40000 = 32767 ∧ sat16 (-40000) = -32768 ∧ sat16 (-200) = -200 := by decide

/-- E3, E6, E8, E9. -/
theorem test_sizes : encodeSize 252 = [0xFC, 0x00] ∧ encodeSize 317 = [0xFD, 0x10] ∧ encodeSize 1275 = [0xFF, 0xFF] ∧
    readSize (loaded [0xFD, 0x10] State.reset) 0 2 = .size 2 317 ∧
    readSize (loaded [0xFC] State.reset) 0 1 = .unreadable := by decide

/-! The packet-byte rows, each on the parser's state where it stands. -/

/-- The parser after the TOC byte, with `rem` bytes left. -/
def parsing (phase : Phase) (pos : Nat) (rem : Int) (count : Nat) (bytes : List Byte) : State :=
  ((loaded bytes State.reset).setParse { ParseRegs.clear with len := bytes.length, pos := pos, rem := rem, lastSize := rem,
                                                              count := count, spf48 := 480 }).setPhase phase

/-- P2, P3, P4. -/
theorem test_framing_0_and_1 :
    (after (exec (.framingCode0 1 false) (parsing .tocCode 1 2 0 [8, 0xAA, 0xBB]))).parse.count = 1 ∧
    (after (exec (.framingCode1 0 false) (parsing .tocCode 1 4 0 [1, 0x11, 0x22, 0x33, 0x44]))).parse.sizes = [2] ∧
    answer (exec (.framingCode1 0 false) (parsing .tocCode 1 3 0 [1, 0x11, 0x22, 0x33])) = some (-4, true) := by decide

/-- P6, P9. -/
theorem test_framing_2 :
    (after (exec (.framingCode2 0 false) (parsing .tocCode 1 6 0 [2, 2, 0xA0, 0xA1, 0xB0, 0xB1, 0xB2]))).parse.lastSize = 3 ∧
    answer (exec (.framingCode2 0 false) (parsing .tocCode 1 2 0 [2, 5, 0xAA])) = some (-4, true) := by decide

/-- P28, P10. -/
theorem test_framing_3 :
    (after (exec (.framingCode3 0 false) (parsing .tocCode 1 4 0 [3, 3, 0xA0, 0xB0, 0xC0]))).parse.count = 3 ∧
    answer (exec (.framingCode3 0 false) (parsing .tocCode 1 1 0 [3, 0])) = some (-4, true) := by decide

/-- P16's chain, `255` then `1`: 255 bytes of padding. -/
theorem test_code3_padding :
    (after (exec (.code3Padding false 1) (parsing .countPad 2 259 1 [3, 0x41, 0xFF, 1]))).parse.rem = 2 ∧
    (after (exec (.code3Padding false 1) (parsing .countPad 2 259 1 [3, 0x41, 0xFF, 1]))).parse.pad = 255 ∧
    (after (exec (.code3Padding false 1) (parsing .countPad 2 259 1 [3, 0x41, 0xFF, 1]))).parse.pos = 4 := by decide

/-- P25. -/
theorem test_code3_vbr : (after (exec (.code3Vbr false 3)
    (parsing .countRate 2 6 3 [3, 0x83, 1, 2, 0xA0, 0xB0, 0xB1, 0xC0]))).parse.sizes = [1, 2] := by decide

/-- P28, P29. -/
theorem test_code3_cbr :
    (after (exec (.code3Cbr false 3) (parsing .countRate 2 3 3 [3, 3, 0xA0, 0xB0, 0xC0]))).parse.sizes = [1, 1] ∧
    answer (exec (.code3Cbr false 3) (parsing .countRate 2 2 3 [3, 3, 0xA0, 0xB0])) = some (-4, true) := by decide

/-- The configurations of T1 to T7 at the first step of a parse: mode, bandwidth, samples per frame at 8000 Hz. -/
def multiplexed (b : Byte) : Mode × Bandwidth × Nat × Nat :=
  let t := after (step (atTocByte 1 false (loaded [b] (machine8k .pred .pred .nb 4))))
  (t.driver.pm, t.driver.pb, t.driver.pf, t.driver.pc)

theorem test_toc_rows : multiplexed 0x00 = (.pred, .nb, 80, 1) ∧ multiplexed 0xFC = (.xform, .fb, 160, 2) ∧
    multiplexed 0x78 = (.hybrid, .fb, 160, 1) ∧ multiplexed 0x1B = (.pred, .nb, 480, 1) ∧
    multiplexed 0x85 = (.xform, .nb, 20, 2) ∧ multiplexed 0x6A = (.hybrid, .swb, 160, 1) ∧
    multiplexed 0x3F = (.pred, .mb, 480, 2) := by decide

/-! Witnesses: for every obligation with hypotheses a state and operands that meet them together, for every clause. -/

/-- What `Usable` asks, as a check. -/
def usableCheck (units : Nat) (s : State) : Bool :=
  s.out.wf && legalRate s.dec.fs.toNat && legalChannels s.dec.c.toNat && legalChannels s.dec.streamChannels.toNat &&
  legalMeta s.dec.mode s.dec.bandwidth units && decide (s.dec.frameSize.toNat = s.dec.fs.toNat * units / 400) &&
  (decide (s.dec.prevMode = .uninit) || decide (s.dec.mode ≠ .uninit)) &&
  (!s.dec.prevRedundancy || decide (s.dec.prevMode = .pred) || decide (s.dec.prevMode = .hybrid)) &&
  decide (s.pctl.apiSampleRate = s.dec.fs) && decide (s.pctl.nChannelsAPI = s.dec.c) && decide (s.tSignalling = 0)

theorem usable_of {s : State} (units : Nat) (h : usableCheck units s = true) : Usable s := by
  simp only [usableCheck, Bool.and_eq_true, Bool.or_eq_true, Bool.not_eq_true', decide_eq_true_eq] at h
  obtain ⟨⟨⟨⟨⟨⟨⟨⟨⟨⟨h1, h2⟩, h3⟩, h4⟩, h5⟩, h6⟩, h7⟩, h8⟩, h9⟩, h10⟩, h11⟩ := h
  refine ⟨h1, fun _ => ⟨⟨h2, h3, h4, ⟨units, h5, h6⟩, fun h => h7.resolve_left h, fun h => ?_⟩, h9, h10, h11⟩⟩
  rcases h8 with (h8 | h8) | h8
  · rw [h8] at h
    cases h
  · exact .inl h8
  · exact .inr h8

/-- What `OnlyAnswers` asks, as a check. -/
def onlyAnswersCheck (s t : State) : Bool :=
  decide (t.constructed = s.constructed) && decide (t.dec = s.dec) && decide (t.pctl = s.pctl) &&
  decide (t.tctl = s.tctl) && decide (t.tSignalling = s.tSignalling) && decide (t.pkt = s.pkt) && decide (t.out = s.out) &&
  decide (t.host.cmd = s.host.cmd) && decide (t.host.arg0 = s.host.arg0) && decide (t.host.arg1 = s.host.arg1) &&
  decide (t.host.arg2 = s.host.arg2) && decide (t.inbox = s.inbox) && decide (t.file = s.file) && decide (t.env = s.env) &&
  decide (t.phase = .idle) && decide (t.parse = ParseRegs.clear) && decide (t.driver = DriverRegs.clear) &&
  decide (t.frame = FrameRegs.clear) && decide (t.tr = [])

theorem onlyAnswers_of {s t : State} (h : onlyAnswersCheck s t = true) : OnlyAnswers s t := by
  simp only [onlyAnswersCheck, Bool.and_eq_true, decide_eq_true_eq] at h
  obtain ⟨⟨⟨⟨⟨⟨⟨⟨⟨⟨⟨⟨⟨⟨⟨⟨⟨⟨a, b⟩, c⟩, d⟩, e⟩, f⟩, g⟩, i⟩, j⟩, k⟩, l⟩, m⟩, n⟩, o⟩, p⟩, q⟩, r⟩, u⟩, v⟩ := h
  exact ⟨⟨a, b, c, d, e⟩, ⟨f, g, i, j, k, l, m⟩, n, o, ⟨p, q, r, u, v⟩⟩

theorem raisesOnly_of {i : Instr} {s t : State} {e : ErrCode} (ht : exec i s = .next t)
    (h : (decide (t.host.resp = BitVec.ofInt 32 e.code) && t.host.err && onlyAnswersCheck s t) = true) :
    RaisesOnly i s e := by
  simp only [Bool.and_eq_true, decide_eq_true_eq] at h
  exact ⟨t, ht, h.1, onlyAnswers_of h.2⟩

theorem answersOnly_of {i : Instr} {s t : State} {w : Word} (ht : exec i s = .next t)
    (h : (decide (t.host.resp = w) && !t.host.err && onlyAnswersCheck s t) = true) : AnswersOnly i s w := by
  simp only [Bool.and_eq_true, Bool.not_eq_true', decide_eq_true_eq] at h
  exact ⟨t, ht, h.1, onlyAnswers_of h.2⟩

theorem pktHolds_of {s : State} {p : Nat} {bytes : List Byte}
    (h : ((List.range bytes.length).all fun i => decide (pktRead s (p + i) = bytes.getD i 0)) = true) :
    PktHolds s p bytes := by
  intro i hi
  simpa using List.all_eq_true.mp h i (List.mem_range.mpr hi)

/-- A machine with the host's moves pending. -/
def pending (moves : List HostMove) (s : State) : State := s.setInbox moves

/-- A fresh 8000 Hz mono instance. -/
def fresh8k : State := machine8k .uninit .uninit .unset 1

theorem usable_fresh8k : Usable fresh8k := usable_of 1 (by decide)

theorem witness_EncodeDecodes :
    (Instr.construct 2147483647 (-2147483648)).wf = true ∧ encode (.construct 2147483647 (-2147483648)) ≠ .internal ∧
    (Instr.decodeNull true (-2147483648)).wf = true ∧ (Instr.code3Padding true 63).wf = true ∧
    (Instr.tocCfg31 true 3).wf = true ∧ (Instr.decodeFrame (some 2147483647) 1275 4294967295 2147483647 true).wf = true := by
  decide

theorem witness_OpcodesAndUnknownOpcodes :
    cmdOp 0xFFFFFF01 = 1 ∧ cmdOp 0xFFFFFF02 = 2 ∧ cmdOp 0xFFFFFF03 = 3 ∧ cmdOp 0x04 = 4 ∧ cmdOp 0x05 = 5 ∧ cmdOp 0x06 = 6 ∧
    cmdOp 0x07 = 7 ∧
    (pending [.command 0 1 2 3] fresh8k).phase = .idle ∧
    (pending [.command 0 1 2 3] fresh8k).inbox = .command 0 1 2 3 :: [] ∧ cmdOp 0 = 0 ∧ 8 ≤ cmdOp 0xFFFFFF08 ∧
    8 ≤ cmdOp 0xFFFFFFFF := by decide

theorem witness_ControlRequests :
    (pending [.command 0x00090007 0 0 0] State.reset).phase = .idle ∧
    (pending [.command 0x00090007 0 0 0] State.reset).inbox = .command 0x00090007 0 0 0 :: [] ∧
    cmdOp 0x00090007 = 7 ∧ (pending [.command 0x00090007 0 0 0] State.reset).constructed = false ∧
    (pending [.command 0x00080007 0 0 0] fresh8k).phase = .idle ∧
    (pending [.command 0x00080007 0 0 0] fresh8k).inbox = .command 0x00080007 0 0 0 :: [] ∧
    cmdOp 0x00080007 = 7 ∧ (pending [.command 0x00080007 0 0 0] fresh8k).constructed = true ∧ 8 ≤ cmdReq 0x00080007 ∧
    8 ≤ cmdReq 0x00FF0007 := by decide

theorem witness_StepRunsDecoded :
    ((pending [.command 2 1 0 0] fresh8k).phase = .idle ∧
      (pending [.command 2 1 0 0] fresh8k).inbox = .command 2 1 0 0 :: [] ∧
      Sys2Proof.decode (.command 2 1 0 0) = .ok (.parse 1)) ∧
    ((parsing .tocMode 1 1 0 [0x6A, 0]).phase = .tocMode ∧
      Sys2Proof.decode (.packetByte .tocMode (pktRead (parsing .tocMode 1 1 0 [0x6A, 0]) 0)) = .ok (.tocCfg13 false 2)) ∧
    ((parsing .tocCode 1 1 0 [0, 0]).phase = .tocCode ∧
      Sys2Proof.decode (.packetByte .tocCode (parsing .tocCode 1 1 0 [0, 0]).parse.toc) = .ok (.framingCode0 0 false)) ∧
    (((parsing .countPad 2 1 1 [3, 0x41]).setParse { ParseRegs.clear with cb := 0x41 }).phase = .countPad ∧
      Sys2Proof.decode (.packetByte .countPad
        ((parsing .countPad 2 1 1 [3, 0x41]).setParse { ParseRegs.clear with cb := 0x41 }).parse.cb) =
          .ok (.code3Padding false 1)) ∧
    (((parsing .countRate 2 1 1 [3, 0x81]).setParse { ParseRegs.clear with cb := 0x81 }).phase = .countRate ∧
      Sys2Proof.decode (.packetByte .countRate
        ((parsing .countRate 2 1 1 [3, 0x81]).setParse { ParseRegs.clear with cb := 0x81 }).parse.cb) =
          .ok (.code3Vbr false 1)) ∧
    (fresh8k.setPhase (.frame none 0 0 20 false)).phase = .frame none 0 0 20 false ∧
    ((pending [.load 2147483646 [1, 2]] fresh8k).phase = .idle ∧
      (pending [.load 2147483646 [1, 2]] fresh8k).inbox = .load 2147483646 [1, 2] :: []) ∧
    (fresh8k.phase = .idle ∧ fresh8k.inbox = []) := by decide

theorem witness_SizePrefixRoundTrip :
    (PktHolds (loaded [0xFF, 0xFF] fresh8k) 0 (encodeSize 1275) ∧ (1275 : Nat) ≤ 1275 ∧
      ((encodeSize 1275).length : Int) ≤ 2) ∧
    (PktHolds (loaded [0xFB] fresh8k) 0 (encodeSize 251) ∧ ((encodeSize 251).length : Int) ≤ 1) ∧
    readSize (loaded [0xFC, 0x00] fresh8k) 0 2 = .size 2 252 ∧ readSize (loaded [0xFB] fresh8k) 0 1 = .size 1 251 ∧
    readSize (loaded [0xFC] fresh8k) 0 1 = .unreadable ∧ readSize fresh8k 0 0 = .unreadable :=
  ⟨⟨pktHolds_of (by decide), by decide⟩, ⟨pktHolds_of (by decide), by decide⟩, by decide⟩

theorem witness_TocLaws :
    legalRate 8000 = true ∧ legalRate 48000 = true ∧
    (tocMode 0xF8 = .xform ∧ tocMode 0x78 = .hybrid ∧ tocMode 0x58 = .pred) ∧
    (0xF8 : Byte).toNat / 4 = (0xFB : Byte).toNat / 4 ∧ (0x04 : Byte).getLsbD 2 = (0xFF : Byte).getLsbD 2 := by decide

theorem witness_TocRowsComplete :
    State.reset.dec.fs.toNat = 0 ∧ legalRate fresh8k.dec.fs.toNat = true := by decide

/-- PKT holds the header of a packet of this form, whose length is `n`. -/
def LaidOut (f : PacketForm) (config : BitVec 5) (sd : Bool) (bytes : List Byte) (n : Nat) : Prop :=
  f.fits config = true ∧ PktHolds (loaded bytes fresh8k) 0 (f.header sd config false) ∧ f.total sd config false = n

theorem laidOut_of {f : PacketForm} {config : BitVec 5} {sd : Bool} {bytes : List Byte} {n : Nat}
    (h : (f.fits config && decide (bytes = f.header sd config false) && decide (f.total sd config false = n) &&
      (List.range bytes.length).all fun i => decide (pktRead (loaded bytes fresh8k) i = bytes.getD i 0)) = true) :
    LaidOut f config sd bytes n := by
  simp only [Bool.and_eq_true, decide_eq_true_eq] at h
  obtain ⟨⟨⟨hf, hb⟩, hn⟩, hp⟩ := h
  exact ⟨hf, hb ▸ pktHolds_of (by simpa using hp), hn⟩

/-- Vectors P2, P22, P6, P16 (with its 257 bytes read as 0), P25, and a self-delimited packet of 48 empty frames. -/
theorem witness_ParseInvertsLayout :
    LaidOut (.one 2) 1 false [0x08] 3 ∧ LaidOut (.twoEqual 1275) 0 false [0x01] 2551 ∧
    LaidOut (.two 2 3) 0 false [0x02, 0x02] 7 ∧
    LaidOut (.cbr 1 2 (some ⟨1, 1⟩)) 0 false [0x03, 0x41, 0xFF, 0x01] 261 ∧
    LaidOut (.vbr [1, 2, 1] none) 0 false [0x03, 0x83, 1, 2] 8 ∧ LaidOut (.cbr 48 0 none) 16 true [0x83, 0x30, 0x00] 3 := by
  refine ⟨?_, ?_, ?_, ?_, ?_, ?_⟩ <;> exact laidOut_of (by decide +kernel)

/-- P3 (code 1), P28 (code 3, CBR), P30 (self-delimited). -/
theorem witness_ParseLaws :
    (∃ t, exec (.parse 5) (loaded [1, 0x11, 0x22, 0x33, 0x44] fresh8k) = .next t ∧ t.host.err = false ∧
      tocCode t.file.toc = 1) ∧
    (∃ t, exec (.parse 5) (loaded [3, 3, 0xA0, 0xB0, 0xC0] fresh8k) = .next t ∧ t.host.err = false ∧
      tocCode t.file.toc = 3 ∧ byteField (pktRead (loaded [3, 3, 0xA0, 0xB0, 0xC0] fresh8k) 1) 7 7 = 0 ∧
      t.file.count.toNat = 3) ∧
    (∃ t, exec (.parseSd 7) (loaded [1, 2, 0xA0, 0xA1, 0xB0, 0xB1, 0xFF] fresh8k) = .next t ∧ t.host.err = false) :=
  ⟨⟨_, rfl, by decide +kernel⟩,
    ⟨_, rfl, by decide +kernel⟩, ⟨_, rfl, by decide +kernel⟩⟩

/-- P4: an error. -/
theorem witness_ParseSideEffects :
    ∃ t, exec (.parse 4) (loaded [1, 0x11, 0x22, 0x33] fresh8k) = .next t ∧ t.host.err = true :=
  ⟨_, rfl, by decide +kernel⟩

/-- P2, with other bytes behind the packet and no instance. -/
theorem witness_ParseReadsOnlyThePacket :
    (∀ i : Nat, (i : Int) < 3 → pktRead (loaded [8, 0xAA, 0xBB, 0xCC] State.reset) i =
      pktRead (loaded [8, 0xAA, 0xBB] fresh8k) i) ∧
    ∃ t, exec (.parse 3) (loaded [8, 0xAA, 0xBB] fresh8k) = .next t ∧ t.host.err = false := by
  refine ⟨fun i hi => ?_, ⟨_, rfl, by decide +kernel⟩⟩
  obtain rfl | rfl | rfl : i = 0 ∨ i = 1 ∨ i = 2 := by omega
  all_goals decide

theorem witness_ParseErrors :
    (-1 : Int) < 0 ∧ ∃ t, exec (.parse 1) (loaded [3] fresh8k) = .next t ∧ t.host.err = true :=
  ⟨by decide, _, rfl, by decide +kernel⟩

/-- The parser's state, self-delimited. -/
def selfDelimited (s : State) : State := s.setParse { s.parse with sd := true }

theorem witness_FramingCodes0And1 :
    (selfDelimited (parsing .tocCode 1 4 0 [1])).parse.sd = true ∧
    ((parsing .tocCode 1 0 0 [1]).parse.sd = false ∧ (parsing .tocCode 1 0 0 [1]).parse.rem = 2 * 0) ∧
    ((parsing .tocCode 1 3 0 [1]).parse.sd = false ∧ (parsing .tocCode 1 3 0 [1]).parse.rem % 2 = 1) := by decide

theorem witness_FramingCode2 :
    (readSize (parsing .tocCode 1 3 0 [2, 2]) 1 3 = .size 1 2 ∧ ((2 : Nat) : Int) ≤ 3 - (1 : Nat)) ∧
    (readSize (parsing .tocCode 1 2 0 [2, 2]) 1 2 = .size 1 2 ∧ (2 : Int) - (1 : Nat) < (2 : Nat)) ∧
    readSize (parsing .tocCode 1 1 0 [2, 0xFC]) 1 1 = .unreadable := by decide

theorem witness_FramingCode3 :
    ((parsing .tocCode 1 0 0 [3]).parse.rem < 1) ∧
    (1 ≤ (parsing .tocCode 1 1 0 [3, 0x40]).parse.rem ∧
      (pktRead (parsing .tocCode 1 1 0 [3, 0x40]) 1).toNat % 64 = 0) ∧
    (1 ≤ (parsing .tocCode 1 1 0 [3, 13]).parse.rem ∧
      5760 < (parsing .tocCode 1 1 0 [3, 13]).parse.spf48 * ((pktRead (parsing .tocCode 1 1 0 [3, 13]) 1).toNat % 64)) ∧
    (1 ≤ (parsing .tocCode 1 1 0 [3, 12]).parse.rem ∧
      1 ≤ (pktRead (parsing .tocCode 1 1 0 [3, 12]) 1).toNat % 64 ∧
      (parsing .tocCode 1 1 0 [3, 12]).parse.spf48 * ((pktRead (parsing .tocCode 1 1 0 [3, 12]) 1).toNat % 64) ≤ 5760) := by
  decide

theorem witness_PaddingChain :
    (PktHolds (parsing .countPad 2 257 1 [3, 0x41, 0xFF, 1]) 2 (PadChain.bytes ⟨1, 1⟩) ∧ (1 : Nat) < 255 ∧
      (((PadChain.bytes ⟨1, 1⟩).length + PadChain.amount ⟨1, 1⟩ : Nat) : Int) ≤
        (parsing .countPad 2 257 1 [3, 0x41, 0xFF, 1]).parse.rem) ∧
    (PktHolds (parsing .countPad 2 256 1 [3, 0x41, 0xFF, 1]) 2 (PadChain.bytes ⟨1, 1⟩) ∧
      (parsing .countPad 2 256 1 [3, 0x41, 0xFF, 1]).parse.rem <
        (((PadChain.bytes ⟨1, 1⟩).length + PadChain.amount ⟨1, 1⟩ : Nat) : Int)) ∧
    PktHolds (parsing .countPad 2 256 1 [3, 0x41, 254]) 2 (PadChain.bytes ⟨0, 254⟩) :=
  ⟨⟨pktHolds_of (by decide), by decide⟩, ⟨pktHolds_of (by decide), by decide⟩, pktHolds_of (by decide)⟩

theorem witness_VbrSizes :
    ((parsing .countRate 2 5 3 [3, 0x83, 1, 2]).parse.sizes = [] ∧
      [1, 2].length + 1 = (parsing .countRate 2 5 3 [3, 0x83, 1, 2]).parse.count ∧
      PktHolds (parsing .countRate 2 5 3 [3, 0x83, 1, 2]) 2 ([1, 2].flatMap encodeSize) ∧
      ((([1, 2].flatMap encodeSize).length + [1, 2].sum : Nat) : Int) ≤
        (parsing .countRate 2 5 3 [3, 0x83, 1, 2]).parse.rem) ∧
    (PktHolds (parsing .countRate 2 4 3 [3, 0x83, 1, 2]) 2 ([1, 2].flatMap encodeSize) ∧
      (parsing .countRate 2 4 3 [3, 0x83, 1, 2]).parse.rem <
        ((([1, 2].flatMap encodeSize).length + [1, 2].sum : Nat) : Int)) ∧
    (([] : List Nat).length + 1 = (parsing .countRate 2 0 1 [3, 0x81]).parse.count ∧
      PktHolds (parsing .countRate 2 0 1 [3, 0x81]) 2 (([] : List Nat).flatMap encodeSize)) :=
  ⟨⟨by decide, by decide, pktHolds_of (by decide), by decide⟩, ⟨pktHolds_of (by decide), by decide⟩, by decide,
    pktHolds_of (by decide)⟩

theorem witness_CbrSizes :
    (selfDelimited (parsing .countRate 2 3 3 [3, 3])).parse.sd = true ∧
    ((parsing .countRate 2 3 3 [3, 3]).parse.sd = false ∧ 1 ≤ (parsing .countRate 2 3 3 [3, 3]).parse.count ∧
      (parsing .countRate 2 3 3 [3, 3]).parse.rem = 1 * ((parsing .countRate 2 3 3 [3, 3]).parse.count : Int)) ∧
    ((parsing .countRate 2 2 3 [3, 3]).parse.rem % ((parsing .countRate 2 2 3 [3, 3]).parse.count : Int) ≠ 0) := by decide

/-- The parser before the last frame. -/
def atTail (sd cbr : Bool) (pos : Nat) (rem lastSize : Int) (count : Nat) (sizes : List Int) (bytes : List Byte) : State :=
  ((loaded bytes fresh8k).setParse
    { ParseRegs.clear with len := bytes.length, sd := sd, cbr := cbr, pos := pos, rem := rem, lastSize := lastSize,
                           count := count, sizes := sizes }).setPhase .tail

theorem witness_ImplicitLastFrame :
    ((atTail false false 1 1276 1276 1 [] [0]).phase = .tail ∧ (atTail false false 1 1276 1276 1 [] [0]).parse.sd = false ∧
      1275 < (atTail false false 1 1276 1276 1 [] [0]).parse.lastSize) ∧
    ((atTail false false 2 2550 1275 2 [1275] [2]).phase = .tail ∧
      (atTail false false 2 2550 1275 2 [1275] [2]).parse.sizes = [1275].map (fun v : Nat => (v : Int)) ∧
      (atTail false false 2 2550 1275 2 [1275] [2]).parse.lastSize = (1275 : Nat) ∧
      (atTail false false 2 2550 1275 2 [1275] [2]).parse.pad = (0 : Nat) ∧
      [1275].length + 1 = (atTail false false 2 2550 1275 2 [1275] [2]).parse.count ∧
      (atTail false false 2 2550 1275 2 [1275] [2]).parse.pos + 0 < 2 ^ 31) := by decide

theorem witness_SelfDelimitedLastFrame :
    ((atTail true false 1 0 0 1 [] [8]).phase = .tail ∧ (atTail true false 1 0 0 1 [] [8]).parse.sd = true ∧
      readSize (atTail true false 1 0 0 1 [] [8]) 1 0 = .unreadable) ∧
    (readSize (atTail true true 1 4 4 2 [] [1, 2]) 1 4 = .size 1 2 ∧
      (atTail true true 1 4 4 2 [] [1, 2]).parse.rem - (1 : Nat) < (2 : Nat) * (atTail true true 1 4 4 2 [] [1, 2]).parse.count) ∧
    (readSize (atTail true false 1 4 2 1 [] [8, 2]) 1 4 = .size 1 2 ∧
      (atTail true false 1 4 2 1 [] [8, 2]).parse.lastSize < (1 : Nat) + (2 : Nat)) ∧
    (readSize (atTail true true 1 5 5 2 [] [1, 2]) 1 5 = .size 1 2 ∧
      ((2 : Nat) : Int) * (atTail true true 1 5 5 2 [] [1, 2]).parse.count ≤ 5 - (1 : Nat) ∧
      [2] = List.replicate ((atTail true true 1 5 5 2 [] [1, 2]).parse.count - 1) 2) ∧
    (readSize (atTail true false 1 3 3 1 [] [8, 2]) 1 3 = .size 1 2 ∧
      ((1 : Nat) : Int) + (2 : Nat) ≤ (atTail true false 1 3 3 1 [] [8, 2]).parse.lastSize ∧
      ([] : List Nat).length + 1 = (atTail true false 1 3 3 1 [] [8, 2]).parse.count) := by decide

theorem witness_ParseByMicroSteps : (1 : Int) ≤ 1 ∧ (loaded [0] fresh8k).inbox = [] := by decide

theorem witness_TocInfo :
    (0 : Int) < 1 ∧ legalRate 44100 = false ∧ (1 : Int) ≤ 1 ∧ legalRate 48000 = true := by decide

theorem witness_PacketFrameCount :
    ((pktRead (loaded [0x00] fresh8k) 0).toNat % 4 = 0 ∧ (pktRead (loaded [0x01] fresh8k) 0).toNat % 4 = 1 ∧
      (pktRead (loaded [0x02] fresh8k) 0).toNat % 4 = 2 ∧ (pktRead (loaded [0x03] fresh8k) 0).toNat % 4 = 3) ∧
    (0 : Int) < 1 ∧ (1 : Int) ≤ 1 ∧ (2 : Int) ≤ 2 := by decide

/-- Q15, Q16, Q14, Q13. -/
theorem witness_PacketSampleCount :
    (legalRate 44100 = false) ∧
    (legalRate 48000 = true ∧ RaisesOnly (.pktNbFrames 0) (loaded [0] fresh8k) .badArgument) ∧
    (RaisesOnly (.pktNbFrames 1) (loaded [3] fresh8k) .invalidPacket) ∧
    (AnswersOnly (.pktNbFrames 2) (loaded [0x83, 0x31] fresh8k) (BitVec.ofNat 32 49) ∧
      (48000 : Int) * 3 < (49 * tocSpf (pktRead (loaded [0x83, 0x31] fresh8k) 0) (48000 : Int).toNat : Nat) * 25) ∧
    (AnswersOnly (.pktNbFrames 2) (loaded [0x83, 0x30] fresh8k) (BitVec.ofNat 32 48) ∧
      (((48 * tocSpf (pktRead (loaded [0x83, 0x30] fresh8k) 0) (48000 : Int).toNat : Nat) : Int) * 25 ≤ 48000 * 3)) ∧
    ((pktRead (loaded [0x00] fresh8k) 0).toNat % 4 = 0 ∧ (pktRead (loaded [0x09] fresh8k) 0).toNat % 4 = 1 ∧
      (pktRead (loaded [0x02] fresh8k) 0).toNat % 4 = 2 ∧ (pktRead (loaded [0x83, 0x30] fresh8k) 0).toNat % 4 = 3 ∧
      (48 : Nat) = (pktRead (loaded [0x83, 0x30] fresh8k) 1).toNat % 64) :=
  ⟨by decide, ⟨by decide, raisesOnly_of rfl (by decide +kernel)⟩, raisesOnly_of rfl (by decide +kernel),
    ⟨answersOnly_of rfl (by decide +kernel), by decide⟩, ⟨answersOnly_of rfl (by decide +kernel), by decide⟩, by decide⟩

theorem witness_ConstructInitialises :
    legalRate 44100 = false ∧ legalChannels 3 = false ∧ legalRate 48000 = true ∧ legalChannels 2 = true := by decide

theorem witness_ConstructedGate :
    (∃ t, exec (.construct 8000 1) State.reset = .next t ∧ t.host.err = false) ∧ State.reset.constructed = false :=
  ⟨⟨_, rfl, by decide +kernel⟩, by decide⟩

theorem witness_ResetState : (machine8k .xform .pred .fb 8).constructed = true := by decide

theorem witness_ResetLikeConstruct :
    fresh8k.constructed = true ∧ LegalDecoder fresh8k.dec ∧ ∃ t u v, exec .ctlResetState fresh8k = .next t ∧
      exec .ctlResetState t = .next u ∧ exec (.construct fresh8k.dec.fs.toNat fresh8k.dec.c.toNat) fresh8k = .next v :=
  ⟨by decide, (usable_fresh8k.legal (by decide)).dec, _, _, _, rfl, rfl, rfl⟩

/-- Draws of the pitches. -/
def withPitches (t p : List Word) (s : State) : State := s.setEnv { s.env with pitch := ⟨t, 0⟩, pitchLag := ⟨p, 0⟩ }

theorem witness_Getters :
    ((withPitches [7] [9] (machine8k .xform .xform .fb 8)).constructed = true ∧
      (withPitches [7] [9] (machine8k .xform .xform .fb 8)).dec.prevMode = .xform ∧
      (withPitches [7] [9] (machine8k .xform .xform .fb 8)).env.pitch.given = 7 :: []) ∧
    ((withPitches [7] [9] fresh8k).dec.prevMode ≠ .xform ∧ (withPitches [7] [9] fresh8k).env.pitchLag.given = 9 :: []) := by
  decide

theorem witness_SetGain : fresh8k.constructed = true ∧ (-32769 : Int) < -32768 ∧ (32767 : Int) < 32768 ∧
    (-32768 : Int) ≤ -32768 ∧ (32767 : Int) ≤ 32767 := by decide

theorem witness_ErrorCodes :
    Usable fresh8k ∧ isCommand (.parse (-1)) = true ∧ ∃ t, exec (.parse (-1)) fresh8k = .next t ∧ t.host.err = true :=
  ⟨usable_fresh8k, by decide, _, rfl, by decide +kernel⟩

theorem witness_DecodeChecksBeforeAnything :
    State.reset.constructed = false ∧ (0 : Int) ≤ 0 ∧ (90 : Int) % (f2_5 (rate fresh8k) : Int) ≠ 0 ∧ (-1 : Int) < 0 ∧
    (fresh8k.constructed = true ∧ (0 : Int) < 20 ∧ (0 : Int) < 4 ∧ (20 : Int) % (f2_5 (rate fresh8k) : Int) = 0 ∧
      RaisesOnly (.parse 4) (loaded [1, 0x11, 0x22, 0x33] fresh8k) .invalidPacket) :=
  ⟨by decide, by decide, by decide, by decide, by decide, by decide, by decide, by decide,
    raisesOnly_of rfl (by decide +kernel)⟩

/-- V12 at 8000 Hz. -/
theorem witness_CapacityCheckedBeforeCommit :
    (loaded [3, 3, 0xA0, 0xB0, 0xC0] fresh8k).constructed = true ∧
    ∃ u, exec (.parse 5) (loaded [3, 3, 0xA0, 0xB0, 0xC0] fresh8k) = .next u ∧ u.host.err = false ∧
      (239 : Int) < (u.file.count.toNat * tocSpf u.file.toc (loaded [3, 3, 0xA0, 0xB0, 0xC0] fresh8k).dec.fs.toNat : Nat) :=
  ⟨by decide, _, rfl, by decide +kernel⟩

theorem witness_ConcealmentBeforeAnyMode :
    Usable fresh8k ∧ fresh8k.constructed = true ∧ fresh8k.dec.prevMode = .uninit ∧
    (20 : Int) % (f2_5 (rate fresh8k) : Int) = 0 ∧ (2147483640 : Int) % (f2_5 (rate fresh8k) : Int) = 0 :=
  ⟨usable_fresh8k, by decide⟩

theorem witness_ConcealmentIsExact :
    Usable (machine8k .xform .pred .fb 8) ∧ (machine8k .xform .pred .fb 8).constructed = true ∧
    (60 : Int) % (f2_5 (rate (machine8k .xform .pred .fb 8)) : Int) = 0 :=
  ⟨usable_of 8 (by decide), by decide⟩

/-- V17 at 8000 Hz with 10 ms frames: the second of two prediction-only frames fails. -/
def secondFails : State :=
  loaded [0x01] (withDraws [⟨0, 80, tone 80 5⟩, ⟨1, 0, []⟩] [] [1] [7] (machine8k .uninit .uninit .unset 1))

/-- V11 at 8000 Hz, which succeeds; V12, which fails before the commit; V17, which fails after it, in frame 1. -/
theorem witness_PacketResult :
    (Usable (loaded [3, 3, 0xA0, 0xB0, 0xC0] fresh8k) ∧ (loaded [3, 3, 0xA0, 0xB0, 0xC0] fresh8k).constructed = true) ∧
    (Usable secondFails ∧ secondFails.constructed = true ∧ ∃ p, parsePacket 5 false secondFails = .go p ∧
      p.file.count.toNat * tocSpf p.file.toc secondFails.dec.fs.toNat = 160) ∧
    answer (exec (.decode 5 240) (loaded [3, 3, 0xA0, 0xB0, 0xC0] fresh8k)) = some (240, false) ∧
    answer (exec (.decode 5 239) (loaded [3, 3, 0xA0, 0xB0, 0xC0] fresh8k)) = some (-2, true) ∧
    answer (exec (.decode 5 160) secondFails) = some (-3, true) ∧
    (after (exec (.decode 5 160) secondFails)).dec.prevMode = .pred :=
  ⟨⟨usable_of 1 (by decide), by decide⟩, ⟨usable_of 1 (by decide), by decide, _, rfl, by decide +kernel⟩, by decide +kernel⟩

/-- V13 at 8000 Hz, which degrades, and a request of the whole frame, which does not. -/
theorem witness_FecResult :
    Usable (loaded [8, 0xAA, 0xBB] fresh8k) ∧ (loaded [8, 0xAA, 0xBB] fresh8k).constructed = true ∧
    (80 : Int) % (f2_5 (rate (loaded [8, 0xAA, 0xBB] fresh8k)) : Int) = 0 ∧
    ∃ u, exec (.parse 3) (loaded [8, 0xAA, 0xBB] fresh8k) = .next u ∧ u.host.err = false ∧
      (80 : Int) < tocSpf u.file.toc (loaded [8, 0xAA, 0xBB] fresh8k).dec.fs.toNat ∧
      ¬ ((160 : Int) < tocSpf u.file.toc (loaded [8, 0xAA, 0xBB] fresh8k).dec.fs.toNat ∨ tocMode u.file.toc = .xform ∨
        (loaded [8, 0xAA, 0xBB] fresh8k).dec.mode = .xform) :=
  ⟨usable_of 1 (by decide), by decide, by decide, _, rfl, by decide +kernel⟩

/-- A packet of one 10 ms prediction-only frame, to recover after 10 ms of loss. -/
def fecCase (prev : Mode) : State :=
  loaded [0x00] (withDraws [⟨0, 80, tone 80 5⟩] [] [] [] (machine8k (if prev = .uninit then .uninit else .pred) prev
    (if prev = .uninit then .unset else .nb) (if prev = .uninit then 1 else 4)))

theorem witness_FecRecoversTheFrame :
    (Usable (fecCase .uninit) ∧ (fecCase .uninit).constructed = true ∧ PktHolds (fecCase .uninit) 0 [tocByte 0 false 0] ∧
      tocSpf (tocByte 0 false 0) (fecCase .uninit).dec.fs.toNat = 80 ∧ (fecCase .uninit).dec.mode ≠ .xform ∧
      (fecCase .uninit).dec.prevMode = .uninit ∧ (160 : Int) % (f2_5 (rate (fecCase .uninit)) : Int) = 0 ∧
      (fecCase .uninit).env.pDecode.given = ⟨0, 80, tone 80 5⟩ :: [] ∧ (tone 80 5).length = words 80 (fecCase .uninit)) ∧
    (Usable (fecCase .pred) ∧ (fecCase .pred).dec.prevMode = .pred ∧ PktHolds (fecCase .pred) 0 [tocByte 0 false 0] ∧
      (80 : Int) % (f2_5 (rate (fecCase .pred)) : Int) = 0) :=
  ⟨⟨usable_of 1 (by decide), by decide, pktHolds_of (by decide), by decide⟩, usable_of 4 (by decide), by decide, pktHolds_of (by decide), by decide⟩

theorem witness_DtxPacketIsSilence :
    Usable (loaded [3, 0x83, 1, 0] fresh8k) ∧ (loaded [3, 0x83, 1, 0] fresh8k).constructed = true ∧
    (loaded [3, 0x83, 1, 0] fresh8k).dec.prevMode = .uninit ∧ (PacketForm.vbr [1, 0, 1] none).fits 0 = true ∧
    (∀ n ∈ (PacketForm.vbr [1, 0, 1] none).sizes, n ≤ 1) ∧
    PktHolds (loaded [3, 0x83, 1, 0] fresh8k) 0 ((PacketForm.vbr [1, 0, 1] none).header false 0 false) ∧
    (((PacketForm.vbr [1, 0, 1] none).sizes.length *
      tocSpf (tocByte 0 false (PacketForm.vbr [1, 0, 1] none).code) (loaded [3, 0x83, 1, 0] fresh8k).dec.fs.toNat : Nat) : Int) ≤
        240 :=
  ⟨usable_of 1 (by decide), by decide, by decide, by decide, by decide, pktHolds_of (by decide), by decide⟩

/-- A packet of one 2.5 ms transform-only frame. -/
def xformCase (prev : Mode) : State :=
  loaded [0xE0] (withDraws [] [⟨0, tone 20 5⟩] [] [7] (machine8k (if prev = .uninit then .uninit else .xform) prev
    (if prev = .uninit then .unset else .fb) 1))

theorem witness_XformPacketDecodes :
    Usable (xformCase .uninit) ∧ (xformCase .uninit).constructed = true ∧ PktHolds (xformCase .uninit) 0 [tocByte 28 false 0] ∧
    tocSpf (tocByte 28 false 0) (xformCase .uninit).dec.fs.toNat = 20 ∧ (xformCase .uninit).dec.prevMode = .uninit ∧
    (xformCase .uninit).env.tDecode.given = ⟨0, tone 20 5⟩ :: [] ∧ (tone 20 5).length = words 20 (xformCase .uninit) ∧
    Usable (xformCase .xform) ∧ (xformCase .xform).dec.prevMode = .xform ∧
    answer (exec (.decode 3 20) (xformCase .uninit)) = some (20, false) :=
  ⟨usable_of 1 (by decide), by decide, pktHolds_of (by decide), by decide, by decide, by decide, by decide,
    usable_of 1 (by decide), by decide +kernel⟩

/-- SET_GAIN changes the gain; DECODE of a silent packet the mode, the duration; CONSTRUCT the constructed flag. -/
theorem witness_RegistersWrittenBy :
    Usable fresh8k ∧ (∃ t, exec (.ctlSetGain 1) fresh8k = .next t ∧ t.dec.decodeGain ≠ fresh8k.dec.decodeGain) ∧
    (∃ t, exec (.construct 8000 1) State.reset = .next t ∧ t.constructed ≠ State.reset.constructed) ∧
    (∃ t, exec (.decode 1 80) fresh8k = .next t ∧ t.dec.mode ≠ fresh8k.dec.mode ∧
      t.dec.lastPacketDuration ≠ fresh8k.dec.lastPacketDuration) ∧
    (∃ t, exec (.decode 3 20) (xformCase .uninit) = .next t ∧ t.dec.prevMode ≠ (xformCase .uninit).dec.prevMode ∧
      t.dec.rangeFinal ≠ (xformCase .uninit).dec.rangeFinal) := by
  refine ⟨usable_fresh8k, ?_, ?_, ?_, ?_⟩ <;> exact ⟨_, rfl, by decide +kernel⟩

theorem witness_MemoryWriteExtent :
    Usable (xformCase .uninit) ∧ ∃ t, exec (.decode 3 20) (xformCase .uninit) = .next t ∧ t.out ≠ (xformCase .uninit).out :=
  ⟨usable_of 1 (by decide), _, rfl, by decide +kernel⟩

theorem witness_FrameMinimumAndSilence :
    (19 : Int) < f2_5 (rate fresh8k) ∧
    (Usable fresh8k ∧ fresh8k.constructed = true ∧ fresh8k.dec.prevMode = .uninit ∧ (1 : Int) ≤ 1 ∧
      (f2_5 (rate fresh8k) : Int) ≤ 20 ∧ ((20 : Nat) : Int) = min 20 (fresh8k.dec.frameSize.toNat : Int)) :=
  ⟨by decide, usable_fresh8k, by decide⟩

/-- The engine succeeds, or fails. -/
theorem witness_XformFrame :
    (Usable (xformCase .xform) ∧ (xformCase .xform).constructed = true ∧ (xformCase .xform).dec.mode = .xform ∧
      (xformCase .xform).dec.prevMode = .xform ∧ ((xformCase .xform).dec.frameSize.toNat : Int) ≤ 20 ∧
      (xformCase .xform).env.tDecode.given = ⟨0, tone 20 5⟩ :: [] ∧
      (tone 20 5).length = words (xformCase .xform).dec.frameSize.toNat (xformCase .xform)) ∧
    isErrorCode (-3) = true :=
  ⟨⟨usable_of 1 (by decide), by decide⟩, by decide⟩

/-- A 10 ms prediction-only frame of two bytes with nothing left for redundancy. -/
def predCase (prev : Mode) : State := withDraws [⟨0, 80, tone 80 5⟩] [] [1] [7] (machine8k .pred prev .nb 4)

/-- The same after a hybrid frame, with the fade-out frame of F9. -/
def fadeOutCase : State := withDraws [⟨0, 80, tone 80 5⟩] [⟨0, tone 20 6⟩] [1] [7] (machine8k .pred .hybrid .nb 4)

theorem witness_PredictionFrame :
    (Usable (predCase .pred) ∧ (predCase .pred).constructed = true ∧ (predCase .pred).dec.mode = .pred ∧
      (predCase .pred).dec.prevMode = .pred ∧ ((predCase .pred).dec.frameSize.toNat : Int) ≤ 80 ∧
      (predCase .pred).env.pDecode.given = ⟨0, (predCase .pred).dec.frameSize.toNat, tone 80 5⟩ :: [] ∧
      (tone 80 5).length = words (predCase .pred).dec.frameSize.toNat (predCase .pred) ∧
      (predCase .pred).env.tell.given = 1 :: [] ∧ (1 : Int) ≤ (1 : Word).toInt ∧ 8 * (2 : Int) < (1 : Word).toInt + 17) ∧
    (Usable fadeOutCase ∧ fadeOutCase.constructed = true ∧ fadeOutCase.dec.mode = .pred ∧ fadeOutCase.dec.prevMode = .hybrid ∧
      fadeOutCase.env.pDecode.given = ⟨0, fadeOutCase.dec.frameSize.toNat, tone 80 5⟩ :: [] ∧
      (tone 80 5).length = words fadeOutCase.dec.frameSize.toNat fadeOutCase ∧ fadeOutCase.env.tell.given = 1 :: [] ∧
      fadeOutCase.env.tDecode.given = ⟨0, tone 20 6⟩ :: [] ∧
      (tone 20 6).length = words (f2_5 (rate fadeOutCase)) fadeOutCase) :=
  ⟨⟨usable_of 4 (by decide), by decide⟩, usable_of 4 (by decide), by decide⟩

/-- A 10 ms hybrid frame after a prediction-only one. -/
def hybridCase : State := withDraws [⟨0, 80, tone 80 5⟩] [⟨0, tone 80 6⟩] [1] [7] (machine8k .hybrid .pred .fb 4)

/-- The draws of the bits and of the explicit length of redundancy. -/
def withBits (bits : List Bool) (lengths finals : List Word) (s : State) : State :=
  s.setEnv { s.env with bit := ⟨bits, 0⟩, uint := ⟨lengths, 0⟩, finalRange := ⟨finals, 0⟩ }

/-- The same with room for redundancy, whose bit says there is none. -/
def hybridBitCase : State :=
  withBits [false] [] [] (withDraws [⟨0, 80, tone 80 5⟩] [⟨0, tone 80 6⟩] [1] [7] (machine8k .hybrid .hybrid .fb 4))

/-- F8 at 8000 Hz with a 10 ms frame: two bytes for the frame, two for the redundancy. -/
def leadingCase : State :=
  withBits [true, true] [1] [3]
    (withDraws [⟨0, 80, tone 80 5⟩] [⟨0, tone 40 9⟩, ⟨0, tone 80 6⟩] [3, 16] [7] (machine8k .hybrid .xform .fb 4))

theorem witness_HybridFrameSum :
    (Usable hybridCase ∧ hybridCase.constructed = true ∧ hybridCase.dec.mode = .hybrid ∧ hybridCase.dec.prevMode ≠ .xform ∧
      (hybridCase.dec.frameSize.toNat : Int) ≤ 80 ∧
      hybridCase.env.pDecode.given = ⟨0, hybridCase.dec.frameSize.toNat, tone 80 5⟩ :: [] ∧
      (tone 80 5).length = words hybridCase.dec.frameSize.toNat hybridCase ∧
      hybridCase.env.tDecode.given = ⟨0, tone 80 6⟩ :: [] ∧
      (tone 80 6).length = words hybridCase.dec.frameSize.toNat hybridCase ∧
      hybridCase.env.tell.given = 1 :: [] ∧ (1 : Int) ≤ (1 : Word).toInt ∧ 8 * (4 : Int) < (1 : Word).toInt + 37) ∧
    (Usable hybridBitCase ∧ hybridBitCase.constructed = true ∧ hybridBitCase.dec.prevMode ≠ .xform ∧
      (1 : Word).toInt + 37 ≤ 8 * (5 : Int) ∧ hybridBitCase.env.bit.given = false :: []) ∧
    (Usable leadingCase ∧ leadingCase.constructed = true ∧ leadingCase.dec.mode = .hybrid ∧ leadingCase.dec.prevMode = .xform ∧
      leadingCase.env.pDecode.given = ⟨0, leadingCase.dec.frameSize.toNat, tone 80 5⟩ :: [] ∧
      leadingCase.env.tDecode.given = ⟨0, tone 40 9⟩ :: ⟨0, tone 80 6⟩ :: [] ∧
      (tone 40 9).length = words (f5 (rate leadingCase)) leadingCase ∧ leadingCase.env.tell.given = 3 :: 16 :: [] ∧
      (3 : Word).toInt + 37 ≤ 8 * (5 : Int) ∧ leadingCase.env.bit.given = true :: true :: [] ∧
      leadingCase.env.uint.given = 1 :: [] ∧ (1 : Word).toNat < 256 ∧ (5 : Int) = 2 + ((1 : Word).toNat + 2) ∧
      (16 : Word).toInt ≤ 8 * 2 ∧ leadingCase.env.finalRange.given = 3 :: [] ∧ leadingCase.env.rng.given = 7 :: []) :=
  ⟨⟨usable_of 4 (by decide), by decide⟩, ⟨usable_of 4 (by decide), by decide⟩, usable_of 4 (by decide), by decide⟩

/-- F7 and F6 at 8000 Hz: a transform-only frame of so many samples after a prediction-only one. -/
def transitionCase (units : Nat) : State :=
  withDraws [⟨0, 80, tone 80 1000⟩] [⟨0, tone (20 * units) 4⟩] [] [7] (machine8k .xform .pred .fb units)

/-- A 10 ms frame of two bytes after a transform-only one. -/
def leavingCase (m : Mode) (b : Bandwidth) (replies : List TReply) : State :=
  withDraws [⟨0, 80, tone 80 5⟩] replies [1] [7] (machine8k m .xform b 4)

theorem witness_TransitionFade :
    (∀ units ∈ [1, 2], Usable (transitionCase units) ∧ (transitionCase units).constructed = true ∧
      (transitionCase units).dec.mode = .xform ∧ (transitionCase units).dec.prevMode = .pred ∧
      (transitionCase units).dec.prevRedundancy = false ∧ (transitionCase units).dec.decodeGain = 0 ∧
      ((transitionCase units).dec.frameSize.toNat : Int) ≤ 40 ∧
      (transitionCase units).env.pDecode.given = ⟨0, f10 (rate (transitionCase units)), tone 80 1000⟩ :: [] ∧
      (tone 80 1000).length = words (f10 (rate (transitionCase units))) (transitionCase units) ∧
      (transitionCase units).env.tDecode.given = ⟨0, tone (20 * units) 4⟩ :: [] ∧
      (tone (20 * units) 4).length = words (transitionCase units).dec.frameSize.toNat (transitionCase units) ∧
      (f5 (rate (transitionCase units)) ≤ (transitionCase units).dec.frameSize.toNat ↔ units = 2)) ∧
    (Usable (leavingCase .pred .nb [⟨0, tone 40 9⟩]) ∧ (leavingCase .pred .nb [⟨0, tone 40 9⟩]).constructed = true ∧
      (leavingCase .pred .nb [⟨0, tone 40 9⟩]).dec.prevMode = .xform ∧
      (tone 40 9).length = words (f5 (rate (leavingCase .pred .nb [⟨0, tone 40 9⟩]))) (leavingCase .pred .nb [⟨0, tone 40 9⟩]) ∧
      (leavingCase .pred .nb [⟨0, tone 40 9⟩]).env.tell.given = 1 :: [] ∧ 8 * (2 : Int) < (1 : Word).toInt + 17) ∧
    (Usable (leavingCase .hybrid .fb [⟨0, tone 40 9⟩, ⟨0, tone 80 6⟩]) ∧
      (leavingCase .hybrid .fb [⟨0, tone 40 9⟩, ⟨0, tone 80 6⟩]).constructed = true ∧
      (leavingCase .hybrid .fb [⟨0, tone 40 9⟩, ⟨0, tone 80 6⟩]).dec.prevMode = .xform ∧
      (tone 80 6).length = words (leavingCase .hybrid .fb [⟨0, tone 40 9⟩, ⟨0, tone 80 6⟩]).dec.frameSize.toNat
        (leavingCase .hybrid .fb [⟨0, tone 40 9⟩, ⟨0, tone 80 6⟩]) ∧ 8 * (4 : Int) < (1 : Word).toInt + 37) := by
  refine ⟨fun units h => ?_, ⟨usable_of 4 (by decide), by decide⟩, usable_of 4 (by decide), by decide⟩
  simp only [List.mem_cons, List.not_mem_nil, or_false] at h
  rcases h with rfl | rfl
  · exact ⟨usable_of 1 (by decide), by decide⟩
  · exact ⟨usable_of 2 (by decide), by decide⟩

/-- F10's first frame at 8000 Hz: 3 bytes, of which the first two go to the prediction engine. -/
def trailingCase : State :=
  let s := withDraws [⟨0, 80, tone 80 5⟩] [⟨0, tone 40 6⟩] [7, 9, 16] [7] (machine8k .pred .pred .nb 4)
  s.setEnv { s.env with bit := ⟨[false], 0⟩, finalRange := ⟨[3], 0⟩ }

theorem witness_TrailingRedundancy :
    Usable trailingCase ∧ trailingCase.constructed = true ∧ trailingCase.dec.mode = .pred ∧
    trailingCase.dec.prevMode = .pred ∧ trailingCase.dec.decodeGain = 0 ∧
    trailingCase.env.pDecode.given = ⟨0, trailingCase.dec.frameSize.toNat, tone 80 5⟩ :: [] ∧
    (tone 80 5).length = words trailingCase.dec.frameSize.toNat trailingCase ∧
    trailingCase.env.tell.given = 7 :: 9 :: 16 :: [] ∧ (7 : Word).toInt + 17 ≤ 8 * (3 : Int) ∧
    (9 : Int) ≤ (9 : Word).toInt ∧ (9 : Word).toInt ≤ 8 * (3 : Int) ∧
    (16 : Word).toInt ≤ 8 * (((9 : Word).toInt + 7) / 8) ∧ trailingCase.env.bit.given = false :: [] ∧
    trailingCase.env.tDecode.given = ⟨0, tone 40 6⟩ :: [] ∧ (tone 40 6).length = words (f5 (rate trailingCase)) trailingCase ∧
    trailingCase.env.finalRange.given = 3 :: [] ∧ trailingCase.env.rng.given = 7 :: [] :=
  ⟨usable_of 4 (by decide), by decide⟩

/-- F12 at 8000 Hz. -/
def predFails : State := withDraws [⟨1, 0, []⟩] [] [] [] (machine8k .pred .uninit .nb 4)

theorem witness_PredictionFailure :
    Usable predFails ∧ predFails.constructed = true ∧ predFails.dec.mode = .pred ∧ (2 : Int) ≤ 2 ∧
    (predFails.dec.frameSize.toNat : Int) ≤ 80 ∧ predFails.env.pDecode.given = ⟨1, 0, []⟩ :: [] ∧
    (⟨1, 0, []⟩ : PReply).ret ≠ 0 ∧
    (after (exec (.decodeFrame (some 1) 2 0 80 false) predFails)).driver.ret = -3 :=
  ⟨usable_of 4 (by decide), by decide +kernel⟩

/-- F13 at 8000 Hz. -/
def xformFails : State := withDraws [] [⟨-3, []⟩] [] [] (machine8k .xform .xform .fb 8)

theorem witness_ConcealmentAbsorbsFailure :
    Usable xformFails ∧ xformFails.constructed = true ∧ xformFails.dec.prevMode = .xform ∧ xformFails.dec.decodeGain = 0 ∧
    160 ≤ xformFails.dec.frameSize.toNat ∧ 20 = f2_5 (rate xformFails) ∧ 40 = f5 (rate xformFails) ∧
    80 = f10 (rate xformFails) ∧ 160 = f20 (rate xformFails) ∧ xformFails.env.tDecode.given = ⟨-3, []⟩ :: [] ∧
    isErrorCode (-3) = true ∧ (after (exec (.decodeFrame none 0 0 160 false) xformFails)).driver.ret = 160 :=
  ⟨usable_of 8 (by decide), by decide +kernel⟩

/-- A frame with bytes, a concealed one, a failing one, and a request that is too short. -/
theorem witness_FrameLaws :
    (Usable (predCase .pred) ∧ (predCase .pred).constructed = true ∧ (predCase .pred).dec.mode ≠ .uninit ∧
      (after (exec (.decodeFrame (some 1) 2 0 80 false) (predCase .pred))).driver.ret = 80) ∧
    (after (exec (.decodeFrame none 0 0 20 false) fresh8k)).driver.ret = 20 ∧
    (Usable predFails ∧ (after (exec (.decodeFrame (some 1) 2 0 80 false) predFails)).driver.ret = -3) ∧
    (after (exec (.decodeFrame none 0 0 19 false) fresh8k)).driver.ret = -2 :=
  ⟨⟨usable_of 4 (by decide), by decide +kernel⟩, by decide +kernel,
    ⟨usable_of 4 (by decide), by decide +kernel⟩, by decide +kernel⟩

theorem witness_FrameSelectTable :
    (Mode.hybrid ≠ .uninit ∧ (Mode.hybrid = .xform → true = false)) ∧ (Mode.xform ≠ .uninit ∧ (Mode.xform = .xform → false = false)) := by
  decide

theorem witness_FadeAndGainLaws : (0 : Nat) ≤ 1 ∧ (32767 : Nat) ≤ 32767 := by decide

theorem witness_LoadedBytesAreRead :
    (pending [.load 2147483646 [1, 2]] fresh8k).pkt.wf = true ∧ (pending [.load 2147483646 [1, 2]] fresh8k).phase = .idle ∧
    (pending [.load 2147483646 [1, 2]] fresh8k).inbox = .load 2147483646 [1, 2] :: [] := by decide

theorem inv_reset : Inv State.reset :=
  ⟨by decide, by decide, ⟨rfl, rfl, rfl, rfl, rfl⟩, fun h => nomatch h⟩

/-- From reset, and from a constructed instance, a step that does something. -/
theorem witness_InvariantKept :
    (Inv State.reset ∧ step State.reset = .next State.reset) ∧
    Inv (pending [.command 0x00000001 8000 1 0] State.reset) ∧
    Inv (pending [.command 0x00000403 0 20 0] fresh8k) ∧
    answer (step (pending [.command 0x00000403 0 20 0] fresh8k)) = some (20, false) :=
  ⟨⟨inv_reset, rfl⟩, ⟨by decide, by decide, ⟨rfl, rfl, rfl, rfl, rfl⟩, fun h => nomatch h⟩,
    ⟨by decide, by decide, ⟨rfl, rfl, rfl, rfl, rfl⟩, fun h =>
      (usable_of (s := pending [.command 0x00000403 0 20 0] fresh8k) 1 (by decide)).legal h⟩, by decide +kernel⟩

theorem witness_StepAnswers : Inv fresh8k ∧ Inv (xformCase .uninit) :=
  ⟨⟨by decide, by decide, ⟨rfl, rfl, rfl, rfl, rfl⟩, fun _ => usable_fresh8k.legal rfl⟩,
    ⟨by decide, by decide, ⟨rfl, rfl, rfl, rfl, rfl⟩, fun h => (usable_of (s := xformCase .uninit) 1 (by decide)).legal h⟩⟩

end Sys2Proof.Tests
end

section
/-! PROOFS. The `constructed` register (10_state.md R35): what sets it, what it holds back, and what does not read it. -/

namespace Sys2Proof.Machine

/-! CONSTRUCT sets it; DECODE and the control requests check it first. -/

theorem constructInit_constructed (fs c : Int) (s : State) : (constructInit fs c s).constructed = true := rfl

/-- CONSTRUCT answers an error or initialises (44_control.md R291). -/
theorem execConstruct_cases (fs c : Int) (s : State) :
    execConstruct fs c s = raises .badArgument s ∨ execConstruct fs c s = .next (respond 0 (constructInit fs c s)) := by
  unfold execConstruct
  split
  · exact .inr rfl
  · exact .inl rfl

theorem constructed_of_execConstruct {s t : State} {fs c : Int} (h : execConstruct fs c s = .next t)
    (herr : t.host.err = false) : t.constructed = true := by
  rcases execConstruct_cases fs c s with hraise | hinit
  · obtain rfl : raiseErr _ s = t := Host.Outcome.next.inj (hraise.symm.trans h)
    simp at herr
  · obtain rfl : respond 0 _ = t := Host.Outcome.next.inj (hinit.symm.trans h)
    rw [respond_constructed, constructInit_constructed]

section Unconstructed

variable {s : State} (h : s.constructed = false)
include h

theorem ctl_of_not_constructed (a : Answer) : ctl s a = raises .badArgument s := by
  unfold ctl
  rw [h]; rfl

theorem decodeCommand_of_not_constructed (fec nul : Bool) (len cap : Int) :
    decodeCommand fec nul len cap s = raises .badArgument s := by
  unfold decodeCommand
  rw [h]; rfl

end Unconstructed

/-! A parse does not read it: each rule, on a state with the register set otherwise, does the same. -/

/-- The same flow, with the `constructed` register of its state set to `b`. -/
def Flow.withConstructed (b : Bool) : Flow → Flow
  | .go s => .go (s.setConstructed b)
  | .done r s => .done r (s.setConstructed b)
  | .fault f => .fault f

/-- A rule that neither reads nor writes `constructed`. -/
def IgnoresConstructed (k : State → Flow) : Prop :=
  ∀ (b : Bool) (s : State), k (s.setConstructed b) = (k s).withConstructed b

theorem State.setConstructed_setParse (b : Bool) (s : State) (p : ParseRegs) :
    (s.setConstructed b).setParse p = (s.setParse p).setConstructed b := rfl

theorem readSize_setConstructed (b : Bool) (s : State) (p : Nat) (r : Int) :
    readSize (s.setConstructed b) p r = readSize s p r := rfl

theorem Flow.withConstructed_ite (b : Bool) (c : Prop) [Decidable c] (m m' : Flow) :
    (if c then m else m').withConstructed b = if c then m.withConstructed b else m'.withConstructed b :=
  apply_ite _ c m m'

theorem IgnoresConstructed.andThen {j k : State → Flow} (hj : IgnoresConstructed j) (hk : IgnoresConstructed k) :
    IgnoresConstructed fun s => (j s).andThen k := by
  intro b s
  simp only [hj b s]
  cases j s with
  | go t => exact hk b t
  | done r t => rfl
  | fault f => rfl

/-- A rule that branches on what does not depend on `constructed`. -/
theorem IgnoresConstructed.ite {c : State → Prop} [DecidablePred c] {j k : State → Flow}
    (hc : ∀ b s, c (s.setConstructed b) ↔ c s) (hj : IgnoresConstructed j) (hk : IgnoresConstructed k) :
    IgnoresConstructed fun s => if c s then j s else k s := by
  intro b s
  simp only [hc b s, hj b s, hk b s, Flow.withConstructed_ite]

theorem ignoresConstructed_parseArgs : IgnoresConstructed parseArgs := by
  intro b s
  unfold parseArgs
  simp only [Flow.withConstructed_ite]
  rfl

theorem ignoresConstructed_parseHeader : IgnoresConstructed parseHeader := fun _ _ => rfl
theorem ignoresConstructed_parseCode0 : IgnoresConstructed parseCode0 := fun _ _ => rfl

theorem ignoresConstructed_parseCode1 : IgnoresConstructed parseCode1 := by
  intro b s
  unfold parseCode1
  simp only [Flow.withConstructed_ite]
  rfl

theorem ignoresConstructed_parseCode2 : IgnoresConstructed parseCode2 := by
  intro b s
  unfold parseCode2
  simp only [State.setConstructed_setParse, readSize_setConstructed, State.setConstructed_parse]
  split
  · rfl
  · simp only [Flow.withConstructed_ite]
    rfl

theorem ignoresConstructed_parseCode3 : IgnoresConstructed parseCode3 := by
  intro b s
  unfold parseCode3
  simp only [Flow.withConstructed_ite]
  rfl

theorem ignoresConstructed_padChain (fuel : Nat) : IgnoresConstructed (padChain fuel) := by
  intro b s
  induction fuel generalizing s with
  | zero => rfl
  | succ fuel ih =>
    unfold padChain
    simp only [Flow.withConstructed_ite, ← ih]
    rfl

theorem ignoresConstructed_padCheck : IgnoresConstructed padCheck :=
  .ite (fun _ _ => Iff.rfl) (fun _ _ => rfl) fun _ _ => rfl

theorem ignoresConstructed_parsePadding : IgnoresConstructed parsePadding := fun b s =>
  (ignoresConstructed_padChain s.parse.rem.toNat).andThen ignoresConstructed_padCheck b s

theorem ignoresConstructed_vbrSizes (n : Nat) : IgnoresConstructed (vbrSizes n) := by
  intro b s
  induction n generalizing s with
  | zero => rfl
  | succ n ih =>
    unfold vbrSizes
    simp only [State.setConstructed_setParse, readSize_setConstructed, State.setConstructed_parse, ih]
    split
    · rfl
    · simp only [Flow.withConstructed_ite]
      rfl

theorem ignoresConstructed_parseVbr : IgnoresConstructed parseVbr := fun b s =>
  (ignoresConstructed_vbrSizes (s.parse.count - 1)).andThen
    (.ite (fun _ _ => Iff.rfl) (fun _ _ => rfl) fun _ _ => rfl) b
    (s.setParse { s.parse with cbr := false, lastSize := s.parse.rem })

theorem ignoresConstructed_parseCbr : IgnoresConstructed parseCbr := by
  intro b s
  unfold parseCbr
  simp only [Flow.withConstructed_ite]
  rfl

theorem ignoresConstructed_parseCode3Rest : IgnoresConstructed parseCode3Rest :=
  .andThen (.ite (fun _ _ => Iff.rfl) ignoresConstructed_parsePadding ignoresConstructed_padCheck)
    (.ite (fun _ _ => Iff.rfl) ignoresConstructed_parseVbr ignoresConstructed_parseCbr)

theorem ignoresConstructed_parseByCode : IgnoresConstructed parseByCode := by
  intro b s
  unfold parseByCode
  simp only [State.setConstructed_parse]
  split
  · exact ignoresConstructed_parseCode0 b s
  · exact ignoresConstructed_parseCode1 b s
  · exact ignoresConstructed_parseCode2 b s
  · exact ignoresConstructed_parseCode3.andThen ignoresConstructed_parseCode3Rest b s

theorem ignoresConstructed_tailSelfDelimited : IgnoresConstructed tailSelfDelimited := by
  intro b s
  unfold tailSelfDelimited
  simp only [State.setConstructed_setParse, readSize_setConstructed, State.setConstructed_parse]
  split
  · rfl
  · simp only [Flow.withConstructed_ite]
    rfl

theorem ignoresConstructed_tailImplicit : IgnoresConstructed tailImplicit := by
  intro b s
  unfold tailImplicit
  simp only [Flow.withConstructed_ite]
  rfl

theorem ignoresConstructed_parseTail : IgnoresConstructed parseTail :=
  .ite (fun _ _ => Iff.rfl) ignoresConstructed_tailSelfDelimited ignoresConstructed_tailImplicit

theorem ignoresConstructed_parsePacket (len : Int) (sd : Bool) : IgnoresConstructed (parsePacket len sd) := fun b s =>
  ignoresConstructed_parseArgs.andThen (ignoresConstructed_parseHeader.andThen
    (ignoresConstructed_parseByCode.andThen (ignoresConstructed_parseTail.andThen fun _ _ => rfl))) b
    (parseStart len sd s)

/-! The commands that run before CONSTRUCT. -/

/-- A command that always ends, and does the same, in all but the register itself, whatever `constructed` is. -/
def RunsWhateverConstructed (a : State → Answer) : Prop :=
  ∀ (b : Bool) (s : State), ∃ t, a s = .next t ∧ a (s.setConstructed b) = .next (t.setConstructed b)

theorem RunsWhateverConstructed.ite {c : State → Prop} [DecidablePred c] {a a' : State → Answer}
    (hc : ∀ b s, c (s.setConstructed b) ↔ c s) (h : RunsWhateverConstructed a) (h' : RunsWhateverConstructed a') :
    RunsWhateverConstructed fun s => if c s then a s else a' s := by
  intro b s
  simp only [hc b s]
  split
  · exact h b s
  · exact h' b s

theorem runsWhateverConstructed_raises (e : ErrCode) : RunsWhateverConstructed (raises e) :=
  fun _ _ => ⟨_, rfl, rfl⟩

theorem runsWhateverConstructed_parseCommand (len : Int) (sd : Bool) :
    RunsWhateverConstructed (parseCommand len sd) := by
  intro b s
  have hend := parses_parsePacket len sd s
  unfold parseCommand
  rw [ignoresConstructed_parsePacket]
  cases hm : parsePacket len sd s with
  | go t => exact ⟨_, rfl, rfl⟩
  | done r t => exact ⟨_, rfl, rfl⟩
  | fault f => rw [hm] at hend; exact hend.elim

theorem runsWhateverConstructed_tocInfo (len fs : Int) : RunsWhateverConstructed (execTocInfo len fs) :=
  .ite (fun _ _ => Iff.rfl) (runsWhateverConstructed_raises _) <|
    .ite (fun _ _ => Iff.rfl) (runsWhateverConstructed_raises _) fun _ _ => ⟨_, rfl, rfl⟩

theorem announcedFrames_setConstructed (len : Int) (b : Bool) (s : State) :
    announcedFrames len (s.setConstructed b) = announcedFrames len s := rfl

theorem runsWhateverConstructed_pktNbFrames (len : Int) : RunsWhateverConstructed (execPktNbFrames len) := by
  intro b s
  unfold execPktNbFrames
  rw [announcedFrames_setConstructed]
  cases announcedFrames len s with
  | error e => exact runsWhateverConstructed_raises e b s
  | ok n => exact ⟨_, rfl, rfl⟩

theorem runsWhateverConstructed_pktNbSamples (len fs : Int) : RunsWhateverConstructed (execPktNbSamples len fs) := by
  refine .ite (fun _ _ => Iff.rfl) (runsWhateverConstructed_raises _) fun b s => ?_
  rw [announcedFrames_setConstructed]
  cases announcedFrames len s with
  | error e => exact runsWhateverConstructed_raises e b s
  | ok n =>
    exact RunsWhateverConstructed.ite (c := fun s => ((n * tocSpf (pktRead s 0) fs.toNat : Nat) : Int) * 25 > fs * 3)
      (fun _ _ => Iff.rfl) (runsWhateverConstructed_raises _) (fun _ _ => ⟨_, rfl, rfl⟩) b s

/-- What such a command answers does not depend on `constructed`. -/
theorem RunsWhateverConstructed.answers_alike {i : Instr} (h : RunsWhateverConstructed (exec i)) (s : State) (b : Bool) :
    ∃ t t', exec i s = .next t ∧ exec i (s.setConstructed b) = .next t' ∧ t'.host.resp = t.host.resp ∧
      t'.host.err = t.host.err := by
  obtain ⟨t, hs, hb⟩ := h b s
  exact ⟨t, t.setConstructed b, hs, hb, rfl, rfl⟩

/-- Settles O29: CONSTRUCT's two outcomes, the `constructed` check that DECODE and the control requests begin with, and that
no rule of a parse or a packet query reads the register. -/
theorem constructedGate : Obligations.ConstructedGate := by
  unfold Obligations.ConstructedGate
  refine ⟨rfl, fun s t fs c => constructed_of_execConstruct, fun s len cap v fec hs => ?_, fun s len fs b => ?_⟩
  · have hdecode (fec nul len) := decodeCommand_of_not_constructed hs fec nul len cap
    have hctl := ctl_of_not_constructed hs
    simp only [List.forall_mem_cons]
    exact ⟨raisesOnly_self (hdecode ..), raisesOnly_self (hdecode ..), raisesOnly_self (hdecode ..),
      raisesOnly_self (hctl _), raisesOnly_self (hctl _), raisesOnly_self (hctl _), raisesOnly_self (hctl _),
      raisesOnly_self (hctl _), raisesOnly_self (hctl _), raisesOnly_self (hctl _), raisesOnly_self (hctl _),
      List.forall_mem_nil _⟩
  · have alike {i : Instr} (h : RunsWhateverConstructed (exec i)) := h.answers_alike s b
    simp only [List.forall_mem_cons]
    exact ⟨alike (runsWhateverConstructed_parseCommand len false), alike (runsWhateverConstructed_parseCommand len true),
      alike (runsWhateverConstructed_tocInfo len fs), alike (runsWhateverConstructed_pktNbFrames len),
      alike (runsWhateverConstructed_pktNbSamples len fs), List.forall_mem_nil _⟩

end Sys2Proof.Machine
end

section
/-! PROOFS. The host's loads (20_memory.md R60, R74): what the host loads is what PFF reads. -/

namespace Sys2Proof.Machine

/-- With no command in progress, a load at the head of the queue is the next step. -/
theorem step_of_load {s : State} {off : Nat} {bytes : List Byte} {rest : List HostMove} (hphase : s.phase = .idle)
    (hinbox : s.inbox = .load off bytes :: rest) : step s = .next (loadPacket off bytes (s.setInbox rest)) := by
  unfold step stepByPhase
  rw [hphase, hinbox]
  rfl

/-- Settles O57: a load is one range of writes to PKT, cut where the packet buffer ends. -/
theorem loadedBytesAreRead : Obligations.LoadedBytesAreRead := by
  unfold Obligations.LoadedBytesAreRead
  intro s off bytes rest hwf hphase hinbox
  refine ⟨_, step_of_load hphase hinbox, loadPacket_pkt_wf hwf off bytes, rfl, fun i hi => ?_⟩
  have hcut : (off ≤ i ∧ i < off + min bytes.length (pktSize - off)) ↔ (off ≤ i ∧ i < off + bytes.length) := by
    unfold pktSize
    omega
  rw [pktRead_loadPacket (s := s.setInbox rest) hwf]
  simp only [hcut]
  rfl

end Sys2Proof.Machine
end

section
/-! PROOFS. What a parse reads (20_memory.md R62, 41_framing.md R165): its working registers, and the packet bytes it has
before it. Each rule, given the same working registers on another state with the same bytes, does the same. -/

namespace Sys2Proof.Machine

/-- The same flow, its working registers of PARSE put into `s'`. -/
def Flow.onto (s' : State) : Flow → Flow
  | .go t => .go (s'.setParse t.parse)
  | .done r t => .done r (s'.setParse t.parse)
  | .fault f => .fault f

theorem Flow.onto_ite (s' : State) (c : Prop) [Decidable c] (m m' : Flow) :
    (if c then m else m').onto s' = if c then m.onto s' else m'.onto s' :=
  apply_ite _ c m m'

theorem pktRead_setParse (s : State) (p : ParseRegs) (i : Nat) : pktRead (s.setParse p) i = pktRead s i := rfl

theorem readSize_setParse (s : State) (p : ParseRegs) (i : Nat) (r : Int) :
    readSize (s.setParse p) i r = readSize s i r := rfl

/-- A rule that does on `s'`, with the working registers of `t`, what it does on `t`. -/
def RunsAlike (s' : State) (k : State → Flow) (t : State) : Prop := k (s'.setParse t.parse) = (k t).onto s'

/-- `s'` holds the bytes below `len`, and the parse at `t` has no others before it. -/
structure SharesPacket (len : Int) (s' t : State) : Prop where
  bytes : ∀ i : Nat, (i : Int) < len → pktRead s' i = pktRead t i
  within : t.parse.pos + t.parse.rem ≤ len

variable {s s' t : State} {len : Int} {sd : Bool}

/-- Any state shares its own packet. -/
theorem SharesPacket.self (t : State) : SharesPacket (t.parse.pos + t.parse.rem) t t := ⟨fun _ _ => rfl, Int.le_refl _⟩

/-- The working registers move on within the packet. -/
theorem SharesPacket.setParse (h : SharesPacket len s' t) {p : ParseRegs} (hp : p.pos + p.rem ≤ len) :
    SharesPacket len s' (t.setParse p) := ⟨h.bytes, hp⟩

/-- A parse in progress has only bytes of its packet before it. -/
theorem Parsing.sharesPacket (h : Parsing s len sd t) (hs : ∀ i : Nat, (i : Int) < len → Machine.pktRead s' i =
    Machine.pktRead s i) : SharesPacket len s' t where
  bytes i hi := (hs i hi).trans (h.pktRead i).symm
  within := by
    have htotal := h.total
    have hpad := h.pad
    omega

theorem SharesPacket.pktRead_pos (h : SharesPacket len s' t) (hrem : 0 < t.parse.rem) :
    pktRead s' t.parse.pos = pktRead t t.parse.pos :=
  h.bytes _ (by have hwithin := h.within; omega)

/-- `ReadSize` reads at most the bytes it is told are left (30_encoding.md R88). -/
theorem SharesPacket.readSize_eq (h : SharesPacket len s' t) :
    readSize s' t.parse.pos t.parse.rem = readSize t t.parse.pos t.parse.rem := by
  have hwithin := h.within
  unfold readSize
  by_cases hone : t.parse.rem < 1
  · simp only [if_pos hone]
  · rw [h.pktRead_pos (by omega)]
    by_cases htwo : t.parse.rem < 2
    · simp only [if_pos htwo]
    · rw [h.bytes (t.parse.pos + 1) (by omega)]

/-! Rules put together. -/

/-- Rules in sequence, the second run where the first goes on. -/
theorem RunsAlike.andThen {j k : State → Flow} {G : State → Prop} {D : Int → State → Prop} {F : Fault → Prop}
    (hj : RunsAlike s' j t) (hG : (j t).Post G D F) (hk : ∀ u, G u → RunsAlike s' k u) :
    RunsAlike s' (fun t => (j t).andThen k) t := by
  unfold RunsAlike at hj ⊢
  simp only [hj]
  cases hm : j t with
  | go u =>
    rw [hm] at hG
    exact hk u hG
  | done r u => rfl
  | fault f => rfl

/-- A rule followed by one that reads working registers only. -/
theorem RunsAlike.andThen_always {j k : State → Flow} (hj : RunsAlike s' j t) (hk : ∀ u, RunsAlike s' k u) :
    RunsAlike s' (fun t => (j t).andThen k) t :=
  hj.andThen (G := fun _ => True) (D := fun _ _ => True) (F := fun _ => True) (by cases j t <;> trivial) fun u _ => hk u

/-- A rule that branches on its working registers. -/
theorem RunsAlike.ite {c : ParseRegs → Prop} [DecidablePred c] {j k : State → Flow}
    (hj : c t.parse → RunsAlike s' j t) (hk : ¬c t.parse → RunsAlike s' k t) :
    RunsAlike s' (fun t => if c t.parse then j t else k t) t := by
  unfold RunsAlike
  by_cases hc : c t.parse
  · simp only [State.setParse_parse, if_pos hc]; exact hj hc
  · simp only [State.setParse_parse, if_neg hc]; exact hk hc

/-! The rules that read no byte. -/

theorem runsAlike_parseCode0 (s' t : State) : RunsAlike s' parseCode0 t := rfl

theorem runsAlike_parseCode1 (s' t : State) : RunsAlike s' parseCode1 t := by
  unfold RunsAlike parseCode1
  simp only [Flow.onto_ite]
  rfl

theorem runsAlike_padCheck (s' t : State) : RunsAlike s' padCheck t :=
  .ite (c := fun p => p.rem < 0) (fun _ => rfl) fun _ => rfl

theorem runsAlike_parseCbr (s' t : State) : RunsAlike s' parseCbr t := by
  unfold RunsAlike parseCbr
  simp only [Flow.onto_ite]
  rfl

theorem runsAlike_tailImplicit (s' t : State) : RunsAlike s' tailImplicit t :=
  .ite (c := fun p => p.lastSize > maxImplicit) (fun _ => rfl) fun _ => rfl

theorem runsAlike_parseArgs (s' t : State) : RunsAlike s' parseArgs t :=
  .ite (c := fun p => p.len < 0) (fun _ => rfl) fun _ => .ite (c := fun p => p.len = 0) (fun _ => rfl) fun _ => rfl

/-- The argument check goes on, with nothing changed, only when there is a byte. -/
theorem parseArgs_post (t : State) :
    (parseArgs t).Post (fun u => u = t ∧ 0 < t.parse.len) (fun _ _ => True) fun _ => False :=
  .ite (fun _ => trivial) fun hneg => .ite (fun _ => trivial) fun hzero => ⟨rfl, by omega⟩

/-! The rules that read bytes, each byte before the end of the packet. -/

theorem runsAlike_parseCode2 (h : SharesPacket len s' t) : RunsAlike s' parseCode2 t := by
  unfold RunsAlike parseCode2
  simp only [State.setParse_parse, readSize_setParse, h.readSize_eq]
  split
  · rfl
  · simp only [Flow.onto_ite]
    rfl

theorem runsAlike_parseCode3 (h : SharesPacket len s' t) : RunsAlike s' parseCode3 t := by
  refine .ite (c := fun p => p.rem < 1) (fun _ => rfl) fun hrem => ?_
  simp only [RunsAlike, State.setParse_parse, pktRead_setParse, h.pktRead_pos (by omega), Flow.onto_ite]
  rfl

theorem runsAlike_padChain (fuel : Nat) (h : SharesPacket len s' t) : RunsAlike s' (padChain fuel) t := by
  induction fuel generalizing t with
  | zero => rfl
  | succ fuel ih =>
    refine .ite (c := fun p => p.rem ≤ 0) (fun _ => rfl) fun hrem => ?_
    have hwithin := h.within
    simp only [RunsAlike, State.setParse_parse, pktRead_setParse, h.pktRead_pos (by omega), Flow.onto_ite]
    refine ite_congr rfl (fun _ => rfl) fun _ => ih (h.setParse ?_)
    simp only
    split <;> omega

theorem runsAlike_parsePadding (h : SharesPacket len s' t) : RunsAlike s' parsePadding t :=
  RunsAlike.andThen_always (j := padChain t.parse.rem.toNat) (runsAlike_padChain _ h) (runsAlike_padCheck s')

theorem runsAlike_vbrSizes (n : Nat) (h : SharesPacket len s' t) : RunsAlike s' (vbrSizes n) t := by
  induction n generalizing t with
  | zero => rfl
  | succ n ih =>
    have hwithin := h.within
    unfold RunsAlike vbrSizes
    simp only [State.setParse_parse, readSize_setParse, h.readSize_eq]
    split
    · rfl
    · simp only [Flow.onto_ite]
      exact ite_congr rfl (fun _ => rfl) fun _ => ih (h.setParse (by simp only; push_cast; omega))

theorem runsAlike_parseVbr (h : SharesPacket len s' t) : RunsAlike s' parseVbr t :=
  RunsAlike.andThen_always (j := vbrSizes (t.parse.count - 1))
    (runsAlike_vbrSizes _ (h.setParse (p := { t.parse with cbr := false, lastSize := t.parse.rem }) h.within))
    fun _ => .ite (c := fun p => p.lastSize < 0) (fun _ => rfl) fun _ => rfl

theorem runsAlike_tailSelfDelimited (h : SharesPacket len s' t) : RunsAlike s' tailSelfDelimited t := by
  unfold RunsAlike tailSelfDelimited
  simp only [State.setParse_parse, readSize_setParse, h.readSize_eq]
  split
  · rfl
  · simp only [Flow.onto_ite]
    rfl

/-! PARSE, on a state with the same bytes below `len`. -/

/-- PARSE up to the last frame's size: all of it but the result file. -/
def parseSizes (len : Int) (sd : Bool) (s : State) : Flow :=
  ((parseArgs (parseStart len sd s)).andThen parseHeader).andThen fun t => (parseByCode t).andThen parseTail

theorem parsePacket_eq_parseSizes (len : Int) (sd : Bool) (s : State) :
    parsePacket len sd s = (parseSizes len sd s).andThen fun t => .go (parseResult t) := by
  simp only [parsePacket, parseSizes, Flow.andThen_assoc]

/-- The entries R162 writes do not depend on the file they are written over. -/
theorem Parsed.resultFile_entries {p : ParseRegs} (hp : Parsed s len sd p) {k : Nat}
    (hk : k < (BitVec.ofNat 6 p.count).toNat) (f f' : ResultFile) :
    (resultFile p f').off[k]? = (resultFile p f).off[k]? ∧ (resultFile p f').len[k]? = (resultFile p f).len[k]? := by
  have hsizes := hp.length
  have hcount := hp.count
  have hk : k < p.count := by
    rw [BitVec.toNat_ofNat] at hk
    omega
  have hin : 0 ≤ k ∧ k < 0 + p.sizes.length ∧ k < 48 := by omega
  simp only [resultFile, overlay_get, List.length_map, frameOffsets_length, if_pos hin, and_self]

/-- `t'` answers a parse as `t` does: the response, the error flag and, on success, the result. -/
def SameParseAnswer (t t' : State) : Prop :=
  t'.host.resp = t.host.resp ∧ t'.host.err = t.host.err ∧
    (t.host.err = false → t'.file.toc = t.file.toc ∧ t'.file.count = t.file.count ∧
      t'.file.payload = t.file.payload ∧ t'.file.consumed = t.file.consumed ∧
      ∀ k < t.file.count.toNat, t'.file.off[k]? = t.file.off[k]? ∧ t'.file.len[k]? = t.file.len[k]?)

section SameBytes

variable (hs : ∀ i : Nat, (i : Int) < len → pktRead s' i = pktRead s i)
include hs

/-- R151 and R152: the TOC byte is read once the packet is known to have a byte. -/
theorem runsAlike_header : RunsAlike s' (fun t => (parseArgs t).andThen parseHeader) (parseStart len sd s) := by
  refine RunsAlike.andThen (runsAlike_parseArgs s' _) (parseArgs_post _) fun u hu => ?_
  obtain ⟨rfl, hlen⟩ := hu
  have htoc : pktRead s' 0 = pktRead s 0 := hs 0 hlen
  simp only [RunsAlike, parseHeader, pktRead_setParse, htoc]
  rfl

theorem runsAlike_parseCode3Rest (h : Counted s len sd t) : RunsAlike s' parseCode3Rest t := by
  refine RunsAlike.andThen (G := fun u => Counted s len sd u ∧ 0 ≤ u.parse.rem) (F := fun _ => False)
    (.ite (c := fun p => byteField p.cb 6 6 = 1) (fun _ => runsAlike_parsePadding (h.parsing.sharesPacket hs))
      fun _ => runsAlike_padCheck s' t)
    (Flow.Post.ite (fun _ => padded_parsePadding h) fun _ => padded_padCheck h) fun u hu => ?_
  exact .ite (c := fun p => byteField p.cb 7 7 = 1) (fun _ => runsAlike_parseVbr (hu.1.parsing.sharesPacket hs))
    fun _ => runsAlike_parseCbr s' u

theorem runsAlike_parseByCode (h : Header s len sd t) : RunsAlike s' parseByCode t := by
  have hshares := h.parsing.sharesPacket hs
  unfold RunsAlike parseByCode
  simp only [State.setParse_parse]
  split
  · exact runsAlike_parseCode0 s' t
  · exact runsAlike_parseCode1 s' t
  · exact runsAlike_parseCode2 hshares
  · exact (runsAlike_parseCode3 hshares).andThen (counted_code3 h) fun u => runsAlike_parseCode3Rest hs

theorem runsAlike_parseTail (h : Parsing s len sd t) : RunsAlike s' parseTail t :=
  .ite (c := fun p => p.sd = true) (fun _ => runsAlike_tailSelfDelimited (h.sharesPacket hs))
    fun _ => runsAlike_tailImplicit s' t

theorem parseSizes_onto : parseSizes len sd s' = (parseSizes len sd s).onto s' :=
  RunsAlike.andThen (j := fun t => (parseArgs t).andThen parseHeader) (t := parseStart len sd s) (runsAlike_header hs)
    (parses_header s len sd) fun _ ht => (runsAlike_parseByCode hs ht).andThen (sized_parseByCode ht)
      fun _ hu => runsAlike_parseTail hs hu.parsing

/-- A parse of the same bytes comes to the same working registers; the result file is written from them. -/
theorem parsePacket_onto :
    parsePacket len sd s' = ((parsePacket len sd s).onto s').andThen fun t => .go (parseResult t) := by
  rw [parsePacket_eq_parseSizes, parsePacket_eq_parseSizes, parseSizes_onto hs]
  cases parseSizes len sd s <;> rfl

/-- PARSE's answer is taken from what `Flow.onto` keeps, the frame count and the failing check's code. -/
theorem parseCommand_onto {t : State} (h : parseCommand len sd s = .next t) :
    ∃ t', parseCommand len sd s' = .next t' ∧ SameParseAnswer t t' := by
  have hpost := parses_parsePacket len sd s
  unfold parseCommand at h ⊢
  rw [parsePacket_onto hs]
  cases hm : parsePacket len sd s with
  | go u =>
    rw [hm] at h hpost
    obtain rfl : respondCount u = t := Host.Outcome.next.inj h
    obtain ⟨p, rfl, hp⟩ := hpost
    exact ⟨_, rfl, rfl, rfl, fun _ => ⟨rfl, rfl, rfl, rfl, fun k hk => hp.resultFile_entries hk s.file s'.file⟩⟩
  | done r u =>
    rw [hm] at h
    obtain rfl : raiseErr r u = t := Host.Outcome.next.inj h
    exact ⟨_, rfl, rfl, rfl, fun herr => by simp at herr⟩
  | fault f =>
    rw [hm] at hpost
    exact hpost.elim

end SameBytes

/-- Settles O14: each rule of the parse reads a byte only where bytes are left, and otherwise its working registers. -/
theorem parseReadsOnlyThePacket : Obligations.ParseReadsOnlyThePacket := by
  unfold Obligations.ParseReadsOnlyThePacket
  intro s s' t len hs
  simp only [List.forall_mem_cons]
  exact ⟨parseCommand_onto hs, parseCommand_onto hs, List.forall_mem_nil _⟩

end Sys2Proof.Machine
end

section
/-! PROOFS. Which instruction writes which memory (20_memory.md R60, R67): none writes PKT, and all but DECODE and
DECODE_FRAME leave OUT alone too. -/

namespace Sys2Proof.Machine

variable {s t : State}

/-! From any state, a framing rule changes working registers only. -/

theorem Flow.onto_all (s' : State) (m : Flow) : (m.onto s').All fun u => ∃ p, u = s'.setParse p := by
  cases m with
  | go t => exact ⟨_, rfl⟩
  | done r t => exact ⟨_, rfl⟩
  | fault f => trivial

/-- A rule that reads no more of the state than its packet changes no more of it than its working registers. -/
theorem RunsAlike.changes_parse_only {k : State → Flow} (h : RunsAlike t k t) :
    (k t).All fun u => ∃ p, u = t.setParse p := by
  have hself : k t = (k t).onto t := h
  rw [hself]
  exact Flow.onto_all t _

/-! Answers that leave both memories alone. -/

/-- If the answer is a next state, its PKT and OUT are those of `s`. -/
def KeepsMemory (s : State) (a : Answer) : Prop := ∀ t, a = .next t → t.pkt = s.pkt ∧ t.out = s.out

theorem keepsMemory_next (hpkt : t.pkt = s.pkt) (hout : t.out = s.out) : KeepsMemory s (.next t) := by
  rintro _ ⟨⟩
  exact ⟨hpkt, hout⟩

theorem keepsMemory_raises (e : ErrCode) (s : State) : KeepsMemory s (raises e s) := keepsMemory_next rfl rfl

theorem KeepsMemory.ite {c : Prop} [Decidable c] {a a' : Answer} (h : KeepsMemory s a) (h' : KeepsMemory s a') :
    KeepsMemory s (if c then a else a') := by
  split
  · exact h
  · exact h'

theorem KeepsMemory.ctl {a : Answer} (h : KeepsMemory s a) : KeepsMemory s (Machine.ctl s a) :=
  .ite (keepsMemory_raises _ _) h

theorem keepsMemory_thenUnit {m : Flow} (h : m.All fun u => ∃ p, u = s.setParse p) (unit : Phase) :
    KeepsMemory s (thenUnit m unit) := by
  match m, h with
  | .go _, ⟨p, rfl⟩ => exact keepsMemory_next rfl rfl
  | .done r _, ⟨p, rfl⟩ => exact keepsMemory_next rfl rfl
  | .fault f, _ => exact fun _ h => nomatch h

theorem keepsMemory_parseCommand (len : Int) (sd : Bool) (s : State) : KeepsMemory s (parseCommand len sd s) := by
  have hpost := parses_parsePacket len sd s
  unfold parseCommand
  match parsePacket len sd s, hpost with
  | .go _, ⟨p, rfl, _⟩ => exact keepsMemory_next rfl rfl
  | .done r _, ⟨_, p, rfl⟩ => exact keepsMemory_next rfl rfl

theorem keepsMemory_pktNbFrames (len : Int) (s : State) : KeepsMemory s (execPktNbFrames len s) := by
  unfold execPktNbFrames
  split
  · exact keepsMemory_raises _ _
  · exact keepsMemory_next rfl rfl

theorem keepsMemory_pktNbSamples (len fs : Int) (s : State) : KeepsMemory s (execPktNbSamples len fs s) := by
  refine .ite (keepsMemory_raises _ _) ?_
  split
  · exact keepsMemory_raises _ _
  · exact .ite (keepsMemory_raises _ _) (keepsMemory_next rfl rfl)

theorem keepsMemory_tocConfig (config : BitVec 5) (mode : Mode) (bw : Bandwidth) (units : Nat) (st : Bool)
    (code : BitVec 2) (s : State) : KeepsMemory s (tocConfig config mode bw units st code s) := keepsMemory_next rfl rfl

/-- The instructions that write OUT. -/
def writesOut : Instr → Bool
  | .decode _ _ => true
  | .decodeFec _ _ => true
  | .decodeNull _ _ => true
  | .decodeFrame _ _ _ _ _ => true
  | _ => false

/-- Every other instruction leaves both memories alone, from any state. -/
theorem keepsMemory_exec {i : Instr} (hi : writesOut i = false) (s : State) : KeepsMemory s (exec i s) := by
  have hself := SharesPacket.self s
  cases i
  case decode | decodeFec | decodeNull | decodeFrame => nomatch hi
  case construct => exact .ite (keepsMemory_next rfl rfl) (keepsMemory_raises _ _)
  case parse | parseSd => exact keepsMemory_parseCommand _ _ s
  case tocInfo =>
    exact .ite (keepsMemory_raises _ _) (.ite (keepsMemory_raises _ _) (keepsMemory_next rfl rfl))
  case pktNbFrames => exact keepsMemory_pktNbFrames _ s
  case pktNbSamples => exact keepsMemory_pktNbSamples _ _ s
  case ctlGetPitch => exact .ctl (.ite (keepsMemory_next rfl rfl) (keepsMemory_next rfl rfl))
  case ctlSetGain => exact .ctl (.ite (keepsMemory_raises _ _) (keepsMemory_next rfl rfl))
  case ctlResetState | ctlGetBandwidth | ctlGetFinalRange | ctlGetSampleRate | ctlGetGain | ctlGetLastPacketDuration =>
    exact .ctl (keepsMemory_next rfl rfl)
  case framingCode0 => exact keepsMemory_thenUnit (runsAlike_parseCode0 s s).changes_parse_only _
  case framingCode1 => exact keepsMemory_thenUnit (runsAlike_parseCode1 s s).changes_parse_only _
  case framingCode2 => exact keepsMemory_thenUnit (runsAlike_parseCode2 hself).changes_parse_only _
  case framingCode3 => exact keepsMemory_thenUnit (runsAlike_parseCode3 hself).changes_parse_only _
  case code3Padding => exact keepsMemory_thenUnit (runsAlike_parsePadding hself).changes_parse_only _
  case code3Vbr => exact keepsMemory_thenUnit (runsAlike_parseVbr hself).changes_parse_only _
  case code3Cbr => exact keepsMemory_thenUnit (runsAlike_parseCbr s s).changes_parse_only _
  -- The configuration rows of the TOC byte.
  all_goals exact keepsMemory_tocConfig _ _ _ _ _ _ s

/-! DECODE and DECODE_FRAME. -/

theorem execDecodeFrame_pkt {fb : Option Nat} {flen fsz : Int} {o : Nat} {fec : Bool}
    (h : execDecodeFrame fb flen o fsz fec s = .next t) : t.pkt = s.pkt := by
  unfold execDecodeFrame at h
  split at h
  · nomatch h
  · rename_i hframe
    rw [← Host.Outcome.next.inj h]
    exact (keeps_decodeFrame hframe).pkt

/-- A command of DECODE, constructed or not, writes OUT within its request only. -/
theorem decodeCommand_memory (hs : Usable s) {fec nul : Bool} {len cap : Int}
    (h : decodeCommand fec nul len cap s = .next t) : t.pkt = s.pkt ∧ OutBeside 0 (words cap s) s t := by
  cases hc : s.constructed with
  | false =>
    rw [decodeCommand_of_not_constructed hc] at h
    obtain ⟨hpkt, hout⟩ := keepsMemory_raises _ s t h
    exact ⟨hpkt, fun i _ => by rw [hout]⟩
  | true =>
    rcases decoded_decodeCommand (cap := cap) (hs.legal hc) hs.out fec nul len with hfault | ⟨u, hnext, hu⟩
    · nomatch hfault.symm.trans h
    · obtain rfl : u = t := Host.Outcome.next.inj (hnext.symm.trans h)
      exact ⟨hu.only.pkt, hu.outside⟩

/-- Settles O45: the three forms of DECODE and DECODE_FRAME by what they come to, every other instruction by its answer. -/
theorem memoryWriteExtent : Obligations.MemoryWriteExtent := by
  unfold Obligations.MemoryWriteExtent
  intro s t i hs h
  cases i
  case decodeFrame => exact ⟨execDecodeFrame_pkt h, fun _ => .inl ⟨_, _, _, _, _, rfl⟩⟩
  case decode => exact (decodeCommand_memory hs h).imp_right fun hout _ => .inr ⟨_, hout, .inl ⟨_, rfl⟩⟩
  case decodeFec => exact (decodeCommand_memory hs h).imp_right fun hout _ => .inr ⟨_, hout, .inr (.inl ⟨_, rfl⟩)⟩
  case decodeNull => exact (decodeCommand_memory hs h).imp_right fun hout _ => .inr ⟨_, hout, .inr (.inr ⟨_, rfl⟩)⟩
  all_goals exact (keepsMemory_exec rfl s t h).imp_right fun hout hne => absurd hout hne

end Sys2Proof.Machine
end

section
/-! PROOFS. Opcodes, frame sizes and configurations (30_encoding.md R86, R88, R89, R96). -/

namespace Sys2Proof.Machine

/-! Opcodes (R96). -/

section Opcodes

variable {cmd : Word} (a0 a1 a2 : Word)

theorem decode_of_op_construct (h : cmdOp cmd = 0x01) :
    Sys2Proof.decode (.command cmd a0 a1 a2) = .ok (.construct a0.toInt a1.toInt) := by
  simp only [Sys2Proof.decode, Sys2Proof.decodeCommand, h]

theorem decode_of_op_parse (h : cmdOp cmd = 0x02) :
    Sys2Proof.decode (.command cmd a0 a1 a2) = .ok (if cmdSd cmd then .parseSd a0.toInt else .parse a0.toInt) := by
  simp only [Sys2Proof.decode, Sys2Proof.decodeCommand, h]

theorem decode_of_op_decode (h : cmdOp cmd = 0x03) :
    Sys2Proof.decode (.command cmd a0 a1 a2) = .ok (decodeDecode cmd a0 a1) := by
  simp only [Sys2Proof.decode, Sys2Proof.decodeCommand, h]

theorem decode_of_op_tocInfo (h : cmdOp cmd = 0x04) :
    Sys2Proof.decode (.command cmd a0 a1 a2) = .ok (.tocInfo a0.toInt a1.toInt) := by
  simp only [Sys2Proof.decode, Sys2Proof.decodeCommand, h]

theorem decode_of_op_pktNbFrames (h : cmdOp cmd = 0x05) :
    Sys2Proof.decode (.command cmd a0 a1 a2) = .ok (.pktNbFrames a0.toInt) := by
  simp only [Sys2Proof.decode, Sys2Proof.decodeCommand, h]

theorem decode_of_op_pktNbSamples (h : cmdOp cmd = 0x06) :
    Sys2Proof.decode (.command cmd a0 a1 a2) = .ok (.pktNbSamples a0.toInt a1.toInt) := by
  simp only [Sys2Proof.decode, Sys2Proof.decodeCommand, h]

theorem decode_of_op_ctl (h : cmdOp cmd = 0x07) :
    Sys2Proof.decode (.command cmd a0 a1 a2) = decodeCtl (cmdReq cmd) a0 := by
  simp only [Sys2Proof.decode, Sys2Proof.decodeCommand, h]

theorem decode_of_op_unknown (h : cmdOp cmd = 0 ∨ 8 ≤ cmdOp cmd) :
    Sys2Proof.decode (.command cmd a0 a1 a2) = .rejected (.unknownOpcode (cmdOp cmd)) := by
  change Sys2Proof.decodeCommand cmd a0 a1 a2 = _
  unfold Sys2Proof.decodeCommand
  split
  case h_8 => rfl
  all_goals omega

end Opcodes

/-- The flags of DECODE choose one of its three forms (43_driver.md R260). -/
theorem decodeDecode_cases (cmd a0 a1 : Word) :
    decodeDecode cmd a0 a1 = .decode a0.toInt a1.toInt ∨ decodeDecode cmd a0 a1 = .decodeFec a0.toInt a1.toInt ∨
      ∃ fec, decodeDecode cmd a0 a1 = .decodeNull fec a1.toInt := by
  unfold decodeDecode
  split
  · exact .inr (.inr ⟨_, rfl⟩)
  · split
    · exact .inr (.inl rfl)
    · exact .inl rfl

/-- With no command in progress, a command at the head of the queue is the next step. -/
theorem step_of_command {s : State} {cmd a0 a1 a2 : Word} {rest : List HostMove} (hphase : s.phase = .idle)
    (hinbox : s.inbox = .command cmd a0 a1 a2 :: rest) :
    step s = runDecoded (Sys2Proof.decode (.command cmd a0 a1 a2)) (latchCommand cmd a0 a1 a2 (s.setInbox rest)) := by
  unfold step stepByPhase
  rw [hphase, hinbox]
  rfl

/-- An error of PFF's own, by whatever unit, changes nothing but the response. -/
theorem raised_onlyAnswers (e : ErrCode) (s : State) :
    ∃ t, raises e s = .next t ∧ Raised t e ∧ OnlyAnswers s t :=
  ⟨_, rfl, ⟨by simp, by simp⟩, onlyAnswers_endCommand ..⟩

/-- Settles O4: the decoder's arm for each opcode, and the refusal of every other one. -/
theorem opcodesAndUnknownOpcodes : Obligations.OpcodesAndUnknownOpcodes := by
  unfold Obligations.OpcodesAndUnknownOpcodes
  refine ⟨fun cmd a0 a1 a2 => ⟨decode_of_op_construct a0 a1 a2, fun hop => ?_, fun hop => ?_, decode_of_op_tocInfo a0 a1 a2,
    decode_of_op_pktNbFrames a0 a1 a2, decode_of_op_pktNbSamples a0 a1 a2, decode_of_op_ctl a0 a1 a2⟩, ?_⟩
  · rw [decode_of_op_parse a0 a1 a2 hop]
    cases cmdSd cmd
    · exact .inl rfl
    · exact .inr rfl
  · rw [decode_of_op_decode a0 a1 a2 hop]
    simpa only [Decoded.ok.injEq] using decodeDecode_cases cmd a0 a1
  · intro s cmd a0 a1 a2 rest hphase hinbox hop
    rw [step_of_command hphase hinbox, decode_of_op_unknown a0 a1 a2 hop]
    exact raised_onlyAnswers .unimplemented _

/-! Frame sizes (R88, R89). -/

theorem pktHolds_nil (s : State) (p : Nat) : PktHolds s p [] := nofun

theorem pktHolds_cons {s : State} {p : Nat} {b : Byte} {bytes : List Byte} :
    PktHolds s p (b :: bytes) ↔ pktRead s p = b ∧ PktHolds s (p + 1) bytes := by
  unfold PktHolds
  rw [List.length_cons, Nat.forall_lt_succ_left]
  simp only [Nat.add_zero, List.getD_cons_zero, List.getD_cons_succ, Nat.add_assoc, Nat.add_comm 1]

theorem byte_eq_ofNat_iff {b : Byte} {n : Nat} (hn : n < 256) : b = BitVec.ofNat 8 n ↔ b.toNat = n := by
  rw [BitVec.toNat_eq, BitVec.toNat_ofNat, Nat.mod_eq_of_lt hn]

theorem encodeSize_of_lt {v : Nat} (hv : v < 252) : encodeSize v = [BitVec.ofNat 8 v] := if_pos hv

theorem encodeSize_of_ge {v : Nat} (hv : 252 ≤ v) :
    encodeSize v = [BitVec.ofNat 8 (252 + v % 4), BitVec.ofNat 8 ((v - (252 + v % 4)) / 4)] :=
  if_neg (Nat.not_lt.mpr hv)

theorem pktHolds_encodeSize_of_lt {s : State} {p v : Nat} (hv : v < 252) :
    PktHolds s p (encodeSize v) ↔ (pktRead s p).toNat = v := by
  rw [encodeSize_of_lt hv, pktHolds_cons, byte_eq_ofNat_iff (by omega)]
  exact and_iff_left (pktHolds_nil s _)

/-- The two bytes of a longer size are the two digits of the sum that R88 reads. -/
theorem pktHolds_encodeSize_of_ge {s : State} {p v : Nat} (hv : 252 ≤ v) (hmax : v ≤ 1275) :
    PktHolds s p (encodeSize v) ↔
      252 ≤ (pktRead s p).toNat ∧ 4 * (pktRead s (p + 1)).toNat + (pktRead s p).toNat = v := by
  rw [encodeSize_of_ge hv, pktHolds_cons, pktHolds_cons, byte_eq_ofNat_iff (by omega), byte_eq_ofNat_iff (by omega),
    and_iff_left (pktHolds_nil s _)]
  have h0 := (pktRead s p).isLt
  omega

/-- `ReadSize` reads one byte below 252, or two. -/
theorem readSize_eq_size_iff {s : State} {p : Nat} {r : Int} {bytes v : Nat} :
    readSize s p r = .size bytes v ↔
      (bytes = 1 ∧ 1 ≤ r ∧ (pktRead s p).toNat < 252 ∧ v = (pktRead s p).toNat) ∨
      (bytes = 2 ∧ 2 ≤ r ∧ 252 ≤ (pktRead s p).toNat ∧ v = 4 * (pktRead s (p + 1)).toNat + (pktRead s p).toNat) := by
  unfold readSize
  split
  · simp only [reduceCtorEq, false_iff]; omega
  · split
    · simp only [SizePrefix.size.injEq]; omega
    · split
      · simp only [reduceCtorEq, false_iff]; omega
      · simp only [SizePrefix.size.injEq]; omega

theorem readSize_eq_unreadable_iff {s : State} {p : Nat} {r : Int} :
    readSize s p r = .unreadable ↔ r < 1 ∨ (r < 2 ∧ 252 ≤ (pktRead s p).toNat) := by
  unfold readSize
  split
  · simp only [true_iff]; omega
  · split
    · simp only [reduceCtorEq, false_iff]; omega
    · split
      · simp only [true_iff]; omega
      · simp only [reduceCtorEq, false_iff]; omega

theorem readSize_of_pktHolds_encodeSize {s : State} {p : Nat} {r : Int} {v : Nat} (hmax : v ≤ 1275)
    (hpkt : PktHolds s p (encodeSize v)) (hr : ((encodeSize v).length : Int) ≤ r) :
    readSize s p r = .size (encodeSize v).length v := by
  rw [readSize_eq_size_iff]
  rcases Nat.lt_or_ge v 252 with hv | hv
  · rw [pktHolds_encodeSize_of_lt hv] at hpkt
    rw [encodeSize_of_lt hv] at hr ⊢
    exact .inl ⟨rfl, hr, hpkt.trans_lt hv, hpkt.symm⟩
  · obtain ⟨hfirst, hsum⟩ := (pktHolds_encodeSize_of_ge hv hmax).mp hpkt
    rw [encodeSize_of_ge hv] at hr ⊢
    exact .inr ⟨rfl, hr, hfirst, hsum.symm⟩

theorem pktHolds_encodeSize_of_readSize {s : State} {p : Nat} {r : Int} {bytes v : Nat}
    (h : readSize s p r = .size bytes v) : bytes = (encodeSize v).length ∧ PktHolds s p (encodeSize v) := by
  obtain ⟨hmax, -, -⟩ := readSize_bounds h
  rcases readSize_eq_size_iff.mp h with ⟨rfl, -, hfirst, hv⟩ | ⟨rfl, -, hfirst, hv⟩
  · have hlt : v < 252 := hv.trans_lt hfirst
    exact ⟨by rw [encodeSize_of_lt hlt]; rfl, (pktHolds_encodeSize_of_lt hlt).mpr hv.symm⟩
  · have hge : 252 ≤ v := by omega
    exact ⟨by rw [encodeSize_of_ge hge]; rfl, (pktHolds_encodeSize_of_ge hge hmax).mpr ⟨hfirst, hv.symm⟩⟩

/-- Settles O7: one byte below 252, or two bytes whose sum `4*byte1 + byte0` has exactly one such writing. -/
theorem sizePrefixRoundTrip : Obligations.SizePrefixRoundTrip := by
  unfold Obligations.SizePrefixRoundTrip
  refine ⟨fun v _ => rfl, fun s p r v => readSize_of_pktHolds_encodeSize, fun s p r bytes v h => ?_,
    fun s p r => readSize_eq_unreadable_iff⟩
  obtain ⟨hmax, -, hr⟩ := readSize_bounds h
  obtain ⟨hbytes, hpkt⟩ := pktHolds_encodeSize_of_readSize h
  exact ⟨hmax, hbytes, hpkt, hr⟩

/-! Configurations (R86). -/

theorem tocByte_toNat (config : BitVec 5) (st : Bool) (code : BitVec 2) :
    (tocByte config st code).toNat = 8 * config.toNat + (if st then 4 else 0) + code.toNat := by
  revert config st code; decide

/-- The table's row of a configuration is what the TOC decoders read from its TOC byte, whatever the other fields. -/
theorem configTable_tocByte (config : BitVec 5) (st : Bool) (code : BitVec 2) :
    configTable[config.toNat]? = some (tocMode (tocByte config st code), tocBandwidth (tocByte config st code),
      tocUnits (tocByte config st code)) := by
  revert config st code; decide

/-- At a legal rate a unit of 2.5 ms is a whole number of samples. -/
theorem dvd_of_legalRate {fs : Nat} (h : legalRate fs = true) : 400 ∣ fs := by
  simp only [legalRate, Bool.or_eq_true, decide_eq_true_eq] at h
  omega

theorem tocSpf_mul_400 (toc : Byte) {fs : Nat} (h : legalRate fs = true) : tocSpf toc fs * 400 = fs * tocUnits toc := by
  rw [tocSpf_eq toc h, Nat.div_mul_cancel ((dvd_of_legalRate h).mul_right _)]

/-- Settles O8: the row of the table by the TOC decoders, and its duration at each rate. -/
theorem configurationTable : Obligations.ConfigurationTable := by
  unfold Obligations.ConfigurationTable
  intro config st code
  refine ⟨tocByte_toNat config st code, _, configTable_tocByte config st code, rfl, rfl, fun fs hfs => ?_⟩
  have hlegal : ∀ fs ∈ ([8000, 12000, 16000, 24000, 48000] : List Nat), legalRate fs = true := by decide
  exact tocSpf_mul_400 _ (hlegal fs hfs)

end Sys2Proof.Machine
end

section
/-! PROOFS. The decoders of the TOC byte and its configuration rows (40_toc_fields.md R121, R124). -/

namespace Sys2Proof.Machine

/-! Which bits of the TOC byte a decoder reads. -/

theorem extractLsb'_toNat_eq {w : Nat} (x : BitVec w) (lo n : Nat) :
    (x.extractLsb' lo n).toNat = x.toNat / 2 ^ lo % 2 ^ n := by
  rw [BitVec.extractLsb'_toNat, Nat.shiftRight_eq_div_pow]

theorem byteField_eq_div_mod (b : Byte) (hi lo : Nat) : byteField b hi lo = b.toNat / 2 ^ lo % 2 ^ (hi + 1 - lo) :=
  extractLsb'_toNat_eq b lo _

theorem byteField_zero_eq_mod (b : Byte) (hi : Nat) : byteField b hi 0 = b.toNat % 2 ^ (hi + 1) := by
  rw [byteField_eq_div_mod, Nat.pow_zero, Nat.div_one, Nat.sub_zero]

theorem tocCode_eq_mod (toc : Byte) : tocCode toc = toc.toNat % 4 := byteField_zero_eq_mod toc 1

/-- A field above bit 1 does not see the frame-count code. -/
theorem byteField_eq_of_div_four {t u : Byte} (h : u.toNat / 4 = t.toNat / 4) {hi lo : Nat} (hlo : 2 ≤ lo) :
    byteField u hi lo = byteField t hi lo := by
  obtain ⟨k, rfl⟩ := Nat.exists_eq_add_of_le hlo
  have hdiv (b : Byte) : b.toNat / 2 ^ (2 + k) = b.toNat / 4 / 2 ^ k := by rw [Nat.pow_add, Nat.div_div_eq_div_mul]
  rw [byteField_eq_div_mod, byteField_eq_div_mod, hdiv, hdiv, h]

theorem byteField_bit_eq_one_iff (b : Byte) (i : Nat) : byteField b i i = 1 ↔ b.getLsbD i = true := by
  rw [byteField_eq_div_mod, Nat.add_sub_cancel_left, Nat.pow_one, BitVec.getLsbD, Nat.testBit_eq_decide_div_mod_eq,
    decide_eq_true_eq]

theorem tocChannels_eq_of_bit {t u : Byte} (h : u.getLsbD 2 = t.getLsbD 2) : tocChannels u = tocChannels t := by
  simp only [tocChannels, byteField_bit_eq_one_iff, h]

/-- No decoder but that of the frame-count code reads it. -/
theorem tocFields_eq_of_div_four {t u : Byte} (h : u.toNat / 4 = t.toNat / 4) (fs : Nat) : tocMode u = tocMode t ∧
    tocBandwidth u = tocBandwidth t ∧ tocSpf u fs = tocSpf t fs ∧ tocChannels u = tocChannels t := by
  have hfield {hi lo : Nat} (hlo : 2 ≤ lo) := byteField_eq_of_div_four h (hi := hi) hlo
  have h2 : byteField u 2 2 = byteField t 2 2 := hfield (by decide)
  have h3 : byteField u 3 3 = byteField t 3 3 := hfield (by decide)
  have h4 : byteField u 4 4 = byteField t 4 4 := hfield (by decide)
  have h43 : byteField u 4 3 = byteField t 4 3 := hfield (by decide)
  have h65 : byteField u 6 5 = byteField t 6 5 := hfield (by decide)
  have h7 : byteField u 7 7 = byteField t 7 7 := hfield (by decide)
  simp only [tocMode, tocBandwidth, tocSpf, tocChannels, h2, h3, h4, h43, h65, h7, and_self]

/-! Samples per frame as a number of 2.5 ms units. -/

/-- At a legal rate every sample-count constant is a whole number of 2.5 ms units (00_scope.md R8). -/
theorem samples_of_legalRate {fs : Nat} (h : legalRate fs = true) :
    fs = 400 * f2_5 fs ∧ f5 fs = 2 * f2_5 fs ∧ f10 fs = 4 * f2_5 fs ∧ f20 fs = 8 * f2_5 fs := by
  obtain ⟨k, rfl⟩ := dvd_of_legalRate h
  simp only [f2_5, f5, f10, f20]
  omega

theorem tocSpf_eq_tocUnits_mul (toc : Byte) {fs : Nat} (h : legalRate fs = true) :
    tocSpf toc fs = tocUnits toc * f2_5 fs := by
  have hspf := tocSpf_mul_400 toc h
  obtain ⟨hfs, -⟩ := samples_of_legalRate h
  rw [hfs, Nat.mul_assoc, ← hfs] at hspf
  rw [Nat.mul_comm (tocUnits toc)]
  omega

theorem legalRate_dvd_48000 {fs : Nat} (h : legalRate fs = true) : fs ∣ 48000 := by
  simp only [legalRate, Bool.or_eq_true, decide_eq_true_eq] at h
  have hfs : fs = 8000 ∨ fs = 12000 ∨ fs = 16000 ∨ fs = 24000 ∨ fs = 48000 := by omega
  rcases hfs with rfl | rfl | rfl | rfl | rfl <;> decide

/-- The count at 48 kHz is the count at a legal rate, scaled. -/
theorem tocSpf_48000_eq_scaled (toc : Byte) {fs : Nat} (h : legalRate fs = true) :
    tocSpf toc 48000 = 48000 / fs * tocSpf toc fs := by
  refine Nat.eq_of_mul_eq_mul_right (by decide : 0 < 400) ?_
  calc tocSpf toc 48000 * 400 = 48000 * tocUnits toc := tocSpf_mul_400 toc (by decide)
    _ = 48000 / fs * (fs * tocUnits toc) := by rw [← Nat.mul_assoc, Nat.div_mul_cancel (legalRate_dvd_48000 h)]
    _ = 48000 / fs * tocSpf toc fs * 400 := by rw [← tocSpf_mul_400 toc h, Nat.mul_assoc]

/-! The durations and bandwidths of each mode's configurations. -/

theorem legalMeta_xform {bw : Bandwidth} {units : Nat} (h : legalMeta .xform bw units = true) :
    units ≤ 8 ∧ bw ≠ .mb := by
  obtain ⟨-, -, hunits⟩ := legalMeta_units h
  exact ⟨hunits (.inr rfl), by rintro rfl; simp [legalMeta] at h⟩

theorem legalMeta_hybrid {bw : Bandwidth} {units : Nat} (h : legalMeta .hybrid bw units = true) :
    (units = 4 ∨ units = 8) ∧ (bw = .swb ∨ bw = .fb) := by
  simpa only [legalMeta, Bool.and_eq_true, Bool.or_eq_true, decide_eq_true_eq, and_comm] using h

theorem legalMeta_pred {bw : Bandwidth} {units : Nat} (h : legalMeta .pred bw units = true) :
    (units = 4 ∨ units = 8 ∨ units = 16 ∨ units = 24) ∧ (bw = .nb ∨ bw = .mb ∨ bw = .wb) := by
  simpa only [legalMeta, Bool.and_eq_true, Bool.or_eq_true, decide_eq_true_eq, and_comm, or_assoc] using h

/-- Settles O9: a frame is a whole number of 2.5 ms units, and which numbers and bandwidths go with a mode is what
`legalMeta_toc` says of every TOC byte. -/
theorem tocLaws : Obligations.TocLaws := by
  unfold Obligations.TocLaws
  intro t fs h
  obtain ⟨-, h5, h10, h20⟩ := samples_of_legalRate h
  have hmeta := legalMeta_toc t
  obtain ⟨hunits, -⟩ := legalMeta_units hmeta
  rw [← tocSpf_48000_eq_scaled t h, tocSpf_eq_tocUnits_mul t h, h5, h10, h20]
  refine ⟨?_, by omega, ?_, ?_, fun hmode => ?_, fun hmode => ?_, fun hmode => ?_, rfl, fun u hu => ?_,
    fun u => tocChannels_eq_of_bit⟩
  · rcases hunits with hu | hu | hu | hu | hu | hu <;> rw [hu] <;> omega
  · exact Nat.le_mul_of_pos_left _ (by omega)
  · rw [← Nat.mul_assoc]
    exact Nat.mul_le_mul_right _ (by omega)
  · obtain ⟨hunits, hbw⟩ := legalMeta_xform (hmode ▸ hmeta)
    exact ⟨Nat.mul_le_mul_right _ hunits, hbw⟩
  · obtain ⟨hunits, hbw⟩ := legalMeta_hybrid (hmode ▸ hmeta)
    exact ⟨hunits.imp (by rw [·]) (by rw [·]), hbw⟩
  · obtain ⟨hunits, hbw⟩ := legalMeta_pred (hmode ▸ hmeta)
    refine ⟨?_, hbw⟩
    rcases hunits with hu | hu | hu | hu <;> rw [hu] <;> omega
  · rw [← tocSpf_eq_tocUnits_mul t h]
    exact tocFields_eq_of_div_four hu fs

/-! The configuration rows. -/

/-- A row of the opcode table does what its row of R86's table says. -/
theorem exec_tocCfgInstr {config : BitVec 5} {mode : Mode} {bw : Bandwidth} {units : Nat}
    (hrow : configTable[config.toNat]? = some (mode, bw, units)) (st : Bool) (code : BitVec 2) (s : State) :
    exec (tocCfgInstr config st code) s = tocConfig config mode bw units st code s := by
  obtain ⟨n, hn⟩ := config
  interval_cases n <;> (cases hrow; rfl)

theorem tocChannels_tocByte (config : BitVec 5) (st : Bool) (code : BitVec 2) :
    tocChannels (tocByte config st code) = if st then 2 else 1 := by
  revert config st code; decide

/-- A row's duration is the samples per frame of its TOC byte; with no rate both are 0. -/
theorem durationSamples_tocUnits (toc : Byte) {fs : Nat} (h : fs = 0 ∨ legalRate fs = true) :
    durationSamples (tocUnits toc) fs = tocSpf toc fs := by
  rcases h with rfl | hrate
  · simp [durationSamples, tocSpf]
  · exact (tocSpf_eq toc hrate).symm

/-- Settles O10: each row runs with what the TOC decoders read from its TOC byte. -/
theorem tocRowsComplete : Obligations.TocRowsComplete := by
  unfold Obligations.TocRowsComplete
  intro s config st code hrate
  rw [exec_tocCfgInstr (configTable_tocByte config st code), tocConfig, rate, durationSamples_tocUnits _ hrate,
    durationSamples_tocUnits _ (.inr (by decide)), tocChannels_tocByte]
  rfl

end Sys2Proof.Machine
end

section
/-! PROOFS. The packet queries (40_toc_fields.md R120, R122, R123). -/

namespace Sys2Proof.Machine

variable {s : State} {len fs : Int} {e : ErrCode} {n : Nat}

theorem respond_natCast (n : Nat) (s : State) : respond n s = respondWord (BitVec.ofNat 32 n) s := by
  rw [respond, BitVec.ofInt_natCast, respondWord]

/-! TOC_INFO (R120). -/

theorem extractLsb'_eq_zero_iff {w : Word} {k n : Nat} : w.extractLsb' k n = 0 ↔ w.toNat / 2 ^ k % 2 ^ n = 0 := by
  rw [← extractLsb'_toNat_eq]
  exact BitVec.toNat_eq

/-- Words put side by side add up: the second above the bits of the first. -/
theorem or_shiftLeft_toNat {w : Word} {v k : Nat} (hw : w.toNat < 2 ^ k) (hv : v * 2 ^ k < 2 ^ 32) :
    (w ||| BitVec.ofNat 32 v <<< k).toNat = w.toNat + v * 2 ^ k := by
  have hv32 : v < 2 ^ 32 := (Nat.le_mul_of_pos_right v (Nat.two_pow_pos k)).trans_lt hv
  rw [BitVec.toNat_or, BitVec.toNat_shiftLeft, BitVec.toNat_ofNat, Nat.mod_eq_of_lt hv32, Nat.shiftLeft_eq,
    Nat.mod_eq_of_lt hv, Nat.or_comm, ← Nat.shiftLeft_eq, ← Nat.shiftLeft_add_eq_or_of_lt hw, Nat.add_comm]

theorem mode_code_lt (m : Mode) : m.code < 4 := by cases m <;> decide

theorem bandwidth_code_lt (b : Bandwidth) : b.code < 8 := by cases b <;> decide

theorem tocChannels_lt (toc : Byte) : tocChannels toc < 4 := by
  unfold tocChannels
  split <;> decide

/-- The response word as a number: its fields, each in its place. -/
theorem tocInfoWord_toNat (toc : Byte) (fs : Nat) (hspf : tocSpf toc fs < 2 ^ 12) :
    (tocInfoWord toc fs).toNat = (tocMode toc).code + (tocBandwidth toc).code * 2 ^ 2 + tocChannels toc * 2 ^ 5 +
      toc.toNat % 4 * 2 ^ 8 + tocSpf toc fs * 2 ^ 16 := by
  have hmode := mode_code_lt (tocMode toc)
  have hbw := bandwidth_code_lt (tocBandwidth toc)
  have hch := tocChannels_lt toc
  have hcode : toc.toNat % 4 < 4 := Nat.mod_lt _ (by decide)
  have h0 : (BitVec.ofNat 32 (tocMode toc).code).toNat = (tocMode toc).code := by
    rw [BitVec.toNat_ofNat]; omega
  have h2 := or_shiftLeft_toNat (w := BitVec.ofNat 32 (tocMode toc).code) (v := (tocBandwidth toc).code) (k := 2)
    (by omega) (by omega)
  have h5 := or_shiftLeft_toNat (v := tocChannels toc) (k := 5) (h2.trans_lt (by omega)) (by omega)
  have h8 := or_shiftLeft_toNat (v := toc.toNat % 4) (k := 8) (h5.trans_lt (by omega)) (by omega)
  have h16 := or_shiftLeft_toNat (v := tocSpf toc fs) (k := 16) (h8.trans_lt (by omega)) (by omega)
  rw [tocInfoWord, tocCode_eq_mod, h16, h8, h5, h2, h0]

theorem execTocInfo_of_illegal (h : len < 1 ∨ legalRate fs = false) :
    execTocInfo len fs s = raises .badArgument s := by
  rcases h with hlen | hrate
  · exact if_pos hlen
  · rw [execTocInfo, hrate]
    exact ite_self _

theorem execTocInfo_of_legal (hlen : 1 ≤ len) (hrate : legalRate fs = true) :
    execTocInfo len fs s = .next (respondWord (tocInfoWord (pktRead s 0) fs.toNat) s) := by
  rw [execTocInfo, if_neg (Int.not_lt.mpr hlen), hrate]
  rfl

theorem legalRate_toNat (h : legalRate fs = true) : ((fs.toNat : Nat) : Int) = fs := by
  simp only [legalRate, Bool.or_eq_true, decide_eq_true_eq] at h
  omega

/-- Settles O25: the two checks, and the fields of the response read off its value. -/
theorem tocInfo : Obligations.TocInfo := by
  unfold Obligations.TocInfo
  intro s len fs
  refine ⟨fun h => raisesOnly_self (execTocInfo_of_illegal h), fun hlen hrate => ?_⟩
  refine ⟨_, execTocInfo_of_legal hlen hrate, rfl, onlyAnswers_endCommand .., ?_⟩
  obtain ⟨-, hspf⟩ := tocSpf_le (pktRead s 0) ((legalRate_toNat hrate).symm ▸ hrate)
  have hword := tocInfoWord_toNat (pktRead s 0) fs.toNat (by omega)
  have hmode := mode_code_lt (tocMode (pktRead s 0))
  have hbw := bandwidth_code_lt (tocBandwidth (pktRead s 0))
  have hch := tocChannels_lt (pktRead s 0)
  have hresp : (respondWord (tocInfoWord (pktRead s 0) fs.toNat) s).host.resp =
    tocInfoWord (pktRead s 0) fs.toNat := rfl
  simp only [hresp, extractLsb'_toNat_eq, extractLsb'_eq_zero_iff]
  refine ⟨by omega, by omega, by omega, by omega, by omega, by omega, by omega, by omega, ?_⟩
  rw [BitVec.toInt_eq_toNat_of_lt (by omega)]
  exact Int.natCast_nonneg _

/-! PKT_NB_FRAMES (R122). -/

theorem announcedFrames_of_len_lt_one (h : len < 1) : announcedFrames len s = .error .badArgument := if_pos h

section Codes

variable (hlen : 1 ≤ len)
include hlen

theorem announcedFrames_of_code_zero (hcode : (pktRead s 0).toNat % 4 = 0) : announcedFrames len s = .ok 1 := by
  rw [announcedFrames, if_neg (Int.not_lt.mpr hlen), tocCode_eq_mod, if_pos hcode]

theorem announcedFrames_of_code_one_or_two (hcode : (pktRead s 0).toNat % 4 = 1 ∨ (pktRead s 0).toNat % 4 = 2) :
    announcedFrames len s = .ok 2 := by
  rw [announcedFrames, if_neg (Int.not_lt.mpr hlen), tocCode_eq_mod, if_neg (by omega), if_pos (by omega)]

theorem announcedFrames_of_code_three (hcode : (pktRead s 0).toNat % 4 = 3) : announcedFrames len s =
    if len < 2 then .error .invalidPacket else .ok ((pktRead s 1).toNat % 64) := by
  have hcount : byteField (pktRead s 1) 5 0 = (pktRead s 1).toNat % 64 := byteField_zero_eq_mod _ 5
  rw [announcedFrames, if_neg (Int.not_lt.mpr hlen), tocCode_eq_mod, if_neg (by omega), if_neg (by omega), hcount]

end Codes

theorem announcedFrames_lt (h : announcedFrames len s = .ok n) : n < 64 := by
  unfold announcedFrames at h
  split at h
  · nomatch h
  · split at h
    · cases h; decide
    · split at h
      · cases h; decide
      · split at h
        · nomatch h
        · cases h; exact BitVec.isLt _

theorem errCode_word_injective {e e' : ErrCode} (h : BitVec.ofInt 32 e.code = BitVec.ofInt 32 e'.code) : e = e' := by
  revert h; cases e <;> cases e' <;> decide

theorem execPktNbFrames_of_error (h : announcedFrames len s = .error e) : execPktNbFrames len s = raises e s := by
  rw [execPktNbFrames, h]

theorem execPktNbFrames_of_ok (h : announcedFrames len s = .ok n) :
    execPktNbFrames len s = .next (respondWord (BitVec.ofNat 32 n) s) := by
  rw [execPktNbFrames, h, ← respond_natCast]

/-- PKT_NB_FRAMES answers an error when the count is that error. -/
theorem raisesOnly_pktNbFrames_iff : RaisesOnly (.pktNbFrames len) s e ↔ announcedFrames len s = .error e := by
  refine ⟨fun ⟨t, hexec, ⟨hresp, herr⟩, _⟩ => ?_, fun h => raisesOnly_self (execPktNbFrames_of_error h)⟩
  match h : announcedFrames len s with
  | .error e' =>
    obtain rfl : raiseErr _ s = t := Host.Outcome.next.inj ((execPktNbFrames_of_error h).symm.trans hexec)
    rw [errCode_word_injective hresp]
  | .ok n =>
    obtain rfl : respondWord _ s = t := Host.Outcome.next.inj ((execPktNbFrames_of_ok h).symm.trans hexec)
    nomatch herr

/-- PKT_NB_FRAMES answers a number of frames when the count is that number. -/
theorem answersOnly_pktNbFrames_iff (hn : n < 64) :
    AnswersOnly (.pktNbFrames len) s (BitVec.ofNat 32 n) ↔ announcedFrames len s = .ok n := by
  refine ⟨fun ⟨t, hexec, ⟨hresp, herr⟩, _⟩ => ?_, fun h => answersOnly_self (execPktNbFrames_of_ok h)⟩
  match h : announcedFrames len s with
  | .error e =>
    obtain rfl : raiseErr _ s = t := Host.Outcome.next.inj ((execPktNbFrames_of_error h).symm.trans hexec)
    nomatch herr
  | .ok m =>
    obtain rfl : respondWord _ s = t := Host.Outcome.next.inj ((execPktNbFrames_of_ok h).symm.trans hexec)
    have hm := announcedFrames_lt h
    have hword : BitVec.ofNat 32 m = BitVec.ofNat 32 n := hresp
    rw [BitVec.toNat_eq, BitVec.toNat_ofNat, BitVec.toNat_ofNat] at hword
    rw [show m = n by omega]

/-- Settles O26: the count that R122 announces, code by code. -/
theorem packetFrameCount : Obligations.PacketFrameCount := by
  unfold Obligations.PacketFrameCount
  intro s len
  refine ⟨fun hlen => ?_, fun hlen hcode => ?_, fun hlen hcode => ?_, fun hlen hcode => ?_, fun hlen hcode => ?_⟩
  · exact raisesOnly_pktNbFrames_iff.mpr (announcedFrames_of_len_lt_one hlen)
  · exact answersOnly_self (execPktNbFrames_of_ok (announcedFrames_of_code_zero hlen hcode))
  · exact answersOnly_self (execPktNbFrames_of_ok (announcedFrames_of_code_one_or_two hlen hcode))
  · subst hlen
    exact raisesOnly_pktNbFrames_iff.mpr (announcedFrames_of_code_three (by decide) hcode)
  · refine answersOnly_self (execPktNbFrames_of_ok ?_)
    rw [announcedFrames_of_code_three (by omega) hcode, if_neg (by omega)]

/-! PKT_NB_SAMPLES (R123). -/

theorem execPktNbSamples_of_illegal (hrate : legalRate fs = false) :
    execPktNbSamples len fs s = raises .badArgument s := by
  rw [execPktNbSamples, hrate]
  rfl

section LegalRate

variable (hrate : legalRate fs = true)
include hrate

theorem execPktNbSamples_of_error (h : announcedFrames len s = .error e) :
    execPktNbSamples len fs s = raises e s := by
  rw [execPktNbSamples, hrate, h]
  rfl

theorem execPktNbSamples_of_ok (h : announcedFrames len s = .ok n) : execPktNbSamples len fs s =
    if fs * 3 < ((n * tocSpf (pktRead s 0) fs.toNat : Nat) : Int) * 25 then raises .invalidPacket s
    else .next (respondWord (BitVec.ofNat 32 (n * tocSpf (pktRead s 0) fs.toNat)) s) := by
  rw [execPktNbSamples, hrate, h, ← respond_natCast]
  rfl

theorem answersOnly_pktNbSamples_of_ok (h : announcedFrames len s = .ok n)
    (hmax : ((n * tocSpf (pktRead s 0) fs.toNat : Nat) : Int) * 25 ≤ fs * 3) :
    AnswersOnly (.pktNbSamples len fs) s (BitVec.ofNat 32 (n * tocSpf (pktRead s 0) fs.toNat)) :=
  answersOnly_self ((execPktNbSamples_of_ok hrate h).trans (if_neg (Int.not_lt.mpr hmax)))

end LegalRate

/-- Settles O27: from the count that R122 announces, which PKT_NB_FRAMES answers, the total and its check. -/
theorem packetSampleCount : Obligations.PacketSampleCount := by
  unfold Obligations.PacketSampleCount
  intro s len fs
  refine ⟨fun hrate => raisesOnly_self (execPktNbSamples_of_illegal hrate), fun hrate e he => ?_,
    fun hrate n hn hframes => ?_, fun hrate hlen n hcases hmax => ?_⟩
  · exact raisesOnly_self (execPktNbSamples_of_error hrate (raisesOnly_pktNbFrames_iff.mp he))
  · have hcount := (answersOnly_pktNbFrames_iff hn).mp hframes
    exact ⟨fun hover => raisesOnly_self ((execPktNbSamples_of_ok hrate hcount).trans (if_pos hover)),
      answersOnly_pktNbSamples_of_ok hrate hcount⟩
  · refine answersOnly_pktNbSamples_of_ok hrate ?_ hmax
    rcases hcases with ⟨hcode, rfl⟩ | ⟨hcode, rfl⟩ | ⟨hcode, hlen2, rfl⟩
    · exact announcedFrames_of_code_zero hlen hcode
    · exact announcedFrames_of_code_one_or_two hlen hcode
    · rw [announcedFrames_of_code_three hlen hcode, if_neg (Int.not_lt.mpr hlen2)]

end Sys2Proof.Machine
end

section
/-! PROOFS. What a parse comes to (41_framing.md R151 to R163): which error a failing check gives, and when the
frames are marked as of equal size. -/

namespace Sys2Proof.Machine

variable {s t : State} {len : Int} {sd : Bool}

/-! Rule by rule: every check after R151's first fails with InvalidPacket, and which rules mark the frames as equal. -/

/-- A rule of the parse goes on to a state with `G`, or fails with InvalidPacket. -/
abbrev Checks (G : State → Prop) (m : Flow) : Prop :=
  m.Post G (fun r _ => r = ErrCode.invalidPacket.code) fun _ => False

/-- The packet announces frames of equal size: code 1, or code 3 with the VBR flag clear. -/
def AnnouncesCbr (s : State) : Prop :=
  tocCode (pktRead s 0) = 1 ∨ (tocCode (pktRead s 0) = 3 ∧ byteField (pktRead s 1) 7 7 = 0)

theorem checks_parseArgs (hlen : 0 ≤ t.parse.len) : Checks (fun u => u = t) (parseArgs t) :=
  Flow.Post.ite (fun hneg => absurd hlen (Int.not_le.mpr hneg)) fun _ => Flow.Post.ite (fun _ => rfl) fun _ => rfl

theorem checks_parseHeader (t : State) : Checks
    (fun u => u.parse.pos = 1 ∧ u.parse.toc = pktRead u 0 ∧ (AnnouncesCbr t → AnnouncesCbr u)) (parseHeader t) :=
  ⟨rfl, rfl, id⟩

theorem checks_parseCode1 (t : State) : Checks (fun u => u.parse.cbr = true) (parseCode1 t) :=
  Flow.Post.ite (fun _ => rfl) fun _ => Flow.Post.ite (fun _ => rfl) fun _ => rfl

theorem checks_parseCode2 (t : State) : Checks (fun _ => True) (parseCode2 t) := by
  unfold parseCode2
  simp only
  split
  · rfl
  · exact Flow.Post.ite (fun _ => rfl) fun _ => trivial

theorem checks_parseCode3 (t : State) : Checks (fun u => u.parse.cb = pktRead t t.parse.pos) (parseCode3 t) :=
  Flow.Post.ite (fun _ => rfl) fun _ => Flow.Post.ite (fun _ => rfl) fun _ => rfl

theorem checks_padCheck (t : State) : Checks (fun u => u.parse.cb = t.parse.cb) (padCheck t) :=
  Flow.Post.ite (fun _ => rfl) fun _ => rfl

theorem checks_padChain (fuel : Nat) (t : State) : Checks (fun u => u.parse.cb = t.parse.cb) (padChain fuel t) := by
  induction fuel generalizing t with
  | zero => rfl
  | succ fuel ih => exact Flow.Post.ite (fun _ => rfl) fun _ => Flow.Post.ite (fun _ => rfl) fun _ => ih _

theorem checks_parsePadding (t : State) : Checks (fun u => u.parse.cb = t.parse.cb) (parsePadding t) :=
  Flow.Post.andThen (checks_padChain _ t) fun u hu => hu ▸ checks_padCheck u

theorem checks_vbrSizes (n : Nat) (t : State) : Checks (fun _ => True) (vbrSizes n t) := by
  induction n generalizing t with
  | zero => trivial
  | succ n ih =>
    unfold vbrSizes
    split
    · rfl
    · exact Flow.Post.ite (fun _ => rfl) fun _ => ih _

theorem checks_parseVbr (t : State) : Checks (fun _ => True) (parseVbr t) :=
  Flow.Post.andThen (checks_vbrSizes _ _) fun _ _ => Flow.Post.ite (fun _ => rfl) fun _ => trivial

theorem checks_parseCbr (t : State) : Checks (fun u => u.parse.cbr = true) (parseCbr t) :=
  Flow.Post.ite (fun _ => rfl) fun _ => Flow.Post.ite (fun _ => rfl) fun _ => rfl

theorem checks_parseCode3Rest (t : State) :
    Checks (fun u => byteField t.parse.cb 7 7 = 0 → u.parse.cbr = true) (parseCode3Rest t) := by
  refine Flow.Post.andThen (G := fun u => u.parse.cb = t.parse.cb)
    (Flow.Post.ite (fun _ => checks_parsePadding t) fun _ => checks_padCheck t) fun u hcb => ?_
  refine Flow.Post.ite (fun hvbr => (checks_parseVbr u).mono (fun _ _ hcbr => ?_) fun _ _ => id) fun _ =>
    (checks_parseCbr u).mono (fun _ hu _ => hu) fun _ _ => id
  rw [hcb, hcbr] at hvbr
  nomatch hvbr

theorem checks_parseByCode (hpos : t.parse.pos = 1) (htoc : t.parse.toc = pktRead t 0) :
    Checks (fun u => AnnouncesCbr t → u.parse.cbr = true) (parseByCode t) := by
  unfold parseByCode AnnouncesCbr
  rw [htoc]
  split
  case h_1 hcode => exact fun hcbr => by simp [hcode] at hcbr
  case h_2 => exact (checks_parseCode1 t).mono (fun _ hu _ => hu) fun _ _ => id
  case h_3 hcode => exact (checks_parseCode2 t).mono (fun _ _ hcbr => by simp [hcode] at hcbr) fun _ _ => id
  case h_4 _ hne _ =>
    refine Flow.Post.andThen (checks_parseCode3 t) fun u hcb => ?_
    rw [hpos] at hcb
    refine (checks_parseCode3Rest u).mono (fun _ hu hcbr => ?_) fun _ _ => id
    rcases hcbr with hone | ⟨-, hvbr⟩
    · exact absurd hone hne
    · exact hu (hcb ▸ hvbr)

theorem checks_parseTail (t : State) : Checks (fun u => u.parse.cbr = t.parse.cbr) (parseTail t) := by
  refine Flow.Post.ite (fun _ => ?_) fun _ => Flow.Post.ite (fun _ => rfl) fun _ => rfl
  unfold tailSelfDelimited
  split
  · rfl
  · exact Flow.Post.ite (fun _ => rfl) fun _ => Flow.Post.ite (fun _ => Flow.Post.ite (fun _ => rfl) fun _ => rfl)
      fun _ => Flow.Post.ite (fun _ => rfl) fun _ => rfl

/-- A parse of a length that is not negative: InvalidPacket is its only error (R163). -/
theorem checks_parsePacket (hlen : 0 ≤ len) :
    Checks (fun u => AnnouncesCbr s → u.parse.cbr = true) (parsePacket len sd s) := by
  refine Flow.Post.andThen (checks_parseArgs hlen) fun _ hstart => ?_
  refine Flow.Post.andThen (checks_parseHeader _) fun t ⟨hpos, htoc, hann⟩ => ?_
  refine Flow.Post.andThen (checks_parseByCode hpos htoc) fun u hu => ?_
  refine Flow.Post.andThen (checks_parseTail u) fun v hv hcbr => ?_
  subst hstart
  exact hv.trans (hu (hann hcbr))

/-! The command: its two checks of `len`, then its one success and its one failure. -/

theorem parseCommand_of_neg (hlen : len < 0) :
    parseCommand len sd s = raises .badArgument (parseStart len sd s) := by
  have hargs : parseArgs (parseStart len sd s) = .err .badArgument (parseStart len sd s) := if_pos hlen
  rw [parseCommand, parsePacket, hargs]
  rfl

theorem parseCommand_zero (sd : Bool) (s : State) :
    parseCommand 0 sd s = raises .invalidPacket (parseStart 0 sd s) := rfl

/-- PARSE of a length that is not negative writes the result file of its final registers, or answers InvalidPacket. -/
theorem parseCommand_of_nonneg (sd : Bool) (s : State) (hlen : 0 ≤ len) :
    (∃ p, parseCommand len sd s = .next (respondCount ((s.setParse p).setFile (resultFile p s.file))) ∧
      Parsed s len sd p ∧ (AnnouncesCbr s → p.cbr = true)) ∨
    ∃ p, parseCommand len sd s = raises .invalidPacket (s.setParse p) := by
  have hpost := parses_parsePacket len sd s
  have hchecks := checks_parsePacket (s := s) (sd := sd) hlen
  unfold parseCommand
  match parsePacket len sd s, hpost, hchecks with
  | .go _, ⟨p, rfl, hp⟩, hcbr => exact .inl ⟨p, rfl, hp, hcbr⟩
  | .done _ _, ⟨_, p, rfl⟩, rfl => exact .inr ⟨p, rfl⟩

/-- A parse without error wrote the result file of its final registers. -/
theorem parsed_of_parseCommand (h : parseCommand len sd s = .next t) (herr : t.host.err = false) :
    ∃ p, t.file = resultFile p s.file ∧ Parsed s len sd p ∧ (AnnouncesCbr s → p.cbr = true) := by
  rcases Int.lt_or_le len 0 with hneg | hnonneg
  · obtain rfl := Host.Outcome.next.inj ((parseCommand_of_neg hneg).symm.trans h)
    nomatch herr
  · rcases parseCommand_of_nonneg sd s hnonneg with ⟨p, hnext, hp, hcbr⟩ | ⟨p, hraises⟩
    · obtain rfl := Host.Outcome.next.inj (hnext.symm.trans h)
      exact ⟨p, rfl, hp, hcbr⟩
    · obtain rfl := Host.Outcome.next.inj (hraises.symm.trans h)
      nomatch herr

/-- A parse that fails, of a length that is not negative, answers InvalidPacket and changes nothing else. -/
theorem parseCommand_failed (hlen : 0 ≤ len) (h : parseCommand len sd s = .next t) (herr : t.host.err = true) :
    Raised t .invalidPacket ∧ OnlyAnswers s t := by
  rcases parseCommand_of_nonneg sd s hlen with ⟨p, hnext, -, -⟩ | ⟨p, hraises⟩
  · obtain rfl := Host.Outcome.next.inj (hnext.symm.trans h)
    nomatch herr
  · obtain rfl := Host.Outcome.next.inj (hraises.symm.trans h)
    exact ⟨⟨rfl, rfl⟩, (onlyAnswers_endCommand ..).setParse p⟩

/-- Settles O15: R151's two checks by themselves, every later failure by what the rules after them can raise. -/
theorem parseErrors : Obligations.ParseErrors := by
  unfold Obligations.ParseErrors
  intro s len i hi
  obtain ⟨sd, hexec⟩ : ∃ sd, exec i s = parseCommand len sd s := by
    simp only [List.mem_cons, List.not_mem_nil, or_false] at hi
    rcases hi with rfl | rfl
    · exact ⟨false, rfl⟩
    · exact ⟨true, rfl⟩
  refine ⟨fun hneg => ?_, fun hzero => ?_, fun hlen t ht herr => parseCommand_failed hlen (hexec.symm.trans ht) herr⟩
  · exact raisesOnly_setParse _ (hexec.trans (parseCommand_of_neg hneg))
  · subst hzero
    exact raisesOnly_setParse _ (hexec.trans (parseCommand_zero sd s))

end Sys2Proof.Machine
end

section
/-! PROOFS. What the result file of a successful parse says (41_framing.md R162, R164), entry by entry. -/

namespace Sys2Proof.Machine

variable {s t : State} {len : Int} {sd : Bool} {p : ParseRegs} {k : Nat}

/-- The first `k` frames and the rest: both take up bytes. -/
theorem Parsed.sum_take_bounds (hp : Parsed s len sd p) (k : Nat) :
    0 ≤ (p.sizes.take k).sum ∧ (p.sizes.take k).sum ≤ p.sizes.sum := by
  have htake : 0 ≤ (p.sizes.take k).sum := List.sum_nonneg fun n hn => (hp.sizes n (List.mem_of_mem_take hn)).1
  have hdrop : 0 ≤ (p.sizes.drop k).sum := List.sum_nonneg fun n hn => (hp.sizes n (List.mem_of_mem_drop hn)).1
  have hsum := List.sum_take_add_sum_drop p.sizes k
  omega

theorem Parsed.resultFile_count (hp : Parsed s len sd p) (f : ResultFile) :
    (resultFile p f).count.toNat = p.sizes.length := by
  have hcount := hp.count
  rw [hp.length, resultFile, BitVec.toNat_ofNat]
  omega

theorem Parsed.resultFile_len (hp : Parsed s len sd p) (hf : t.file = resultFile p f) (hk : k < p.sizes.length) :
    resLen t k = p.sizes[k] := by
  have hcount := hp.count
  have hsize := hp.sizes _ (List.getElem_mem hk)
  have hin : 0 ≤ k ∧ k < 0 + p.sizes.length ∧ k < 48 := by have hlength := hp.length; omega
  simp only [resLen, hf, resultFile, overlay_get, List.length_map, if_pos hin, Nat.sub_zero, List.getElem?_map,
    List.getElem?_eq_getElem hk, Option.map_some, Option.getD_some]
  exact BitVec.toInt_ofInt_eq_self (by decide) (by omega) (by omega)

section Addresses

variable (hlen : len < 2 ^ 31)
include hlen

theorem Parsed.resultFile_payload (hp : Parsed s len sd p) (f : ResultFile) :
    (resultFile p f).payload.toNat = p.pos := by
  have hwithin := hp.within
  have hpad := hp.pad
  have hsum := hp.sum_take_bounds 0
  rw [resultFile, BitVec.toNat_ofNat]
  omega

theorem Parsed.resultFile_consumed (hp : Parsed s len sd p) (f : ResultFile) :
    ((resultFile p f).consumed.toNat : Int) = p.pad + (p.pos + p.sizes.sum) := by
  have hwithin := hp.within
  have hpad := hp.pad
  have hsum := hp.sum_take_bounds 0
  rw [resultFile, BitVec.toNat_ofInt]
  omega

theorem Parsed.resultFile_off (hp : Parsed s len sd p) (hf : t.file = resultFile p f) (hk : k < p.sizes.length) :
    (resOff t k : Int) = p.pos + (p.sizes.take k).sum := by
  have hcount := hp.count
  have hwithin := hp.within
  have hpad := hp.pad
  have hsum := hp.sum_take_bounds k
  have hin : 0 ≤ k ∧ k < 0 + p.sizes.length ∧ k < 48 := by have hlength := hp.length; omega
  simp only [resOff, hf, resultFile, overlay_get, List.length_map, frameOffsets_length, if_pos hin, Nat.sub_zero,
    List.getElem?_map, frameOffsets_get _ _ _ hk, Option.map_some, Option.getD_some, BitVec.toNat_ofInt]
  omega

/-- A frame ends where the sizes up to and with its own put its end. -/
theorem Parsed.resultFile_end (hp : Parsed s len sd p) (hf : t.file = resultFile p f) (hk : k < p.sizes.length) :
    (resOff t k : Int) + resLen t k = p.pos + (p.sizes.take (k + 1)).sum := by
  rw [hp.resultFile_off hlen hf hk, hp.resultFile_len hf hk, List.sum_take_succ _ _ hk, Int.add_assoc]

end Addresses

/-- Settles O12: a parse with no check left has registers that fit the packet, and the result file reads as they say. -/
theorem parseLaws : Obligations.ParseLaws := by
  unfold Obligations.ParseLaws
  intro s t len hlen h herr
  obtain ⟨sd, hexec⟩ : ∃ sd, parseCommand len sd s = .next t := h.elim (⟨false, ·⟩) (⟨true, ·⟩)
  obtain ⟨p, hf, hp, hcbr⟩ := parsed_of_parseCommand hexec herr
  have hcount : t.file.count.toNat = p.sizes.length := hf ▸ hp.resultFile_count s.file
  have hpayload : t.file.payload.toNat = p.pos := hf ▸ hp.resultFile_payload hlen s.file
  have hconsumed : (t.file.consumed.toNat : Int) = p.pad + (p.pos + p.sizes.sum) :=
    hf ▸ hp.resultFile_consumed hlen s.file
  have htoc : t.file.toc = p.toc := hf ▸ rfl
  have hend {k : Nat} (hk : k < p.sizes.length) := hp.resultFile_end hlen hf hk
  obtain ⟨hmin, hmax⟩ := hp.count
  rw [← hp.length] at hmin hmax
  rw [hcount, hpayload, hconsumed, htoc]
  refine ⟨hmin, hmax, fun k hk => ?_, hp.pos, ⟨p.pad.toNat, fun k hk => ?_, ?_⟩, hp.within, fun hparse => ?_,
    fun hcode k hk => ?_, hp.length ▸ hp.duration, hp.toc, fun k hk => ?_, ?_⟩
  · rw [hp.resultFile_len hf hk]
    exact hp.sizes _ (List.getElem_mem hk)
  · have hsum := hp.sum_take_bounds (k + 1)
    have hpad := hp.pad
    rw [hend hk]
    omega
  · have hpad := hp.pad
    rw [hend (by omega), Nat.sub_add_cancel hmin, List.take_length]
    omega
  · obtain ⟨q, hfq, hq, -⟩ := parsed_of_parseCommand (sd := false) hparse herr
    rw [← hconsumed, hfq, hq.resultFile_consumed hlen, hq.whole rfl]
  · rw [hp.toc] at hcode
    obtain ⟨v, hv⟩ := hp.equal (hcbr hcode)
    rw [hp.resultFile_len hf hk, hp.resultFile_len hf hmin, hv _ (List.getElem_mem _), hv _ (List.getElem_mem _)]
  · rw [hend (by omega), hp.resultFile_off hlen hf hk]
  · have hfirst := hp.resultFile_off hlen hf hmin
    rw [List.take_zero, List.sum_nil] at hfirst
    omega

end Sys2Proof.Machine
end

section
/-! PROOFS. The frame-select machine's flags (42_frame_fsm.md R201) and the sample arithmetic of the fades and the gain (R233,
R234). -/

namespace Sys2Proof.Machine

/-- Settles O55: row by row of the table; a transform-only frame has no redundancy. -/
theorem frameSelectTable : Obligations.FrameSelectTable := by
  unfold Obligations.FrameSelectTable
  intro m pr red c2s hm hred
  refine ⟨?uninit, ?pred, ?hybrid, ?xform, fun _ => rfl, ?_, ?_⟩
  case uninit | pred | hybrid | xform =>
    cases m
    case uninit => exact absurd rfl hm
    case pred | hybrid => revert pr red c2s; decide
    case xform =>
      obtain rfl := hred rfl
      revert pr c2s
      decide
  all_goals cases m <;> rfl

/-! Fade weights (R233). -/

theorem fadeW_le (i fs : Nat) : fadeW i fs ≤ 32767 := by
  induction i with
  | zero => exact Nat.min_le_right _ _
  | succ i ih => exact Nat.max_le.2 ⟨ih, Nat.min_le_right _ _⟩

theorem fadeW_mono (fs : Nat) : Monotone (fadeW · fs) := monotone_nat_of_le_succ fun _ => Nat.le_max_left _ _

/-! Samples as integers. -/

theorem sample_range (x : Sample) : -32768 ≤ x.toInt ∧ x.toInt ≤ 32767 := by
  have hlt := BitVec.toInt_lt (x := x)
  have hle := BitVec.le_toInt (x := x)
  omega

theorem toSample_toInt {x : Int} (hlo : -32768 ≤ x) (hhi : x ≤ 32767) : (toSample x).toInt = x := by
  unfold toSample
  rw [BitVec.toInt_ofInt, Int.bmod_eq_of_le] <;> omega

/-- The weighted sum of a blend lies between the products with the whole weight. -/
theorem blend_bounds {w : Nat} {a b : Int} (hw : w ≤ 32767) (ha : -32768 ≤ a ∧ a ≤ 32767)
    (hb : -32768 ≤ b ∧ b ≤ 32767) :
    -32768 * 32767 ≤ w * b + (32767 - w) * a ∧ w * b + (32767 - w) * a ≤ 32767 * 32767 := by
  have hw' : (0 : Int) ≤ 32767 - w := by omega
  have hlo := Int.mul_le_mul_of_nonneg_left hb.1 (Int.natCast_nonneg w)
  have hhi := Int.mul_le_mul_of_nonneg_left hb.2 (Int.natCast_nonneg w)
  have hlo' := Int.mul_le_mul_of_nonneg_left ha.1 hw'
  have hhi' := Int.mul_le_mul_of_nonneg_left ha.2 hw'
  constructor <;> linarith

theorem fadeBlend_toInt {w : Nat} (a b : Sample) (hw : w ≤ 32767) :
    (fadeBlend w a b).toInt = ((w : Int) * b.toInt + (32767 - (w : Int)) * a.toInt) / 32768 ∧
    -32767 ≤ (fadeBlend w a b).toInt ∧ (fadeBlend w a b).toInt ≤ 32766 := by
  obtain ⟨hlo, hhi⟩ := blend_bounds hw (sample_range a) (sample_range b)
  have hval : (fadeBlend w a b).toInt = _ := toSample_toInt (by omega) (by omega)
  omega

theorem satsym16_range (x : Int) : -32767 ≤ satsym16 x ∧ satsym16 x ≤ 32767 := by
  unfold satsym16
  omega

theorem gainSample_range (gain : BitVec 16) (x : Sample) :
    -32767 ≤ (gainSample gain x).toInt ∧ (gainSample gain x).toInt ≤ 32767 := by
  have hrange := satsym16_range (Config.gainMulRaw x.toInt (Config.gainQ gain.toInt))
  have hval : (gainSample gain x).toInt = _ := toSample_toInt (by unfold gainMul; omega) (by unfold gainMul; omega)
  rw [hval]
  exact hrange

/-- Silence adds nothing to a sample. -/
theorem addSat_zero_left (x : Sample) : addSat 0 x = x := by
  obtain ⟨hlo, hhi⟩ := sample_range x
  have hsat : sat16 ((0 : Sample).toInt + x.toInt) = x.toInt := by
    simp only [sat16, BitVec.ofNat_eq_ofNat, BitVec.toInt_zero]
    omega
  exact BitVec.eq_of_toInt_eq (by unfold addSat; rw [hsat, toSample_toInt hlo hhi])

/-- Settles O56: the weights by their recursion, a blend and a gained sample by their ranges. -/
theorem fadeAndGainLaws : Obligations.FadeAndGainLaws := by
  unfold Obligations.FadeAndGainLaws
  exact ⟨fun fs _ j hij => ⟨fadeW_mono fs hij, fadeW_le j fs⟩, fun _ a b hw => fadeBlend_toInt a b hw, gainSample_range⟩

end Sys2Proof.Machine
end

section
/-! PROOFS. DECODE_FRAME rule by rule (42_frame_fsm.md R202 to R237): what each rule comes to in each of its cases, where the
replies of the engines are known, and what an invocation comes to when each of its rules is known. -/

namespace Sys2Proof.Machine

variable {s t u : State} {a : FrameArgs} {nested : FrameArgs → State → FrameResult}

/-! DECODE_FRAME as an instruction of its own. -/

/-- An invocation run by itself has ended in `u` with result `r` (log 18). -/
def frameEnded (r : Int) (u : State) : State :=
  (((u.setFrame FrameRegs.clear).setTr []).setDriver { u.driver with ret := r }).setPhase .idle

@[simp] theorem frameEnded_ret (r : Int) (u : State) : (frameEnded r u).driver.ret = r := rfl
@[simp] theorem frameEnded_dec (r : Int) (u : State) : (frameEnded r u).dec = u.dec := rfl
@[simp] theorem frameEnded_pctl (r : Int) (u : State) : (frameEnded r u).pctl = u.pctl := rfl
@[simp] theorem frameEnded_tctl (r : Int) (u : State) : (frameEnded r u).tctl = u.tctl := rfl
@[simp] theorem frameEnded_env (r : Int) (u : State) : (frameEnded r u).env = u.env := rfl
@[simp] theorem frameEnded_out (r : Int) (u : State) : (frameEnded r u).out = u.out := rfl

theorem exec_decodeFrame {fb : Option Nat} {flen fsz r : Int} {o : Nat} {fec : Bool}
    (h : decodeFrame { fb := fb, flen := flen, dst := .pcm, o := o, fsz := fsz, fec := fec } s = .ok (r, u)) :
    exec (.decodeFrame fb flen o fsz fec) s = .next (frameEnded r u) := by
  show execDecodeFrame fb flen o fsz fec s = _
  unfold execDecodeFrame
  rw [h]
  rfl

theorem frameOnly_frameEnded {r : Int} (h : decodeFrame a s = .ok (r, u)) : FrameOnly s (frameEnded r u) := by
  have hk := keeps_decodeFrame h
  refine ⟨hk.constructed, hk.dec, ?_, hk.tSignalling, hk.file, hk.host, hk.pkt, hk.parse, ?_, hk.inbox, rfl, rfl, rfl⟩
  · rw [frameEnded_pctl, hk.pctl]
    exact ⟨rfl, rfl⟩
  · show ({ u.driver with ret := r } : DriverRegs) = _
    rw [hk.driver]
    rfl

/-! Engine calls whose reply is known. -/

theorem Draws.next_given {α : Type} {free : Nat → α} {d : Draws α} {x : α} {xs : List α} (h : d.given = x :: xs) :
    d.next free = (x, ⟨xs, d.used + 1⟩) := by
  unfold Draws.next
  rw [h]

/-- `P.Decode` has been called and its reply taken. -/
@[simps dec pctl tctl out tr frame env]
def pCalled (lost : Nat) (decoded : Int) (b : Buf) (idx : Nat) (s : State) : State :=
  { s with env := { s.env with pDecode := (s.env.pDecode.next Config.freePDecode).2
                               calls := .pDecode s.pctl lost (decide (decoded = 0)) s.frame.ec b idx :: s.env.calls } }

/-- `T.Decode` has been called and its reply taken. -/
@[simps dec pctl tctl out tr frame env]
def tCalled (src : Option ByteSource) (nBytes : Int) (b : Buf) (idx n : Nat) (ec : Option Cursor) (accum : Bool)
    (s : State) : State :=
  { s with env := { s.env with tDecode := (s.env.tDecode.next Config.freeTDecode).2
                               calls := .tDecode src nBytes b idx n ec accum :: s.env.calls } }

/-- `E.Tell` has been called and its reply taken. -/
@[simps dec pctl tctl out tr frame env]
def told (s : State) : State :=
  { s with env := { s.env with tell := (s.env.tell.next Config.freeTell).2, calls := .eTell :: s.env.calls } }

theorem words_zero (t : State) : words 0 t = 0 := by
  unfold words
  rw [Int.zero_mul, Int.toNat_zero]

theorem words_natCast (n : Nat) (t : State) : words n t = n * chans t := by
  unfold words
  rw [← Int.natCast_mul, Int.toNat_natCast]

theorem pDecode_success {lost : Nat} {decoded cap n : Int} {b : Buf} {base : Nat} {k : Int → Int → State → Flow}
    {p : List Sample} (hr : (s.env.pDecode.next Config.freePDecode).1 = ⟨0, n, p⟩) (hn : 1 ≤ n)
    (hcap : decoded + n ≤ cap) (hlen : (p.length : Int) = n * chans s) :
    pDecode lost decoded cap b base s k = k 0 n (bufFill b (base + words decoded s) p.length (replySample p)
      (pCalled lost decoded b (base + words decoded s) s)) := by
  unfold pDecode
  simp only [logCall_env, hr, if_true]
  rw [if_neg (by omega)]
  rfl

theorem pDecode_failure {lost : Nat} {decoded cap : Int} {b : Buf} {base : Nat} {k : Int → Int → State → Flow}
    {r : PReply} (hr : (s.env.pDecode.next Config.freePDecode).1 = r) (h0 : r.ret ≠ 0) :
    pDecode lost decoded cap b base s k = k r.ret 0 (bufFill b (base + words decoded s)
      (min r.samples.length (words (cap - decoded) s)) (replySample r.samples)
      (pCalled lost decoded b (base + words decoded s) s)) := by
  unfold pDecode
  simp only [logCall_env, hr, if_neg h0]
  rfl

/-- What a successful transform decode leaves in its output: its own samples, or their sum with what is there. -/
def tSample (b : Buf) (idx : Nat) (accum : Bool) (own : List Sample) (s : State) (j : Nat) : Sample :=
  if accum then addSat (bufRead b (idx + j) s) (replySample own j) else replySample own j

theorem tSample_own (b : Buf) (idx : Nat) (own : List Sample) (s : State) :
    tSample b idx false own s = replySample own := rfl

theorem tSample_sum (b : Buf) (idx : Nat) (own : List Sample) (s : State) :
    tSample b idx true own s = fun j => addSat (bufRead b (idx + j) s) (replySample own j) := rfl

theorem tDecode_success {src : Option ByteSource} {nBytes ret : Int} {b : Buf} {idx n : Nat} {ec : Option Cursor}
    {accum : Bool} {own : List Sample} {k : Int → State → Flow}
    (hr : (s.env.tDecode.next Config.freeTDecode).1 = ⟨ret, own⟩) (h0 : 0 ≤ ret) (hlen : own.length = n * chans s) :
    tDecode src nBytes b idx n ec accum s k = k ret (bufFill b idx own.length
      (tSample b idx accum own (tCalled src nBytes b idx n ec accum s)) (tCalled src nBytes b idx n ec accum s)) := by
  unfold tDecode
  simp only [logCall_env, hr, if_pos h0, hlen]
  rw [if_neg (fun h => h rfl)]
  cases accum <;> rfl

theorem tDecode_failure {src : Option ByteSource} {nBytes : Int} {b : Buf} {idx n : Nat} {ec : Option Cursor}
    {accum : Bool} {r : TReply} {k : Int → State → Flow} (hr : (s.env.tDecode.next Config.freeTDecode).1 = r)
    (hcode : isErrorCode r.ret = true) :
    tDecode src nBytes b idx n ec accum s k = k r.ret (bufFill b idx (min r.own.length (n * chans s))
      (replySample r.own) (tCalled src nBytes b idx n ec accum s)) := by
  have hneg : ¬ 0 ≤ r.ret := by
    simp only [isErrorCode, Bool.or_eq_true, decide_eq_true_eq] at hcode
    omega
  unfold tDecode
  simp only [logCall_env, hr, if_neg hneg, if_pos hcode]
  rfl

theorem eTell_reply {w : Word} {k : Int → State → Flow} (hr : (s.env.tell.next Config.freeTell).1 = w)
    (hw : 1 ≤ w.toInt) : eTell s k = k w.toInt (told s) := by
  unfold eTell
  simp only [logCall_env, hr]
  rw [if_neg (by omega)]
  rfl

/-! The rules up to the transition (R202 to R211). -/

/-- The rules before the look-ahead into transform-only. -/
def beginRules (nested : FrameArgs → State → FrameResult) : List (State → Flow) :=
  [atStep 1, rule202, rule203, atStep 2, rule204, rule205, rule206, rule207 nested, rule208, rule209, rule210,
   atStep 3, rule211]

/-- The working registers of a frame with bytes when its transition is known. -/
@[simps] def presentRegs (a : FrameArgs) (s : State) : FrameRegs :=
  { fb := a.fb, flen := a.flen, dst := a.dst, o := a.o, fec := a.fec, stepIdx := 3, dataPresent := true, lenL := a.flen
    fsz := min a.fsz (frameCap (rate s)), audiosize := s.dec.frameSize.toNat, m := s.dec.mode
    transition := transitionFlag true s.dec.prevMode s.dec.mode s.dec.prevRedundancy
    redundancy := false, celtToSilk := false, redundancyBytes := 0, startBand := 0, redundantRng := 0
    celtAccum := accumFlag s.dec.mode (min a.fsz (frameCap (rate s))) (f10 (rate s)), celtRet := 0
    ec := some ⟨a.fb.getD 0, a.flen⟩, ra := [], ps := [], seed := s.fresh }

/-- A frame with bytes when its transition is known. -/
@[simps dec pctl tctl out tr frame env]
def present (a : FrameArgs) (s : State) : State :=
  { s with frame := presentRegs a s
           env := { s.env with calls := .eInit (a.fb.getD 0) a.flen :: s.env.calls }
           fresh := s.fresh + 1 }

theorem runRules_begin_present (hlen : 2 ≤ a.flen) (hfsz : (f2_5 (rate s) : Int) ≤ a.fsz) :
    runRules (beginRules nested) (frameEnter a s) = .go (present a s) := by
  have hmin : ¬ a.fsz < f2_5 s.dec.fs.toNat := by unfold rate at hfsz; omega
  have hbytes : ¬ a.flen ≤ 1 := by omega
  simp only [beginRules, runRules, atStep, frameEnter, rate, rule202, rule203, rule204, rule205, rule206, rule207,
    rule208, rule209, rule210, rule211, present, presentRegs, FrameRegs.clear, eInit, logCall, State.setFrame,
    State.setFresh, State.setEnv, hmin, hbytes, ↓reduceIte, Flow.andThen_go, Bool.not_true, Bool.false_and,
    Bool.false_eq_true]

/-- The working registers of a concealment of `n` samples per channel when it is ready to decode. -/
@[simps] def concealedRegs (a : FrameArgs) (n : Int) (s : State) : FrameRegs :=
  { fb := a.fb, flen := a.flen, dst := a.dst, o := a.o, fec := a.fec, stepIdx := 3, dataPresent := false, lenL := a.flen
    fsz := n, audiosize := n, m := s.dec.prevMode, transition := false, redundancy := false, celtToSilk := false
    redundancyBytes := 0, startBand := 0, redundantRng := 0, celtAccum := accumFlag s.dec.prevMode n (f10 (rate s))
    celtRet := 0, ec := none, ra := [], ps := [], seed := s.fresh }

/-- A concealment of `n` samples per channel when it is ready to decode. -/
@[simps dec pctl tctl out tr frame env]
def concealed (a : FrameArgs) (n : Int) (s : State) : State :=
  { s with frame := concealedRegs a n s, fresh := s.fresh + 1 }

/-- A concealment that needs no chunks (R207) and no rounding (R208). -/
theorem runRules_begin_concealed {n : Int} (hlen : a.flen ≤ 1) (hfsz : (f2_5 (rate s) : Int) ≤ a.fsz)
    (hn : min (min a.fsz (frameCap (rate s))) s.dec.frameSize.toNat = n) (hprev : s.dec.prevMode ≠ .uninit)
    (hchunk : n ≤ f20 (rate s)) (hround : n < f20 (rate s) → roundConceal s.dec.prevMode (rate s) n = n) :
    runRules (beginRules nested) (frameEnter a s) = .go (concealed a n s) := by
  have hmin : ¬ a.fsz < f2_5 s.dec.fs.toNat := by unfold rate at hfsz; omega
  unfold rate at hn hround hchunk
  by_cases hshort : n < f20 s.dec.fs.toNat <;>
    simp only [beginRules, runRules, atStep, frameEnter, rate, rule202, rule203, rule204, rule205, rule206, rule207,
      rule208, rule209, rule210, rule211, concealed, concealedRegs, FrameRegs.clear, State.setFrame, State.setFresh, hmin,
      hlen, hn, hprev, not_lt.2 hchunk, hshort, hround, ↓reduceIte, Flow.andThen_go, Bool.not_false, Bool.true_and,
      Bool.false_eq_true, decide_true, decide_false, transitionFlag, Bool.false_and]

/-! The look-aheads (R212, R223). -/

theorem rule212_skips (h : t.frame.transition = false ∨ t.frame.m ≠ .xform) : rule212 nested t = .go t := by
  rcases h with h | h <;> simp [rule212, h]

theorem rule223_skips (h : t.frame.transition = false ∨ t.frame.m = .xform) : rule223 nested t = .go t := by
  rcases h with h | h <;> simp [rule223, h]

/-- The operands of the look-ahead. -/
def lookAheadArgs (t : State) : FrameArgs :=
  { fb := none, flen := 0, dst := .tr, o := 0, fsz := min (f5 (rate t)) t.frame.audiosize, fec := false }

theorem lookAhead_returns {r : Int} (h : nested (lookAheadArgs t) t = .ok (r, u)) :
    lookAhead nested t = .go (u.setFrame t.frame) := by
  unfold lookAheadArgs at h
  unfold lookAhead callNested
  rw [h]

theorem rule212_looks_ahead {r : Int} (htr : t.frame.transition = true) (hm : t.frame.m = .xform)
    (h : nested (lookAheadArgs t) t = .ok (r, u)) : rule212 nested t = .go (u.setFrame t.frame) := by
  rw [rule212, htr, hm]
  exact lookAhead_returns h

theorem rule223_looks_ahead {r : Int} (htr : t.frame.transition = true) (hm : t.frame.m ≠ .xform)
    (h : nested (lookAheadArgs t) t = .ok (r, u)) : rule223 nested t = .go (u.setFrame t.frame) := by
  rw [rule223, htr, if_pos (by simp [hm])]
  exact lookAhead_returns h

/-! The rules from the capacity check to the prediction decode (R213 to R218). -/

/-- The rules that prepare the prediction decode. -/
def readyRules : List (State → Flow) := [rule213, atStep 4, rule215, rule216, rule217]

/-- The prediction engine's control block after R216 and R217. -/
def framePctl (t : State) : PCtl :=
  if t.frame.m = .xform then t.pctl
  else if t.frame.dataPresent then
    { t.pctl with payloadSizeMs := BitVec.ofInt 8 (max 10 (1000 * t.frame.audiosize / rate t))
                  nChannelsInternal := t.dec.streamChannels
                  internalSampleRate := internalRate t.frame.m t.dec.bandwidth }
  else { t.pctl with payloadSizeMs := BitVec.ofInt 8 (max 10 (1000 * t.frame.audiosize / rate t)) }

/-- The state in which the prediction engine is called. -/
@[simps dec pctl tctl out tr frame env]
def readied (t : State) : State :=
  { t with pctl := framePctl t
           env := { t.env with calls := (if predReinit t.dec.prevMode t.frame.m then [.pInit] else []) ++ t.env.calls }
           frame := { t.frame with fsz := t.frame.audiosize, stepIdx := 4 } }

theorem runRules_ready (h : t.frame.audiosize ≤ t.frame.fsz) : runRules readyRules t = .go (readied t) := by
  have hfits : ¬ t.frame.fsz < t.frame.audiosize := by omega
  by_cases hm : t.frame.m = .xform
  · simp [readyRules, runRules, rule213, atStep, rule215, rule216, rule217, readied, framePctl, predReinit, hfits, hm,
      State.setFrame, State.setPctl]
  · cases hinit : predReinit t.dec.prevMode t.frame.m <;> cases hp : t.frame.dataPresent <;>
      simp [readyRules, runRules, rule213, atStep, rule215, rule216, rule217, readied, framePctl, rate, hfits, hm, hinit,
        hp, State.setFrame, State.setPctl, pInit, logCall, State.setEnv]

theorem rule218_skips (hm : t.frame.m = .xform) : rule218 t = .go t := by simp [rule218, hm]

/-- The prediction engine has answered the samples `p`. -/
def predicted (p : List Sample) (t : State) : State :=
  bufFill (predTarget t).1 (predTarget t).2 p.length (replySample p)
    (pCalled (lostFlag t) 0 (predTarget t).1 (predTarget t).2 t)

/-- One successful reply that brings the whole frame. -/
theorem rule218_decodes {n : Int} {p : List Sample} (hm : t.frame.m ≠ .xform)
    (hr : (t.env.pDecode.next Config.freePDecode).1 = ⟨0, n, p⟩) (hpos : 1 ≤ n) (hfsz : t.frame.fsz ≤ n)
    (hcap : n ≤ predCap t) (hlen : (p.length : Int) = n * chans t) : rule218 t = .go (predicted p t) := by
  have hkeep : ∀ b i k f u, (bufFill b i k f u).frame.fsz = u.frame.fsz := fun b i k f u => by rw [bufFill_frame]
  simp only [rule218, if_pos hm, predLoop]
  rw [pDecode_success hr hpos (by omega) hlen]
  simp only [ne_eq, not_true_eq_false, false_and, if_false, words_zero, Nat.add_zero, Int.zero_add, hkeep]
  exact if_pos hfsz

/-- A frame whose bytes are present fails with the prediction engine. -/
theorem rule218_fails {r : PReply} (hm : t.frame.m ≠ .xform) (hlost : lostFlag t = 0)
    (hr : (t.env.pDecode.next Config.freePDecode).1 = r) (h0 : r.ret ≠ 0) :
    rule218 t = .done (-3) (spoilRegion (bufFill (predTarget t).1 (predTarget t).2
      (min r.samples.length (words (predCap t) t)) (replySample r.samples)
      (pCalled 0 0 (predTarget t).1 (predTarget t).2 t))) := by
  have hkeep : ∀ b i k f u, lostFlag (bufFill b i k f u) = lostFlag u := fun b i k f u => by
    unfold lostFlag
    rw [bufFill_frame]
  simp only [rule218, if_pos hm, predLoop]
  rw [pDecode_failure hr h0]
  simp only [hlost, words_zero, Nat.add_zero, hkeep, Int.sub_zero]
  exact if_pos ⟨h0, hlost⟩

/-! Redundancy detection (R219). -/

theorem rule219_skips (h : t.frame.m = .xform ∨ t.frame.dataPresent = false) : rule219 t = .go t := by
  rcases h with h | h <;> simp [rule219, h]

/-- A frame that may carry redundancy asks the entropy decoder first. -/
theorem rule219_tells {w : Word} (hfec : t.frame.fec = false) (hm : t.frame.m ≠ .xform) (hp : t.frame.dataPresent = true)
    (hr : (t.env.tell.next Config.freeTell).1 = w) (hw : 1 ≤ w.toInt) :
    rule219 t =
      if w.toInt + 17 + (if t.frame.m = .hybrid then 20 else 0) ≤ 8 * t.frame.lenL then
        if t.frame.m = .hybrid then eBitLogp 12 (told t) fun b s => if b then redundancyRead s else .go s
        else redundancyRead (told t)
      else .go (told t) := by
  simp only [rule219, hfec, hm, hp, ne_eq, not_false_eq_true, decide_true, Bool.not_false, Bool.and_self, if_true]
  rw [eTell_reply hr hw]
  rfl

/-- The entropy decoder has too few bits left for redundancy. -/
theorem rule219_without_room {w : Word} (hfec : t.frame.fec = false) (hm : t.frame.m ≠ .xform)
    (hp : t.frame.dataPresent = true) (hr : (t.env.tell.next Config.freeTell).1 = w) (hw : 1 ≤ w.toInt)
    (hroom : 8 * t.frame.lenL < w.toInt + 17 + if t.frame.m = .hybrid then 20 else 0) : rule219 t = .go (told t) := by
  rw [rule219_tells hfec hm hp hr hw, if_neg (by omega)]

/-- A hybrid frame has room for redundancy, and its bit says there is none. -/
theorem rule219_declined {w : Word} {bits : List Bool} (hfec : t.frame.fec = false) (hm : t.frame.m = .hybrid)
    (hp : t.frame.dataPresent = true) (hr : (t.env.tell.next Config.freeTell).1 = w) (hw : 1 ≤ w.toInt)
    (hroom : w.toInt + 37 ≤ 8 * t.frame.lenL) (hb : t.env.bit.given = false :: bits) :
    rule219 t = .go ((told t).setEnv { (told t).env with bit := ⟨bits, t.env.bit.used + 1⟩
                                                         calls := .eBitLogp 12 :: .eTell :: t.env.calls }) := by
  rw [rule219_tells hfec (by simp [hm]) hp hr hw, if_pos (by simp only [hm, if_true]; omega), if_pos hm]
  simp [eBitLogp, told, Draws.next_given hb, logCall, State.setEnv]

/-- A hybrid frame begins with a redundancy frame of `v + 2` bytes. -/
@[simps dec pctl tctl out tr frame env]
def leadingRead (v : Int) (bits : List Bool) (us ws : List Word) (t : State) : State :=
  { t with
    env := { t.env with bit := ⟨bits, t.env.bit.used + 2⟩, uint := ⟨us, t.env.uint.used + 1⟩
                        tell := ⟨ws, t.env.tell.used + 2⟩
                        calls := .eShrinkStorage (v + 2) :: .eTell :: .eUint 256 :: .eBitLogp 1 :: .eBitLogp 12 ::
                          .eTell :: t.env.calls }
    frame := { t.frame with redundancy := true, celtToSilk := true, redundancyBytes := v + 2
                            lenL := t.frame.lenL - (v + 2)
                            ec := t.frame.ec.map fun c => { c with len := c.len - (v + 2) } } }

theorem rule219_leading {w w1 v : Word} {ws us : List Word} {bits : List Bool} (hfec : t.frame.fec = false)
    (hm : t.frame.m = .hybrid) (hp : t.frame.dataPresent = true) (ht : t.env.tell.given = w :: w1 :: ws)
    (hw : 1 ≤ w.toInt) (hroom : w.toInt + 37 ≤ 8 * t.frame.lenL) (hb : t.env.bit.given = true :: true :: bits)
    (hu : t.env.uint.given = v :: us) (hv : v.toNat < 256) (hw1 : 1 ≤ w1.toInt)
    (hfits : w1.toInt ≤ 8 * (t.frame.lenL - (v.toNat + 2))) : rule219 t = .go (leadingRead v.toNat bits us ws t) := by
  rw [rule219_tells hfec (by simp [hm]) hp (by rw [Draws.next_given ht]) hw,
    if_pos (by simp only [hm, if_true]; omega), if_pos hm]
  have hreplies : ¬ 256 ≤ v.toNat ∧ ¬ w1.toInt < 1 ∧ ¬ 8 * (t.frame.lenL - (v.toNat + 2)) < w1.toInt := by omega
  simp [eBitLogp, told, redundancyRead, redundancyTake, eUint, eTell, eShrinkStorage, leadingRead, Draws.next, hb, ht, hu,
    hm, hreplies, logCall, State.setEnv, State.setFrame, Nat.add_assoc]

/-- A prediction-only frame of `k` bytes ends with a redundancy frame. -/
@[simps dec pctl tctl out tr frame env]
def trailingRead (k : Int) (bits : List Bool) (ws : List Word) (t : State) : State :=
  { t with
    env := { t.env with bit := ⟨bits, t.env.bit.used + 1⟩, tell := ⟨ws, t.env.tell.used + 3⟩
                        calls := .eShrinkStorage (t.frame.lenL - k) :: .eTell :: .eTell :: .eBitLogp 1 :: .eTell ::
                          t.env.calls }
    frame := { t.frame with redundancy := true, celtToSilk := false, redundancyBytes := t.frame.lenL - k, lenL := k
                            ec := t.frame.ec.map fun c => { c with len := c.len - (t.frame.lenL - k) } } }

theorem rule219_trailing {w w1 w2 : Word} {ws : List Word} {bits : List Bool} {k : Int} (hfec : t.frame.fec = false)
    (hm : t.frame.m = .pred) (hp : t.frame.dataPresent = true) (ht : t.env.tell.given = w :: w1 :: w2 :: ws)
    (hw : 1 ≤ w.toInt) (hroom : w.toInt + 17 ≤ 8 * t.frame.lenL) (hb : t.env.bit.given = false :: bits)
    (hw1 : 1 ≤ w1.toInt) (hk : (w1.toInt + 7) / 8 = k) (hw2 : 1 ≤ w2.toInt) (hfits : w2.toInt ≤ 8 * k) :
    rule219 t = .go (trailingRead k bits ws t) := by
  rw [rule219_tells hfec (by simp [hm]) hp (by rw [Draws.next_given ht]) hw, if_pos (by simp [hm]; omega),
    if_neg (by simp [hm])]
  have hreplies : ¬ w1.toInt < 1 ∧ ¬ w2.toInt < 1 ∧ ¬ 8 * k < w2.toInt := by omega
  simp [eBitLogp, told, redundancyRead, redundancyTake, eTell, eShrinkStorage, trailingRead, Draws.next, hb, ht, hm, hk,
    hreplies, logCall, State.setEnv, State.setFrame, Nat.add_assoc]

/-! The bands and the redundancy frame (R220 to R224). -/

/-- R220 to R222 have run. -/
@[simps dec pctl tctl out tr frame env]
def banded (t : State) : State :=
  { t with tctl := { t.tctl with endBand := endBandOf t.dec.bandwidth, channels := t.dec.streamChannels }
           env := { t.env with calls := .tSetChannels t.dec.streamChannels :: .tSetEndBand (endBandOf t.dec.bandwidth) ::
             t.env.calls }
           frame := { t.frame with startBand := startBandOf t.frame.m
                                   transition := uncoveredTransition t.frame.transition t.frame.redundancy } }

theorem runRules_bands (t : State) : runRules [rule220, rule221, rule222] t = .go (banded t) := by
  simp [runRules, rule220, rule221, rule222, banded, tSetChannels, tSetEndBand, logCall, State.setFrame, State.setTctl,
    State.setEnv]

theorem rule224_skips (h : t.frame.redundancy = false ∨ t.frame.celtToSilk = false) : rule224 t = .go t := by
  rcases h with h | h <;> simp [rule224, h]

/-- The redundancy frame has been decoded into RA, and its final range read. -/
@[simps dec pctl tctl out tr frame env]
def redundant (own : List Sample) (ts : List TReply) (g : Word) (gs : List Word) (t : State) : State :=
  { t with
    env := { t.env with tDecode := ⟨ts, t.env.tDecode.used + 1⟩, finalRange := ⟨gs, t.env.finalRange.used + 1⟩
                        calls := .tGetFinalRange ::
                          .tDecode (some (.packet (t.frame.fb.getD 0 + t.frame.lenL) t.frame.redundancyBytes))
                            t.frame.redundancyBytes .ra 0 (f5 (rate t)) none false :: t.env.calls }
    frame := { t.frame with ra := t.frame.ra.putRange 0 own.length (replySample own), redundantRng := g } }

theorem decodeRedundancy_success {ret : Int} {own : List Sample} {ts : List TReply} {g : Word} {gs : List Word}
    (hd : t.env.tDecode.given = ⟨ret, own⟩ :: ts) (h0 : 0 ≤ ret) (hlen : own.length = f5 (rate t) * chans t)
    (hg : t.env.finalRange.given = g :: gs) : decodeRedundancy t = .go (redundant own ts g gs t) := by
  unfold decodeRedundancy
  rw [tDecode_success (by rw [Draws.next_given hd]) h0 hlen]
  simp [tGetFinalRange, logCall, tCalled, bufFill, redundant, tSample_own, Draws.next, hd, hg, State.setEnv, State.setFrame]

theorem rule224_decodes (hred : t.frame.redundancy = true) (hdir : t.frame.celtToSilk = true)
    (h : decodeRedundancy (tSetStartBand 0 t) = .go u) : rule224 t = .go u := by
  rw [rule224, hred, hdir]
  exact h

/-! The transform engine (R225 to R229). -/

/-- The step index of 10_state.md R24 is `n`. -/
@[simps dec pctl tctl out tr frame env]
def stepped (n : Nat) (t : State) : State := { t with frame := { t.frame with stepIdx := n } }

theorem atStep_eq (n : Nat) (t : State) : atStep n t = .go (stepped n t) := rfl

/-- The start band of the main decode is set. -/
@[simps dec pctl tctl out tr frame env]
def started (t : State) : State :=
  { t with tctl := { t.tctl with startBand := t.frame.startBand }
           env := { t.env with calls := .tSetStartBand t.frame.startBand :: t.env.calls } }

theorem rule225_eq (t : State) : rule225 t = .go (started t) := rfl

theorem bufFill_frame_of_dst {b : Buf} (hb : b = .pcm ∨ b = .tr) (base n : Nat) (f : Nat → Sample) (t : State) :
    (bufFill b base n f t).frame = t.frame := by
  rcases hb with rfl | rfl <;> rfl

/-- `n` words of OUT from word `base` of the frame on are `f`. -/
@[simps dec pctl tctl out tr frame env]
def filled (base n : Nat) (f : Nat → Sample) (t : State) : State :=
  { t with out := t.out.fill (t.frame.o + base) n f }

section

variable (hdst : t.frame.dst = .pcm)
include hdst

theorem outFill_pcm (base n : Nat) (f : Nat → Sample) : outFill base n f t = filled base n f t := by
  unfold outFill
  rw [hdst]
  rfl

theorem outRead_pcm (j : Nat) : outRead j t = t.out.read (t.frame.o + j) := by
  unfold outRead
  rw [hdst]
  rfl

end

/-- The transform engine as its main decode finds it (R226): reset where the FSM says so. -/
@[simps dec pctl tctl out tr frame env]
def resetBefore (t : State) : State :=
  { t with tctl := if xformReset t.dec.prevMode t.frame.m t.dec.prevRedundancy then Config.tResetControls t.tctl else t.tctl
           env := { t.env with
             calls := (if xformReset t.dec.prevMode t.frame.m t.dec.prevRedundancy then [.tReset] else []) ++ t.env.calls } }

theorem resetBefore_eq (t : State) :
    (if xformReset t.dec.prevMode t.frame.m t.dec.prevRedundancy then tReset t else t) = resetBefore t := by
  cases h : xformReset t.dec.prevMode t.frame.m t.dec.prevRedundancy <;>
    simp [resetBefore, tReset, h, logCall, State.setTctl, State.setEnv]

/-- The main decode has been called (R226). -/
@[simps! dec pctl tctl out tr frame env]
def mainCalled (t : State) : State :=
  tCalled (if t.frame.fec || !t.frame.dataPresent then none else some (.packet (t.frame.fb.getD 0) t.frame.lenL))
    t.frame.lenL t.frame.dst t.frame.o (mainSize t).toNat (if t.frame.dataPresent then t.frame.ec else none)
    t.frame.celtAccum (resetBefore t)

/-- The main decode has answered `ret`, and the `n` samples `f` stand in its output. -/
def mixed (ret : Int) (n : Nat) (f : Nat → Sample) (t : State) : State :=
  (bufFill t.frame.dst t.frame.o n f (mainCalled t)).setFrame { t.frame with celtRet := ret }

@[simp] theorem mixed_dec (ret : Int) (n : Nat) (f : Nat → Sample) (t : State) : (mixed ret n f t).dec = t.dec :=
  bufFill_dec ..
@[simp] theorem mixed_pctl (ret : Int) (n : Nat) (f : Nat → Sample) (t : State) : (mixed ret n f t).pctl = t.pctl :=
  bufFill_pctl ..
@[simp] theorem mixed_tctl (ret : Int) (n : Nat) (f : Nat → Sample) (t : State) :
    (mixed ret n f t).tctl = (resetBefore t).tctl := bufFill_tctl ..
@[simp] theorem mixed_env (ret : Int) (n : Nat) (f : Nat → Sample) (t : State) :
    (mixed ret n f t).env = (mainCalled t).env := bufFill_env ..
@[simp] theorem mixed_frame (ret : Int) (n : Nat) (f : Nat → Sample) (t : State) :
    (mixed ret n f t).frame = { t.frame with celtRet := ret } := rfl

theorem mixed_out (ret : Int) (n : Nat) (f : Nat → Sample) (hdst : t.frame.dst = .pcm) :
    (mixed ret n f t).out = t.out.fill t.frame.o n f := by
  unfold mixed
  rw [hdst]
  rfl

theorem mixed_tr (ret : Int) (n : Nat) (f : Nat → Sample) (hdst : t.frame.dst = .pcm) : (mixed ret n f t).tr = t.tr := by
  unfold mixed
  rw [hdst]
  rfl

theorem mixed_to_tr (ret : Int) (n : Nat) (f : Nat → Sample) (hdst : t.frame.dst = .tr) :
    (mixed ret n f t).out = t.out ∧ (mixed ret n f t).tr = t.tr.putRange t.frame.o n f := by
  unfold mixed
  rw [hdst]
  exact ⟨rfl, rfl⟩

theorem rule226_skips (hm : t.frame.m = .pred) : rule226 t = .go t := by simp [rule226, hm]

theorem rule226_decodes {ret : Int} {own : List Sample} (hm : t.frame.m ≠ .pred)
    (hdst : t.frame.dst = .pcm ∨ t.frame.dst = .tr) (hd : (t.env.tDecode.next Config.freeTDecode).1 = ⟨ret, own⟩)
    (h0 : 0 ≤ ret) (hlen : own.length = (mainSize t).toNat * chans t) :
    rule226 t = .go (mixed ret own.length (tSample t.frame.dst t.frame.o t.frame.celtAccum own (mainCalled t)) t) := by
  simp only [rule226, if_pos hm, resetBefore_eq]
  rw [tDecode_success (s := resetBefore t) hd h0 hlen]
  simp only [mixed, mainCalled, bufFill_frame_of_dst hdst, tCalled_frame, resetBefore_frame]

theorem rule226_fails {r : TReply} (hm : t.frame.m ≠ .pred) (hdst : t.frame.dst = .pcm ∨ t.frame.dst = .tr)
    (hd : (t.env.tDecode.next Config.freeTDecode).1 = r) (hcode : isErrorCode r.ret = true) :
    rule226 t = .go (mixed r.ret (min r.own.length ((mainSize t).toNat * chans t)) (replySample r.own) t) := by
  simp only [rule226, if_pos hm, resetBefore_eq]
  rw [tDecode_failure (s := resetBefore t) hd hcode]
  simp only [mixed, mainCalled, bufFill_frame_of_dst hdst, tCalled_frame, resetBefore_frame]
  rfl

theorem rule227_skips (h : t.frame.dataPresent = true ∨ 0 ≤ t.frame.celtRet) : rule227 t = .go t := by
  rcases h with h | h
  · simp [rule227, h]
  · simp [rule227, show ¬ t.frame.celtRet < 0 by omega]

/-- A concealment whose transform decode has failed is silent (R227). -/
def absorbed (t : State) : State :=
  (outFill 0 (words (mainSize t) t) (fun _ => 0) t).setFrame { t.frame with celtRet := 0 }

@[simp] theorem absorbed_dec (t : State) : (absorbed t).dec = t.dec := bufFill_dec ..
@[simp] theorem absorbed_pctl (t : State) : (absorbed t).pctl = t.pctl := bufFill_pctl ..
@[simp] theorem absorbed_frame (t : State) : (absorbed t).frame = { t.frame with celtRet := 0 } := rfl

theorem absorbed_out (hdst : t.frame.dst = .pcm) :
    (absorbed t).out = t.out.fill t.frame.o (words (mainSize t) t) fun _ => 0 := by
  unfold absorbed outFill
  rw [hdst]
  rfl

theorem rule227_silences (hp : t.frame.dataPresent = false) (hneg : t.frame.celtRet < 0)
    (hdst : t.frame.dst = .pcm ∨ t.frame.dst = .tr) : rule227 t = .go (absorbed t) := by
  simp only [rule227, hp, hneg, decide_true, Bool.not_false, Bool.and_self, if_true, absorbed, outFill,
    bufFill_frame_of_dst hdst]

theorem rule228_skips (h : t.frame.m ≠ .pred ∨ (t.frame.celtAccum = true ∧
    fadeOut t.dec.prevMode t.frame.redundancy t.frame.celtToSilk t.dec.prevRedundancy = false)) : rule228 t = .go t := by
  by_cases hm : t.frame.m = .pred
  · obtain ⟨hacc, hfade⟩ := h.resolve_left fun h => h hm
    simp [rule228, hm, hacc, hfade]
  · simp [rule228, hm]

/-- The zeros of a prediction-only frame whose samples stand in PS. -/
theorem rule228_clears (hm : t.frame.m = .pred) (hacc : t.frame.celtAccum = false)
    (hfade : fadeOut t.dec.prevMode t.frame.redundancy t.frame.celtToSilk t.dec.prevRedundancy = false) :
    rule228 t = .go (outFill 0 (words t.frame.fsz t) (fun _ => 0) t) := by
  simp [rule228, hm, hacc, hfade]

/-- The fade-out frame has been called for (R228). -/
@[simps! dec pctl tctl out tr frame env]
def fadeOutCalled (t : State) : State :=
  tCalled (some .silence2) 2 t.frame.dst t.frame.o (f2_5 (rate t)) none true (tSetStartBand 0 t)

/-- A prediction-only frame after a hybrid one: the fade-out frame is added to it. -/
theorem rule228_fades {ret : Int} {d : List Sample} (hm : t.frame.m = .pred) (hacc : t.frame.celtAccum = true)
    (hdst : t.frame.dst = .pcm)
    (hfade : fadeOut t.dec.prevMode t.frame.redundancy t.frame.celtToSilk t.dec.prevRedundancy = true)
    (hd : (t.env.tDecode.next Config.freeTDecode).1 = ⟨ret, d⟩) (h0 : 0 ≤ ret)
    (hlen : d.length = f2_5 (rate t) * chans t) :
    rule228 t = .go (filled 0 d.length (tSample .pcm t.frame.o true d (fadeOutCalled t)) (fadeOutCalled t)) := by
  simp only [rule228, hm, hacc, hfade, if_true]
  rw [tDecode_success (s := tSetStartBand 0 t) hd h0 hlen, hdst, fadeOutCalled, hdst]
  rfl

theorem rule229_skips (h : t.frame.m = .xform ∨ t.frame.celtAccum = true) : rule229 t = .go t := by
  rcases h with h | h <;> simp [rule229, h]

theorem rule229_sums (hm : t.frame.m ≠ .xform) (hacc : t.frame.celtAccum = false) :
    rule229 t = .go (outFill 0 (words t.frame.fsz t) (fun j => addSat (outRead j t) (bufRead .ps j t)) t) := by
  simp [rule229, hm, hacc]

/-! The cross-fades (R230 to R232). -/

theorem rule230_skips (h : t.frame.redundancy = false ∨ t.frame.celtToSilk = true) : rule230 t = .go t := by
  rcases h with h | h <;> simp [rule230, h]

/-- The last 2.5 ms have faded into the second half of RA (R230). -/
@[simps! dec pctl tctl out tr frame env]
def trailingFaded (t : State) : State :=
  filled (words (t.frame.fsz - f2_5 (rate t)) t) (words (f2_5 (rate t)) t) (fun j =>
    fadeBlend (fadeW (j / chans t) (rate t)) (t.out.read (t.frame.o + (words (t.frame.fsz - f2_5 (rate t)) t + j)))
      (bufRead .ra (words (f2_5 (rate t)) t + j) t)) t

theorem rule230_fades (hred : t.frame.redundancy = true) (hdir : t.frame.celtToSilk = false) (hdst : u.frame.dst = .pcm)
    (h : decodeRedundancy (tSetStartBand 0 (tReset t)) = .go u) : rule230 t = .go (trailingFaded u) := by
  simp only [rule230, hred, hdir, Bool.not_false, Bool.and_self, if_true, h, Flow.andThen_go, fadeInto, outFill_pcm hdst,
    outRead_pcm hdst, trailingFaded]

theorem rule231_skips (h : t.frame.redundancy = false ∨ t.frame.celtToSilk = false) : rule231 t = .go t := by
  rcases h with h | h <;> simp [rule231, h]

/-- The first 2.5 ms are RA's (R231). -/
@[simps! dec pctl tctl out tr frame env]
def leadingCopied (t : State) : State := filled 0 (words (f2_5 (rate t)) t) (fun j => bufRead .ra j t) t

/-- The next 2.5 ms fade from RA into the main output (R231). -/
@[simps! dec pctl tctl out tr frame env]
def leadingFaded (t : State) : State :=
  filled (words (f2_5 (rate t)) t) (words (f2_5 (rate t)) t) (fun j =>
    fadeBlend (fadeW (j / chans t) (rate t)) (bufRead .ra (words (f2_5 (rate t)) t + j) t)
      (t.out.read (t.frame.o + (words (f2_5 (rate t)) t + j)))) t

theorem rule231_fades (hred : t.frame.redundancy = true) (hdir : t.frame.celtToSilk = true) (hdst : t.frame.dst = .pcm) :
    rule231 t = .go (leadingFaded (leadingCopied t)) := by
  have hdst' : (leadingCopied t).frame.dst = .pcm := hdst
  have hcopy : outFill 0 (words (f2_5 (rate t)) t) (fun j => bufRead .ra j t) t = leadingCopied t := outFill_pcm hdst ..
  simp only [rule231, hred, hdir, Bool.and_self, if_true, hcopy, fadeInto, outFill_pcm hdst', outRead_pcm hdst']
  simp only [leadingFaded, words, rate, chans, leadingCopied_dec]

theorem rule232_skips (h : t.frame.transition = false) : rule232 t = .go t := by simp [rule232, h]

/-- The first 2.5 ms fade from the look-ahead, or are the look-ahead in a short frame (R232). -/
@[simps! dec pctl tctl out tr frame env]
def transitionFaded (t : State) : State :=
  filled 0 (words (f2_5 (rate t)) t) (fun j =>
    if (f5 (rate t) : Int) ≤ t.frame.audiosize then
      fadeBlend (fadeW (j / chans t) (rate t)) (bufRead .tr j t) (t.out.read (t.frame.o + j))
    else bufRead .tr j t) t

theorem rule232_fades (h : t.frame.transition = true) (hdst : t.frame.dst = .pcm) :
    rule232 t = .go (transitionFaded t) := by
  by_cases h5 : (f5 (rate t) : Int) ≤ t.frame.audiosize <;>
    simp [rule232, transitionFaded, fadeInto, outFill_pcm hdst, outRead_pcm hdst, h, h5]

/-! The gain, the final range and the update (R234 to R237). -/

/-- The gain step has run (R234). -/
def gained (t : State) : State :=
  if t.dec.decodeGain ≠ 0 then outFill 0 (words t.frame.fsz t) (fun j => gainSample t.dec.decodeGain (outRead j t)) t
  else t

theorem rule234_eq (t : State) : rule234 t = .go (gained t) := by
  unfold rule234 gained
  split <;> rfl

theorem gained_of_zero (h : t.dec.decodeGain = 0) : gained t = t := if_neg fun hne => hne h

@[simp] theorem gained_dec (t : State) : (gained t).dec = t.dec := by
  unfold gained; split
  · exact bufFill_dec ..
  · rfl
@[simp] theorem gained_pctl (t : State) : (gained t).pctl = t.pctl := by
  unfold gained; split
  · exact bufFill_pctl ..
  · rfl
@[simp] theorem gained_tctl (t : State) : (gained t).tctl = t.tctl := by
  unfold gained; split
  · exact bufFill_tctl ..
  · rfl
@[simp] theorem gained_env (t : State) : (gained t).env = t.env := by
  unfold gained; split
  · exact bufFill_env ..
  · rfl
theorem gained_frame (hdst : t.frame.dst = .pcm ∨ t.frame.dst = .tr) : (gained t).frame = t.frame := by
  unfold gained; split
  · exact bufFill_frame_of_dst hdst ..
  · rfl

/-- The entropy decoder's final range is recorded (R235). -/
@[simps dec pctl tctl out tr frame env]
def ranged (t : State) : State :=
  { t with dec := { t.dec with rangeFinal := (t.env.rng.next Config.freeRng).1 ^^^ t.frame.redundantRng }
           env := { t.env with rng := (t.env.rng.next Config.freeRng).2, calls := .eRng :: t.env.calls } }

theorem rule235_ranges (h : 2 ≤ t.frame.lenL) : rule235 t = .go (ranged t) := by
  unfold rule235
  rw [if_neg (by omega)]
  rfl

/-- A concealment has no final range (R235). -/
@[simps dec pctl tctl out tr frame env]
def rangeCleared (t : State) : State := { t with dec := { t.dec with rangeFinal := 0 } }

theorem rule235_clears (h : t.frame.lenL ≤ 1) : rule235 t = .go (rangeCleared t) := by
  unfold rule235
  rw [if_pos h]
  rfl

/-- The frame-select state is updated (R236). -/
@[simps dec pctl tctl out tr frame env]
def updated (t : State) : State :=
  { t with dec := { t.dec with prevMode := t.frame.m
                               prevRedundancy := nextRedundancy t.frame.redundancy t.frame.celtToSilk } }

theorem rule236_eq (t : State) : rule236 t = .go (updated t) := rfl

theorem rule237_success (h : 0 ≤ t.frame.celtRet) : rule237 t = (t.frame.audiosize, t) := by
  unfold rule237
  rw [if_neg (by omega)]

/-! A whole invocation, rule by rule. -/

theorem frameRules_eq (nested : FrameArgs → State → FrameResult) : frameRules nested =
    beginRules nested ++ rule212 nested :: (readyRules ++ rule218 :: atStep 5 :: rule219 :: ([rule220, rule221, rule222] ++
      rule223 nested :: rule224 :: atStep 6 :: rule225 :: rule226 :: rule227 :: rule228 :: atStep 7 :: rule229 ::
      atStep 8 :: rule230 :: rule231 :: atStep 9 :: rule232 :: atStep 10 :: rule234 :: atStep 11 :: rule235 ::
      [rule236])) := rfl

theorem runRules_cons_go {r : State → Flow} {rs : List (State → Flow)} (h : r t = .go u) :
    runRules (r :: rs) t = runRules rs u := by
  rw [runRules, h, Flow.andThen_go]

/-- An invocation that runs to its end, from what each of its rules comes to. -/
theorem decodeFrameWith_of_rules {t0 t1 t2 t3 t4 t5 t6 t7 t8 t9 t10 t11 t12 t13 : State}
    (hbegin : runRules (beginRules nested) (frameEnter a s) = .go t0) (h212 : rule212 nested t0 = .go t1)
    (h213 : t1.frame.audiosize ≤ t1.frame.fsz) (h218 : rule218 (readied t1) = .go t2)
    (h219 : rule219 (stepped 5 t2) = .go t3) (h223 : rule223 nested (banded t3) = .go t4)
    (h224 : rule224 t4 = .go t5) (h226 : rule226 (started (stepped 6 t5)) = .go t6) (h227 : rule227 t6 = .go t7)
    (h228 : rule228 t7 = .go t8) (h229 : rule229 (stepped 7 t8) = .go t9) (h230 : rule230 (stepped 8 t9) = .go t10)
    (h231 : rule231 t10 = .go t11) (h232 : rule232 (stepped 9 t11) = .go t12)
    (h235 : rule235 (stepped 11 (gained (stepped 10 t12))) = .go t13) (hret : 0 ≤ t13.frame.celtRet) :
    decodeFrameWith nested a s = .ok (t13.frame.audiosize, updated t13) := by
  have hrest : runRules (rule218 :: atStep 5 :: rule219 :: ([rule220, rule221, rule222] ++
      rule223 nested :: rule224 :: atStep 6 :: rule225 :: rule226 :: rule227 :: rule228 :: atStep 7 :: rule229 ::
      atStep 8 :: rule230 :: rule231 :: atStep 9 :: rule232 :: atStep 10 :: rule234 :: atStep 11 :: rule235 ::
      [rule236])) (readied t1) = .go (updated t13) := by
    rw [runRules_cons_go h218, runRules_cons_go (atStep_eq 5 _), runRules_cons_go h219, runRules_append, runRules_bands,
      Flow.andThen_go, runRules_cons_go h223, runRules_cons_go h224, runRules_cons_go (atStep_eq 6 _),
      runRules_cons_go (rule225_eq _), runRules_cons_go h226, runRules_cons_go h227, runRules_cons_go h228,
      runRules_cons_go (atStep_eq 7 _), runRules_cons_go h229, runRules_cons_go (atStep_eq 8 _), runRules_cons_go h230,
      runRules_cons_go h231, runRules_cons_go (atStep_eq 9 _), runRules_cons_go h232, runRules_cons_go (atStep_eq 10 _),
      runRules_cons_go (rule234_eq _), runRules_cons_go (atStep_eq 11 _), runRules_cons_go h235,
      runRules_cons_go (rule236_eq _), runRules]
  unfold decodeFrameWith
  rw [frameRules_eq, runRules_append, hbegin, Flow.andThen_go, runRules_cons_go h212, runRules_append,
    runRules_ready h213, Flow.andThen_go, hrest, Flow.close, rule237_success (t := updated t13) hret]
  rfl

/-- An invocation that ends with the prediction decode. -/
theorem decodeFrameWith_of_failure {t0 t1 : State} {r : Int}
    (hbegin : runRules (beginRules nested) (frameEnter a s) = .go t0) (h212 : rule212 nested t0 = .go t1)
    (h213 : t1.frame.audiosize ≤ t1.frame.fsz) (h218 : rule218 (readied t1) = .done r u) :
    decodeFrameWith nested a s = .ok (r, u) := by
  unfold decodeFrameWith
  rw [frameRules_eq, runRules_append, hbegin, Flow.andThen_go, runRules_cons_go h212, runRules_append,
    runRules_ready h213, Flow.andThen_go, runRules, h218]
  rfl

end Sys2Proof.Machine
end

section
/-! PROOFS. What a frame leaves in OUT, and the invocations that call no engine (42_frame_fsm.md R202, R206). -/

namespace Sys2Proof.Machine

variable {s t u : State} {a : FrameArgs}

/-! The region of a frame in OUT. -/

/-- `n` words of `m'` from word `o` on are `f`; elsewhere `m'` reads as `m`. -/
structure Memory.Region {w : Nat} (m : Memory w) (o n : Nat) (f : Nat → BitVec w) (m' : Memory w) : Prop where
  wf : m'.wf = true
  read : ∀ i, m'.read i = if o ≤ i ∧ i < o + n then f (i - o) else m.read i

namespace Memory.Region

variable {w o n b k : Nat} {m m' : Memory w} {f g : Nat → BitVec w}

theorem fill (h : m.wf = true) : Region m o n f (m.fill o n f) := ⟨wf_fill h _ _ _, read_fill h o n f⟩

theorem self (h : m.wf = true) : Region m o n (fun j => m.read (o + j)) m :=
  ⟨h, fun i => by split <;> [(congr 1; omega); rfl]⟩

theorem get (h : Region m o n f m') {j : Nat} (hj : j < n) : m'.read (o + j) = f j := by
  rw [h.read, if_pos (by omega), Nat.add_sub_cancel_left]

theorem congr (h : Region m o n f m') (hfg : ∀ j < n, f j = g j) : Region m o n g m' := by
  refine ⟨h.wf, fun i => ?_⟩
  rw [h.read]
  split
  · exact hfg _ (by omega)
  · rfl

/-- Part of the region is written again. -/
theorem overlay (h : Region m o n f m') (hk : b + k ≤ n) :
    Region m o n (fun j => if b ≤ j ∧ j < b + k then g (j - b) else f j) (m'.fill (o + b) k g) := by
  refine ⟨wf_fill h.wf _ _ _, fun i => ?_⟩
  rw [read_fill h.wf, h.read]
  by_cases hi : o ≤ i ∧ i < o + n
  · by_cases hb : o + b ≤ i ∧ i < o + b + k
    · rw [if_pos hb, if_pos hi, if_pos (by omega), Nat.sub_sub]
    · rw [if_neg hb, if_pos hi, if_pos hi, if_neg (by omega)]
  · rw [if_neg (by omega), if_neg hi, if_neg hi]

/-- The whole region is written again. -/
theorem rewrite (h : Region m o n f m') : Region m o n g (m'.fill o n g) :=
  (h.overlay (b := 0) (k := n) (g := g) (by omega)).congr fun j hj => by rw [if_pos (by omega)]; rfl

end Memory.Region

/-- The first `k` samples of a frame get the saturating sum with an engine's samples. -/
theorem Memory.Region.sum {o n k : Nat} {m m' : Memory 16} {f : Nat → Sample} {own : List Sample}
    (h : Memory.Region m o n f m') (hlen : own.length = k) (hk : k ≤ n) (ht : t.out = m') :
    Memory.Region m o n (fun j => if j < k then addSat (f j) (replySample own j) else f j)
      (m'.fill o own.length (tSample .pcm o true own t)) := by
  subst hlen ht
  refine (h.overlay (b := 0) (by omega)).congr fun j hj => ?_
  by_cases hjk : j < own.length
  · rw [if_pos (by omega), if_pos hjk, tSample_sum, Nat.sub_zero]
    show addSat (t.out.read (o + j)) _ = _
    rw [h.get hj]
  · rw [if_neg (by omega), if_neg hjk]

/-- The gain step, over a whole frame. -/
theorem gained_region {o n : Nat} {m : Memory 16} {f : Nat → Sample} (hdst : t.frame.dst = .pcm) (ho : t.frame.o = o)
    (hn : words t.frame.fsz t = n) (h : Memory.Region m o n f t.out) :
    Memory.Region m o n (fun j => afterGain t.dec.decodeGain (f j)) (gained t).out := by
  subst ho hn
  unfold gained
  by_cases hg : t.dec.decodeGain = 0
  · rw [if_neg fun hne => hne hg]
    exact h.congr fun j _ => by rw [afterGain, if_pos hg]
  · rw [if_pos hg, outFill, hdst]
    refine h.rewrite.congr fun j hj => ?_
    rw [afterGain, if_neg hg, outRead, hdst, bufRead, h.get hj]

/-- What a frame leaves in OUT, outside its region and in it. -/
theorem frameEnded_region {o n : Nat} {r : Int} {f : Nat → Sample} (h : Memory.Region s.out o n f u.out) :
    OutBeside o n s (frameEnded r u) ∧ ∀ j < n, (frameEnded r u).out.read (o + j) = f j :=
  ⟨fun i hi => by rw [frameEnded_out, h.read, if_neg (by omega)], fun _ hj => h.get hj⟩

/-- What a frame leaves in OUT, where the words of its region are told apart. -/
theorem frameEnded_region_and {o n : Nat} {r : Int} {f : Nat → Sample} {P : Prop} (h : Memory.Region s.out o n f u.out)
    (hP : (∀ j < n, (frameEnded r u).out.read (o + j) = f j) → P) : OutBeside o n s (frameEnded r u) ∧ P :=
  ⟨(frameEnded_region h).1, hP (frameEnded_region h).2⟩

/-! Requests that are too short, and silence. -/

theorem runRules_tooSmall {rs : List (State → Flow)} (h : a.fsz < f2_5 (rate s)) :
    runRules (atStep 1 :: rule202 :: rs) (frameEnter a s) =
      .done ErrCode.bufferTooSmall.code (stepped 1 (frameEnter a s)) := by
  unfold rate at h
  rw [runRules_cons_go (atStep_eq 1 _), runRules]
  simp only [rule202, stepped, frameEnter, rate, State.setFrame_frame, State.setFresh_frame, State.setFrame_dec,
    State.setFresh_dec, h, if_true, Flow.err, Flow.andThen_done]

theorem decodeFrame_tooSmall (h : a.fsz < f2_5 (rate s)) :
    decodeFrame a s = .ok (ErrCode.bufferTooSmall.code, stepped 1 (frameEnter a s)) := by
  unfold decodeFrame decodeFrameWith
  rw [frameRules_eq, runRules_append, beginRules, runRules_tooSmall h]
  rfl

/-- Settles O46: R202 ends an invocation before it does anything, and R206 before it calls an engine. -/
theorem frameMinimumAndSilence : Obligations.FrameMinimumAndSilence := by
  unfold Obligations.FrameMinimumAndSilence
  intro s fb flen o fsz fec
  refine ⟨fun hsmall => ?_, fun n hs hc hprev hlen hfsz hn => ?_⟩
  · have h := decodeFrame_tooSmall (a := { fb := fb, flen := flen, dst := .pcm, o := o, fsz := fsz, fec := fec }) hsmall
    exact ⟨_, exec_decodeFrame h, by simp [ErrCode.code], frameOnly_frameEnded h, by simp [frameEnter]⟩
  · have h := decodeFrame_silence (a := { fb := fb, flen := flen, dst := .pcm, o := o, fsz := fsz, fec := fec })
      (hs.legal hc).dec hprev hlen rfl hfsz
    rw [← hn] at h
    have hregion : Memory.Region s.out o (words n s) (fun _ => 0) (silenced
      { fb := fb, flen := flen, dst := .pcm, o := o, fsz := fsz, fec := fec } n s).out := .fill hs.out
    exact ⟨_, exec_decodeFrame h, by simp, frameOnly_frameEnded h, by simp [silenced], by simp [silenced],
      by simp [silenced], by simp [silenced], frameEnded_region hregion⟩

end Sys2Proof.Machine
end

section
/-! PROOFS. Concealment by one engine call (42_frame_fsm.md R204 to R209, R226, R227): a failing transform engine, and the two
look-aheads that a transition needs. -/

namespace Sys2Proof.Machine

variable {s t u : State} {a : FrameArgs} {nested : FrameArgs → State → FrameResult}

/-- The sizes of a legal rate, each twice the one before it (00_scope.md R8). -/
theorem LegalDecoder.rate_sizes (h : LegalDecoder s.dec) : 0 < f2_5 (Machine.rate s) ∧
    f5 (Machine.rate s) = 2 * f2_5 (Machine.rate s) ∧ f10 (Machine.rate s) = 2 * f5 (Machine.rate s) ∧
    f20 (Machine.rate s) = 2 * f10 (Machine.rate s) := by
  obtain ⟨F, _, h20, _, h25, h5, h10, hf20, _⟩ := h.sizes
  unfold Machine.rate
  omega

/-- R208 leaves the transform engine's own sizes alone. -/
theorem roundConceal_xform (hl : LegalDecoder s.dec) {n : Nat}
    (hn : n = f2_5 (rate s) ∨ n = f5 (rate s) ∨ n = f10 (rate s) ∨ n = f20 (rate s)) (hshort : n < f20 (rate s)) :
    roundConceal .xform (rate s) n = n := by
  obtain ⟨hpos, h5, h10, h20⟩ := hl.rate_sizes
  unfold roundConceal
  split_ifs <;> omega

/-- Settles O53: R226 with a failing engine, then R227. -/
theorem concealmentAbsorbsFailure : Obligations.ConcealmentAbsorbsFailure := by
  unfold Obligations.ConcealmentAbsorbsFailure
  intro s o n fec r rest hs hc hprev hgain hle hn hd hcode
  have hl := (hs.legal hc).dec
  obtain ⟨hpos, h5, h10, h20⟩ := hl.rate_sizes
  have hcap := hl.frameSize_le_cap.1
  have hneg : r.ret < 0 := by
    simp only [isErrorCode, Bool.or_eq_true, decide_eq_true_eq] at hcode
    omega
  have hround : (n : Int) < f20 (rate s) → roundConceal s.dec.prevMode (rate s) n = n := fun hshort => by
    rw [hprev]
    exact roundConceal_xform hl hn (by omega)
  have h := decodeFrameWith_of_rules (nested := decodeFrameNested)
    (a := { fb := none, flen := 0, dst := .pcm, o := o, fsz := n, fec := fec })
    (runRules_begin_concealed (n := n) (by simp) (by simp only; omega) (by simp only; omega) (by simp [hprev]) (by omega)
      hround)
    (rule212_skips (.inl (by simp))) (by simp) (rule218_skips (by simp [hprev])) (rule219_skips (.inl (by simp [hprev])))
    (rule223_skips (.inr (by simp [hprev]))) (rule224_skips (.inl (by simp)))
    (rule226_fails (r := r) (by simp [hprev]) (.inl (by simp)) (by simp [Draws.next_given hd]) hcode)
    (rule227_silences (by simp) (by simpa using hneg) (by simp))
    (rule228_skips (.inl (by simp [hprev]))) (rule229_skips (.inl (by simp [hprev])))
    (rule230_skips (.inl (by simp))) (rule231_skips (.inl (by simp))) (rule232_skips (by simp [uncoveredTransition]))
    (by rw [gained_of_zero (by simp [hgain])]; exact rule235_clears (by simp)) (by simp)
  have hmain : min (f20 s.dec.fs.toNat) n = n := by unfold rate at h20 h10 h5 hpos hn; omega
  have hregion : Memory.Region s.out o (words n s) (fun _ => 0)
      ((s.out.fill (o + 0) (min r.own.length (n * chans s)) (replySample r.own)).fill o (words n s) fun _ => 0) :=
    Memory.Region.rewrite (.overlay (.self hs.out) (by rw [words_natCast]; omega))
  refine ⟨_, exec_decodeFrame h, by simp, frameOnly_frameEnded h, by simp [hprev], by simp [nextRedundancy], by simp,
    by simp [framePctl, hprev], frameEnded_region ?_⟩
  simpa [absorbed_out, mixed_out, mainSize, rate, chans, words, ← Nat.cast_min, hmain] using hregion

/-! The look-aheads. -/

/-- A look-ahead of `n` samples per channel, begun in `t`, has ended in `u`: TR holds the beginning of `q`. -/
structure LookedAhead (t : State) (n : Nat) (q : List Sample) (u : State) : Prop where
  dec : u.dec = { t.dec with prevRedundancy := false, rangeFinal := 0 }
  out : u.out = t.out
  tr : ∀ j < n * chans t, u.tr.lookup j = some (q.getD j 0)

/-- The prediction engine has concealed into PS. -/
@[simps dec pctl tctl out tr frame env]
def heldBack (q : List Sample) (t : State) : State :=
  { t with env := { t.env with pDecode := (t.env.pDecode.next Config.freePDecode).2
                               calls := .pDecode t.pctl 1 true t.frame.ec .ps 0 :: t.env.calls }
           frame := { t.frame with ps := t.frame.ps.putRange 0 q.length (replySample q) } }

theorem rule218_holds_back {n : Int} {q : List Sample} (hm : t.frame.m ≠ .xform) (hacc : t.frame.celtAccum = false)
    (hp : t.frame.dataPresent = false) (hr : (t.env.pDecode.next Config.freePDecode).1 = ⟨0, n, q⟩) (hpos : 1 ≤ n)
    (hfsz : t.frame.fsz ≤ n) (hcap : n ≤ f10 (rate t)) (hlen : (q.length : Int) = n * chans t) :
    rule218 t = .go (heldBack q t) := by
  rw [rule218_decodes hm hr hpos hfsz (by simp only [predCap, hacc, Bool.false_eq_true, if_false]; omega) hlen]
  simp [predicted, predTarget, lostFlag, heldBack, pCalled, bufFill, hacc, hp, State.setFrame]

/-- `n` words of TR from the target's first word on are `f`. -/
@[simps dec pctl tctl out tr frame env]
def trFilled (n : Nat) (f : Nat → Sample) (t : State) : State := { t with tr := t.tr.putRange t.frame.o n f }

theorem outFill_tr (hdst : t.frame.dst = .tr) (n : Nat) (f : Nat → Sample) : outFill 0 n f t = trFilled n f t := by
  unfold outFill
  rw [hdst]
  rfl

/-- A look-ahead is announced to the prediction engine as 10 ms (R216). -/
theorem LegalDecoder.payload_of_short (hl : LegalDecoder t.dec) {n : Nat} (hn : n ≤ f5 (Machine.rate t)) :
    (max 10 (1000 * n / t.dec.fs.toNat) : Int) = 10 := by
  obtain ⟨F, _, h20, _, _, h5, _, _, _, hfs, _⟩ := hl.sizes
  unfold Machine.rate at hn
  have hle : (1000 * n / t.dec.fs.toNat : Int) ≤ 10 := Int.ediv_le_of_le_mul (by omega) (by omega)
  omega

/-- The look-ahead of the prediction engine: it conceals 10 ms into PS, of which the look-ahead takes the beginning. -/
theorem lookAhead_pred {n : Nat} {q : List Sample} (hl : LegalDecoder t.dec) (hprev : t.dec.prevMode = .pred)
    (hgain : t.dec.decodeGain = 0) (hn : (min (f5 (rate t)) t.frame.audiosize : Int) = n) (hmin : f2_5 (rate t) ≤ n)
    (hle : n ≤ t.dec.frameSize.toNat)
    (hr : (t.env.pDecode.next Config.freePDecode).1 = ⟨0, f10 (rate t), q⟩) (hlen : q.length = f10 (rate t) * chans t) :
    ∃ u, decodeFrameNested (lookAheadArgs t) t = .ok (n, u) ∧ LookedAhead t n q u ∧
      u.pctl = { t.pctl with payloadSizeMs := 10 } ∧
      u.env = { t.env with
        pDecode := (t.env.pDecode.next Config.freePDecode).2
        calls := .tSetStartBand 17 :: .tSetChannels t.dec.streamChannels :: .tSetEndBand (endBandOf t.dec.bandwidth) ::
          .pDecode u.pctl 1 true none .ps 0 :: t.env.calls } := by
  obtain ⟨hpos, h5, h10, h20⟩ := hl.rate_sizes
  have hcap := hl.frameSize_le_cap.1
  have hround : (n : Int) < f20 (rate t) → roundConceal t.dec.prevMode (rate t) n = n := fun _ => by
    unfold roundConceal
    split_ifs <;> omega
  have hacc : accumFlag .pred n (f10 (rate t)) = false := by simp [accumFlag]; omega
  have hms := hl.payload_of_short (n := n) (by omega)
  have h := decodeFrameWith_of_rules (nested := fun _ _ => .error .stuck) (a := lookAheadArgs t) (s := t)
    (runRules_begin_concealed (n := n) (by simp [lookAheadArgs]) (by simp only [lookAheadArgs]; omega)
      (by simp only [lookAheadArgs]; omega) (by simp [hprev]) (by omega) hround)
    (rule212_skips (.inl (by simp))) (by simp)
    (rule218_holds_back (n := f10 (rate t)) (q := q) (by simp [hprev]) (by simp [hprev, hacc]) (by simp) (by simpa using hr)
      (by omega) (by simp; omega) (by simp [rate]) (by rw [hlen]; simp [chans]))
    (rule219_skips (.inr (by simp))) (rule223_skips (.inl (by simp [uncoveredTransition]))) (rule224_skips (.inl (by simp)))
    (rule226_skips (by simp [hprev])) (rule227_skips (.inr (by simp)))
    ((rule228_clears (by simp [hprev]) (by simp [hprev, hacc]) (by simp [hprev, fadeOut])).trans
      (congrArg Flow.go (outFill_tr (by simp [lookAheadArgs]) _ _)))
    ((rule229_sums (by simp [hprev]) (by simp [hprev, hacc])).trans
      (congrArg Flow.go (outFill_tr (by simp [lookAheadArgs]) _ _)))
    (rule230_skips (.inl (by simp))) (rule231_skips (.inl (by simp))) (rule232_skips (by simp [uncoveredTransition]))
    (by rw [gained_of_zero (by simp [hgain])]; exact rule235_clears (by simp [lookAheadArgs])) (by simp)
  refine ⟨_, h, ⟨?_, by simp, fun j hj => ?_⟩, ?_, ?_⟩ <;> clear h
  · simp [nextRedundancy, hprev]
  · have hjq : j < q.length := hj.trans_le (hlen ▸ Nat.mul_le_mul_right _ (by omega))
    have hjn : (j : Int) < n * t.dec.c.toNat := by exact_mod_cast hj
    simp [lookAheadArgs, Memory.lookup_putRange, words, rate, chans, outRead, bufRead, scratchRead, hjq, hjn, replySample]
    exact addSat_zero_left _
  · simp [framePctl, hprev, rate, hms]
  · simp [hprev, startBandOf, framePctl, predReinit]

/-- The look-ahead of the transform engine: it conceals 5 ms straight into TR. -/
theorem lookAhead_xform {ret : Int} {q : List Sample} (hl : LegalDecoder t.dec) (hprev : t.dec.prevMode = .xform)
    (hgain : t.dec.decodeGain = 0) (hn : (f5 (rate t) : Int) ≤ t.frame.audiosize)
    (hle : f5 (rate t) ≤ t.dec.frameSize.toNat)
    (hd : (t.env.tDecode.next Config.freeTDecode).1 = ⟨ret, q⟩) (h0 : 0 ≤ ret) (hlen : q.length = f5 (rate t) * chans t) :
    ∃ u, decodeFrameNested (lookAheadArgs t) t = .ok (f5 (rate t), u) ∧ LookedAhead t (f5 (rate t)) q u ∧
      u.pctl = t.pctl ∧
      u.env = { t.env with
        tDecode := (t.env.tDecode.next Config.freeTDecode).2
        calls := .tDecode none 0 .tr 0 (f5 (rate t)) none false :: .tSetStartBand 0 ::
          .tSetChannels t.dec.streamChannels :: .tSetEndBand (endBandOf t.dec.bandwidth) :: t.env.calls } := by
  obtain ⟨hpos, h5, h10, h20⟩ := hl.rate_sizes
  have hcap := hl.frameSize_le_cap.1
  have hround : (f5 (rate t) : Int) < f20 (rate t) → roundConceal t.dec.prevMode (rate t) (f5 (rate t)) = f5 (rate t) :=
    fun hshort => by
      rw [hprev]
      exact roundConceal_xform hl (.inr (.inl rfl)) (by omega)
  have hmain : min (f20 t.dec.fs.toNat) (f5 t.dec.fs.toNat) = f5 t.dec.fs.toNat := by
    unfold rate at h20 h10
    omega
  have h := decodeFrameWith_of_rules (nested := fun _ _ => .error .stuck) (a := lookAheadArgs t) (s := t)
    (runRules_begin_concealed (n := f5 (rate t)) (by simp [lookAheadArgs]) (by simp only [lookAheadArgs]; omega)
      (by simp only [lookAheadArgs]; omega) (by simp [hprev]) (by omega) hround)
    (rule212_skips (.inl (by simp))) (by simp) (rule218_skips (by simp [hprev])) (rule219_skips (.inl (by simp [hprev])))
    (rule223_skips (.inr (by simp [hprev]))) (rule224_skips (.inl (by simp)))
    (rule226_decodes (ret := ret) (own := q) (by simp [hprev]) (.inr (by simp [lookAheadArgs])) (by simpa using hd) h0
      (by simpa [mainSize, rate, chans, ← Nat.cast_min, hmain] using hlen))
    (rule227_skips (.inr (by simpa using h0)))
    (rule228_skips (.inl (by simp [hprev]))) (rule229_skips (.inl (by simp [hprev])))
    (rule230_skips (.inl (by simp))) (rule231_skips (.inl (by simp))) (rule232_skips (by simp [uncoveredTransition]))
    (by rw [gained_of_zero (by simp [hgain])]; exact rule235_clears (by simp [lookAheadArgs])) (by simpa using h0)
  refine ⟨_, h, ⟨?_, ?_, fun j hj => ?_⟩, ?_, ?_⟩ <;> clear h
  · simp [nextRedundancy, hprev]
  · simp [mixed_to_tr, lookAheadArgs]
  · have hjq : j < q.length := hlen ▸ hj
    simp [mixed_to_tr, lookAheadArgs, Memory.lookup_putRange, hjq, hprev, accumFlag, tSample_own, replySample]
  · simp [framePctl, hprev]
  · simp [hprev, startBandOf, xformReset, predReinit, lookAheadArgs, mainSize, accumFlag, rate, ← Nat.cast_min, hmain]

end Sys2Proof.Machine
end

section
/-! PROOFS. Frames whose bytes are present (42_frame_fsm.md R205, R209 to R237): prediction-only and hybrid frames, and
transform-only frames at a transition. -/

namespace Sys2Proof.Machine

variable {s t u : State} {a : FrameArgs} {nested : FrameArgs → State → FrameResult}

/-- A frame of the prediction engine lasts 10 ms or more. -/
theorem LegalDecoder.f10_le_frameSize (h : LegalDecoder s.dec) (hm : s.dec.mode = .pred ∨ s.dec.mode = .hybrid) :
    f10 (Machine.rate s) ≤ s.dec.frameSize.toNat := by
  obtain ⟨F, u, h20, _, _, _, h10, _, _, _, hfs, hmeta⟩ := h.sizes
  have hu := (legalMeta_units hmeta).2.1 hm
  have := Nat.mul_le_mul_right F hu
  unfold Machine.rate
  omega

theorem LegalDecoder.f5_le_frameSize (h : LegalDecoder s.dec) (hm : s.dec.mode = .pred ∨ s.dec.mode = .hybrid) :
    f5 (Machine.rate s) ≤ s.dec.frameSize.toNat := by
  have h10 := h.f10_le_frameSize hm
  have hsizes := h.rate_sizes
  omega

/-- A frame of the transform engine lasts 20 ms or less. -/
theorem LegalDecoder.frameSize_le_f20 (h : LegalDecoder s.dec) (hm : s.dec.mode = .hybrid ∨ s.dec.mode = .xform) :
    s.dec.frameSize.toNat ≤ f20 (Machine.rate s) := by
  obtain ⟨F, u, h20, _, _, _, _, hf20, _, _, hfs, hmeta⟩ := h.sizes
  have hu := (legalMeta_units hmeta).2.2 hm
  have := Nat.mul_le_mul_right F hu
  unfold Machine.rate
  omega

/-- R226 asks for a whole frame of the transform engine at once. -/
theorem LegalDecoder.min_f20 (h : LegalDecoder s.dec) (hm : s.dec.mode = .hybrid ∨ s.dec.mode = .xform) :
    min (f20 s.dec.fs.toNat) s.dec.frameSize.toNat = s.dec.frameSize.toNat := min_eq_right (h.frameSize_le_f20 hm)

/-! Numbers of words. -/

theorem words_mono {m n : Nat} (h : m ≤ n) (s : State) : words m s ≤ words n s :=
  words_le (Int.ofNat_le.2 h)

theorem words_sub_add {m n : Nat} (h : m ≤ n) (s : State) : words ((n : Int) - m) s + words m s = words n s := by
  rw [← Int.ofNat_sub h, words_natCast, words_natCast, words_natCast, ← Nat.add_mul, Nat.sub_add_cancel h]

theorem words_f5 (hl : LegalDecoder s.dec) : words (f5 (rate s)) s = words (f2_5 (rate s)) s + words (f2_5 (rate s)) s := by
  rw [words_natCast, words_natCast, hl.rate_sizes.2.1, Nat.two_mul, Nat.add_mul]

theorem words_of_dec (h : t.dec = s.dec) (n : Int) : words n t = words n s := by
  unfold words chans
  rw [h]

/-- The operands of an invocation into OUT for a frame with bytes. -/
abbrev realArgs (fb : Nat) (flen : Int) (o : Nat) (fsz : Int) : FrameArgs :=
  { fb := some fb, flen := flen, dst := .pcm, o := o, fsz := fsz, fec := false }

theorem celtAccum_readied (hl : LegalDecoder s.dec) (hm : s.dec.mode = .pred ∨ s.dec.mode = .hybrid)
    (hfsz : (s.dec.frameSize.toNat : Int) ≤ a.fsz) : (readied (present a s)).frame.celtAccum = true := by
  have h10 := hl.f10_le_frameSize hm
  have hcap := hl.frameSize_le_cap.1
  have hx : s.dec.mode ≠ .xform := by rcases hm with h | h <;> simp [h]
  simp only [readied_frame, present_frame, presentRegs_celtAccum, accumFlag, Bool.and_eq_true, decide_eq_true_eq]
  exact ⟨hx, by omega⟩

theorem present_fits (hl : LegalDecoder s.dec) (hfsz : (s.dec.frameSize.toNat : Int) ≤ a.fsz) :
    (present a s).frame.audiosize ≤ (present a s).frame.fsz := by
  have hcap := hl.frameSize_le_cap.1
  simp only [present_frame, presentRegs_audiosize, presentRegs_fsz]
  omega

/-! A frame that the prediction engine fails. -/

theorem predTarget_accum (h : t.frame.celtAccum = true) : predTarget t = (t.frame.dst, t.frame.o) := if_pos h

theorem predCap_accum (h : t.frame.celtAccum = true) : predCap t = t.frame.fsz := if_pos h

theorem spoilRegion_dec (t : State) : (spoilRegion t).dec = t.dec := bufFill_dec ..

/-- A frame that fails leaves its region at any values, whatever stood there. -/
theorem spoilRegion_region {o n : Nat} {m : Memory 16} (hdst : t.frame.dst = .pcm)
    (ho : t.frame.o = o) (hn : words t.frame.audiosize t = n) (h : ∃ f, Memory.Region m o n f t.out) :
    Memory.Region m o n (Config.freeSample t.fresh Buf.pcm.number) (spoilRegion t).out := by
  subst ho hn
  obtain ⟨f, h⟩ := h
  unfold spoilRegion outFill
  rw [hdst]
  exact h.rewrite

/-- Settles O52: R218 ends the frame where its call fails. -/
theorem predictionFailure : Obligations.PredictionFailure := by
  unfold Obligations.PredictionFailure
  intro s fb flen o fsz r rest hs hc hm hlen hfsz hd h0
  have hl := (hs.legal hc).dec
  have hmin := hl.frameSize_le_cap.2.1
  have hacc := celtAccum_readied (a := realArgs fb flen o fsz) hl hm hfsz
  have hmx : s.dec.mode ≠ .xform := by rcases hm with h | h <;> simp [h]
  have h := decodeFrameWith_of_failure (nested := decodeFrameNested) (a := realArgs fb flen o fsz) (s := s)
    (runRules_begin_present hlen (by simp only; omega)) (rule212_skips (.inr (by simp [hmx]))) (present_fits hl hfsz)
    (rule218_fails (r := r) (by simp [hmx]) (by simp [lostFlag]) (by simp [Draws.next_given hd]) h0)
  rw [predTarget_accum hacc, predCap_accum hacc] at h
  refine ⟨_, exec_decodeFrame h, by simp, frameOnly_frameEnded h, ?_,
    (frameEnded_region (spoilRegion_region ?_ ?_ ?_ ?_)).1⟩ <;> clear h
  · simp [spoilRegion_dec, bufFill]
  · simp [bufFill, State.setOut]
  · simp [bufFill, State.setOut]
  · simp [bufFill, State.setOut, words, chans]
  · simp [bufFill]
    exact ⟨_, .overlay (b := 0) (.self hs.out) (by simp [words, chans])⟩

/-! A frame that the prediction engine brings whole. -/

/-- The prediction engine's reply `p` for the whole frame stands in OUT. -/
@[simps dec pctl tctl out tr frame env]
def predictedFrame (a : FrameArgs) (p : List Sample) (s : State) : State :=
  { s with pctl := framePctl (present a s)
           out := s.out.fill a.o p.length (replySample p)
           frame := { presentRegs a s with stepIdx := 4, fsz := s.dec.frameSize.toNat, celtAccum := true }
           env := { s.env with
             pDecode := (s.env.pDecode.next Config.freePDecode).2
             calls := .pDecode (framePctl (present a s)) 0 true (some ⟨a.fb.getD 0, a.flen⟩) .pcm a.o ::
               ((if predReinit s.dec.prevMode s.dec.mode then [.pInit] else []) ++
                 .eInit (a.fb.getD 0) a.flen :: s.env.calls) }
           fresh := s.fresh + 1 }

theorem rule218_present {p : List Sample} (hl : LegalDecoder s.dec) (hm : s.dec.mode = .pred ∨ s.dec.mode = .hybrid)
    (hfsz : (s.dec.frameSize.toNat : Int) ≤ a.fsz) (hdst : a.dst = .pcm) (hfec : a.fec = false)
    (hr : (s.env.pDecode.next Config.freePDecode).1 = ⟨0, s.dec.frameSize.toNat, p⟩)
    (hlen : p.length = words s.dec.frameSize.toNat s) :
    rule218 (readied (present a s)) = .go (predictedFrame a p s) := by
  have hacc := celtAccum_readied hl hm hfsz
  have hmx : s.dec.mode ≠ .xform := by rcases hm with h | h <;> simp [h]
  obtain ⟨hpos, -⟩ := hl.rate_sizes
  have hmin := hl.frameSize_le_cap.2.1
  rw [words_natCast] at hlen
  rw [rule218_decodes (t := readied (present a s)) (n := s.dec.frameSize.toNat) (p := p) hmx hr (by omega) (Int.le_refl _)
    (predCap_accum hacc).ge (by rw [hlen]; push_cast; rfl), predicted, predTarget_accum hacc]
  have hacc' : accumFlag s.dec.mode (min a.fsz (frameCap (rate s))) (f10 (rate s)) = true := hacc
  simp [lostFlag, pCalled, predictedFrame, readied, present, presentRegs, hdst, hfec, bufFill, State.setOut, hacc']

/-- A frame of the prediction engine lasts a whole number of milliseconds, which R216 finds. -/
theorem LegalDecoder.payload (hl : LegalDecoder s.dec) (hm : s.dec.mode = .pred ∨ s.dec.mode = .hybrid) :
    ∃ ms : Nat, 10 ≤ ms ∧ ms < 256 ∧ ms * s.dec.fs.toNat = 1000 * s.dec.frameSize.toNat ∧
      (1000 * s.dec.frameSize.toNat / s.dec.fs.toNat : Int) = ms := by
  obtain ⟨F, u, h20, _, _, _, _, _, _, hfs, hframe, hmeta⟩ := hl.sizes
  obtain ⟨hunits, hlong, -⟩ := legalMeta_units hmeta
  have hu := hlong hm
  suffices h : ∃ ms : Nat, 10 ≤ ms ∧ ms < 256 ∧ ms * s.dec.fs.toNat = 1000 * s.dec.frameSize.toNat by
    obtain ⟨ms, hlo, hhi, hms⟩ := h
    exact ⟨ms, hlo, hhi, hms, Int.ediv_eq_of_eq_mul_left (by omega) (by exact_mod_cast hms.symm)⟩
  rw [hfs, hframe]
  obtain rfl | rfl | rfl | rfl : u = 4 ∨ u = 8 ∨ u = 16 ∨ u = 24 := by omega
  exacts [⟨10, by omega⟩, ⟨20, by omega⟩, ⟨40, by omega⟩, ⟨60, by omega⟩]

/-- R216 and R217 for a frame with bytes. -/
theorem predictionControl {v : State} (hl : LegalDecoder s.dec) (hm : s.dec.mode = .pred ∨ s.dec.mode = .hybrid)
    (h : v.pctl = framePctl (present a s)) : PredictionControl s v := by
  have hmx : s.dec.mode ≠ .xform := by rcases hm with h | h <;> simp [h]
  obtain ⟨ms, hlo, hhi, hms, hdiv⟩ := hl.payload hm
  have hp : v.pctl = { s.pctl with payloadSizeMs := BitVec.ofNat 8 ms
                                   nChannelsInternal := s.dec.streamChannels
                                   internalSampleRate := internalRate s.dec.mode s.dec.bandwidth } := by
    simp [h, framePctl, hmx, rate, hdiv, show max (10 : Int) ms = ms by omega]
  constructor <;> simp only [hp]
  case narrow => intro hm hb; simp [internalRate, hm, hb]
  case medium => intro hm hb; simp [internalRate, hm, hb]
  case wide =>
    rintro (hm | hb)
    · simp [internalRate, hm]
    · simp [internalRate, hb]
  case duration => rwa [BitVec.toNat_ofNat, Nat.mod_eq_of_lt hhi]

/-! A whole frame with bytes. -/

/-- The gain, the final range and the update of a frame with bytes have run (R234 to R236). -/
def finished (t : State) : State := updated (ranged (stepped 11 (gained (stepped 10 t))))

section

variable (hdst : t.frame.dst = .pcm)
include hdst

theorem finished_dec : (finished t).dec = { t.dec with
    prevMode := t.frame.m
    prevRedundancy := nextRedundancy t.frame.redundancy t.frame.celtToSilk
    rangeFinal := (t.env.rng.next Config.freeRng).1 ^^^ t.frame.redundantRng } := by
  simp [finished, gained_frame (t := stepped 10 t) (.inl hdst)]

theorem finished_region {o n : Nat} {gain : BitVec 16} {m : Memory 16} {f : Nat → Sample} (ho : t.frame.o = o)
    (hn : words t.frame.fsz t = n) (hgain : t.dec.decodeGain = gain) (h : Memory.Region m o n f t.out) :
    Memory.Region m o n (fun j => afterGain gain (f j)) (finished t).out := by
  subst hgain
  exact gained_region (t := stepped 10 t) hdst ho hn h

/-- A frame with bytes that runs to its end, from what the rules with cases come to. -/
theorem decodeFrame_of_present {t1 t2 t3 t4 t5 t6 t8 t9 t10 t11 : State} (hlen : 2 ≤ a.flen)
    (hfsz : (f2_5 (rate s) : Int) ≤ a.fsz) (h212 : rule212 decodeFrameNested (present a s) = .go t1)
    (h213 : t1.frame.audiosize ≤ t1.frame.fsz) (h218 : rule218 (readied t1) = .go t2)
    (h219 : rule219 (stepped 5 t2) = .go t3) (h223 : rule223 decodeFrameNested (banded t3) = .go t4)
    (h224 : rule224 t4 = .go t5) (h226 : rule226 (started (stepped 6 t5)) = .go t6) (h227 : t6.frame.dataPresent = true)
    (h228 : rule228 t6 = .go t8) (h229 : rule229 (stepped 7 t8) = .go t9) (h230 : rule230 (stepped 8 t9) = .go t10)
    (h231 : rule231 t10 = .go t11) (h232 : rule232 (stepped 9 t11) = .go t) (hlenL : 2 ≤ t.frame.lenL)
    (hret : 0 ≤ t.frame.celtRet) : decodeFrame a s = .ok (t.frame.audiosize, finished t) := by
  have h := decodeFrameWith_of_rules (runRules_begin_present hlen hfsz) h212 h213 h218 h219 h223 h224 h226
    (rule227_skips (.inl h227)) h228 h229 h230 h231 h232
    (rule235_ranges (by rw [stepped_frame, gained_frame (t := stepped 10 t) (.inl hdst)]; exact hlenL))
    (by rw [ranged_frame, stepped_frame, gained_frame (t := stepped 10 t) (.inl hdst)]; exact hret)
  rw [ranged_frame, stepped_frame, gained_frame (t := stepped 10 t) (.inl hdst)] at h
  exact h

end

@[simp] theorem finished_pctl (t : State) : (finished t).pctl = t.pctl := by simp [finished]
@[simp] theorem finished_tctl (t : State) : (finished t).tctl = t.tctl := by simp [finished]
@[simp] theorem finished_env (t : State) : (finished t).env =
    { t.env with rng := (t.env.rng.next Config.freeRng).2, calls := .eRng :: t.env.calls } := by simp [finished]

/-! Prediction-only frames without redundancy. -/

section

variable {fb o : Nat} {flen fsz : Int} {p : List Sample}

/-- A frame with bytes that the prediction engine brings whole, from what the rules after R218 come to. -/
theorem decodeFrame_of_predicted {t3 t4 t5 t6 t8 t9 t10 t11 : State} (hl : LegalDecoder s.dec)
    (hm : s.dec.mode = .pred ∨ s.dec.mode = .hybrid) (hlen : 2 ≤ flen) (hfsz : (s.dec.frameSize.toNat : Int) ≤ fsz)
    {ps : List PReply} (hd : s.env.pDecode.given = ⟨0, s.dec.frameSize.toNat, p⟩ :: ps)
    (hplen : p.length = words s.dec.frameSize.toNat s)
    (h219 : rule219 (stepped 5 (predictedFrame (realArgs fb flen o fsz) p s)) = .go t3)
    (h223 : rule223 decodeFrameNested (banded t3) = .go t4) (h224 : rule224 t4 = .go t5)
    (h226 : rule226 (started (stepped 6 t5)) = .go t6) (h227 : t6.frame.dataPresent = true)
    (h228 : rule228 t6 = .go t8) (h229 : rule229 (stepped 7 t8) = .go t9) (h230 : rule230 (stepped 8 t9) = .go t10)
    (h231 : rule231 t10 = .go t11) (h232 : rule232 (stepped 9 t11) = .go t) (hdst : t.frame.dst = .pcm)
    (hlenL : 2 ≤ t.frame.lenL) (hret : 0 ≤ t.frame.celtRet) :
    decodeFrame (realArgs fb flen o fsz) s = .ok (t.frame.audiosize, finished t) := by
  have hmin := hl.frameSize_le_cap.2.1
  have hx : s.dec.mode ≠ .xform := by rcases hm with h | h <;> simp [h]
  exact decodeFrame_of_present hdst hlen (by simp only; omega) (rule212_skips (.inr hx)) (present_fits hl hfsz)
    (rule218_present hl hm hfsz rfl rfl (by rw [Draws.next_given hd]) hplen) h219 h223 h224 h226 h227 h228 h229 h230 h231
    h232 hlenL hret

/-- The prediction engine's samples in OUT. -/
theorem predictedFrame_region (hs : Usable s) (hplen : p.length = words s.dec.frameSize.toNat s) :
    Memory.Region s.out o (words s.dec.frameSize.toNat s) (replySample p) (s.out.fill o p.length (replySample p)) :=
  hplen ▸ .fill hs.out

end

/-- A frame whose prediction is done and whose entropy decoder has no room for redundancy, as R223 finds it. -/
abbrev unredundant (a : FrameArgs) (p : List Sample) (s : State) : State :=
  banded (told (stepped 5 (predictedFrame a p s)))

/-- A prediction-only frame of samples `p` and its fade-out frame `d`. -/
def fadeOutMix (p d : List Sample) (s : State) (j : Nat) : Sample :=
  if j < words (f2_5 (rate s)) s then addSat (replySample p j) (replySample d j) else replySample p j

/-- Settles O48: R218 brings the frame, to which R228 adds after a hybrid one. -/
theorem predictionFrame : Obligations.PredictionFrame := by
  unfold Obligations.PredictionFrame
  intro s fb flen o fsz p rest w ws hs hc hm hlen hfsz hd hplen ht hw hroom
  have hl := (hs.legal hc).dec
  have hregion := predictedFrame_region (o := o) hs hplen
  have h219 := rule219_without_room (t := stepped 5 (predictedFrame (realArgs fb flen o fsz) p s)) (w := w) (by simp)
    (by simp [hm]) (by simp) (by simp [Draws.next_given ht]) hw (by simpa [hm] using hroom)
  refine ⟨fun hprev => ?_, fun ret d ts hprev hdt h0 hdlen => ?_⟩
  · have hnx : s.dec.prevMode ≠ .xform := by rcases hprev with h | h <;> simp [h]
    have hnh : s.dec.prevMode ≠ .hybrid := by rcases hprev with h | h <;> simp [h]
    have h := decodeFrame_of_predicted hl (.inl hm) hlen hfsz hd hplen h219
      (rule223_skips (.inl (by simp [hm, transitionFlag, uncoveredTransition, hnx]))) (rule224_skips (.inl (by simp)))
      (rule226_skips (by simp [hm])) (by simp)
      (rule228_skips (.inr (by simp [fadeOut, hnh]))) (rule229_skips (.inr (by simp))) (rule230_skips (.inl (by simp)))
      (rule231_skips (.inl (by simp))) (rule232_skips (by simp [hm, transitionFlag, uncoveredTransition, hnx]))
      (by simp) (by simpa using hlen) (by simp)
    exact ⟨_, exec_decodeFrame h, by simp, frameOnly_frameEnded h, by simp [finished_dec, hm],
      by simp [finished_dec, nextRedundancy], by simp [finished_dec],
      predictionControl (a := realArgs fb flen o fsz) hl (.inl hm) (by simp), by simp [predReinit, hm, hnx, startBandOf],
      frameEnded_region (f := fun j => afterGain s.dec.decodeGain (replySample p j)) (finished_region (by simp) (by simp)
        (by simp [words, chans]) (by simp) (by simpa using hregion))⟩
  · have h := decodeFrame_of_predicted hl (.inl hm) hlen hfsz hd hplen h219
      (rule223_skips (.inl (by simp [hm, transitionFlag, uncoveredTransition, hprev]))) (rule224_skips (.inl (by simp)))
      (rule226_skips (by simp [hm])) (by simp)
      (rule228_fades (ret := ret) (d := d) (by simp [hm]) (by simp) (by simp) (by simp [fadeOut, hprev])
        (by simp [Draws.next_given hdt]) h0 (by rw [hdlen, words_natCast]; simp [rate, chans]))
      (rule229_skips (.inr (by simp))) (rule230_skips (.inl (by simp))) (rule231_skips (.inl (by simp)))
      (rule232_skips (by simp [hm, transitionFlag, uncoveredTransition, hprev])) (by simp) (by simpa using hlen) (by simp)
    have hsum : Memory.Region s.out o (words s.dec.frameSize.toNat s) (fadeOutMix p d s) _ :=
      hregion.sum (t := fadeOutCalled (started (stepped 6 (unredundant (realArgs fb flen o fsz) p s)))) hdlen
        (words_mono hl.frameSize_le_cap.2.1 s) (by simp)
    exact ⟨_, exec_decodeFrame h, by simp, frameOnly_frameEnded h, by simp [finished_dec, hm],
      by simp [finished_dec, nextRedundancy], by simp [finished_dec],
      predictionControl (a := realArgs fb flen o fsz) hl (.inl hm) (by simp), by simp,
      by simp [predReinit, hm, hprev, startBandOf, rate],
      frameEnded_region (finished_region (f := fadeOutMix p d s) (by simp) (by simp) (by simp [words, chans]) (by simp)
        (by simpa using hsum))⟩

end Sys2Proof.Machine
end

section
/-! PROOFS. Redundancy frames (42_frame_fsm.md R219, R224, R230, R231, R235). -/

namespace Sys2Proof.Machine

variable {s t u : State} {a : FrameArgs}

/-- RA holds the redundancy frame `own`. -/
theorem bufRead_ra {own : List Sample} {j : Nat}
    (h : t.frame.ra = Memory.putRange [] 0 own.length (replySample own)) (hj : j < own.length) :
    bufRead .ra j t = replySample own j := by
  simp [bufRead, scratchRead, h, Memory.lookup_putRange, hj]

/-- A frame of `n` samples per channel, `f` before R230, whose redundancy frame is `g`. -/
def trailingMix (n : Nat) (f g : Nat → Sample) (s : State) (j : Nat) : Sample :=
  if words ((n : Int) - f2_5 (rate s)) s ≤ j then
    fadeBlend (fadeW ((j - words ((n : Int) - f2_5 (rate s)) s) / chans s) (rate s)) (f j)
      (g (words (f2_5 (rate s)) s + (j - words ((n : Int) - f2_5 (rate s)) s)))
  else f j

theorem trailingFaded_region {o n : Nat} {m : Memory 16} {f g : Nat → Sample} (hl : LegalDecoder s.dec)
    (hdec : t.dec = s.dec) (ho : t.frame.o = o) (hfsz : t.frame.fsz = n) (hmin : f2_5 (rate s) ≤ n)
    (hra : ∀ j < words (f5 (rate s)) s, bufRead .ra j t = g j) (h : Memory.Region m o (words n s) f t.out) :
    Memory.Region m o (words n s) (trailingMix n f g s) (trailingFaded t).out := by
  have hadd := words_sub_add hmin s
  have h5 := words_f5 hl
  have hrate : rate t = rate s := by unfold rate; rw [hdec]
  have hchans : chans t = chans s := by unfold chans; rw [hdec]
  simp only [trailingFaded_out, words_of_dec hdec, hrate, hchans, hfsz, ho]
  refine (h.overlay hadd.le).congr fun j hj => ?_
  unfold trailingMix
  by_cases hb : words ((n : Int) - f2_5 (rate s)) s ≤ j
  · rw [if_pos ⟨hb, by omega⟩, if_pos hb, Nat.add_sub_cancel' hb, h.get hj, hra _ (by omega)]
  · rw [if_neg (fun hj => hb hj.1), if_neg hb]

/-- Settles O51: R219 finds the redundancy, and R230 decodes it and fades into it. -/
theorem trailingRedundancy : Obligations.TrailingRedundancy := by
  unfold Obligations.TrailingRedundancy
  intro s fb flen o fsz ret p a ps ts w0 w1 w2 r g ws bs' bits gs hs hc hm hprev hgain hlen hfsz hd hplen ht hw0 hroom hw1
    hw1' hw2 hfits hb hdt h0 halen hg hr
  have hl := (hs.legal hc).dec
  have hmin := hl.frameSize_le_cap.2.1
  have hadd := words_sub_add hmin s
  generalize hk : (w1.toInt + 7) / 8 = k at *
  have hk2 : 2 ≤ k := by omega
  have h219 := rule219_trailing (t := stepped 5 (predictedFrame (realArgs fb flen o fsz) p s)) (k := k) (bits := bits)
    (ws := ws) (by simp) (by simp [hm]) (by simp) (by simpa using ht) hw0 (by simpa using hroom) (by simpa using hb)
    (by omega) hk hw2 hfits
  have h := decodeFrame_of_predicted hl (.inl hm) hlen hfsz hd hplen h219
    (rule223_skips (.inl (by simp [hm, transitionFlag, uncoveredTransition, hprev]))) (rule224_skips (.inr (by simp)))
    (rule226_skips (by simp [hm])) (by simp)
    (rule228_skips (.inr (by simp [fadeOut, hprev]))) (rule229_skips (.inr (by simp)))
    (rule230_fades (by simp) (by simp) (by simp) (decodeRedundancy_success (ret := ret) (own := a) (ts := ts) (g := g)
      (gs := gs) (by simpa using hdt) h0 (by rw [halen, words_natCast]; simp [rate, chans]) (by simpa using hg)))
    (rule231_skips (.inr (by simp)))
    (rule232_skips (by simp [hm, transitionFlag, uncoveredTransition, hprev])) (by simp) (by simpa using hk2) (by simp)
  refine ⟨_, exec_decodeFrame h, by simp, frameOnly_frameEnded h, by simp [finished_dec, hm],
    by simp [finished_dec, nextRedundancy], by simp [finished_dec, Draws.next_given hr], by simp [rate], by simp,
    frameEnded_region_and (finished_region (gain := 0) (by simp) (by simp) (by simp [words, chans]) (by simp [hgain]) (by
      rw [stepped_out]
      exact trailingFaded_region hl (by simp) (by simp) (by simp) hmin (fun j hj => bufRead_ra (by simp) (halen ▸ hj))
        (by simpa using predictedFrame_region hs hplen))) fun hread => ⟨fun j hj => ?_, fun j hj => ?_⟩⟩ <;> clear h
  · rw [hread j (by omega), afterGain, if_pos rfl, trailingMix, if_neg (by omega)]
    rfl
  · rw [Nat.add_assoc, hread _ (by omega), afterGain, if_pos rfl, trailingMix, if_pos (Nat.le_add_right ..),
      Nat.add_sub_cancel_left]
    rfl

end Sys2Proof.Machine
end

section
/-! PROOFS. Hybrid frames (42_frame_fsm.md R219, R224, R226, R229, R231). -/

namespace Sys2Proof.Machine

variable {s t u : State} {a : FrameArgs}

/-- A hybrid frame without redundancy: whichever way R219 finds none, only the entropy decoder's draws move. -/
theorem rule219_without_redundancy {w : Word} {ws : List Word} {bits : List Bool} (hfec : t.frame.fec = false)
    (hm : t.frame.m = .hybrid) (hp : t.frame.dataPresent = true) (hr : t.env.tell.given = w :: ws) (hw : 1 ≤ w.toInt)
    (h : 8 * t.frame.lenL < w.toInt + 37 ∨ t.env.bit.given = false :: bits) :
    ∃ e, rule219 t = .go (t.setEnv e) ∧ e.tDecode = t.env.tDecode ∧ e.rng = t.env.rng ∧
      (EngineCall.tReset ∈ e.calls ↔ EngineCall.tReset ∈ t.env.calls) := by
  by_cases hroom : 8 * t.frame.lenL < w.toInt + 37
  · exact ⟨_, rule219_without_room hfec (by simp [hm]) hp (by rw [Draws.next_given hr]) hw
      (by rw [if_pos hm]; omega), rfl, rfl, by simp⟩
  · exact ⟨_, rule219_declined hfec hm hp (by rw [Draws.next_given hr]) hw (by omega) (h.resolve_left hroom), rfl, rfl,
      by simp⟩

/-- A hybrid frame: the sum of the two engines' samples. -/
def hybridSum (p own : List Sample) (j : Nat) : Sample := addSat (replySample p j) (replySample own j)

/-- The two engines' sum in OUT. -/
theorem hybrid_region {o : Nat} {p own : List Sample} (hs : Usable s) (hplen : p.length = words s.dec.frameSize.toNat s)
    (holen : own.length = words s.dec.frameSize.toNat s) (ht : t.out = s.out.fill o p.length (replySample p)) :
    Memory.Region s.out o (words s.dec.frameSize.toNat s) (hybridSum p own)
      ((s.out.fill o p.length (replySample p)).fill o own.length (tSample .pcm o true own t)) :=
  ((predictedFrame_region hs hplen).sum holen (Nat.le_refl _) ht).congr fun _ hj => if_pos hj

theorem hybridFrame_plain {fb o : Nat} {flen fsz ret : Int} {p own : List Sample} {ps : List PReply} {w : Word}
    {ws : List Word} {ts : List TReply} {bits : List Bool} (hs : Usable s) (hc : s.constructed = true)
    (hm : s.dec.mode = .hybrid) (hlen : 2 ≤ flen) (hfsz : (s.dec.frameSize.toNat : Int) ≤ fsz)
    (hd : s.env.pDecode.given = ⟨0, s.dec.frameSize.toNat, p⟩ :: ps) (hplen : p.length = words s.dec.frameSize.toNat s)
    (h0 : 0 ≤ ret) (holen : own.length = words s.dec.frameSize.toNat s) (ht : s.env.tell.given = w :: ws)
    (hw : 1 ≤ w.toInt) (hprev : s.dec.prevMode ≠ .xform) (hdt : s.env.tDecode.given = ⟨ret, own⟩ :: ts)
    (hnone : 8 * flen < w.toInt + 37 ∨ s.env.bit.given = false :: bits) :
      ∃ t, exec (.decodeFrame (some fb) flen o fsz false) s = .next t ∧ t.driver.ret = s.dec.frameSize.toNat ∧
        FrameOnly s t ∧ t.dec.prevMode = .hybrid ∧ t.dec.prevRedundancy = false ∧
        t.dec.rangeFinal = (s.env.rng.next Config.freeRng).1 ∧ PredictionControl s t ∧
        (xformReset s.dec.prevMode .hybrid s.dec.prevRedundancy = false →
          t.tctl = { startBand := 17, endBand := endBandOf s.dec.bandwidth, channels := s.dec.streamChannels }) ∧
        (EngineCall.tReset ∈ t.env.calls ↔ EngineCall.tReset ∈ s.env.calls ∨
          xformReset s.dec.prevMode .hybrid s.dec.prevRedundancy = true) ∧
        OutBeside o (words s.dec.frameSize.toNat s) s t ∧
        ∀ j < words s.dec.frameSize.toNat s, t.out.read (o + j) =
          afterGain s.dec.decodeGain (toSample (sat16 ((p.getD j 0).toInt + (own.getD j 0).toInt))) := by
  have hl := (hs.legal hc).dec
  have hmain := hl.min_f20 (.inl hm)
  obtain ⟨e, h219, hetd, hrng, hcalls⟩ := rule219_without_redundancy (w := w) (bits := bits)
    (t := stepped 5 (predictedFrame (realArgs fb flen o fsz) p s)) (by simp) (by simp [hm]) (by simp) ht hw hnone
  have h := decodeFrame_of_predicted hl (.inr hm) hlen hfsz hd hplen h219
    (rule223_skips (.inl (by simp [hm, transitionFlag, uncoveredTransition, hprev]))) (rule224_skips (.inl (by simp)))
    (rule226_decodes (ret := ret) (own := own) (by simp [hm]) (.inl (by simp)) (by simp [hetd, Draws.next_given hdt]) h0
      (by rw [holen, words_natCast]; simp [mainSize, rate, chans, ← Nat.cast_min, hmain])) (by simp)
    (rule228_skips (.inl (by simp [hm]))) (rule229_skips (.inr (by simp))) (rule230_skips (.inl (by simp)))
    (rule231_skips (.inl (by simp))) (rule232_skips (by simp [hm, transitionFlag, uncoveredTransition, hprev]))
    (by simp) (by simpa using hlen) (by simpa using h0)
  exact ⟨_, exec_decodeFrame h, by simp, frameOnly_frameEnded h, by simp [finished_dec, hm],
    by simp [finished_dec, nextRedundancy], by simp [finished_dec, hrng],
    predictionControl (a := realArgs fb flen o fsz) hl (.inr hm) (by simp),
    fun hx => by simp [hm, hx, startBandOf],
    by cases hx : xformReset s.dec.prevMode .hybrid s.dec.prevRedundancy <;> simp [hm, hx, hcalls, predReinit, hprev],
    frameEnded_region (f := fun j => afterGain s.dec.decodeGain (hybridSum p own j))
      (finished_region (by simp) (by simp) (by simp [words, chans]) (by simp) (by
        simpa [mixed_out] using hybrid_region hs hplen holen (by simp)))⟩

/-- A frame, `f` before R231, that begins with the redundancy frame `g`. -/
def leadingMix (f g : Nat → Sample) (s : State) (j : Nat) : Sample :=
  if j < words (f2_5 (rate s)) s then g j
  else if j < words (f5 (rate s)) s then
    fadeBlend (fadeW ((j - words (f2_5 (rate s)) s) / chans s) (rate s)) (g j) (f j)
  else f j

theorem leadingFaded_region {o n : Nat} {m : Memory 16} {f g : Nat → Sample} (hl : LegalDecoder s.dec)
    (hdec : t.dec = s.dec) (ho : t.frame.o = o) (hmin : words (f5 (rate s)) s ≤ n)
    (hra : ∀ j < words (f5 (rate s)) s, bufRead .ra j t = g j) (h : Memory.Region m o n f t.out) :
    Memory.Region m o n (leadingMix f g s) (leadingFaded (leadingCopied t)).out := by
  have h5 := words_f5 hl
  have hrate : rate t = rate s := by unfold rate; rw [hdec]
  have hcopy : Memory.Region m o n (fun j => if j < words (f2_5 (rate s)) s then g j else f j) (leadingCopied t).out := by
    simp only [leadingCopied_out, words_of_dec hdec, hrate, ho]
    refine (h.overlay (b := 0) (by omega)).congr fun j hj => ?_
    by_cases hj2 : j < words (f2_5 (rate s)) s
    · rw [if_pos (by omega), if_pos hj2]
      exact hra j (by omega)
    · rw [if_neg (by omega), if_neg hj2]
  have hdec' : (leadingCopied t).dec = s.dec := by rw [leadingCopied_dec, hdec]
  have hrate' : rate (leadingCopied t) = rate s := by unfold rate; rw [hdec']
  have hchans' : chans (leadingCopied t) = chans s := by unfold chans; rw [hdec']
  have hra' : ∀ j, bufRead .ra j (leadingCopied t) = bufRead .ra j t := fun j => by
    simp only [bufRead, leadingCopied_frame]
  rw [leadingFaded_out]
  simp only [words_of_dec hdec', hrate', hchans', leadingCopied_frame, ho]
  refine (hcopy.overlay (by omega)).congr fun j hj => ?_
  unfold leadingMix
  by_cases hj2 : j < words (f2_5 (rate s)) s
  · rw [if_neg (by omega), if_pos hj2, if_pos hj2]
  · by_cases hj5 : j < words (f5 (rate s)) s
    · rw [if_pos (by omega), if_neg hj2, if_pos hj5, Nat.add_sub_cancel' (by omega), hcopy.get hj, if_neg hj2, hra',
        hra j hj5]
    · rw [if_neg (by omega), if_neg hj2, if_neg hj2, if_neg hj5]

/-- Settles O49: R226 adds to R218's samples, and R231 fades out of the redundancy frame. -/
theorem hybridFrameSum : Obligations.HybridFrameSum := by
  unfold Obligations.HybridFrameSum
  intro s fb flen o fsz ret p own ps w ws hs hc hm hlen hfsz hd hplen h0 holen ht hw
  refine ⟨fun ts bits hprev hdt hnone => hybridFrame_plain hs hc hm hlen hfsz hd hplen h0 holen ht hw hprev hdt hnone,
    fun ra a ts v w1 r g us ws' rs gs bits n hprev hdt hra halen hroom hb hu hv hn hn2 hws hw1 hfits hg hr => ?_⟩
  have hl := (hs.legal hc).dec
  have hmain := hl.min_f20 (.inl hm)
  have hred : s.dec.prevRedundancy = false := by
    cases h : s.dec.prevRedundancy
    · rfl
    · simpa [hprev] using hl.prevRedundancy h
  obtain rfl : n = flen - (v.toNat + 2) := by omega
  subst hws
  have h219 := rule219_leading (t := stepped 5 (predictedFrame (realArgs fb flen o fsz) p s)) (w := w) (w1 := w1) (v := v)
    (by simp) (by simp [hm]) (by simp) ht hw hroom hb hu hv hw1 hfits
  have h := decodeFrame_of_predicted hl (.inr hm) hlen hfsz hd hplen h219
    (rule223_skips (.inl (by simp [uncoveredTransition])))
    (rule224_decodes (by simp) (by simp) (decodeRedundancy_success (ret := ra) (own := a) (by simpa using hdt) hra
      (by rw [halen, words_natCast]; simp [rate, chans]) (by simpa using hg)))
    (rule226_decodes (ret := ret) (own := own) (by simp [hm]) (.inl (by simp)) (by simp [Draws.next]) h0
      (by rw [holen, words_natCast]; simp [mainSize, rate, chans, ← Nat.cast_min, hmain])) (by simp)
    (rule228_skips (.inl (by simp [hm]))) (rule229_skips (.inr (by simp))) (rule230_skips (.inr (by simp)))
    (rule231_fades (by simp) (by simp) (by simp)) (rule232_skips (by simp [uncoveredTransition]))
    (by simp) (by simpa using hn2) (by simpa using h0)
  refine ⟨_, exec_decodeFrame h, by simp, frameOnly_frameEnded h, by simp [finished_dec, hm],
    by simp [finished_dec, nextRedundancy], by simp [finished_dec, Draws.next_given hr],
    predictionControl (a := realArgs fb flen o fsz) hl (.inr hm) (by simp), ?_,
    frameEnded_region (f := fun j => afterGain s.dec.decodeGain (leadingMix (hybridSum p own) (replySample a) s j))
      (finished_region (by simp) (by simp) (by simp [words, chans]) (by simp) (by
        rw [stepped_out]
        exact leadingFaded_region hl (by simp) (by simp) (words_mono (hl.f5_le_frameSize (.inr hm)) s)
          (fun j hj => bufRead_ra (by simp) (halen ▸ hj))
          (by simpa [mixed_out] using hybrid_region hs hplen holen (by simp))))⟩
  simp [hm, hprev, hred, predReinit, xformReset, startBandOf, rate, mainSize, ← Nat.cast_min, hmain]

end Sys2Proof.Machine
end

section
/-! PROOFS. Transitions into and out of transform-only (42_frame_fsm.md R211, R212, R222, R223, R232). -/

namespace Sys2Proof.Machine

variable {s t u : State} {a : FrameArgs}

/-- A frame of `n` samples per channel, `f` before R232, whose look-ahead is `g`. -/
def transitionMix (n : Nat) (f g : Nat → Sample) (s : State) (j : Nat) : Sample :=
  if j < words (f2_5 (rate s)) s then
    if f5 (rate s) ≤ n then fadeBlend (fadeW (j / chans s) (rate s)) (g j) (f j) else g j
  else f j

theorem transitionFaded_region {o n : Nat} {m : Memory 16} {f g : Nat → Sample} (hrate : rate t = rate s)
    (hchans : chans t = chans s) (ho : t.frame.o = o) (hsize : t.frame.audiosize = n) (hmin : f2_5 (rate s) ≤ n)
    (htr : ∀ j < words (f2_5 (rate s)) s, bufRead .tr j t = g j) (h : Memory.Region m o (words n s) f t.out) :
    Memory.Region m o (words n s) (transitionMix n f g s) (transitionFaded t).out := by
  have hle := words_mono hmin s
  have hwords : ∀ k, words k t = words k s := fun k => by unfold words; rw [hchans]
  simp only [transitionFaded_out, hwords, hrate, hchans, hsize, ho]
  refine (h.overlay (b := 0) (by omega)).congr fun j hj => ?_
  unfold transitionMix
  by_cases hj2 : j < words (f2_5 (rate s)) s
  · rw [if_pos (by omega), if_pos hj2, Nat.sub_zero, htr j hj2, h.get hj]
    norm_cast
  · rw [if_neg (by omega), if_neg hj2]

/-- TR read after the look-ahead. -/
theorem LookedAhead.bufRead_tr {n j : Nat} {q : List Sample} (h : LookedAhead t n q u) (hj : j < n * chans t) {v : State}
    (hv : v.tr = u.tr) : bufRead .tr j v = replySample q j := by
  simp [bufRead, scratchRead, hv, h.tr j hj, replySample]

theorem transition_into_xform {fb o : Nat} {flen fsz ret : Int} {q own : List Sample} {ts : List TReply} {ps : List PReply}
    (hs : Usable s) (hc : s.constructed = true) (hgain : s.dec.decodeGain = 0) (hlen : 2 ≤ flen)
    (hfsz : (s.dec.frameSize.toNat : Int) ≤ fsz) (h0 : 0 ≤ ret) (hm : s.dec.mode = .xform) (hprev : s.dec.prevMode = .pred)
    (hred : s.dec.prevRedundancy = false) (hd : s.env.pDecode.given = ⟨0, f10 (rate s), q⟩ :: ps)
    (hqlen : q.length = words (f10 (rate s)) s) (hdt : s.env.tDecode.given = ⟨ret, own⟩ :: ts)
    (holen : own.length = words s.dec.frameSize.toNat s) :
      ∃ t, exec (.decodeFrame (some fb) flen o fsz false) s = .next t ∧ t.driver.ret = s.dec.frameSize.toNat ∧
        FrameOnly s t ∧ t.dec.prevMode = .xform ∧ t.dec.prevRedundancy = false ∧
        t.dec.rangeFinal = (s.env.rng.next Config.freeRng).1 ∧ t.pctl = { s.pctl with payloadSizeMs := 10 } ∧
        t.env.calls = .eRng ::
          .tDecode (some (.packet fb flen)) flen .pcm o s.dec.frameSize.toNat (some ⟨fb, flen⟩) false :: .tReset ::
          .tSetStartBand 0 :: .tSetChannels s.dec.streamChannels :: .tSetEndBand (endBandOf s.dec.bandwidth) ::
          .tSetStartBand 17 :: .tSetChannels s.dec.streamChannels :: .tSetEndBand (endBandOf s.dec.bandwidth) ::
          .pDecode t.pctl 1 true none .ps 0 :: .eInit fb flen :: s.env.calls ∧
        OutBeside o (words s.dec.frameSize.toNat s) s t ∧
        (∀ j < words (f2_5 (rate s)) s, t.out.read (o + j) =
          if f5 (rate s) ≤ s.dec.frameSize.toNat then
            fadeBlend (fadeW (j / chans s) (rate s)) (q.getD j 0) (own.getD j 0)
          else q.getD j 0) ∧
        (∀ j, words (f2_5 (rate s)) s ≤ j → j < words s.dec.frameSize.toNat s → t.out.read (o + j) = own.getD j 0) := by
  have hl := (hs.legal hc).dec
  have hmin := hl.frameSize_le_cap.2.1
  have hle := words_mono hmin s
  have h5 := hl.rate_sizes.2.1
  have hmain := hl.min_f20 (.inr hm)
  obtain ⟨n, hn⟩ : ∃ n, n = min (f5 (rate s)) s.dec.frameSize.toNat := ⟨_, rfl⟩
  obtain ⟨u, hu, hla, hpctl, henv⟩ := lookAhead_pred (t := present (realArgs fb flen o fsz) s) (n := n) (q := q) hl
    hprev hgain (by simp [hn, rate]) (by simp [rate] at *; omega) (by simp; omega)
    (by simp [Draws.next_given hd, rate]) (by rw [hqlen, words_natCast]; simp [rate, chans])
  have h := decodeFrame_of_present (a := realArgs fb flen o fsz) (by simp) hlen (by simp only; omega)
    (rule212_looks_ahead (by simp [hm, hprev, hred, transitionFlag]) (by simp [hm]) hu) (present_fits hl hfsz)
    (rule218_skips (by simp [hm])) (rule219_skips (.inl (by simp [hm]))) (rule223_skips (.inr (by simp [hm])))
    (rule224_skips (.inl (by simp)))
    (rule226_decodes (ret := ret) (own := own) (by simp [hm]) (.inl (by simp)) (by simp [henv, Draws.next_given hdt]) h0
      (by rw [holen, words_natCast]; simp [mainSize, rate, chans, ← Nat.cast_min, hmain, hla.dec])) (by simp)
    (rule228_skips (.inl (by simp [hm]))) (rule229_skips (.inl (by simp [hm]))) (rule230_skips (.inl (by simp)))
    (rule231_skips (.inl (by simp)))
    (rule232_fades (by simp [hm, hprev, hred, transitionFlag, uncoveredTransition]) (by simp)) (by simpa using hlen)
    (by simpa using h0)
  refine ⟨_, exec_decodeFrame h, by simp, frameOnly_frameEnded h, by simp [finished_dec, hm],
    by simp [finished_dec, nextRedundancy], by simp [finished_dec, henv],
    by simp [framePctl, hm, hpctl],
    by simp [hla.dec, henv, hm, hprev, hred, mainSize, ← Nat.cast_min, hmain, accumFlag, xformReset,
      predReinit, startBandOf, framePctl, rate],
    frameEnded_region_and (finished_region (gain := 0)
      (f := transitionMix s.dec.frameSize.toNat (replySample own) (replySample q) s) (by simp) (by simp)
      (by simp [words, chans, hla.dec]) (by simp [hla.dec, hgain]) (by
        refine transitionFaded_region (by simp [rate, hla.dec]) (by simp [chans, hla.dec]) (by simp) (by simp) hmin
          (fun j hj => hla.bufRead_tr ?_ ?_) ?_
        · rw [words_natCast] at hj
          exact hj.trans_le (Nat.mul_le_mul_right _ (by omega))
        · simp [mixed_tr]
        · have hown : Memory.Region s.out o (words s.dec.frameSize.toNat s) (replySample own)
            (s.out.fill o own.length (replySample own)) := holen ▸ .fill hs.out
          simpa [mixed_out, hla.out, hm, accumFlag, tSample_own] using hown))
      fun hread => ⟨fun j hj => ?_, fun j hj2 hj => ?_⟩⟩ <;> clear h
  · rw [hread j (by omega), afterGain, if_pos rfl, transitionMix, if_pos hj]
    rfl
  · rw [hread j hj, afterGain, if_pos rfl, transitionMix, if_neg (by omega)]
    rfl

/-- R226 has left the main output of a frame that comes after a transform-only one, with result `c`. -/
structure MainDecoded (t : State) (c : Int) (v : State) : Prop where
  frame : v.frame = { t.frame with celtRet := c }
  result : 0 ≤ c
  dec : v.dec = t.dec
  pctl : v.pctl = t.pctl
  tr : v.tr = t.tr
  rng : v.env.rng = t.env.rng
  calls : v.env.calls = (if t.frame.m = .hybrid then
      [.tDecode (some (.packet (t.frame.fb.getD 0) t.frame.lenL)) t.frame.lenL .pcm t.frame.o (mainSize t).toNat
        t.frame.ec true, .tReset] else []) ++ t.env.calls

theorem mainDecoded_pred (hm : t.frame.m = .pred) (hret : t.frame.celtRet = 0) :
    rule226 t = .go t ∧ MainDecoded t 0 t :=
  ⟨rule226_skips hm, by rw [← hret], Int.le_refl _, rfl, rfl, rfl, rfl, by simp [hm]⟩

theorem mainDecoded_hybrid {ret : Int} {own : List Sample} (hm : t.frame.m = .hybrid) (hdst : t.frame.dst = .pcm)
    (hacc : t.frame.celtAccum = true) (hfec : t.frame.fec = false) (hp : t.frame.dataPresent = true)
    (hprev : t.dec.prevMode = .xform) (hred : t.dec.prevRedundancy = false)
    (hd : (t.env.tDecode.next Config.freeTDecode).1 = ⟨ret, own⟩) (h0 : 0 ≤ ret)
    (hlen : own.length = (mainSize t).toNat * chans t) :
    ∃ v, rule226 t = .go v ∧ MainDecoded t ret v ∧
      v.out = t.out.fill t.frame.o own.length (tSample .pcm t.frame.o true own (mainCalled t)) := by
  refine ⟨_, rule226_decodes (by simp [hm]) (.inl hdst) hd h0 hlen, ⟨by simp, h0, by simp, by simp, mixed_tr _ _ _ hdst,
    by simp, ?_⟩, by rw [mixed_out _ _ _ hdst, hdst, hacc]⟩
  simp [hm, hdst, hacc, hfec, hp, hprev, hred, xformReset]

/-- The frame of `t` goes on to its main transform decode after a look-ahead that ended in `u`. -/
abbrev resumed (t u : State) : State := started (stepped 6 (u.setFrame t.frame))

/-- The sum of two replies as a list. -/
theorem replySample_zipWith {p own : List Sample} {j : Nat} (hp : j < p.length) (ho : j < own.length) :
    replySample (List.zipWith (fun x y => toSample (sat16 (x.toInt + y.toInt))) p own) j = hybridSum p own j := by
  simp [replySample, hybridSum, hp, ho, addSat]

/-- R226 after the look-ahead of a frame that comes after a transform-only one. -/
theorem rule226_resumed {fb o n : Nat} {flen fsz ret : Int} {p q own main : List Sample} (hs : Usable s)
    (hl : LegalDecoder s.dec) (hplen : p.length = words s.dec.frameSize.toNat s) (hprev : s.dec.prevMode = .xform)
    (hla : LookedAhead (unredundant (realArgs fb flen o fsz) p s) n q u)
    (hcase : (s.dec.mode = .pred ∧ main = p) ∨
      (s.dec.mode = .hybrid ∧ (u.env.tDecode.next Config.freeTDecode).1 = ⟨ret, own⟩ ∧ 0 ≤ ret ∧
        own.length = words s.dec.frameSize.toNat s ∧
        main = List.zipWith (fun x y => toSample (sat16 (x.toInt + y.toInt))) p own)) :
    ∃ c v, rule226 (resumed (unredundant (realArgs fb flen o fsz) p s) u) = .go v ∧
      MainDecoded (resumed (unredundant (realArgs fb flen o fsz) p s) u) c v ∧
      Memory.Region s.out o (words s.dec.frameSize.toNat s) (replySample main) v.out := by
  rcases hcase with ⟨hm, rfl⟩ | ⟨hm, hd, h0, holen, rfl⟩
  · obtain ⟨h226, hv⟩ := mainDecoded_pred (t := resumed (unredundant (realArgs fb flen o fsz) main s) u)
      (by simp [hm]) (by simp)
    exact ⟨0, _, h226, hv, by simpa [hla.out] using predictedFrame_region (o := o) hs hplen⟩
  · obtain ⟨v, h226, hv, hout⟩ := mainDecoded_hybrid (ret := ret) (own := own)
      (t := resumed (unredundant (realArgs fb flen o fsz) p s) u)
      (by simp [hm]) (by simp) (by simp) (by simp) (by simp) (by simp [hla.dec, hprev]) (by simp [hla.dec])
      (by simpa using hd) h0
      (by rw [holen, words_natCast]; simp [mainSize, rate, chans, hla.dec, ← Nat.cast_min, hl.min_f20 (.inl hm)])
    have hsum := (hybrid_region (o := o) hs hplen holen
      (t := mainCalled (resumed (unredundant (realArgs fb flen o fsz) p s) u)) (by simp [hla.out])).congr fun j hj =>
        (replySample_zipWith (hj.trans_eq hplen.symm) (hj.trans_eq holen.symm)).symm
    exact ⟨ret, v, h226, hv, by simpa [hout, hla.out] using hsum⟩

/-- Settles O50: R212 and R223 look ahead, and R232 fades from the look-ahead into the frame. -/
theorem transitionFade : Obligations.TransitionFade := by
  unfold Obligations.TransitionFade
  intro s fb flen o fsz ret q ts hs hc hgain hlen hfsz h0
  refine ⟨fun own ps hm hprev hred hd hqlen hdt holen =>
    transition_into_xform hs hc hgain hlen hfsz h0 hm hprev hred hd hqlen hdt holen,
    fun p own main ret' ps w ws hprev hd hplen hqlen ht hw hcase => ?_⟩
  have hl := (hs.legal hc).dec
  have hmin := hl.frameSize_le_cap.2.1
  have hle := words_mono hmin s
  have hm : s.dec.mode = .pred ∨ s.dec.mode = .hybrid := hcase.imp (·.1) (·.1)
  have h5 := hl.f5_le_frameSize hm
  obtain ⟨rest, hdt⟩ : ∃ rest, s.env.tDecode.given = ⟨ret, q⟩ :: rest := by
    rcases hcase with ⟨-, h, -⟩ | ⟨-, h, -⟩ <;> exact ⟨_, h⟩
  have h219 := rule219_without_room (t := stepped 5 (predictedFrame (realArgs fb flen o fsz) p s)) (w := w) (by simp)
    (by rcases hm with h | h <;> simp [h]) (by simp) (by simp [Draws.next_given ht]) hw
    (by rcases hcase with ⟨h, -, h1, -⟩ | ⟨h, -, -, -, h1, -⟩ <;> simp [h] <;> omega)
  have h2_5 : f2_5 (rate s) ≤ f5 (rate s) := by have := hl.rate_sizes; omega
  have hwords : words (f5 (rate s)) s = f5 (rate s) * chans s := words_natCast _ s
  have hx : s.dec.mode ≠ .xform := by rcases hm with h | h <;> simp [h]
  obtain ⟨u, hu, hla, hpctl, henv⟩ := lookAhead_xform
    (t := unredundant (realArgs fb flen o fsz) p s) (q := q) hl hprev hgain (by simp [rate]; exact h5) h5
    (by simp [Draws.next_given hdt]) h0 (by rw [hqlen, words_natCast]; simp [rate, chans])
  have h223 := rule223_looks_ahead (t := unredundant (realArgs fb flen o fsz) p s)
    (by simp [hx, hprev, transitionFlag, uncoveredTransition]) hx hu
  obtain ⟨c, v, h226, hv, hout⟩ := rule226_resumed (fb := fb) (flen := flen) (o := o) (fsz := fsz) (main := main)
    (own := own) (ret := ret') hs hl hplen hprev hla (hcase.imp (fun ⟨hm, _, _, hmain⟩ => ⟨hm, hmain⟩)
      fun ⟨hm, hdt, h0, holen, _, hmain⟩ => ⟨hm, by simp [henv, Draws.next, hdt], h0, holen, hmain⟩)
  have hcontrol : v.pctl = framePctl (present (realArgs fb flen o fsz) s) := by simp [hv.pctl, hpctl]
  have h := decodeFrame_of_predicted hl hm hlen hfsz hd hplen h219 h223 (rule224_skips (.inl (by simp)))
    h226 (by simp [hv.frame])
    (rule228_skips (.inr (by simp [hv.frame, hv.dec, fadeOut, hla.dec, hprev])))
    (rule229_skips (.inr (by simp [hv.frame]))) (rule230_skips (.inl (by simp [hv.frame])))
    (rule231_skips (.inl (by simp [hv.frame])))
    (rule232_fades (by simp [hv.frame, hx, hprev, transitionFlag, uncoveredTransition]) (by simp [hv.frame]))
    (by simp [hv.frame]) (by simpa [hv.frame] using hlen) (by simpa [hv.frame] using hv.result)
  refine ⟨_, exec_decodeFrame h, by simp [hv.frame], frameOnly_frameEnded h, by simp [finished_dec, hv.frame],
    by simp [finished_dec, nextRedundancy, hv.frame], by simp [finished_dec, hv.rng, hv.frame, henv],
    predictionControl (a := realArgs fb flen o fsz) hl hm (by simpa using hcontrol), ?_,
    frameEnded_region_and (finished_region (gain := 0) (by simp [hv.frame]) (by simp [hv.frame])
      (by simp [words, chans, hv.frame, hv.dec, hla.dec]) (by simp [hv.dec, hla.dec, hgain])
      (transitionFaded_region (by simp [rate, hv.dec, hla.dec]) (by simp [chans, hv.dec, hla.dec]) (by simp [hv.frame])
        (by simp [hv.frame]) hmin
        (fun j hj => hla.bufRead_tr (hwords ▸ hj.trans_le (words_mono h2_5 s)) (by simp [hv.tr])) (by simpa using hout)))
      fun hread => ⟨fun j hj => ?_, fun j hj2 hj => ?_⟩⟩ <;> clear h
  · rcases hm with hm | hm
    · simp [hv.calls, henv, hcontrol, hm, hprev, startBandOf, predReinit, rate]
    · simp [hv.calls, henv, hcontrol, hla.dec, hm, hprev, startBandOf, predReinit, rate, mainSize, ← Nat.cast_min,
        hl.min_f20 (.inl hm)]
  · rw [hread j (by omega), afterGain, if_pos rfl, transitionMix, if_pos hj, if_pos h5]
    rfl
  · rw [hread j hj, afterGain, if_pos rfl, transitionMix, if_neg (by omega)]
    rfl

end Sys2Proof.Machine
end

section
/-! PROOFS. DECODE before it decodes anything (43_driver.md R261 to R266): the checks in their order, the parse, the capacity
check. -/

namespace Sys2Proof.Machine

variable {s t u : State} {fec nul : Bool} {len cap : Int}

/-- The checks of R261 to R263 that end DECODE with BadArgument. -/
theorem decodeCommand_refuses (h : s.constructed = false ∨ cap ≤ 0 ∨
    ((fec = true ∨ len = 0 ∨ nul = true) ∧ cap % (f2_5 (rate s) : Int) ≠ 0) ∨ (len < 0 ∧ nul = false)) :
    decodeCommand fec nul len cap s = raises .badArgument s := by
  by_cases hc : s.constructed = false
  · exact decodeCommand_of_not_constructed hc ..
  unfold decodeCommand
  rw [if_neg (by simpa using hc)]
  by_cases hcap : cap ≤ 0
  · rw [if_pos hcap]
  rw [if_neg hcap]
  by_cases hpart : (fec = true ∨ len = 0 ∨ nul = true) ∧ cap % (f2_5 (rate s) : Int) ≠ 0
  · rw [if_pos hpart]
  rw [if_neg hpart]
  obtain ⟨hlen, rfl⟩ := ((h.resolve_left hc).resolve_left hcap).resolve_left hpart
  rw [if_neg (by simp; omega), if_pos hlen]

section Constructed

variable (hc : s.constructed = true) (hcap : 0 < cap)
include hc hcap

/-- A request that passes the checks, with no packet, is the concealment path's. -/
theorem decodeCommand_conceals (hwhole : cap % (f2_5 (rate s) : Int) = 0) (h : len = 0 ∨ nul = true) :
    decodeCommand fec nul len cap s = concealCommand cap s := by
  unfold decodeCommand
  rw [if_neg (by simp [hc]), if_neg (by omega), if_neg fun hpart => hpart.2 hwhole, if_pos h]

/-- A request that passes the checks, with a packet, is parsed. -/
theorem decodeCommand_parses (hlen : 0 < len) (hwhole : fec = true → cap % (f2_5 (rate s) : Int) = 0) :
    decodeCommand fec false len cap s = parsedCommand fec len cap s := by
  unfold decodeCommand
  rw [if_neg (by simp [hc]), if_neg (by omega), if_neg, if_neg (by simp; omega), if_neg (by omega)]
  rintro ⟨hform | hzero | hnul, hpart⟩
  · exact hpart (hwhole hform)
  · omega
  · nomatch hnul

end Constructed

/-- The state in which DECODE goes on with the packet whose parse ended in the registers `p` (R264). -/
def unpacked (p : ParseRegs) (s : State) : State := packetMeta ((s.setParse p).setFile (resultFile p s.file))

/-- A parse fails with its working registers changed, or ends with the result file of its final registers. -/
theorem parsePacket_cases (len : Int) (sd : Bool) (s : State) :
    (∃ code p, parsePacket len sd s = .done code (s.setParse p)) ∨
      ∃ p, parsePacket len sd s = .go ((s.setParse p).setFile (resultFile p s.file)) ∧ Parsed s len sd p := by
  have hpost := parses_parsePacket len sd s
  match hm : parsePacket len sd s, hpost with
  | .done code _, ⟨_, p, rfl⟩ => exact .inl ⟨code, p, rfl⟩
  | .go _, ⟨p, rfl, hp⟩ => exact .inr ⟨p, rfl, hp⟩

theorem parsedCommand_of_failed {code : Int} (h : parsePacket len false s = .done code u) :
    parsedCommand fec len cap s = .next (raiseErr code u) := by
  unfold parsedCommand
  rw [h]

theorem parsedCommand_of_parsed {p : ParseRegs}
    (h : parsePacket len false s = .go ((s.setParse p).setFile (resultFile p s.file))) :
    parsedCommand fec len cap s = if fec then fecCommand cap (unpacked p s) else packetCommand cap (unpacked p s) := by
  unfold parsedCommand
  rw [h]
  rfl

/-- A packet that PARSE rejects ends DECODE as it ends PARSE. -/
theorem parsedCommand_of_rejected (h : exec (.parse len) s = .next t) (herr : t.host.err = true) :
    parsedCommand fec len cap s = .next t := by
  replace h : (parsePacket len false s).settle respondCount = .next t := h
  rcases parsePacket_cases len false s with ⟨code, p, hm⟩ | ⟨p, hm, -⟩ <;> rw [hm] at h
  · rw [parsedCommand_of_failed hm]
    exact h
  · obtain rfl := Host.Outcome.next.inj h
    nomatch herr

/-- What PARSE has written when it accepts a packet. -/
theorem parsePacket_of_accepted (h : exec (.parse len) s = .next u) (herr : u.host.err = false) :
    ∃ p, u.file = resultFile p s.file ∧ parsePacket len false s = .go ((s.setParse p).setFile (resultFile p s.file)) := by
  replace h : (parsePacket len false s).settle respondCount = .next u := h
  rcases parsePacket_cases len false s with ⟨code, p, hm⟩ | ⟨p, hm, -⟩ <;> rw [hm] at h <;>
    obtain rfl := Host.Outcome.next.inj h
  · nomatch herr
  · exact ⟨p, rfl, hm⟩

/-- Settles O35: `decodeCommand`'s checks in their order, then the parse. -/
theorem decodeChecksBeforeAnything : Obligations.DecodeChecksBeforeAnything := by
  unfold Obligations.DecodeChecksBeforeAnything
  intro s len cap fec
  refine ⟨fun h => raisesOnly_self (decodeCommand_refuses ?_), fun h => raisesOnly_self (decodeCommand_refuses ?_),
    fun h => raisesOnly_self (decodeCommand_refuses ?_), fun hc hcap hlen e ⟨t, ht, hraised, honly⟩ =>
      ⟨⟨t, ?_, hraised, honly⟩, fun hwhole => ⟨t, ?_, hraised, honly⟩⟩⟩
  · simpa using h
  · simpa using h
  · simpa using h
  · exact (decodeCommand_parses (fec := false) hc hcap hlen nofun).trans (parsedCommand_of_rejected ht hraised.2)
  · exact (decodeCommand_parses hc hcap hlen fun _ => hwhole).trans (parsedCommand_of_rejected ht hraised.2)

/-- Settles O36: R266's check is the first thing after the parse and R264's metadata, which stand in working registers. -/
theorem capacityCheckedBeforeCommit : Obligations.CapacityCheckedBeforeCommit := by
  unfold Obligations.CapacityCheckedBeforeCommit
  intro s u len cap hc hcap hlen hparse herr hroom
  obtain ⟨p, hfile, hgo⟩ := parsePacket_of_accepted hparse herr
  have hroom : ((unpacked p s).file.count.toNat : Int) * (unpacked p s).driver.pf > cap := by
    rw [hfile] at hroom
    exact_mod_cast hroom
  refine ⟨raiseErr ErrCode.bufferTooSmall.code (unpacked p s), ?_, ⟨by simp, by simp⟩, ⟨rfl, rfl, rfl, rfl, rfl⟩,
    ⟨rfl, rfl, rfl, rfl, rfl, rfl, rfl⟩, rfl, hfile.symm, ⟨rfl, rfl, rfl, rfl, rfl⟩⟩
  exact (decodeCommand_parses (fec := false) hc hcap hlen nofun).trans ((parsedCommand_of_parsed hgo).trans (if_pos hroom))

end Sys2Proof.Machine
end

section
/-! PROOFS. Concealment (43_driver.md R262, R271): whatever the engines answer, and as silence before any mode. -/

namespace Sys2Proof.Machine

variable {s t u : State} {cap total : Int} {a : FrameArgs}

/-- The three forms of a request that passes the checks, with no packet. -/
theorem exec_conceals (hc : s.constructed = true) (hcap : 0 < cap) (hwhole : cap % (f2_5 (rate s) : Int) = 0) (fec : Bool) :
    ∀ i ∈ [Instr.decodeNull fec cap, .decode 0 cap, .decodeFec 0 cap], exec i s = concealCommand cap s := by
  simp only [List.forall_mem_cons]
  exact ⟨decodeCommand_conceals hc hcap hwhole (.inr rfl), decodeCommand_conceals hc hcap hwhole (.inl rfl),
    decodeCommand_conceals hc hcap hwhole (.inl rfl), List.forall_mem_nil _⟩

/-- What a concealment leaves of the decoder registers. -/
theorem Concealing.respondDuration_dec (h : Concealing total s u) (n : Int) : (respondDuration n u).dec =
    { s.dec with prevRedundancy := (respondDuration n u).dec.prevRedundancy
                 rangeFinal := (respondDuration n u).dec.rangeFinal
                 lastPacketDuration := BitVec.ofInt 32 n } := by
  simp only [respondDuration, respond_dec, State.setDec_dec]
  rw [h.keeps.dec, h.prevMode]

/-- Settles O38: what the concealment path comes to in a legal state. -/
theorem concealmentIsExact : Obligations.ConcealmentIsExact := by
  unfold Obligations.ConcealmentIsExact
  intro s cap fec hs hc hcap _ hwhole i hi
  rw [exec_conceals hc hcap hwhole fec i hi]
  rcases decoded_conceal (hs.legal hc) hs.out (Int.dvd_of_emod_eq_zero hwhole) hcap s.parse s.file s.driver with
    hfault | ⟨u, hu, hnext, hd⟩
  · exact .inl hfault
  · exact .inr ⟨_, hnext, ⟨rfl, rfl⟩, hu.respondDuration_dec cap, hu.keeps.file, hd.only, hd.outside⟩

/-! Before any mode. -/

/-- An invocation inside DECODE has written silence, `n` samples per channel from word `o` of OUT on. -/
@[simps dec pctl tctl env file out driver]
def hushed (o : Nat) (n : Int) (s : State) : State :=
  { s with out := s.out.fill o (words n s) fun _ => 0, fresh := s.fresh + 1, frame := FrameRegs.clear, tr := []
           driver := { s.driver with nb := s.driver.nb + n } }

/-- One invocation inside DECODE before any mode, with at most one byte. -/
theorem driveFrame_silence {fb : Option Nat} {flen : Int} {o : Nat} {fsz : Int} {fec : Bool} (hl : LegalDecoder s.dec)
    (hu : s.dec.prevMode = .uninit) (hp : flen ≤ 1) (hz : (f2_5 (rate s) : Int) ≤ fsz) :
    driveFrame fb flen o fsz fec s = .go (hushed o (min fsz s.dec.frameSize.toNat) s) := by
  unfold driveFrame
  rw [decodeFrame_silence hl hu hp rfl hz]
  have hmin : ¬ min fsz (s.dec.frameSize.toNat : Int) < 0 := by omega
  simp only [if_neg hmin, hushed, silenced, State.setFrame, State.setTr, State.setDriver, State.setOut, State.setFresh, words,
    chans]

/-- R262's loop before any mode calls no engine, so it cannot fault. -/
theorem concealLoop_silence (hl : LegalDecoder s.dec) (hu : s.dec.prevMode = .uninit)
    (hd : (f2_5 (rate s) : Int) ∣ total) (fuel : Nat) (ht : t.dec = s.dec) (hnb : t.driver.nb < total)
    (hdn : (f2_5 (rate s) : Int) ∣ t.driver.nb) (hfuel : total - t.driver.nb ≤ fuel) :
    ∃ u, concealLoop total fuel t = .go u := by
  induction fuel generalizing t with
  | zero => omega
  | succ fuel ih =>
    obtain ⟨-, hmin, hpos⟩ := hl.frameSize_le_cap
    have hrate : rate t = rate s := by unfold rate; rw [ht]
    have hz : (f2_5 (rate s) : Int) ≤ total - t.driver.nb := Int.le_of_dvd (by omega) (Int.dvd_sub hd hdn)
    have hdr : (f2_5 (rate s) : Int) ∣ min (total - t.driver.nb) s.dec.frameSize.toNat := by
      rcases min_choice (total - t.driver.nb) (s.dec.frameSize.toNat : Int) with h | h <;> rw [h]
      · exact Int.dvd_sub hd hdn
      · exact hl.dvd_frameSize
    unfold concealLoop
    rw [driveFrame_silence (ht ▸ hl) (ht ▸ hu) (by omega) (hrate ▸ hz), Flow.andThen_go, ht]
    by_cases hdone : total ≤ t.driver.nb + min (total - t.driver.nb) s.dec.frameSize.toNat
    · exact ⟨_, if_pos hdone⟩
    · obtain ⟨v, hv⟩ := ih (t := hushed (words t.driver.nb t) (min (total - t.driver.nb) s.dec.frameSize.toNat) t) ht
        (by simp; omega) (Int.dvd_add hdn hdr) (by simp; omega)
      exact ⟨v, (if_neg hdone).trans hv⟩

/-- Settles O37: the concealment path in a legal state, which before any mode cannot end in a fault. -/
theorem concealmentBeforeAnyMode : Obligations.ConcealmentBeforeAnyMode := by
  unfold Obligations.ConcealmentBeforeAnyMode
  intro s cap fec hs hc hprev hcap _ hwhole i hi
  have hl := hs.legal hc
  have hd := Int.dvd_of_emod_eq_zero hwhole
  have hpost := conceals hl.dec hs.out hd hcap
  obtain ⟨u, hgo⟩ : ∃ u, conceal cap s = .go u :=
    concealLoop_silence hl.dec hprev hd _ rfl hcap (Int.dvd_zero _) (by simp)
  rw [hgo] at hpost
  obtain ⟨hu, hnb⟩ := hpost
  obtain ⟨hdec, henv, hpctl, htctl, hout⟩ := hu.silent hprev
  rw [hnb] at hout
  have hdecoded := hu.keeps.decoded hl (begun_working s s.parse s.file s.driver) (hu.legal hl.dec) hu.wf hu.outside
    (BitVec.ofInt 32 cap) false (BitVec.ofInt 32 cap) nofun
  have hnext : concealCommand cap s = .next (respondDuration cap u) := by
    rw [concealCommand, hgo, Flow.settle_go, hnb]
  exact ⟨_, (exec_conceals hc hcap hwhole fec i hi).trans hnext, ⟨rfl, rfl⟩, by simp [respondDuration, hdec], hpctl, htctl,
    hu.keeps.file, henv, hdecoded.only, hout, hdecoded.outside⟩

end Sys2Proof.Machine
end

section
/-! PROOFS. DECODE of a packet (43_driver.md R265 to R269): the metadata it commits, the frame that ends it, and the FEC
path. -/

namespace Sys2Proof.Machine

variable {s t u : State} {fec : Bool} {len cap : Int}

/-- What the loops leave behind after the commit holds the packet's metadata. -/
theorem DriveKeeps.holdsMeta (hm : HasMeta s) (hl : LegalDecoder s.dec) (h : DriveKeeps (Machine.commit s) u) :
    HoldsMeta s.file.toc u.dec := by
  have hfs : u.dec.fs = s.dec.fs := by rw [h.dec]; rfl
  constructor
  case mode => rw [h.mode]; exact hm.pm
  case bandwidth => rw [h.dec]; exact hm.pb
  case frameSize => rw [h.frameSize, hm.frameSize hl, hm.pf, hfs]; rfl
  case streamChannels =>
    rw [h.dec]
    show (BitVec.ofNat 2 s.driver.pc).toNat = _
    rw [hm.pc, BitVec.toNat_ofNat, Nat.mod_eq_of_lt (tocChannels_lt _)]

theorem hasMeta_unpacked (p : ParseRegs) (s : State) : HasMeta (unpacked p s) := hasMeta_packetMeta _

/-- An error code is what RESP holds as a signed number. -/
theorem toInt_ofInt_of_isErrorCode {r : Int} (h : isErrorCode r = true) : (BitVec.ofInt 32 r).toInt = r := by
  simp only [isErrorCode, Bool.or_eq_true, decide_eq_true_eq] at h
  exact BitVec.toInt_ofInt_eq_self (by decide) (by omega) (by omega)

/-- The state in which R268's loop begins. -/
abbrev atFirstFrame (s : State) : State := commit (s.setDriver { s.driver with k := 0, nb := 0 })

theorem HasMeta.atFirstFrame (hm : HasMeta s) : HasMeta (s.setDriver { s.driver with k := 0, nb := 0 }) :=
  ⟨hm.pm, hm.pb, hm.pf, hm.pc⟩

/-- R268's loop over frames that fit the request. -/
theorem frames_atFirstFrame (hl : LegalDecoder s.dec) (hw : s.out.wf = true) (hm : HasMeta s) (n : Nat)
    (hroom : ((n * s.driver.pf : Nat) : Int) ≤ cap) : (frameLoop cap n (atFirstFrame s)).Post
      (fun u => Framing cap (atFirstFrame s) u ∧ u.driver.nb = (n * s.driver.pf : Nat))
      (fun r u => Framing cap (atFirstFrame s) u ∧ isErrorCode r = true) (· = .engineContract) := by
  have hm' := hm.atFirstFrame
  have hfs : (atFirstFrame s).dec.frameSize.toNat = s.driver.pf := hm'.frameSize hl
  push_cast at hroom ⊢
  refine (frames (s := atFirstFrame s) hm'.mode n ⟨.refl _, hm'.commit hl, hw, fun _ _ => rfl⟩ (Int.le_refl 0) ?_).mono
    (fun u hu => ⟨hu.1, ?_⟩) fun _ _ => id
  · rw [hfs]
    exact (Int.zero_add _).trans_le hroom
  · rw [hu.2, hfs]
    exact Int.zero_add _

/-- How R266 to R269 end: with the capacity check, with the last frame, or with a frame's error. -/
theorem packetCommand_cases (hl : LegalDecoder s.dec) (hw : s.out.wf = true) (hm : HasMeta s)
    (h : packetCommand cap s = .next t) :
    (cap < (s.file.count.toNat * s.driver.pf : Nat) ∧ t = raiseErr ErrCode.bufferTooSmall.code s) ∨
      (((s.file.count.toNat * s.driver.pf : Nat) : Int) ≤ cap ∧ ∃ u, Framing cap (atFirstFrame s) u ∧
        (t = respondDuration (s.file.count.toNat * s.driver.pf : Nat) u ∨
          ∃ r, isErrorCode r = true ∧ frameLoop cap s.file.count.toNat (atFirstFrame s) = .done r u ∧
            t = raiseErr r u)) := by
  unfold packetCommand at h
  by_cases hroom : (s.file.count.toNat : Int) * s.driver.pf > cap
  · rw [if_pos hroom] at h
    exact .inl ⟨by exact_mod_cast hroom, (Host.Outcome.next.inj h).symm⟩
  rw [if_neg hroom] at h
  have hroom : ((s.file.count.toNat * s.driver.pf : Nat) : Int) ≤ cap := by
    push_cast
    omega
  have hpost := frames_atFirstFrame hl hw hm s.file.count.toNat hroom
  refine .inr ⟨hroom, ?_⟩
  match hloop : frameLoop cap s.file.count.toNat (atFirstFrame s), hpost with
  | .go u, ⟨hu, hnb⟩ =>
    rw [hloop, Flow.settle_go, hnb] at h
    exact ⟨u, hu, .inl (Host.Outcome.next.inj h).symm⟩
  | .done r u, ⟨hu, hcode⟩ =>
    rw [hloop] at h
    exact ⟨u, hu, .inr ⟨r, hcode, rfl, (Host.Outcome.next.inj h).symm⟩⟩
  | .fault f, _ =>
    rw [hloop] at h
    nomatch h

/-- What stands after a frame's error: the loop over the frames before it, then that frame. -/
theorem failedFrame (hl : LegalDecoder s.dec) (hw : s.out.wf = true) (hm : HasMeta s) {r : Int} {n : Nat}
    (hroom : ((n * s.driver.pf : Nat) : Int) ≤ cap) (h : frameLoop cap n (atFirstFrame s) = .done r u)
    (hcode : isErrorCode r = true) : ∃ k < n, ∃ v w, frameLoop cap k (atFirstFrame s) = .go v ∧
      driveFrame (some (resOff v k)) (resLen v k) (words (k * (raiseErr r u).dec.frameSize.toNat : Nat) v)
        (cap - (k * (raiseErr r u).dec.frameSize.toNat : Nat)) false v = .done (raiseErr r u).host.resp.toInt w ∧
      (raiseErr r u).dec = w.dec ∧ (raiseErr r u).out = w.out ∧
      ∀ i < words (k * (raiseErr r u).dec.frameSize.toNat : Nat) s, (raiseErr r u).out.read i = v.out.read i := by
  have hm' := hm.atFirstFrame
  have hfs : (atFirstFrame s).dec.frameSize.toNat = s.driver.pf := hm'.frameSize hl
  have hpost := frames_atFirstFrame hl hw hm n hroom
  rw [h] at hpost
  have hfs' : u.dec.frameSize.toNat = (atFirstFrame s).dec.frameSize.toNat := congrArg _ hpost.1.keeps.frameSize
  obtain ⟨k, hk, v, hv, hdrive, hread⟩ := frames_failed (s := atFirstFrame s) hm'.mode (hm'.commit hl) hw rfl rfl
    (by rw [hfs]; exact_mod_cast hroom) h
  simp only [raiseErr_dec, raiseErr_host, raiseErr_out, hfs', toInt_ofInt_of_isErrorCode hcode]
  exact ⟨k, hk, v, u, hv, hdrive, rfl, rfl, hread⟩

theorem HoldsMeta.respondDuration {toc : Byte} (h : HoldsMeta toc u.dec) (n : Int) :
    HoldsMeta toc (respondDuration n u).dec := ⟨h.mode, h.bandwidth, h.frameSize, h.streamChannels⟩

/-- What the normal path's success leaves and answers. -/
theorem packetAnswer (hl : LegalDecoder s.dec) (hm : HasMeta s) (hu : Framing cap (atFirstFrame s) u)
    (hroom : ((s.file.count.toNat * s.driver.pf : Nat) : Int) ≤ cap) (hmax : cap < 2 ^ 31)
    (ht : t = respondDuration (s.file.count.toNat * s.driver.pf : Nat) u) :
    HoldsMeta t.file.toc t.dec ∧ t.host.resp.toInt = t.file.count.toNat * t.dec.frameSize.toNat ∧
      t.host.resp.toInt ≤ cap ∧ t.dec.lastPacketDuration = t.host.resp ∧ t.file = s.file := by
  subst ht
  have hmeta := hu.keeps.holdsMeta hm.atFirstFrame hl
  have hfs : u.dec.frameSize.toNat = s.driver.pf := by
    rw [hu.keeps.frameSize]
    exact hm.atFirstFrame.frameSize hl
  have hfile : u.file = s.file := hu.keeps.file
  have hresp : (BitVec.ofInt 32 (s.file.count.toNat * s.driver.pf : Nat)).toInt = (s.file.count.toNat * s.driver.pf : Nat) :=
    BitVec.toInt_ofInt_eq_self (by decide) (by omega) (by omega)
  simp only [respondDuration, respond_dec, respond_host, respond_file, State.setDec_dec, State.setDec_file, hfile, hfs, hresp,
    and_true]
  exact ⟨hmeta.respondDuration _, by push_cast; rfl, hroom⟩

/-- Settles O39: the ends of the normal path; a frame's error is where R268's loop stops. -/
theorem packetResult : Obligations.PacketResult := by
  unfold Obligations.PacketResult
  intro s len cap hs hc hlen _ hcap hmax
  have hl := (hs.legal hc).dec
  rcases decoded_decodeCommand (cap := cap) (hs.legal hc) hs.out false false len with hfault | ⟨t, ht, hd⟩
  · exact .inl hfault
  refine .inr ⟨t, ht, hd.only, hd.outside, ?_⟩
  rw [decodeCommand_parses (fec := false) hc hcap hlen nofun] at ht
  rcases parsePacket_cases len false s with ⟨code, p, hparse⟩ | ⟨p, hparse, hp⟩
  · obtain rfl := Host.Outcome.next.inj ((parsedCommand_of_failed hparse).symm.trans ht)
    refine ⟨fun herr => ⟨hd.code herr, by simp, fun q hq => nomatch hparse.symm.trans hq⟩, fun hok => by simp at hok⟩
  have hm := hasMeta_unpacked p s
  have hl' : LegalDecoder (unpacked p s).dec := hl
  rw [parsedCommand_of_parsed hparse] at ht
  rcases packetCommand_cases hl' hs.out hm ht with ⟨hroom, rfl⟩ | ⟨hroom, u, hu, hend | ⟨r, hcode, hloop, rfl⟩⟩
  · refine ⟨fun herr => ⟨hd.code herr, rfl, fun q hq hfits => ?_⟩, fun hok => by simp at hok⟩
    obtain rfl := Flow.go.inj (hparse.symm.trans hq)
    exact absurd hroom (Int.not_lt.2 hfits)
  · obtain ⟨hmeta, hresp, hle, hdur, hfile⟩ := packetAnswer hl' hm hu hroom hmax hend
    refine ⟨fun herr => by simp [hend, respondDuration] at herr, fun _ => ⟨hmeta, hresp, hle, hdur, ?_⟩⟩
    rw [hfile]
    exact hp.toc
  · refine ⟨fun herr => ⟨hd.code herr, ?_, fun q hq _ => ?_⟩, fun hok => by simp at hok⟩
    · rw [raiseErr_dec, hu.keeps.dec]
      rfl
    · obtain rfl := Flow.go.inj (hparse.symm.trans hq)
      have hmeta := hu.keeps.holdsMeta hm.atFirstFrame hl'
      exact ⟨hmeta, hu.keeps.file, failedFrame hl' hs.out hm hroom hloop hcode⟩

/-- Where R265 conceals instead: the request is too short for the frame, or either mode is transform-only. -/
abbrev FecDegrades (cap : Int) (s : State) : Prop := cap < s.driver.pf ∨ s.driver.pm = .xform ∨ s.dec.mode = .xform

/-- How the FEC path ends: as plain concealment, or after the commit. -/
theorem fecCommand_cases (hl : LegalDecoder s.dec) (hw : s.out.wf = true) (hm : HasMeta s) (hcap : 0 < cap)
    (hd : (f2_5 (rate s) : Int) ∣ cap) (h : fecCommand cap s = .next t) :
    (FecDegrades cap s ∧ ∃ u, Concealing cap s u ∧ t = respondDuration cap u) ∨
      (¬ FecDegrades cap s ∧ ∃ u, Recovered cap s u ∧
        (t = respondDuration cap u ∨ ∃ r, isErrorCode r = true ∧ t = raiseErr r u)) := by
  rcases fecCommand_outcome hl hw hm hd with ⟨hdeg, heq⟩ | ⟨hdeg, hfault | ⟨u, hu, heq | ⟨r, hr, heq⟩⟩⟩
  · rw [heq] at h
    rcases concealCommand_outcome hl hw hd hcap with hfault | ⟨u, hu, heq⟩
    · nomatch h.symm.trans hfault
    · exact .inl ⟨hdeg, u, hu, Host.Outcome.next.inj (h.symm.trans heq)⟩
  · nomatch h.symm.trans hfault
  · exact .inr ⟨hdeg, u, hu, .inl (Host.Outcome.next.inj (h.symm.trans heq))⟩
  · exact .inr ⟨hdeg, u, hu, .inr ⟨r, hr, Host.Outcome.next.inj (h.symm.trans heq)⟩⟩

/-- What stands after the commit of the FEC path. -/
theorem Recovered.holdsMeta (hl : LegalDecoder s.dec) (hm : HasMeta s) (h : Recovered cap s u) :
    HoldsMeta s.file.toc u.dec :=
  h.keeps.holdsMeta (s := s.setDriver { s.driver with saved := s.dec.lastPacketDuration }) ⟨hm.pm, hm.pb, hm.pf, hm.pc⟩ hl

/-- Settles O40: the two ends of the FEC path. -/
theorem fecResult : Obligations.FecResult := by
  unfold Obligations.FecResult
  intro s u len cap hs hc hcap _ hlen hwhole hparse herr
  have hl := (hs.legal hc).dec
  obtain ⟨p, hfile, hgo⟩ := parsePacket_of_accepted hparse herr
  rcases decoded_decodeCommand (cap := cap) (hs.legal hc) hs.out true false len with hfault | ⟨t, ht, hd⟩
  · exact .inl hfault
  refine .inr ⟨t, ht, hd.only, hd.outside, ?_⟩
  rw [decodeCommand_parses hc hcap hlen fun _ => hwhole, parsedCommand_of_parsed hgo, if_pos rfl] at ht
  have hl' : LegalDecoder (unpacked p s).dec := hl
  have hm := hasMeta_unpacked p s
  rw [hfile]
  rcases fecCommand_cases hl' hs.out hm hcap (Int.dvd_of_emod_eq_zero hwhole) ht with
    ⟨hdeg, v, hv, rfl⟩ | ⟨hdeg, v, hv, hend⟩
  · exact ⟨hv.keeps.file, fun _ => ⟨⟨rfl, rfl⟩, hv.respondDuration_dec cap⟩, fun hnot => absurd hdeg hnot⟩
  · have hmeta := hv.holdsMeta hl' hm
    refine ⟨?_, fun h => absurd h hdeg, fun _ => ?_⟩
    · rcases hend with rfl | ⟨r, -, rfl⟩ <;> exact hv.keeps.file
    · rcases hend with rfl | ⟨r, -, rfl⟩
      · exact ⟨hmeta.respondDuration cap, fun _ => ⟨⟨rfl, rfl⟩, rfl⟩, fun h => by simp [respondDuration] at h⟩
      · refine ⟨hmeta, fun h => by simp at h, fun h => ⟨hd.code h, ?_⟩⟩
        rw [raiseErr_dec, hv.keeps.dec]
        rfl

end Sys2Proof.Machine
end

section
/-! PROOFS. A parse of a packet that is laid out as 30_encoding.md R92 says (41_framing.md R152 to R162): rule by rule, what
its registers come to. -/

namespace Sys2Proof.Machine

variable {s t : State} {p : Nat} {config : BitVec 5} {st : Bool} {f : PacketForm}

theorem pktHolds_append {a b : List Byte} :
    PktHolds s p (a ++ b) ↔ PktHolds s p a ∧ PktHolds s (p + a.length) b := by
  induction a generalizing p with
  | nil => simp [pktHolds_nil]
  | cons x a ih => simp only [List.cons_append, pktHolds_cons, ih, and_assoc, List.length_cons, Nat.add_comm 1, Nat.add_assoc]

theorem PktHolds.setParse {bytes : List Byte} (h : PktHolds t p bytes) (q : ParseRegs) : PktHolds (t.setParse q) p bytes := h

/-! Size prefixes (R155, R158). -/

/-- R158's loop over the prefixes of frames that fit. -/
theorem vbrSizes_of_pktHolds {vs : List Nat} (hmax : ∀ v ∈ vs, v ≤ 1275)
    (hpkt : PktHolds t t.parse.pos (vs.flatMap encodeSize))
    (hroom : (((vs.flatMap encodeSize).length + vs.sum : Nat) : Int) ≤ t.parse.rem) :
    vbrSizes vs.length t = .go (t.setParse { t.parse with
      rem := t.parse.rem - (vs.flatMap encodeSize).length
      sizes := t.parse.sizes ++ vs.map fun v : Nat => (v : Int)
      pos := t.parse.pos + (vs.flatMap encodeSize).length
      lastSize := t.parse.lastSize - (vs.flatMap encodeSize).length - vs.sum }) := by
  induction vs generalizing t with
  | nil => simp [vbrSizes]; rfl
  | cons v vs ih =>
    simp only [List.flatMap_cons, List.length_append, List.sum_cons] at hroom ⊢
    rw [List.flatMap_cons, pktHolds_append] at hpkt
    obtain ⟨hv, hvs⟩ := List.forall_mem_cons.mp hmax
    have hread := readSize_of_pktHolds_encodeSize (r := t.parse.rem) hv hpkt.1 (by omega)
    have hfits : ¬ (v : Int) > t.parse.rem - (encodeSize v).length := by omega
    simp only [List.length_cons, vbrSizes, hread, if_neg hfits]
    rw [ih hvs hpkt.2 (by simp only [State.setParse_parse]; omega)]
    simp only [State.setParse, List.append_assoc, List.map_cons, List.singleton_append, Nat.add_assoc]
    congr 3 <;> push_cast <;> omega

/-! The padding chain (R157). -/

/-- R157's chain, with its terminal byte below 255. -/
theorem padChain_of_pktHolds {c : PadChain} {fuel : Nat} (hlast : c.last < 255) (hfuel : c.more < fuel)
    (hpkt : PktHolds t t.parse.pos c.bytes) (hroom : ((255 * c.more : Nat) : Int) < t.parse.rem) :
    padChain fuel t = .go (t.setParse { t.parse with
      pos := t.parse.pos + c.bytes.length
      rem := t.parse.rem - c.bytes.length - c.amount
      pad := t.parse.pad + c.amount }) := by
  obtain ⟨k, last⟩ := c
  simp only [PadChain.bytes, PadChain.amount, List.length_append, List.length_replicate, List.length_singleton] at *
  induction k generalizing t fuel with
  | zero =>
    obtain ⟨fuel, rfl⟩ := Nat.exists_eq_add_of_lt hfuel
    have hbyte : (pktRead t t.parse.pos).toNat = last :=
      (byte_eq_ofNat_iff (by omega)).mp (pktHolds_cons.mp hpkt).1
    have hne : last ≠ 255 := by omega
    rw [Nat.zero_add, padChain, if_neg (by omega)]
    simp only [hbyte, if_neg hne, if_pos hne]
    congr 3 <;> omega
  | succ k ih =>
    obtain ⟨fuel, rfl⟩ := Nat.exists_eq_add_of_lt hfuel
    rw [List.replicate_succ, List.cons_append, pktHolds_cons] at hpkt
    rw [padChain, if_neg (by omega)]
    have hbyte : (255 : Byte).toNat = 255 := rfl
    simp only [hpkt.1, hbyte, ne_eq, not_true_eq_false, ↓reduceIte]
    rw [ih (by omega) hpkt.2 (by simp only [State.setParse_parse]; omega)]
    simp only [State.setParse]
    congr 3 <;> push_cast <;> omega

/-- The bytes of a padding chain, if there is one. -/
def chainBytes (c : Option PadChain) : List Byte := (c.map PadChain.bytes).getD []

/-- The padding of a chain, if there is one. -/
def chainAmount (c : Option PadChain) : Nat := (c.map PadChain.amount).getD 0

/-- R157, with the padding flag or without, where chain and padding fit. -/
theorem padding_of_pktHolds {c : Option PadChain} (hlast : ∀ d ∈ c, d.last < 255)
    (hflag : byteField t.parse.cb 6 6 = if c.isSome then 1 else 0) (hpkt : PktHolds t t.parse.pos (chainBytes c))
    (hroom : (((chainBytes c).length + chainAmount c : Nat) : Int) ≤ t.parse.rem) :
    (if byteField t.parse.cb 6 6 = 1 then parsePadding t else padCheck t) = .go (t.setParse { t.parse with
      pos := t.parse.pos + (chainBytes c).length
      rem := t.parse.rem - (chainBytes c).length - chainAmount c
      pad := t.parse.pad + chainAmount c }) := by
  rw [hflag]
  cases c with
  | none =>
    have hrem : ¬ t.parse.rem < 0 := by simp [chainAmount, chainBytes] at hroom; omega
    simp [padCheck, hrem, chainAmount, chainBytes]
    rfl
  | some c =>
    have hlen : c.bytes.length = c.more + 1 := by simp [PadChain.bytes]
    simp only [chainBytes, chainAmount, Option.map_some, Option.getD_some] at *
    have hfit : (c.bytes.length : Int) + c.amount ≤ t.parse.rem := by exact_mod_cast hroom
    have hamount : c.amount = 254 * c.more + c.last := rfl
    rw [if_pos (by simp), parsePadding, padChain_of_pktHolds (hlast c rfl) (by omega) hpkt (by omega), Flow.andThen_go,
      padCheck, if_neg (by simp only [State.setParse_parse]; omega)]

/-! The count byte (R156 to R159). -/

theorem byteField_countByte (vbr pad : Bool) (count : BitVec 6) : byteField (countByte vbr pad count) 5 0 = count.toNat ∧
    byteField (countByte vbr pad count) 6 6 = (if pad then 1 else 0) ∧
    byteField (countByte vbr pad count) 7 7 = (if vbr then 1 else 0) := by
  revert vbr pad count; decide

/-- The parse after the count byte of a code-3 packet. -/
def countRead (cb : Byte) (count : Nat) (t : State) : State :=
  t.setParse { t.parse with cb := cb, pos := t.parse.pos + 1, count := count, rem := t.parse.rem - 1 }

/-- The parse after the padding chain of a code-3 packet. -/
def padded (c : Option PadChain) (t : State) : State :=
  t.setParse { t.parse with
    pos := t.parse.pos + (chainBytes c).length
    rem := t.parse.rem - (chainBytes c).length - chainAmount c
    pad := t.parse.pad + chainAmount c }

theorem parseCode3_of_pktHolds {vbr pad : Bool} {count : Nat} (hcount : 1 ≤ count ∧ count < 64)
    (hdur : t.parse.spf48 * count ≤ maxSamples48k) (hrem : 1 ≤ t.parse.rem)
    (hpkt : pktRead t t.parse.pos = countByte vbr pad (BitVec.ofNat 6 count)) :
    parseCode3 t = .go (countRead (countByte vbr pad (BitVec.ofNat 6 count)) count t) := by
  obtain ⟨hfield, -, -⟩ := byteField_countByte vbr pad (BitVec.ofNat 6 count)
  rw [BitVec.toNat_ofNat, Nat.mod_eq_of_lt hcount.2] at hfield
  rw [parseCode3, if_neg (by omega)]
  simp only [hpkt, hfield, State.setParse_parse]
  rw [if_neg (by omega)]
  simp only [State.setParse, countRead]

theorem parseCode3Rest_of_pktHolds {vbr : Bool} {count : BitVec 6} {c : Option PadChain} (hlast : ∀ d ∈ c, d.last < 255)
    (hcb : t.parse.cb = countByte vbr c.isSome count) (hpkt : PktHolds t t.parse.pos (chainBytes c))
    (hroom : (((chainBytes c).length + chainAmount c : Nat) : Int) ≤ t.parse.rem) :
    parseCode3Rest t = if vbr then parseVbr (padded c t) else parseCbr (padded c t) := by
  obtain ⟨-, hpad, hvbr⟩ := byteField_countByte vbr c.isSome count
  rw [← hcb] at hpad hvbr
  rw [parseCode3Rest, padding_of_pktHolds hlast hpad hpkt hroom, Flow.andThen_go]
  simp only [State.setParse_parse, hvbr]
  cases vbr <;> rfl

/-! The rules that leave the last frame the remainder (R153 to R155, R158, R159). -/

/-- A rule has gone on with the frames `sizes`, the last of them the remainder, `skip` bytes further on and with
`pad` more bytes of padding. -/
structure Delimited (t : State) (skip pad : Nat) (sizes : List Nat) (u : State) : Prop where
  only : ∃ q, u = t.setParse q
  toc : u.parse.toc = t.parse.toc
  sd : u.parse.sd = t.parse.sd
  pos : u.parse.pos = t.parse.pos + skip
  pad : u.parse.pad = t.parse.pad + pad
  sizes : u.parse.sizes ++ [u.parse.lastSize] = sizes.map fun v : Nat => (v : Int)

theorem parseCode0_delimits {n : Nat} (hsizes : t.parse.sizes = []) (hlast : t.parse.lastSize = n) :
    ∃ u, parseCode0 t = .go u ∧ Delimited t 0 0 [n] u :=
  ⟨_, rfl, ⟨_, rfl⟩, rfl, rfl, rfl, (Int.add_zero _).symm, by simp [hsizes, hlast]⟩

theorem parseCode1_delimits {n : Nat} (hsd : t.parse.sd = false) (hrem : t.parse.rem = n + n) :
    ∃ u, parseCode1 t = .go u ∧ Delimited t 0 0 [n, n] u := by
  have hhalf : t.parse.rem / 2 = n := by omega
  have h : parseCode1 t = .go (t.setParse { t.parse with
      count := 2, cbr := true, lastSize := (n : Int), sizes := [(n : Int)] }) := by
    unfold parseCode1
    simp only [hsd, hhalf, Bool.false_eq_true, if_false]
    exact if_neg (by omega)
  exact ⟨_, h, ⟨_, rfl⟩, rfl, rfl, rfl, (Int.add_zero _).symm, rfl⟩

theorem parseCode2_delimits {n m : Nat} (hmax : n ≤ 1275) (hpkt : PktHolds t t.parse.pos (encodeSize n))
    (hrem : t.parse.rem = ((encodeSize n).length + (n + m) : Nat)) :
    ∃ u, parseCode2 t = .go u ∧ Delimited t (encodeSize n).length 0 [n, m] u := by
  have hread := readSize_of_pktHolds_encodeSize (r := t.parse.rem) hmax hpkt (by omega)
  have hlast : t.parse.rem - (encodeSize n).length - n = m := by omega
  have h : parseCode2 t = .go (t.setParse { t.parse with
      count := 2, rem := t.parse.rem - (encodeSize n).length, sizes := [(n : Int)]
      pos := t.parse.pos + (encodeSize n).length, lastSize := (m : Int) }) := by
    unfold parseCode2
    simp only [State.setParse_parse, readSize_setParse, hread, hlast]
    exact if_neg (by omega)
  exact ⟨_, h, ⟨_, rfl⟩, rfl, rfl, rfl, (Int.add_zero _).symm, rfl⟩

theorem parseVbr_delimits {vs : List Nat} {last : Nat} (hsizes : t.parse.sizes = [])
    (hcount : t.parse.count = vs.length + 1) (hmax : ∀ v ∈ vs, v ≤ 1275)
    (hpkt : PktHolds t t.parse.pos (vs.flatMap encodeSize))
    (hrem : t.parse.rem = ((vs.flatMap encodeSize).length + (vs.sum + last) : Nat)) :
    ∃ u, parseVbr t = .go u ∧ Delimited t (vs.flatMap encodeSize).length 0 (vs ++ [last]) u := by
  have hlast : t.parse.rem - (vs.flatMap encodeSize).length - vs.sum = last := by omega
  have h : parseVbr t = .go (t.setParse { t.parse with
      cbr := false, rem := t.parse.rem - (vs.flatMap encodeSize).length, sizes := vs.map fun v : Nat => (v : Int)
      pos := t.parse.pos + (vs.flatMap encodeSize).length, lastSize := (last : Int) }) := by
    have hloop := vbrSizes_of_pktHolds (t := t.setParse { t.parse with cbr := false, lastSize := t.parse.rem }) hmax
      (hpkt.setParse _) (by simp only [State.setParse_parse]; omega)
    rw [parseVbr, hcount, Nat.add_sub_cancel, hloop, Flow.andThen_go]
    simp only [State.setParse_parse, hsizes, hlast, List.nil_append]
    exact if_neg (by omega)
  exact ⟨_, h, ⟨_, rfl⟩, rfl, rfl, rfl, (Int.add_zero _).symm, by simp⟩

theorem parseCbr_delimits {n k : Nat} (hsd : t.parse.sd = false) (hcount : t.parse.count = k + 1)
    (hrem : t.parse.rem = ((k + 1) * n : Nat)) :
    ∃ u, parseCbr t = .go u ∧ Delimited t 0 0 (List.replicate (k + 1) n) u := by
  have hlast : t.parse.rem / (k + 1 : Nat) = n := by
    rw [hrem, ← Int.natCast_ediv, Nat.mul_div_cancel_left _ (Nat.succ_pos k)]
  have h : parseCbr t = .go (t.setParse { t.parse with
      cbr := true, lastSize := (n : Int), sizes := List.replicate k (n : Int) }) := by
    unfold parseCbr
    simp only [hsd, hcount, hlast, State.setParse_parse, Bool.false_eq_true, if_false, Nat.add_sub_cancel]
    exact if_neg (by rw [hrem]; push_cast; simp [Int.mul_comm])
  exact ⟨_, h, ⟨_, rfl⟩, rfl, rfl, rfl, (Int.add_zero _).symm, by simp [List.replicate_succ']⟩

/-- A code-3 packet is delimited behind its count byte and its padding chain. -/
theorem Delimited.behind_count {cb : Byte} {count skip : Nat} {c : Option PadChain} {sizes : List Nat} {u : State}
    (h : Delimited (padded c (countRead cb count t)) skip 0 sizes u) :
    Delimited t (1 + (chainBytes c).length + skip) (chainAmount c) sizes u where
  only := h.only
  toc := h.toc
  sd := h.sd
  pos := h.pos.trans (by simp only [padded, countRead, State.setParse_parse]; omega)
  pad := h.pad.trans (Int.add_zero _)
  sizes := h.sizes

/-! The packet forms. -/

/-- The header of a packet of `len` bytes with TOC byte `toc` has been read (R152). -/
abbrev headerRead (len : Int) (toc : Byte) (s : State) : State :=
  s.setParse (headerRegs toc (tocSpf toc 48000) { ParseRegs.clear with len := len, sd := false })

theorem tocCode_tocByte (config : BitVec 5) (st : Bool) (code : BitVec 2) : tocCode (tocByte config st code) = code.toNat := by
  revert config st code; decide

theorem tocSpf_tocByte (config : BitVec 5) (st : Bool) (code : BitVec 2) :
    tocSpf (tocByte config st code) 48000 = tocSpf (tocByte config false 0) 48000 := by
  revert config st code; decide

/-- A packet that keeps the limits has 1 to 48 frames of at most 1275 bytes, and at most 120 ms. -/
theorem fits_iff : f.fits config = true ↔
    1 ≤ f.sizes.length ∧ f.sizes.length * tocSpf (tocByte config false 0) 48000 ≤ maxSamples48k ∧
      (∀ n ∈ f.sizes, n ≤ 1275) ∧ ∀ c ∈ f.chain, c.last < 255 := by
  simp [PacketForm.fits, and_assoc, Option.all_eq_true, maxSamples48k]

/-- Behind the count byte and the padding chain of a code-3 packet of `len` bytes. -/
abbrev frameSizesAt (vbr : Bool) (count : Nat) (c : Option PadChain) (len : Int) (toc : Byte) (s : State) : State :=
  padded c (countRead (countByte vbr c.isSome (BitVec.ofNat 6 count)) count (headerRead len toc s))

theorem frameSizesAt_rem (vbr : Bool) (count : Nat) (c : Option PadChain) (n : Nat) (toc : Byte) (s : State) :
    (frameSizesAt vbr count c (2 + (chainBytes c).length + chainAmount c + n : Nat) toc s).parse.rem = n := by
  simp only [padded, countRead, State.setParse_parse, headerRegs, ParseRegs.clear]
  omega

theorem frameSizesAt_pos (vbr : Bool) (count : Nat) (c : Option PadChain) (len : Int) (toc : Byte) (s : State) :
    (frameSizesAt vbr count c len toc s).parse.pos = 1 + (1 + (chainBytes c).length) := by
  simp only [padded, countRead, State.setParse_parse, headerRegs]
  omega

/-- A code-3 packet is delimited where its frames are, behind its count byte and its padding chain. -/
theorem code3_delimits {vbr : Bool} {count len n skip : Nat} {c : Option PadChain} {sizes : List Nat} (hcount : 1 ≤ count)
    (hdur : count * tocSpf (tocByte config false 0) 48000 ≤ maxSamples48k) (hlast : ∀ d ∈ c, d.last < 255)
    (hpkt : PktHolds s 1 (countByte vbr c.isSome (BitVec.ofNat 6 count) :: chainBytes c))
    (hlen : len = 2 + (chainBytes c).length + chainAmount c + n)
    (h : ∃ u, (if vbr then parseVbr (frameSizesAt vbr count c len (tocByte config st 3) s)
        else parseCbr (frameSizesAt vbr count c len (tocByte config st 3) s)) = .go u ∧
      Delimited (frameSizesAt vbr count c len (tocByte config st 3) s) skip 0 sizes u) :
    ∃ u, parseByCode (headerRead len (tocByte config st 3) s) = .go u ∧
      Delimited (headerRead len (tocByte config st 3) s) (1 + (chainBytes c).length + skip) (chainAmount c) sizes u := by
  have hspf := tocSpf_48000 (tocByte config false 0)
  have hbound : count < 64 := by
    by_contra hbig
    have := Nat.mul_le_mul (Nat.not_lt.mp hbig) hspf.1
    unfold maxSamples48k at hdur
    omega
  rw [pktHolds_cons] at hpkt
  obtain ⟨u, hu, hdelim⟩ := h
  refine ⟨u, ?_, hdelim.behind_count⟩
  have h3 := parseCode3_of_pktHolds (t := headerRead len (tocByte config st 3) s) ⟨hcount, hbound⟩
    (by simpa only [State.setParse_parse, headerRegs, tocSpf_tocByte, Nat.mul_comm] using hdur)
    (by simp only [State.setParse_parse, headerRegs]; omega) hpkt.1
  have hrest := parseCode3Rest_of_pktHolds
    (t := countRead (countByte vbr c.isSome (BitVec.ofNat 6 count)) count (headerRead len (tocByte config st 3) s))
    hlast rfl (hpkt.2.setParse _) (by simp only [countRead, State.setParse_parse, headerRegs]; omega)
  have hcode : parseByCode (headerRead len (tocByte config st 3) s) =
      (parseCode3 (headerRead len (tocByte config st 3) s)).andThen parseCode3Rest := by
    rw [parseByCode, State.setParse_parse, headerRegs, tocCode_tocByte]
    rfl
  rw [hcode, h3, Flow.andThen_go, hrest, hu]

theorem header_length (f : PacketForm) (config : BitVec 5) (st : Bool) : (f.header false config st).length =
    1 + (f.countBytes.length + ((f.prefixed false).flatMap encodeSize).length) := by
  simp [PacketForm.header, Nat.add_comm]

/-- The bytes of a laid-out packet, part by part. -/
theorem total_eq (f : PacketForm) (config : BitVec 5) (st : Bool) : f.total false config st =
    1 + (f.countBytes.length + ((f.prefixed false).flatMap encodeSize).length) + f.sizes.sum + f.padding := by
  rw [PacketForm.total, header_length]

/-- A packet of form `f` is delimited as it is laid out. -/
def Delimits (f : PacketForm) (config : BitVec 5) (st : Bool) (s : State) : Prop :=
  ∃ u, parseByCode (headerRead (f.total false config st) (tocByte config st f.code) s) = .go u ∧
    Delimited (headerRead (f.total false config st) (tocByte config st f.code) s)
      (f.countBytes.length + ((f.prefixed false).flatMap encodeSize).length) f.padding f.sizes u

theorem delimits_one (n : Nat) : Delimits (.one n) config st s := by
  rw [Delimits, total_eq, parseByCode, State.setParse_parse, headerRegs, tocCode_tocByte]
  exact parseCode0_delimits rfl (by simp [PacketForm.countBytes, PacketForm.prefixed, PacketForm.sizes,
      PacketForm.padding, PacketForm.chain, headerRegs, ParseRegs.clear])

theorem delimits_twoEqual (n : Nat) : Delimits (.twoEqual n) config st s := by
  rw [Delimits, total_eq, parseByCode, State.setParse_parse, headerRegs, tocCode_tocByte]
  exact parseCode1_delimits rfl (by simp [PacketForm.countBytes, PacketForm.prefixed, PacketForm.sizes,
      PacketForm.padding, PacketForm.chain, headerRegs, ParseRegs.clear])

theorem delimits_two {n m : Nat} (hmax : n ≤ 1275) (hpkt : PktHolds s 1 (encodeSize n)) :
    Delimits (.two n m) config st s := by
  have hskip : (PacketForm.two n m).countBytes.length + (((PacketForm.two n m).prefixed false).flatMap encodeSize).length =
      (encodeSize n).length := by simp [PacketForm.countBytes, PacketForm.prefixed]
  rw [Delimits, total_eq, hskip, parseByCode, State.setParse_parse, headerRegs, tocCode_tocByte]
  exact parseCode2_delimits hmax (hpkt.setParse _)
    (by simp [PacketForm.sizes, PacketForm.padding, PacketForm.chain, headerRegs, ParseRegs.clear, Int.add_assoc])

theorem delimits_cbr {count n : Nat} {c : Option PadChain} (hfits : (PacketForm.cbr count n c).fits config = true)
    (hpkt : PktHolds s 1 (PacketForm.cbr count n c).countBytes) : Delimits (.cbr count n c) config st s := by
  obtain ⟨hcount, hdur, -, hlast⟩ := fits_iff.mp hfits
  rw [PacketForm.sizes, List.length_replicate] at hcount hdur
  obtain ⟨k, rfl⟩ := Nat.exists_eq_add_of_le' hcount
  have hskip : (PacketForm.cbr (k + 1) n c).countBytes.length +
      (((PacketForm.cbr (k + 1) n c).prefixed false).flatMap encodeSize).length = 1 + (chainBytes c).length + 0 := by
    simp [PacketForm.countBytes, PacketForm.prefixed, chainBytes, Nat.add_comm]
  have hsum : (PacketForm.cbr (k + 1) n c).sizes.sum = (k + 1) * n := by simp [PacketForm.sizes]
  rw [Delimits, total_eq, hskip, hsum]
  have hlen : 1 + (1 + (chainBytes c).length + 0) + (k + 1) * n + (PacketForm.cbr (k + 1) n c).padding =
      2 + (chainBytes c).length + chainAmount c + (k + 1) * n := by
    have hpad : (PacketForm.cbr (k + 1) n c).padding = chainAmount c := rfl
    omega
  rw [hlen]
  refine code3_delimits (vbr := false) hcount hdur hlast hpkt rfl ?_
  rw [if_neg Bool.false_ne_true]
  exact parseCbr_delimits rfl rfl (frameSizesAt_rem ..)

theorem delimits_vbr {sizes : List Nat} {c : Option PadChain} (hfits : (PacketForm.vbr sizes c).fits config = true)
    (hpkt : PktHolds s 1 ((PacketForm.vbr sizes c).countBytes ++ sizes.dropLast.flatMap encodeSize)) :
    Delimits (.vbr sizes c) config st s := by
  obtain ⟨hcount, hdur, hmax, hlast⟩ := fits_iff.mp hfits
  rw [PacketForm.sizes] at hcount hdur hmax
  obtain ⟨vs, last, rfl⟩ : ∃ vs last, sizes = vs ++ [last] :=
    ⟨_, _, (List.dropLast_append_getLast (List.ne_nil_of_length_pos hcount)).symm⟩
  rw [pktHolds_append, List.dropLast_concat] at hpkt
  have hcountLen : (PacketForm.vbr (vs ++ [last]) c).countBytes.length = 1 + (chainBytes c).length := by
    simp [PacketForm.countBytes, chainBytes, Nat.add_comm]
  have hprefixed : ((PacketForm.vbr (vs ++ [last]) c).prefixed false) = vs := by simp [PacketForm.prefixed]
  have hsum : (PacketForm.vbr (vs ++ [last]) c).sizes.sum = vs.sum + last := by simp [PacketForm.sizes]
  have hlen : 1 + (1 + (chainBytes c).length + (vs.flatMap encodeSize).length) + (vs.sum + last) +
      (PacketForm.vbr (vs ++ [last]) c).padding =
      2 + (chainBytes c).length + chainAmount c + ((vs.flatMap encodeSize).length + (vs.sum + last)) := by
    have hpad : (PacketForm.vbr (vs ++ [last]) c).padding = chainAmount c := rfl
    omega
  rw [Delimits, total_eq, hcountLen, hprefixed, hsum, hlen]
  refine code3_delimits (vbr := true) hcount hdur hlast hpkt.1 rfl ?_
  rw [if_pos rfl]
  refine parseVbr_delimits rfl (by simp [padded, countRead]) (fun v hv => hmax v (List.mem_append_left _ hv)) ?_
    (frameSizesAt_rem ..)
  rw [frameSizesAt_pos, ← hcountLen]
  exact hpkt.2.setParse _

/-- The parse of a packet that is laid out, before its last frame's size. -/
theorem delimits_of_layout (hfits : f.fits config = true) (hpkt : PktHolds s 0 (f.header false config st)) :
    Delimits f config st s := by
  replace hpkt := (pktHolds_cons.mp hpkt).2
  cases f with
  | one n => exact delimits_one n
  | twoEqual n => exact delimits_twoEqual n
  | two n m =>
    refine delimits_two ((fits_iff.mp hfits).2.2.1 n ?_) ?_
    · simp [PacketForm.sizes]
    · simpa [PacketForm.countBytes, PacketForm.prefixed] using hpkt
  | cbr count n c => exact delimits_cbr hfits (pktHolds_append.mp hpkt).1
  | vbr sizes c => exact delimits_vbr hfits hpkt

/-! The whole parse (R151 to R162). -/

/-- The final registers of a parse hold a packet of form `f`. -/
structure Holds (p : ParseRegs) (f : PacketForm) (config : BitVec 5) (st : Bool) : Prop where
  toc : p.toc = tocByte config st f.code
  pos : p.pos = (f.header false config st).length
  pad : p.pad = f.padding
  sizes : p.sizes = f.sizes.map fun v : Nat => (v : Int)

/-- R161 takes a remainder of at most 1275 bytes as the last frame. -/
theorem parseTail_of_implicit (hsd : t.parse.sd = false) (hmax : t.parse.lastSize ≤ maxImplicit) :
    parseTail t = .go (t.setParse { t.parse with sizes := t.parse.sizes ++ [t.parse.lastSize] }) := by
  rw [parseTail, hsd, if_neg Bool.false_ne_true, tailImplicit, if_neg (by omega)]

/-- PARSE of a packet that is laid out in form `f`. -/
theorem parsePacket_of_layout (hfits : f.fits config = true) (hpkt : PktHolds s 0 (f.header false config st)) :
    ∃ p, parsePacket (f.total false config st) false s = .go ((s.setParse p).setFile (resultFile p s.file)) ∧
      Holds p f config st := by
  obtain ⟨u, hu, hd⟩ := delimits_of_layout hfits hpkt
  have hmax : u.parse.lastSize ≤ maxImplicit := by
    have hmem : u.parse.lastSize ∈ f.sizes.map fun v : Nat => (v : Int) := hd.sizes ▸ List.mem_append_right _ (by simp)
    obtain ⟨n, hn, hlast⟩ := List.mem_map.mp hmem
    have := (fits_iff.mp hfits).2.2.1 n hn
    unfold maxImplicit
    omega
  have hargs : parseArgs (parseStart (f.total false config st) false s) =
      .go (parseStart (f.total false config st) false s) := by
    have hpos := total_eq f config st
    rw [parseArgs]
    simp only [parseStart, State.setParse_parse]
    rw [if_neg (by omega), if_neg (by omega)]
  have hheader : parseHeader (parseStart (f.total false config st) false s) =
      .go (headerRead (f.total false config st) (tocByte config st f.code) s) := by
    rw [← (pktHolds_cons.mp hpkt).1]
    rfl
  obtain ⟨q, rfl⟩ := hd.only
  refine ⟨{ q with sizes := q.sizes ++ [q.lastSize] }, ?_, hd.toc, ?_, hd.pad.trans (Int.zero_add _), hd.sizes⟩
  · rw [parsePacket, hargs, Flow.andThen_go, hheader, Flow.andThen_go, hu, Flow.andThen_go,
      parseTail_of_implicit hd.sd hmax]
    rfl
  · rw [header_length]
    exact hd.pos

theorem parsed_of_parsePacket {len : Int} {sd : Bool} {p : ParseRegs}
    (h : parsePacket len sd s = .go ((s.setParse p).setFile (resultFile p s.file))) : Parsed s len sd p := by
  rcases parsePacket_cases len sd s with ⟨code, q, hq⟩ | ⟨q, hq, hp⟩
  · nomatch h.symm.trans hq
  · obtain rfl : p = q := congrArg State.parse (Flow.go.inj (h.symm.trans hq))
    exact hp

/-- The result file of a packet of form `f`. -/
theorem Holds.resultFileIs {p : ParseRegs} {len : Int} (h : Holds p f config st) (hp : Parsed s len false p)
    (hlen : len < 2 ^ 31) (before : ResultFile) : ResultFileIs (tocByte config st f.code)
      (f.header false config st).length f.padding f.sizes before (resultFile p before) := by
  have hsize : p.sizes.length = f.sizes.length := by rw [h.sizes, List.length_map]
  have hsum : p.sizes.sum = (f.sizes.sum : Nat) := by rw [h.sizes, ← Nat.cast_list_sum]
  constructor
  case toc => exact h.toc
  case count => rw [hp.resultFile_count, hsize]
  case off =>
    intro k hk
    have hoff := hp.resultFile_off hlen (t := s.setFile (resultFile p before)) rfl (hk.trans_eq hsize.symm)
    rw [h.pos, h.sizes, ← List.map_take, ← Nat.cast_list_sum] at hoff
    exact_mod_cast hoff
  case len =>
    intro k hk
    have hlenk := hp.resultFile_len (t := s.setFile (resultFile p before)) rfl (hk.trans_eq hsize.symm)
    refine hlenk.trans ?_
    simp [h.sizes, hk]
  case rest =>
    intro k hk
    have hout : ¬ (0 ≤ k ∧ k < 0 + p.sizes.length ∧ k < 48) := by omega
    simp only [resultFile, overlay_get, List.length_map, frameOffsets_length, if_neg hout, and_self]
  case payload => rw [hp.resultFile_payload hlen, h.pos]
  case consumed =>
    have hcons := hp.resultFile_consumed hlen before
    rw [h.pad, h.pos, hsum] at hcons
    exact_mod_cast hcons

end Sys2Proof.Machine
end

section
/-! PROOFS. Packets of silence (43_driver.md R268, 42_frame_fsm.md R204, R206): frames of at most one byte before any mode. -/

namespace Sys2Proof.Machine

variable {s t u : State} {cap : Int} {config : BitVec 5} {st : Bool} {f : PacketForm}

/-- DECODE of a packet that is laid out in form `f` goes on with the registers that hold it. -/
theorem decodeCommand_of_layout (hc : s.constructed = true) (hcap : 0 < cap) (hfits : f.fits config = true)
    (hpkt : PktHolds s 0 (f.header false config st)) :
    ∃ p, Holds p f config st ∧ Parsed s (f.total false config st) false p ∧
      ∀ fec, (fec = true → cap % (f2_5 (rate s) : Int) = 0) → decodeCommand fec false (f.total false config st) cap s =
        if fec then fecCommand cap (unpacked p s) else packetCommand cap (unpacked p s) := by
  obtain ⟨p, hparse, hholds⟩ := parsePacket_of_layout hfits hpkt
  have hlen := total_eq f config st
  exact ⟨p, hholds, parsed_of_parsePacket hparse, fun fec hwhole =>
    (decodeCommand_parses hc hcap (by omega) hwhole).trans (parsedCommand_of_parsed hparse)⟩

/-- A command of DECODE that answers `t` has decoded. -/
theorem decoded_of_next (hs : Usable s) (hc : s.constructed = true) {fec nul : Bool} {len : Int}
    (h : decodeCommand fec nul len cap s = .next t) : Decoded cap s t := by
  rcases decoded_decodeCommand (cap := cap) (hs.legal hc) hs.out fec nul len with hfault | ⟨v, hv, hd⟩
  · nomatch h.symm.trans hfault
  · exact Host.Outcome.next.inj (hv.symm.trans h) ▸ hd

/-- Two regions next to each other that hold the same value. -/
theorem Memory.Region.append {w o n k : Nat} {m m' m'' : Memory w} {v : BitVec w} (h : Memory.Region m o n (fun _ => v) m')
    (h' : Memory.Region m' (o + n) k (fun _ => v) m'') : Memory.Region m o (n + k) (fun _ => v) m'' := by
  refine ⟨h'.wf, fun i => ?_⟩
  rw [h'.read, h.read]
  by_cases hi : o + n ≤ i ∧ i < o + n + k
  · rw [if_pos hi, if_pos (by omega)]
  · by_cases hfirst : o ≤ i ∧ i < o + n
    · rw [if_neg hi, if_pos hfirst, if_pos (by omega)]
    · rw [if_neg hi, if_neg hfirst, if_neg (by omega)]

/-- DECODE's loop, in `t`, has written silence of `n` samples per channel and has come to `u`. -/
structure Silent (t : State) (n : Nat) (u : State) : Prop where
  dec : u.dec = t.dec
  env : u.env = t.env
  pctl : u.pctl = t.pctl
  tctl : u.tctl = t.tctl
  out : Memory.Region t.out (words t.driver.nb t) (words n t) (fun _ => 0) u.out

/-- R268's loop behind a silent frame of the committed size. -/
@[simps dec driver_k driver_nb]
def frameHushed (t : State) : State :=
  { t with out := t.out.fill (words t.driver.nb t) (words t.dec.frameSize.toNat t) fun _ => 0, fresh := t.fresh + 1
           frame := FrameRegs.clear, tr := []
           driver := { t.driver with k := t.driver.k + 1, nb := t.driver.nb + t.dec.frameSize.toNat } }

theorem words_add_words {m n : Int} (hm : 0 ≤ m) (hn : 0 ≤ n) (t : State) : words m t + words n t = words (m + n) t :=
  words_add hm hn

theorem Silent.behind_frame (hw : t.out.wf = true) (h0 : 0 ≤ t.driver.nb) {n : Nat} (h : Silent (frameHushed t) n u) :
    Silent t (n + t.dec.frameSize.toNat) u where
  dec := h.dec
  env := h.env
  pctl := h.pctl
  tctl := h.tctl
  out := by
    have hfirst : Memory.Region t.out (words t.driver.nb t) (words t.dec.frameSize.toNat t) (fun _ => 0)
        (frameHushed t).out := .fill hw
    have hrest := h.out
    rw [words_of_dec (s := t) (frameHushed_dec t), words_of_dec (s := t) (frameHushed_dec t), frameHushed_driver_nb,
      ← words_add_words h0 (Int.natCast_nonneg _)] at hrest
    have hboth := hfirst.append hrest
    rwa [words_add_words (Int.natCast_nonneg _) (Int.natCast_nonneg _), ← Int.natCast_add, Nat.add_comm] at hboth

/-- R268's loop over frames of at most one byte, before any mode. -/
theorem frameLoop_silence (hl : LegalDecoder t.dec) (hu : t.dec.prevMode = .uninit) (hw : t.out.wf = true) (n : Nat)
    (hlen : ∀ k, t.driver.k ≤ k → k < t.driver.k + n → resLen t k ≤ 1) (h0 : 0 ≤ t.driver.nb)
    (hroom : t.driver.nb + (n * t.dec.frameSize.toNat : Nat) ≤ cap) :
    ∃ u, frameLoop cap n t = .go u ∧ Silent t (n * t.dec.frameSize.toNat) u := by
  induction n generalizing t with
  | zero =>
    refine ⟨t, rfl, rfl, rfl, rfl, rfl, hw, fun i => ?_⟩
    rw [Nat.zero_mul, Nat.cast_zero, words_zero, if_neg (by omega)]
  | succ n ih =>
    obtain ⟨-, hmin, hpos⟩ := hl.frameSize_le_cap
    rw [Nat.succ_mul] at hroom ⊢
    have hdrive := driveFrame_silence (s := t) (fb := some (resOff t t.driver.k)) (o := words t.driver.nb t)
      (fsz := cap - t.driver.nb) (fec := false) hl hu (hlen t.driver.k (Nat.le_refl _) (by omega)) (by omega)
    rw [min_eq_right (by omega)] at hdrive
    obtain ⟨u, hloop, hsil⟩ := ih (t := frameHushed t) hl hu (Memory.wf_fill hw ..)
      (fun k hk hkn => hlen k (Nat.le_of_succ_le hk) (by rw [frameHushed_driver_k] at hkn; omega))
      (by rw [frameHushed_driver_nb]; omega) (by rw [frameHushed_driver_nb, frameHushed_dec]; omega)
    exact ⟨u, by rw [frameLoop, hdrive, Flow.andThen_go]; exact hloop, hsil.behind_frame hw h0⟩

/-- The normal path over frames of at most one byte, before any mode. -/
theorem packetCommand_silence (hl : LegalDecoder s.dec) (hw : s.out.wf = true) (hm : HasMeta s)
    (hu : s.dec.prevMode = .uninit) (hlen : ∀ k < s.file.count.toNat, resLen s k ≤ 1)
    (hroom : ((s.file.count.toNat * s.driver.pf : Nat) : Int) ≤ cap) :
    ∃ u, packetCommand cap s = .next (respondDuration (s.file.count.toNat * s.driver.pf : Nat) u) ∧
      Framing cap (atFirstFrame s) u ∧ Silent (atFirstFrame s) (s.file.count.toNat * s.driver.pf) u := by
  have hfs : (atFirstFrame s).dec.frameSize.toNat = s.driver.pf := hm.atFirstFrame.frameSize hl
  obtain ⟨u, hloop, hsil⟩ := frameLoop_silence (cap := cap) (t := atFirstFrame s) (hm.atFirstFrame.commit hl) hu hw
    s.file.count.toNat (fun k _ hk => hlen k (hk.trans_eq (Nat.zero_add _))) (Int.le_refl 0)
    (by rw [hfs]; exact (Int.zero_add _).trans_le hroom)
  have hpost := frames_atFirstFrame hl hw hm _ hroom
  rw [hloop] at hpost
  obtain ⟨hframing, hnb⟩ := hpost
  refine ⟨u, ?_, hframing, hfs ▸ hsil⟩
  rw [packetCommand, if_neg (by push_cast at hroom; omega), hloop, Flow.settle_go, hnb]

/-- The frame lengths that DECODE reads are those of the layout. -/
theorem Holds.resLen_unpacked {p : ParseRegs} {len : Int} (h : Holds p f config st) (hp : Parsed s len false p) {k : Nat}
    (hk : k < f.sizes.length) : resLen (unpacked p s) k = f.sizes[k] := by
  have hkp : k < p.sizes.length := by rwa [h.sizes, List.length_map]
  rw [hp.resultFile_len (t := unpacked p s) rfl hkp]
  simp only [h.sizes, List.getElem_map]

/-- The samples of a frame that DECODE has taken from the layout's TOC byte (R264). -/
theorem Holds.unpacked_pf {p : ParseRegs} (h : Holds p f config st) :
    (unpacked p s).driver.pf = tocSpf (tocByte config st f.code) s.dec.fs.toNat := by
  rw [← h.toc]
  rfl

/-- Settles O42: the loop over the frames of the layout, each of which is silent. -/
theorem dtxPacketIsSilence : Obligations.DtxPacketIsSilence := by
  unfold Obligations.DtxPacketIsSilence
  intro s f config st cap hs hc hprev hfits hsizes hpkt htotal hmax hroom
  have hl : LegalDecoder s.dec := (hs.legal hc).dec
  have hspf := tocSpf_le (tocByte config st f.code) hl.rate
  have hcap : 0 < cap := by
    have := Nat.mul_le_mul (fits_iff.mp hfits).1 hspf.1
    omega
  obtain ⟨p, hholds, hp, hexec⟩ := decodeCommand_of_layout hc hcap hfits hpkt
  have hfile := hholds.resultFileIs hp (by omega) s.file
  have hcount : (unpacked p s).file.count.toNat = f.sizes.length := hfile.count
  rw [← hholds.unpacked_pf, ← hcount] at hroom ⊢
  obtain ⟨u, hnext, hu, hsil⟩ := packetCommand_silence (s := unpacked p s) hl hs.out (hasMeta_unpacked p s) hprev
    (fun k hk => by
      rw [hcount] at hk
      rw [hholds.resLen_unpacked hp hk]
      exact_mod_cast hsizes _ (List.getElem_mem hk)) hroom
  have hmeta : HoldsMeta p.toc u.dec := hu.keeps.holdsMeta (hasMeta_unpacked p s).atFirstFrame hl
  rw [hholds.toc] at hmeta
  have hout : Memory.Region s.out 0 (words (((unpacked p s).file.count.toNat * (unpacked p s).driver.pf : Nat) : Int) s)
      (fun _ => 0) u.out := words_zero (atFirstFrame (unpacked p s)) ▸ hsil.out
  have hdecode := (hexec false nofun).trans hnext
  refine ⟨_, hdecode, ⟨BitVec.ofInt_natCast .., rfl⟩, hmeta.respondDuration _, rfl, ?_, ?_, ?_, hsil.env,
    hsil.pctl, hsil.tctl, (decoded_of_next (cap := cap) hs hc hdecode).only, ?_, fun j hj => ?_, fun i hi => ?_⟩
  · exact (congrArg Decoder.prevMode hsil.dec).trans hprev
  · exact congrArg (·.prevRedundancy) hsil.dec
  · exact congrArg (·.rangeFinal) hsil.dec
  · rwa [← show u.file = resultFile p s.file from hu.keeps.file] at hfile
  · exact (hout.read j).trans (if_pos ⟨Nat.zero_le j, by omega⟩)
  · exact (hout.read i).trans (if_neg (by omega))

end Sys2Proof.Machine
end

section
/-! PROOFS. Packets of one frame (43_driver.md R265 to R269): where the frame is, and a transform-only one. -/

namespace Sys2Proof.Machine

variable {s t u : State} {cap : Int} {config : BitVec 5} {st : Bool} {n : Nat}

/-! The packet. -/

theorem fits_one (hmax : n ≤ 1275) : (PacketForm.one n).fits config = true := by
  have hspf := (tocSpf_48000 (tocByte config false 0)).2
  refine fits_iff.mpr ⟨Nat.le_refl 1, ?_, by simpa [PacketForm.sizes] using hmax, by simp [PacketForm.chain]⟩
  simp only [PacketForm.sizes, List.length_singleton, maxSamples48k]
  omega

theorem total_one (n : Nat) : (((PacketForm.one n).total false config st : Nat) : Int) = n + 1 := by
  simp [PacketForm.total, PacketForm.header, PacketForm.countBytes, PacketForm.prefixed, PacketForm.sizes,
    PacketForm.padding, PacketForm.chain, Int.add_comm]

/-- The result file and the metadata of a packet of one frame with `n` bytes. -/
structure OneFrame (toc : Byte) (n : Nat) (s : State) : Prop where
  toc : s.file.toc = toc
  count : s.file.count.toNat = 1
  off : resOff s 0 = 1
  len : resLen s 0 = n
  hasMeta : HasMeta s

/-- DECODE of a packet of one frame. -/
theorem decodeCommand_of_one (hc : s.constructed = true) (hcap : 0 < cap) (hmax : n ≤ 1275)
    (hpkt : PktHolds s 0 [tocByte config st 0]) : ∃ p, OneFrame (tocByte config st 0) n (unpacked p s) ∧
      ∀ fec, (fec = true → cap % (f2_5 (rate s) : Int) = 0) → decodeCommand fec false (n + 1) cap s =
        if fec then fecCommand cap (unpacked p s) else packetCommand cap (unpacked p s) := by
  obtain ⟨p, hholds, hp, hexec⟩ := decodeCommand_of_layout (f := .one n) hc hcap (fits_one hmax) hpkt
  rw [total_one] at hp hexec
  have hfile := hholds.resultFileIs hp (by omega) s.file
  refine ⟨p, ⟨hfile.toc, hfile.count, hfile.off 0 Nat.one_pos, hfile.len 0 Nat.one_pos, hasMeta_unpacked p s⟩, hexec⟩

/-- An invocation that succeeds inside DECODE. -/
theorem driveFrame_of_ok {fb : Option Nat} {flen : Int} {o : Nat} {fsz r : Int} {fec : Bool}
    (h : decodeFrame { fb := fb, flen := flen, dst := .pcm, o := o, fsz := fsz, fec := fec } s = .ok (r, u)) (h0 : 0 ≤ r) :
    driveFrame fb flen o fsz fec s = .go (afterFrame u (u.driver.nb + r)) := by
  unfold driveFrame
  rw [h]
  exact if_neg (by omega)

/-- R268's loop behind a frame that answered `r` and ended in `u`. -/
abbrev behindFrame (r : Int) (u : State) : State :=
  (afterFrame u (u.driver.nb + r)).setDriver { (afterFrame u (u.driver.nb + r)).driver with k := u.driver.k + 1 }

/-- The normal path over one frame that decodes. -/
theorem packetCommand_one {toc : Byte} {r : Int} (hl : LegalDecoder s.dec) (hw : s.out.wf = true) (h : OneFrame toc n s)
    (hroom : (s.driver.pf : Int) ≤ cap)
    (hframe : decodeFrame (realArgs 1 n 0 cap) (atFirstFrame s) = .ok (r, u)) (h0 : 0 ≤ r) :
    ∃ v, packetCommand cap s = .next (respondDuration s.driver.pf v) ∧ HoldsMeta toc v.dec ∧
      v.dec = u.dec ∧ v.pctl = u.pctl ∧ v.out = u.out := by
  have hpost := frames_atFirstFrame (cap := cap) hl hw h.hasMeta 1 (by rwa [Nat.one_mul])
  have hdrive : driveFrame (some (resOff s 0)) (resLen s 0) (words 0 s) (cap - 0) false (atFirstFrame s) = _ :=
    driveFrame_of_ok (by rw [h.off, h.len, words_zero, Int.sub_zero]; exact hframe) h0
  have hloop : frameLoop cap 1 (atFirstFrame s) = .go (behindFrame r u) := congrArg (·.andThen fun v =>
    Flow.go (v.setDriver { v.driver with k := v.driver.k + 1 })) hdrive
  rw [hloop] at hpost
  obtain ⟨hu, hnb⟩ := hpost
  have hmeta := hu.keeps.holdsMeta (s := s.setDriver { s.driver with k := 0, nb := 0 }) h.hasMeta.atFirstFrame hl
  refine ⟨behindFrame r u, ?_, h.toc ▸ hmeta, rfl, rfl, rfl⟩
  rw [packetCommand, if_neg (by rw [h.count]; omega), h.count, hloop, Flow.settle_go, hnb, Nat.one_mul]

/-! Transform-only frames. -/

theorem tocMode_xform (h : 16 ≤ config.toNat) : tocMode (tocByte config st 0) = .xform := by
  revert config st; decide

/-- A transform-only frame with bytes, after nothing or after another one. -/
theorem decodeFrame_xform {fb o : Nat} {flen fsz ret : Int} {own : List Sample} {ts : List TReply}
    (hl : LegalDecoder s.dec) (hw : s.out.wf = true) (hm : s.dec.mode = .xform)
    (hprev : s.dec.prevMode = .uninit ∨ s.dec.prevMode = .xform) (hlen : 2 ≤ flen)
    (hfsz : (s.dec.frameSize.toNat : Int) ≤ fsz) (hd : s.env.tDecode.given = ⟨ret, own⟩ :: ts) (h0 : 0 ≤ ret)
    (holen : own.length = words s.dec.frameSize.toNat s) :
    ∃ u, decodeFrame (realArgs fb flen o fsz) s = .ok (s.dec.frameSize.toNat, u) ∧ u.dec.prevMode = .xform ∧
      u.dec.prevRedundancy = false ∧ u.pctl = s.pctl ∧
      Memory.Region s.out o (words s.dec.frameSize.toNat s) (fun j => afterGain s.dec.decodeGain (replySample own j)) u.out := by
  have hmin := hl.frameSize_le_cap.2.1
  have hmain := hl.min_f20 (.inr hm)
  have hstays : transitionFlag true s.dec.prevMode s.dec.mode s.dec.prevRedundancy = false := by
    rcases hprev with h | h <;> simp [transitionFlag, hm, h]
  have h := decodeFrame_of_present (a := realArgs fb flen o fsz) (by simp) hlen (by simp only; omega)
    (rule212_skips (.inl (by simp [hstays]))) (present_fits hl hfsz)
    (rule218_skips (by simp [hm])) (rule219_skips (.inl (by simp [hm]))) (rule223_skips (.inr (by simp [hm])))
    (rule224_skips (.inl (by simp)))
    (rule226_decodes (ret := ret) (own := own) (by simp [hm]) (.inl (by simp)) (by simp [Draws.next_given hd]) h0
      (by rw [holen, words_natCast]; simp [mainSize, rate, chans, ← Nat.cast_min, hmain])) (by simp)
    (rule228_skips (.inl (by simp [hm]))) (rule229_skips (.inl (by simp [hm]))) (rule230_skips (.inl (by simp)))
    (rule231_skips (.inl (by simp))) (rule232_skips (by simp [hstays, uncoveredTransition])) (by simpa using hlen)
    (by simpa using h0)
  have hown : Memory.Region s.out o (words s.dec.frameSize.toNat s) (replySample own)
      (s.out.fill o own.length (replySample own)) := holen ▸ .fill hw
  refine ⟨_, h, by simp [finished_dec, hm], by simp [finished_dec, nextRedundancy],
    by simp [framePctl, hm], finished_region (by simp) (by simp) (by simp [words, chans]) (by simp) ?_⟩
  simpa [mixed_out, hm, accumFlag, tSample_own] using hown

/-- Settles O43: the one frame behind the TOC byte, by R226. -/
theorem xformPacketDecodes : Obligations.XformPacketDecodes := by
  unfold Obligations.XformPacketDecodes
  intro s config st n cap pf ret own rest hs hc hpkt hconfig hlen hmax hpf hprev hroom hcap hd h0 holen
  have hl := (hs.legal hc).dec
  have hspf := tocSpf_le (tocByte config st 0) hl.rate
  obtain ⟨p, hone, hexec⟩ := decodeCommand_of_one (cap := cap) (n := n) hc (by omega) hmax hpkt
  have hupf : (unpacked p s).driver.pf = pf := by
    rw [← hpf, ← hone.toc]
    rfl
  have hm : (atFirstFrame (unpacked p s)).dec.mode = .xform := by
    rw [← tocMode_xform (st := st) hconfig, ← hone.toc]
    rfl
  have hsize : (atFirstFrame (unpacked p s)).dec.frameSize.toNat = pf := by
    rw [← hupf]
    exact hone.hasMeta.atFirstFrame.frameSize hl
  obtain ⟨u, hframe, hprev', hred, hpctl, hregion⟩ := decodeFrame_xform (s := atFirstFrame (unpacked p s)) (fb := 1) (flen := n)
    (o := 0) (fsz := cap) (hone.hasMeta.atFirstFrame.commit hl) hs.out hm hprev (by omega) (by omega) hd h0
    (by rw [hsize]; exact holen)
  have hout : Memory.Region s.out 0 (words pf s) (fun j => afterGain s.dec.decodeGain (own.getD j 0)) u.out := hsize ▸ hregion
  obtain ⟨v, hnext, hmeta, hdec, hvpctl, hvout⟩ :=
    packetCommand_one (s := unpacked p s) hl hs.out hone (by omega) hframe (by omega)
  rw [hupf] at hnext
  have hdecode := (hexec false nofun).trans hnext
  refine ⟨_, hdecode, ⟨BitVec.ofInt_natCast .., rfl⟩, hmeta.respondDuration _, BitVec.ofInt_natCast .., ?_, ?_,
    hvpctl.trans hpctl, (decoded_of_next hs hc hdecode).only, fun i hi => ?_, fun j hj => ?_⟩
  · exact (congrArg (·.prevMode) hdec).trans hprev'
  · exact (congrArg (·.prevRedundancy) hdec).trans hred
  · exact (congrArg (·.read i) hvout).trans ((hout.read i).trans (if_neg (by omega)))
  · exact (congrArg (·.read j) hvout).trans ((hout.read j).trans (if_pos (by omega)))

end Sys2Proof.Machine
end

section
/-! PROOFS. FEC recovery (43_driver.md R265, 42_frame_fsm.md R218): a silent or empty opening, and frame 0 behind it from
its own bytes. -/

namespace Sys2Proof.Machine

variable {s t u : State} {cap : Int} {config : BitVec 5} {st : Bool} {n : Nat}

/-! The opening: what R265 conceals before the frame. -/

/-- R265's opening of `total` samples per channel is empty, or silence. -/
theorem fecPrefix_silence {total : Int} (hl : LegalDecoder s.dec) (hw : s.out.wf = true) (h0 : 0 ≤ total)
    (hd : (f2_5 (rate s) : Int) ∣ total) (hprev : s.dec.prevMode = .uninit ∨ total = 0) :
    ∃ u, fecPrefix total s = .go u ∧ DriveKeeps s u ∧ u.dec = s.dec ∧ u.env = s.env ∧
      Memory.Region s.out 0 (words total s) (fun _ => 0) u.out := by
  unfold fecPrefix
  by_cases hz : total = 0
  · refine ⟨s, if_pos hz, .refl s, rfl, rfl, hw, fun i => ?_⟩
    rw [hz, words_zero, if_neg (by omega)]
  have hu := hprev.resolve_right hz
  have hpost := conceals hl hw hd (by omega)
  obtain ⟨u, hgo⟩ : ∃ u, conceal total s = .go u :=
    concealLoop_silence hl hu hd _ rfl (show 0 < total by omega) (Int.dvd_zero _)
      (show total - 0 ≤ total.toNat by omega)
  rw [hgo] at hpost
  obtain ⟨hc, hnb⟩ := hpost
  obtain ⟨hdec, henv, -, -, hout⟩ := hc.silent hu
  rw [hnb] at hout
  refine ⟨u, by rw [if_neg hz, hgo], hc.keeps, hdec, henv, hc.wf, fun i => ?_⟩
  by_cases hi : i < words total s
  · rw [if_pos ⟨Nat.zero_le i, by omega⟩]
    exact hout i hi
  · rw [if_neg (by omega)]
    exact hc.outside i (Nat.not_lt.mp hi)

/-! The recovered frame. -/

/-- The operands of R265's invocation. -/
abbrev fecArgs (fb : Nat) (flen : Int) (o : Nat) (fsz : Int) : FrameArgs :=
  { fb := some fb, flen := flen, dst := .pcm, o := o, fsz := fsz, fec := true }

/-- A recovered frame has no redundancy of its own. -/
theorem rule219_skips_of_fec (h : t.frame.fec = true) : rule219 t = .go t := by simp [rule219, h]

/-- The prediction engine's samples go straight to OUT in a frame of at least 10 ms. -/
theorem predicted_of_accum (p : List Sample) (hacc : t.frame.celtAccum = true) (hdst : t.frame.dst = .pcm) :
    predicted p t = filled 0 p.length (replySample p) (pCalled (lostFlag t) 0 .pcm t.frame.o t) := by
  rw [predicted, predTarget_accum hacc, hdst]
  rfl

/-- A prediction-only frame recovered from the packet behind it. -/
theorem decodeFrame_recovers {fb o : Nat} {flen : Int} {p : List Sample} {ps : List PReply}
    (hl : LegalDecoder s.dec) (hw : s.out.wf = true) (hm : s.dec.mode = .pred)
    (hprev : s.dec.prevMode = .uninit ∨ s.dec.prevMode = .pred) (hlen : 2 ≤ flen)
    (hd : s.env.pDecode.given = ⟨0, s.dec.frameSize.toNat, p⟩ :: ps) (hplen : p.length = words s.dec.frameSize.toNat s) :
    ∃ u, decodeFrame (fecArgs fb flen o s.dec.frameSize.toNat) s = .ok (s.dec.frameSize.toNat, u) ∧
      u.dec.prevMode = .pred ∧ u.dec.prevRedundancy = false ∧
      EngineCall.pDecode u.pctl 2 true (some ⟨fb, flen⟩) .pcm o ∈ u.env.calls ∧
      Memory.Region s.out o (words s.dec.frameSize.toNat s) (fun j => afterGain s.dec.decodeGain (replySample p j)) u.out := by
  obtain ⟨-, hmin, hpos⟩ := hl.frameSize_le_cap
  have hstays : transitionFlag true s.dec.prevMode s.dec.mode s.dec.prevRedundancy = false := by
    rcases hprev with h | h <;> simp [transitionFlag, hm, h]
  have hnofade : fadeOut s.dec.prevMode false false s.dec.prevRedundancy = false := by
    rcases hprev with h | h <;> simp [fadeOut, h]
  have hacc := celtAccum_readied (a := fecArgs fb flen o s.dec.frameSize.toNat) hl (.inl hm) (Int.le_refl _)
  have h218 := rule218_decodes (t := readied (present (fecArgs fb flen o s.dec.frameSize.toNat) s))
    (n := s.dec.frameSize.toNat) (p := p) (by simp [hm]) (by simp [Draws.next_given hd]) (by omega) (by simp)
    (predCap_accum hacc).ge (by rw [hplen, words_natCast]; simp [chans])
  rw [predicted_of_accum p hacc rfl] at h218
  have h := decodeFrame_of_present (a := fecArgs fb flen o s.dec.frameSize.toNat) (by simp) hlen (by simp only; omega)
    (rule212_skips (.inr (by simp [hm]))) (present_fits hl (Int.le_refl _)) h218 (rule219_skips_of_fec (by simp))
    (rule223_skips (.inl (by simp [hstays, uncoveredTransition]))) (rule224_skips (.inl (by simp)))
    (rule226_skips (by simp [hm])) (by simp)
    (rule228_skips (.inr ⟨by simpa using hacc, by simpa using hnofade⟩)) (rule229_skips (.inr (by simpa using hacc)))
    (rule230_skips (.inl (by simp))) (rule231_skips (.inl (by simp)))
    (rule232_skips (by simp [hstays, uncoveredTransition])) (by simpa using hlen) (by simp)
  have hown : Memory.Region s.out o (words s.dec.frameSize.toNat s) (replySample p)
      (s.out.fill o p.length (replySample p)) := hplen ▸ .fill hw
  exact ⟨_, h, by simp [finished_dec, hm], by simp [finished_dec, nextRedundancy], by simp [lostFlag],
    finished_region (by simp) (by simp) (by simp [words, chans]) (by simp) (by simpa using hown)⟩

/-! The command. -/

theorem tocMode_pred (h : config.toNat < 12) : tocMode (tocByte config st 0) = .pred := by
  revert config st; decide

/-- The packet's frames last a multiple of 2.5 ms (R264). -/
theorem HasMeta.dvd_pf (hm : HasMeta s) (hl : LegalDecoder s.dec) : (f2_5 (rate s) : Int) ∣ s.driver.pf := by
  have h := (hm.commit hl).dvd_frameSize
  rwa [hm.frameSize hl] at h

/-- The state in which R265's opening begins. -/
abbrev atPrefix (s : State) : State := s.setDriver { s.driver with saved := s.dec.lastPacketDuration }

/-- The frame is still at hand behind the opening. -/
theorem OneFrame.behind_fecPrefix {toc : Byte} (h : OneFrame toc n s) (hk : DriveKeeps (atPrefix s) t) : OneFrame toc n t where
  toc := (congrArg ResultFile.toc hk.file).trans h.toc
  count := (congrArg (·.count.toNat) hk.file).trans h.count
  off := by rw [resOff, hk.file]; exact h.off
  len := by rw [resLen, hk.file]; exact h.len
  hasMeta := by
    obtain ⟨k, nb, hdriver⟩ := hk.driver
    constructor <;> rw [hdriver, hk.file]
    · exact h.hasMeta.pm
    · exact h.hasMeta.pb
    · rw [hk.rate]; exact h.hasMeta.pf
    · exact h.hasMeta.pc

/-- The FEC path, where the opening and the recovered frame succeed. -/
theorem fecCommand_recovers {v : State} {o : Nat} {r : Int} (hdeg : ¬ FecDegrades cap s)
    (hpre : fecPrefix (cap - s.driver.pf) (atPrefix s) = .go v)
    (hoff : resOff v 0 = 1) (hlen : resLen v 0 = n) (ho : words (cap - s.driver.pf) v = o)
    (hpf : v.driver.pf = s.driver.pf) (hframe : decodeFrame (fecArgs 1 n o s.driver.pf) (commit v) = .ok (r, u))
    (h0 : 0 ≤ r) :
    fecCommand cap s = .next (respondDuration cap (afterFrame u (u.driver.nb + r))) := by
  rw [fecCommand, if_neg hdeg]
  simp only [hpre, Flow.andThen_go, hoff, hlen, ho, hpf]
  rw [driveFrame_of_ok hframe h0, Flow.settle_go]

/-- The FEC path's success has committed the packet's metadata. -/
theorem fecCommand_holdsMeta (hl : LegalDecoder s.dec) (hw : s.out.wf = true) (hm : HasMeta s) (hcap : 0 < cap)
    (hd : (f2_5 (rate s) : Int) ∣ cap) (hdeg : ¬ FecDegrades cap s)
    (h : fecCommand cap s = .next (respondDuration cap u)) : HoldsMeta s.file.toc (respondDuration cap u).dec := by
  rcases fecCommand_cases hl hw hm hcap hd h with ⟨hdeg', -⟩ | ⟨-, v, hv, heq | ⟨r, -, heq⟩⟩
  · exact absurd hdeg' hdeg
  · exact heq ▸ (hv.holdsMeta hl hm).respondDuration cap
  · have herr : false = true := congrArg (·.host.err) heq
    nomatch herr

/-- The FEC path over a prediction-only packet of one frame, with an opening that needs no engine. -/
theorem fecCommand_one {toc : Byte} {p : List Sample} {ps : List PReply} (hl : LegalDecoder s.dec) (hw : s.out.wf = true)
    (h : OneFrame toc n s) (hdeg : ¬ FecDegrades cap s) (hm : s.driver.pm = .pred)
    (hprev : s.dec.prevMode = .uninit ∨ (s.dec.prevMode = .pred ∧ cap = s.driver.pf)) (hd : (f2_5 (rate s) : Int) ∣ cap)
    (hlen : 2 ≤ n) (hp : s.env.pDecode.given = ⟨0, s.driver.pf, p⟩ :: ps) (hplen : p.length = words s.driver.pf s) :
    ∃ u, fecCommand cap s = .next (respondDuration cap u) ∧ u.dec.prevMode = .pred ∧ u.dec.prevRedundancy = false ∧
      EngineCall.pDecode u.pctl 2 true (some ⟨1, n⟩) .pcm (words (cap - s.driver.pf) s) ∈ u.env.calls ∧
      (∀ j < words (cap - s.driver.pf) s, u.out.read j = 0) ∧
      ∀ j < words s.driver.pf s, u.out.read (words (cap - s.driver.pf) s + j) =
        afterGain s.dec.decodeGain (replySample p j) := by
  have hroom : (s.driver.pf : Int) ≤ cap := Int.not_lt.mp fun hshort => hdeg (.inl hshort)
  obtain ⟨v, hpre, hkeeps, hdec, henv, hzero⟩ := fecPrefix_silence (total := cap - s.driver.pf) (s := atPrefix s) hl hw
    (by omega) (Int.dvd_sub hd (h.hasMeta.dvd_pf hl)) (hprev.imp_right fun hpred => by omega)
  have hv := h.behind_fecPrefix hkeeps
  have hlv : LegalDecoder v.dec := hdec ▸ hl
  have hdriver : v.driver.pf = s.driver.pf ∧ v.driver.pm = s.driver.pm := by
    obtain ⟨k, nb, hdriver⟩ := hkeeps.driver
    rw [hdriver]
    exact ⟨rfl, rfl⟩
  obtain ⟨hpf, hpm⟩ := hdriver
  have hsize : (commit v).dec.frameSize.toNat = s.driver.pf := (hv.hasMeta.frameSize hlv).trans hpf
  have hwords : ∀ k : Int, words k (commit v) = words k s := words_of_dec (s := s) (t := v) hdec
  obtain ⟨u, hframe, hprev', hred, hcall, hregion⟩ := decodeFrame_recovers (s := commit v) (fb := 1) (flen := n)
    (o := words (cap - s.driver.pf) s) (hv.hasMeta.commit hlv) hzero.wf (hpm.trans hm)
    ((hprev.imp_right And.left).imp (congrArg Decoder.prevMode hdec).trans (congrArg Decoder.prevMode hdec).trans)
    (by omega) (by rw [hsize]; exact henv ▸ hp) (by rw [hsize]; exact hplen.trans (hwords _).symm)
  rw [hsize] at hframe hregion
  rw [hwords] at hregion
  have hgain : (commit v).dec.decodeGain = s.dec.decodeGain := congrArg (·.decodeGain) hdec
  refine ⟨_, fecCommand_recovers hdeg hpre hv.off hv.len (hwords _) hpf hframe (Int.natCast_nonneg _), hprev', hred, hcall,
    fun j hj => ?_, fun j hj => hgain ▸ hregion.get hj⟩
  calc u.out.read j = v.out.read j := (hregion.read j).trans (if_neg (by omega))
    _ = 0 := (hzero.read j).trans (if_pos ⟨Nat.zero_le j, hj.trans_eq (Nat.zero_add _).symm⟩)

/-- Settles O41: the opening, then frame 0 by R218's loss-flagged call. -/
theorem fecRecoversTheFrame : Obligations.FecRecoversTheFrame := by
  unfold Obligations.FecRecoversTheFrame
  intro s config st n cap pf p rest hs hc hpkt hconfig hlen hmax hpf hmode hprev hroom _ hwhole hd hplen
  have hl := (hs.legal hc).dec
  have hspf := tocSpf_le (tocByte config st 0) hl.rate
  have hdvd := Int.dvd_of_emod_eq_zero hwhole
  obtain ⟨q, hone, hexec⟩ := decodeCommand_of_one (cap := cap) (n := n) hc (by omega) hmax hpkt
  obtain rfl : (unpacked q s).driver.pf = pf := by
    rw [← hpf, ← hone.toc]
    rfl
  have hpm : (unpacked q s).driver.pm = .pred := by
    rw [← tocMode_pred (st := st) hconfig, ← hone.toc]
    rfl
  have hdeg : ¬ FecDegrades cap (unpacked q s) := by
    rintro (h | h | h)
    · omega
    · nomatch hpm.symm.trans h
    · exact hmode h
  obtain ⟨u, hnext, hprev', hred, hcall, hzero, hown⟩ :=
    fecCommand_one (s := unpacked q s) hl hs.out hone hdeg hpm hprev hdvd hlen hd hplen
  have hmeta := fecCommand_holdsMeta (s := unpacked q s) hl hs.out hone.hasMeta (by omega) hdvd hdeg hnext
  have hdecode := (hexec true fun _ => hwhole).trans hnext
  have hdecoded := decoded_of_next hs hc hdecode
  exact ⟨_, hdecode, ⟨rfl, rfl⟩, hone.toc ▸ hmeta, rfl, hprev', hred, hcall, hdecoded.only, hdecoded.outside, hzero, hown⟩

end Sys2Proof.Machine
end

section
/-! PROOFS. CONSTRUCT and the control requests (44_control.md R290 to R297). -/

namespace Sys2Proof.Machine

/-! What a command's end, and an engine call before it, leave alone. -/

/-- A command that left the outside alone ends. -/
theorem SameOutside.endCommand {s t : State} (h : SameOutside s t) (resp : Word) (err : Bool) :
    SameOutside s (endCommand resp err t) :=
  ⟨h.pkt, h.out, h.cmd, h.arg0, h.arg1, h.arg2, h.inbox⟩

theorem betweenCommands_endCommand (resp : Word) (err : Bool) (s : State) : BetweenCommands (endCommand resp err s) :=
  (onlyAnswers_endCommand resp err s).between

theorem sameOutside_setDec (s : State) (d : Decoder) : SameOutside s (s.setDec d) :=
  ⟨rfl, rfl, rfl, rfl, rfl, rfl, rfl⟩

theorem EngineStep.sameOutside {s t : State} (h : EngineStep s t) (hout : t.out = s.out) : SameOutside s t := by
  refine ⟨h.pkt, hout, ?_, ?_, ?_, ?_, h.inbox⟩ <;> rw [h.host]

/-- An engine call that writes no sample, then its draw as the answer, changes no register of PFF. -/
theorem EngineStep.respondWord {s t : State} (h : EngineStep s t) (hout : t.out = s.out) (w : Word) :
    SameDecoder s (respondWord w t) ∧ SameOutside s (respondWord w t) ∧ (respondWord w t).file = s.file ∧
      BetweenCommands (respondWord w t) :=
  ⟨⟨h.constructed, h.dec, h.pctl, h.tctl, h.tSignalling⟩, (h.sameOutside hout).endCommand w false, h.file,
    betweenCommands_endCommand w false t⟩

/-! CONSTRUCT (R291, R292). -/

section Construct

variable {s : State} {fs c : Int}

theorem execConstruct_of_illegal (h : legalRate fs = false ∨ legalChannels c = false) :
    execConstruct fs c s = raises .badArgument s :=
  if_neg (by rcases h with h | h <;> simp [h])

theorem execConstruct_of_legal (hrate : legalRate fs = true) (hchannels : legalChannels c = true) :
    execConstruct fs c s = .next (respond 0 (constructInit fs c s)) :=
  if_pos (by rw [hrate, hchannels]; rfl)

theorem constructInit_calls : (constructInit fs c s).env.calls =
    .tSetSignalling 0 :: .tInit fs.toNat c.toNat :: .pInit :: s.env.calls := rfl

theorem constructInit_sameOutside : SameOutside s (constructInit fs c s) := ⟨rfl, rfl, rfl, rfl, rfl, rfl, rfl⟩

/-- A number that fits in a register is what the register then holds. -/
theorem toNat_ofInt_of_fits {w : Nat} {v : Int} (hnonneg : 0 ≤ v) (hlt : v < (2 ^ w : Nat)) :
    ((BitVec.ofInt w v).toNat : Int) = v := by
  rw [BitVec.toNat_ofInt, Int.emod_eq_of_lt hnonneg hlt, Int.toNat_of_nonneg hnonneg]

theorem legalRate_bounds (h : legalRate fs = true) : 8000 ≤ fs ∧ fs ≤ 48000 := by
  simp only [legalRate, Bool.or_eq_true, decide_eq_true_eq] at h
  omega

theorem legalChannels_bounds (h : legalChannels c = true) : 1 ≤ c ∧ c ≤ 2 := by
  simp only [legalChannels, Bool.or_eq_true, decide_eq_true_eq] at h
  omega

/-- Legal arguments, and the frame size of 2.5 ms, fit in their registers (10_state.md R20). -/
theorem constructedDecoder_holds (hrate : legalRate fs = true) (hchannels : legalChannels c = true) :
    ((constructedDecoder fs c).fs.toNat : Int) = fs ∧ ((constructedDecoder fs c).c.toNat : Int) = c ∧
      ((constructedDecoder fs c).frameSize.toNat : Int) = fs / 400 := by
  have hfs := legalRate_bounds hrate
  have hc := legalChannels_bounds hchannels
  exact ⟨toNat_ofInt_of_fits (by omega) (by omega), toNat_ofInt_of_fits (by omega) (by omega),
    toNat_ofInt_of_fits (by omega) (by omega)⟩

end Construct

/-- Settles O28: the two checks, and R292's initial values, which fit in their registers. -/
theorem constructInitialises : Obligations.ConstructInitialises := by
  unfold Obligations.ConstructInitialises
  intro s fs c
  refine ⟨fun h => raisesOnly_self (execConstruct_of_illegal h), fun hrate hchannels => ?_⟩
  obtain ⟨hfs, hc, hsize⟩ := constructedDecoder_holds hrate hchannels
  exact ⟨_, execConstruct_of_legal hrate hchannels, ⟨rfl, rfl⟩, constructInit_constructed fs c s, hfs, hc, rfl, rfl,
    rfl, rfl, hsize, rfl, rfl, rfl, rfl, rfl, rfl, constructInit_calls, constructInit_sameOutside.endCommand _ _,
    betweenCommands_endCommand ..⟩

/-! The request tags (R293). -/

theorem decodeCtl_of_unknown {req : Nat} (a0 : Word) (h : 8 ≤ req) :
    decodeCtl req a0 = .rejected (.unknownRequest req) := by
  unfold decodeCtl
  split
  case h_9 => rfl
  all_goals omega

/-- Every control request, known or not, begins with the `constructed` check. -/
theorem runDecoded_decodeCtl_eq_ctl (req : Nat) (a0 : Word) (s : State) :
    ∃ a, runDecoded (decodeCtl req a0) s = ctl s a := by
  unfold decodeCtl
  split <;> exact ⟨_, rfl⟩

theorem ctl_of_constructed {s : State} (h : s.constructed = true) (a : Answer) : ctl s a = a := by
  rw [ctl, h]
  rfl

theorem runDecoded_decodeCtl_of_not_constructed {s : State} (h : s.constructed = false) (req : Nat) (a0 : Word) :
    runDecoded (decodeCtl req a0) s = raises .badArgument s := by
  obtain ⟨a, ha⟩ := runDecoded_decodeCtl_eq_ctl req a0 s
  rw [ha, ctl_of_not_constructed h]

theorem runDecoded_decodeCtl_of_unknown {s : State} (h : s.constructed = true) {req : Nat} (hreq : 8 ≤ req)
    (a0 : Word) : runDecoded (decodeCtl req a0) s = raises .unimplemented s := by
  rw [decodeCtl_of_unknown a0 hreq]
  exact ctl_of_constructed h _

/-- Settles O5: the decoder's arm for each tag; the `constructed` check comes before the refusal of an unknown one. -/
theorem controlRequests : Obligations.ControlRequests := by
  unfold Obligations.ControlRequests
  refine ⟨fun a0 => ⟨rfl, rfl, rfl, rfl, rfl, rfl, rfl, rfl⟩, fun s cmd a0 a1 a2 rest hphase hinbox hop => ?_⟩
  have hlatch : (latchCommand cmd a0 a1 a2 (s.setInbox rest)).constructed = s.constructed := rfl
  rw [step_of_command hphase hinbox, decode_of_op_ctl a0 a1 a2 hop]
  refine ⟨fun hs => ?_, fun hs hreq => ?_⟩
  · rw [runDecoded_decodeCtl_of_not_constructed (hlatch.trans hs)]
    exact raised_onlyAnswers .badArgument _
  · rw [runDecoded_decodeCtl_of_unknown (hlatch.trans hs) hreq]
    exact raised_onlyAnswers .unimplemented _

/-! RESET_STATE (R294), the getters (R295), GET_PITCH (R296) and SET_GAIN (R297), once constructed. -/

section Constructed

variable {s : State} (hs : s.constructed = true)
include hs

theorem execCtlResetState_of_constructed :
    execCtlResetState s = .next (respond 0 (pInit (tReset (s.setDec (resetDecoder s.dec))))) :=
  ctl_of_constructed hs _

theorem execCtlGetPitch_of_xform (hprev : s.dec.prevMode = .xform) :
    execCtlGetPitch s = .next (respondWord (tGetPitch s).1 (tGetPitch s).2) :=
  (ctl_of_constructed hs _).trans (if_pos hprev)

theorem execCtlGetPitch_of_not_xform (hprev : s.dec.prevMode ≠ .xform) :
    execCtlGetPitch s = .next (respondWord (pPrevPitchLag s).1 (pPrevPitchLag s).2) :=
  (ctl_of_constructed hs _).trans (if_neg hprev)

theorem execCtlSetGain_of_outside {v : Int} (hv : v < -32768 ∨ 32767 < v) :
    execCtlSetGain v s = raises .badArgument s :=
  (ctl_of_constructed hs _).trans (if_pos hv)

theorem execCtlSetGain_of_inside {v : Int} (hlo : -32768 ≤ v) (hhi : v ≤ 32767) :
    execCtlSetGain v s = .next (respond 0 (s.setDec { s.dec with decodeGain := BitVec.ofInt 16 v })) :=
  (ctl_of_constructed hs _).trans (if_neg (by omega))

/-- A getter of a number in a narrower register. -/
theorem ctl_respond_natCast (n : Nat) : ctl s (.next (respond n s)) = .next (respondWord (BitVec.ofNat 32 n) s) := by
  rw [ctl_of_constructed hs, respond_natCast]

end Constructed

/-- GET_GAIN answers the register, sign-extended. -/
theorem ctlGetGain_answersOnly {s : State} {v : Int} (hs : s.constructed = true) (hgain : s.dec.decodeGain.toInt = v) :
    AnswersOnly .ctlGetGain s (BitVec.ofInt 32 v) :=
  hgain ▸ answersOnly_self (ctl_of_constructed hs _)

/-- Settles O30: RESET_STATE's registers and its two engine calls, in order. -/
theorem resetState : Obligations.ResetState := by
  unfold Obligations.ResetState
  intro s hs
  have houtside : SameOutside s (pInit (tReset (s.setDec (resetDecoder s.dec)))) := ⟨rfl, rfl, rfl, rfl, rfl, rfl, rfl⟩
  exact ⟨_, execCtlResetState_of_constructed hs, ⟨rfl, rfl⟩, rfl, rfl, hs, rfl, rfl, rfl, houtside.endCommand _ _,
    betweenCommands_endCommand ..⟩

/-- Settles O32: the register each getter answers, and the engine that GET_PITCH asks. -/
theorem getters : Obligations.Getters := by
  unfold Obligations.Getters
  intro s w rest hs
  refine ⟨answersOnly_self (ctl_respond_natCast hs _), answersOnly_self (ctl_of_constructed hs _),
    answersOnly_self (ctl_respond_natCast hs _), ctlGetGain_answersOnly hs rfl,
    answersOnly_self (ctl_of_constructed hs _), fun hprev hgiven => ?_, fun hprev hgiven => ?_⟩
  · have hdraw : (tGetPitch s).1 = w := congrArg Prod.fst (Draws.next_given hgiven)
    exact ⟨_, execCtlGetPitch_of_xform hs hprev, ⟨hdraw, rfl⟩, rfl, (tGetPitch_step s).respondWord rfl _⟩
  · have hdraw : (pPrevPitchLag s).1 = w := congrArg Prod.fst (Draws.next_given hgiven)
    exact ⟨_, execCtlGetPitch_of_not_xform hs hprev, ⟨hdraw, rfl⟩, rfl, (pPrevPitchLag_step s).respondWord rfl _⟩

/-- Settles O33: a gain in range is held exactly by the 16-bit register that GET_GAIN sign-extends. -/
theorem setGain : Obligations.SetGain := by
  unfold Obligations.SetGain
  intro s v hs
  refine ⟨fun hv => raisesOnly_self (execCtlSetGain_of_outside hs hv), fun hlo hhi => ?_⟩
  have hgain : (BitVec.ofInt 16 v).toInt = v := BitVec.toInt_ofInt_eq_self (by decide) hlo (by omega)
  exact ⟨_, execCtlSetGain_of_inside hs hlo hhi, ⟨rfl, rfl⟩, hgain, rfl, rfl, rfl, rfl, rfl, rfl,
    (sameOutside_setDec s _).endCommand _ _, betweenCommands_endCommand .., ctlGetGain_answersOnly hs hgain⟩

end Sys2Proof.Machine
end

section
/-! PROOFS. What a parse leaves alone (41_framing.md R165), and the parse result file that R162 writes. -/

namespace Sys2Proof.Machine

variable {s t : State}

/-- A command ends whose parse has changed working registers and the result file only. -/
theorem parseOnly_endCommand (s : State) (p : ParseRegs) (f : ResultFile) (resp : Word) (err : Bool) :
    ParseOnly s (endCommand resp err ((s.setParse p).setFile f)) :=
  ⟨⟨rfl, rfl, rfl, rfl, rfl⟩, ⟨rfl, rfl, rfl, rfl, rfl, rfl, rfl⟩, rfl, betweenCommands_endCommand ..⟩

/-- PARSE answers the count of its final registers, or an error. -/
theorem parseCommand_cases (len : Int) (sd : Bool) (s : State) :
    (∃ p, parseCommand len sd s = .next (respondCount ((s.setParse p).setFile (resultFile p s.file))) ∧
      Parsed s len sd p) ∨ ∃ code p, parseCommand len sd s = .next (raiseErr code (s.setParse p)) := by
  unfold parseCommand
  rcases parsePacket_cases len sd s with ⟨code, p, h⟩ | ⟨p, h, hp⟩
  · exact .inr ⟨code, p, by rw [h, Flow.settle_done]⟩
  · exact .inl ⟨p, by rw [h, Flow.settle_go], hp⟩

theorem parseCommand_parseOnly (len : Int) (sd : Bool) (s : State) :
    ∃ t, parseCommand len sd s = .next t ∧ ParseOnly s t ∧ (t.host.err = true → t.file = s.file) := by
  rcases parseCommand_cases len sd s with ⟨p, h, -⟩ | ⟨code, p, h⟩
  · exact ⟨_, h, parseOnly_endCommand .., nofun⟩
  · exact ⟨_, h, parseOnly_endCommand s p s.file _ _, fun _ => rfl⟩

/-- Settles O13: the two ends of a parse. -/
theorem parseSideEffects : Obligations.ParseSideEffects := by
  unfold Obligations.ParseSideEffects
  intro s len
  simp only [List.forall_mem_cons]
  exact ⟨parseCommand_parseOnly len false s, parseCommand_parseOnly len true s, List.forall_mem_nil _⟩

/-- The result file of registers that hold frames with the sizes `vs`. -/
theorem resultFileIs_resultFile {p : ParseRegs} {vs : List Nat} {pad : Nat} (hpad : p.pad = pad)
    (hsizes : p.sizes = vs.map fun v : Nat => (v : Int)) (hcount : vs.length = p.count) (hmax : vs.length ≤ 48)
    (hsize : ∀ v ∈ vs, v ≤ 1275) (hend : pad + (p.pos + vs.sum) < 2 ^ 32) (before : ResultFile) :
    ResultFileIs p.toc p.pos pad vs before (resultFile p before) := by
  have hlength : p.sizes.length = vs.length := by rw [hsizes, List.length_map]
  have hsum : p.sizes.sum = (vs.sum : Nat) := by rw [hsizes, ← Nat.cast_list_sum]
  have hentry {k : Nat} (hk : k < vs.length) : 0 ≤ k ∧ k < 0 + vs.length ∧ k < 48 := by omega
  constructor
  case toc => rfl
  case count => rw [resultFile, BitVec.toNat_ofNat]; omega
  case off =>
    intro k hk
    have htake : (p.sizes.take k).sum = ((vs.take k).sum : Nat) := by rw [hsizes, ← List.map_take, ← Nat.cast_list_sum]
    have hle : (vs.take k).sum ≤ vs.sum := by have := List.sum_take_add_sum_drop vs k; omega
    simp only [resultFile, overlay_get, List.length_map, frameOffsets_length, hlength, if_pos (hentry hk), Nat.sub_zero,
      List.getElem?_map, frameOffsets_get _ _ k (hk.trans_eq hlength.symm), Option.map_some, Option.getD_some,
      BitVec.toNat_ofInt, htake]
    omega
  case len =>
    intro k hk
    have hle := hsize _ (List.getElem_mem hk)
    simp only [resultFile, overlay_get, List.length_map, if_pos (hentry hk), Nat.sub_zero, List.getElem?_map, hsizes,
      List.getElem?_eq_getElem hk, Option.map_some, Option.getD_some, List.getD_eq_getElem?_getD]
    exact BitVec.toInt_ofInt_eq_self (by decide) (by omega) (by omega)
  case rest =>
    intro k hk
    have hout : ¬ (0 ≤ k ∧ k < 0 + vs.length ∧ k < 48) := by omega
    simp only [resultFile, overlay_get, List.length_map, frameOffsets_length, hlength, if_neg hout, and_self]
  case payload => rw [resultFile, BitVec.toNat_ofNat]; omega
  case consumed => rw [resultFile, BitVec.toNat_ofInt, hsum, hpad]; omega

end Sys2Proof.Machine
end

section
/-! PROOFS. The framing rows of the opcode table, one rule each (41_framing.md R153 to R159), from any state of the
parser. -/

namespace Sys2Proof.Machine

variable {s t : State}

/-! A row runs its rule, then gives the turn to the next unit. -/

section Row

variable {i : Instr} {m : Flow} {unit : Phase} (hrow : exec i s = thenUnit m unit)
include hrow

theorem exec_of_goes {p : ParseRegs} (h : m = .go (s.setParse p)) :
    exec i s = .next ((s.setParse p).setPhase unit) := by
  rw [hrow, h]
  rfl

theorem raisesOnly_of_fails {e : ErrCode} {p : ParseRegs} (h : m = .err e (s.setParse p)) : RaisesOnly i s e :=
  raisesOnly_setParse p (by rw [hrow, h]; rfl)

/-- A rule that goes on in no case answers InvalidPacket. -/
theorem raisesOnly_of_never_goes
    (hpost : m.Post (fun _ => False) (fun r _ => r = ErrCode.invalidPacket.code) fun _ => False)
    (honly : m.All fun u => ∃ p, u = s.setParse p) : RaisesOnly i s .invalidPacket := by
  cases m with
  | go u => exact hpost.elim
  | done r u =>
    obtain ⟨p, rfl⟩ := honly
    exact raisesOnly_of_fails hrow (p := p) (congrArg (Flow.done · _) hpost)
  | fault f => exact hpost.elim

end Row

/-! Codes 0 and 1 (R153, R154). -/

theorem parseCode1_of_selfDelimited (hsd : s.parse.sd = true) :
    parseCode1 s = .go (s.setParse { s.parse with count := 2, cbr := true }) := if_pos hsd

theorem parseCode1_of_even {half : Int} (hsd : s.parse.sd = false) (hrem : s.parse.rem = 2 * half) : parseCode1 s =
    .go (s.setParse { s.parse with count := 2, cbr := true, lastSize := half, sizes := [half] }) := by
  have hdiv : s.parse.rem / 2 = half := by omega
  rw [parseCode1, hsd, if_neg Bool.false_ne_true, if_neg (by omega)]
  simp only [hdiv]
  rfl

theorem parseCode1_of_odd (hsd : s.parse.sd = false) (hrem : s.parse.rem % 2 = 1) :
    parseCode1 s = .err .invalidPacket (s.setParse { s.parse with count := 2, cbr := true }) := by
  rw [parseCode1, hsd, if_neg Bool.false_ne_true, if_pos (by omega)]

/-- Settles O16: code 0 by its row, code 1 by its three cases. -/
theorem framingCodes0And1 : Obligations.FramingCodes0And1 := by
  unfold Obligations.FramingCodes0And1
  exact fun s config st => ⟨rfl, fun hsd => exec_of_goes rfl (parseCode1_of_selfDelimited hsd),
    fun half hsd hrem => exec_of_goes rfl (parseCode1_of_even hsd hrem),
    fun hsd hrem => raisesOnly_of_fails rfl (parseCode1_of_odd hsd hrem)⟩

/-! Code 2 (R155). -/

theorem parseCode2_of_fits {bytes v : Nat} (hread : readSize s s.parse.pos s.parse.rem = .size bytes v)
    (hfits : (v : Int) ≤ s.parse.rem - bytes) : parseCode2 s = .go (s.setParse { s.parse with
      count := 2, rem := s.parse.rem - bytes, sizes := [(v : Int)], pos := s.parse.pos + bytes
      lastSize := s.parse.rem - bytes - v }) := by
  simp only [parseCode2, State.setParse_parse, readSize_setParse, hread]
  exact if_neg (by omega)

theorem parseCode2_of_tooLarge {bytes v : Nat} (hread : readSize s s.parse.pos s.parse.rem = .size bytes v)
    (hlarge : s.parse.rem - bytes < v) : parseCode2 s =
      .err .invalidPacket (s.setParse { s.parse with count := 2, rem := s.parse.rem - bytes }) := by
  simp only [parseCode2, State.setParse_parse, readSize_setParse, hread]
  exact if_pos (by omega)

theorem parseCode2_of_unreadable (hread : readSize s s.parse.pos s.parse.rem = .unreadable) :
    parseCode2 s = .err .invalidPacket (s.setParse { s.parse with count := 2 }) := by
  simp only [parseCode2, State.setParse_parse, readSize_setParse, hread]

/-- Settles O17: the three things R155 can find. -/
theorem framingCode2 : Obligations.FramingCode2 := by
  unfold Obligations.FramingCode2
  exact fun s config st => ⟨fun bytes v hread hfits => exec_of_goes rfl (parseCode2_of_fits hread hfits),
    fun bytes v hread hlarge => raisesOnly_of_fails rfl (parseCode2_of_tooLarge hread hlarge),
    fun hread => raisesOnly_of_fails rfl (parseCode2_of_unreadable hread)⟩

/-! Code 3 (R156). -/

theorem parseCode3_of_no_byte (hrem : s.parse.rem < 1) : parseCode3 s = .err .invalidPacket (s.setParse s.parse) :=
  if_pos hrem

/-- R156's two checks of the count. -/
theorem parseCode3_of_byte (hrem : 1 ≤ s.parse.rem) : parseCode3 s =
    let count := (pktRead s s.parse.pos).toNat % 64
    let counted := { s.parse with cb := pktRead s s.parse.pos, pos := s.parse.pos + 1, count := count }
    if count = 0 ∨ maxSamples48k < s.parse.spf48 * count then .err .invalidPacket (s.setParse counted)
    else .go (s.setParse { counted with rem := s.parse.rem - 1 }) := by
  rw [parseCode3, if_neg (by omega)]
  simp only [byteField_zero_eq_mod, State.setParse_parse]
  rfl

/-- Settles O18: no byte, a count that fails R156's checks, and one that passes them. -/
theorem framingCode3 : Obligations.FramingCode3 := by
  unfold Obligations.FramingCode3
  intro s config st
  refine ⟨fun hrem => raisesOnly_of_fails rfl (parseCode3_of_no_byte hrem), ?_⟩
  rintro hrem cb rfl
  refine ⟨fun hbad => raisesOnly_of_fails rfl ((parseCode3_of_byte hrem).trans (if_pos hbad)),
    fun hone hmax => exec_of_goes rfl ((parseCode3_of_byte hrem).trans (if_neg ?_))⟩
  unfold maxSamples48k
  omega

/-! The padding chain (R157). -/

/-- R157's chain, with its terminal byte below 255, takes all its bytes and its amount or fails. -/
theorem padChain_post {c : PadChain} (fuel : Nat) (hlast : c.last < 255) (hpkt : PktHolds t t.parse.pos c.bytes) :
    Checks (fun u => u.parse.rem = t.parse.rem - ((c.bytes.length + c.amount : Nat) : Int)) (padChain fuel t) := by
  obtain ⟨k, last⟩ := c
  simp only [PadChain.bytes, PadChain.amount, List.length_append, List.length_replicate, List.length_singleton] at *
  induction k generalizing t fuel with
  | zero =>
    cases fuel with
    | zero => rfl
    | succ fuel =>
      have hbyte : (pktRead t t.parse.pos).toNat = last := (byte_eq_ofNat_iff (by omega)).mp (pktHolds_cons.mp hpkt).1
      refine Flow.Post.ite (fun _ => rfl) fun _ => ?_
      simp only [hbyte]
      rw [if_pos (by omega)]
      simp only [Flow.post_go, State.setParse_parse, if_neg (show last ≠ 255 by omega)]
      omega
  | succ k ih =>
    cases fuel with
    | zero => rfl
    | succ fuel =>
      rw [List.replicate_succ, List.cons_append, pktHolds_cons] at hpkt
      have hbyte : (pktRead t t.parse.pos).toNat = 255 := by rw [hpkt.1]; rfl
      refine Flow.Post.ite (fun _ => rfl) fun _ => ?_
      simp only [hbyte, ne_eq, not_true_eq_false, ↓reduceIte]
      refine (ih fuel hpkt.2).mono (fun u hu => hu.trans ?_) fun _ _ => id
      simp only [State.setParse_parse]
      omega

theorem parsePadding_of_fits {c : PadChain} (hlast : c.last < 255) (hpkt : PktHolds s s.parse.pos c.bytes)
    (hfits : ((c.bytes.length + c.amount : Nat) : Int) ≤ s.parse.rem) : parsePadding s = .go (s.setParse { s.parse with
      pos := s.parse.pos + c.bytes.length
      rem := s.parse.rem - c.bytes.length - c.amount
      pad := s.parse.pad + c.amount }) := by
  have hlength : c.bytes.length = c.more + 1 := by simp [PadChain.bytes]
  have hamount : c.amount = 254 * c.more + c.last := rfl
  rw [parsePadding, padChain_of_pktHolds hlast (by omega) hpkt (by omega), Flow.andThen_go, padCheck,
    if_neg (by simp only [State.setParse_parse]; omega)]

/-- Settles O19: the chain byte by byte; where it takes too much, R157's last check fails if the chain has not. -/
theorem paddingChain : Obligations.PaddingChain := by
  unfold Obligations.PaddingChain
  intro s vbr count c hlast hpkt
  refine ⟨fun hfits => exec_of_goes rfl (parsePadding_of_fits hlast hpkt hfits), fun hshort => ?_⟩
  refine raisesOnly_of_never_goes rfl ?_ (runsAlike_parsePadding (.self s)).changes_parse_only
  exact Flow.Post.andThen (padChain_post _ hlast hpkt) fun u hu =>
    Flow.Post.ite (fun _ => rfl) fun hrem => hrem (by omega)

/-! VBR framing (R158). -/

/-- `ReadSize` where the bytes of a size are cut off. -/
theorem readSize_of_cut {p v : Nat} {r : Int} (hmax : v ≤ 1275) (hpkt : PktHolds s p (encodeSize v))
    (hcut : r < (encodeSize v).length) : readSize s p r = .unreadable := by
  rw [readSize_eq_unreadable_iff]
  by_cases hv : v < 252
  · rw [encodeSize_of_lt hv, List.length_singleton] at hcut
    exact .inl hcut
  · have hbyte := (pktHolds_encodeSize_of_ge (Nat.not_lt.mp hv) hmax).mp hpkt
    rw [encodeSize_of_ge (Nat.not_lt.mp hv), List.length_cons, List.length_singleton] at hcut
    exact .inr ⟨hcut, hbyte.1⟩

/-- R158's loop over the given prefixes takes them and the frames they announce or fails. -/
theorem vbrSizes_post {vs : List Nat} (hmax : ∀ v ∈ vs, v ≤ 1275)
    (hpkt : PktHolds t t.parse.pos (vs.flatMap encodeSize)) :
    Checks (fun u => u.parse.lastSize = t.parse.lastSize - (((vs.flatMap encodeSize).length + vs.sum : Nat) : Int))
      (vbrSizes vs.length t) := by
  induction vs generalizing t with
  | nil => simp [vbrSizes]
  | cons v vs ih =>
    rw [List.flatMap_cons, pktHolds_append] at hpkt
    obtain ⟨hv, hvs⟩ := List.forall_mem_cons.mp hmax
    rw [List.length_cons, vbrSizes]
    by_cases hcut : t.parse.rem < (encodeSize v).length
    · rw [readSize_of_cut hv hpkt.1 hcut]
      rfl
    · rw [readSize_of_pktHolds_encodeSize hv hpkt.1 (Int.not_lt.mp hcut)]
      refine Flow.Post.ite (fun _ => rfl) fun _ => (ih hvs hpkt.2).mono (fun u hu => hu.trans ?_) fun _ _ => id
      simp only [State.setParse_parse, List.flatMap_cons, List.length_append, List.sum_cons]
      omega

theorem parseVbr_of_fits {vs : List Nat} (hsizes : s.parse.sizes = []) (hcount : vs.length + 1 = s.parse.count)
    (hmax : ∀ v ∈ vs, v ≤ 1275) (hpkt : PktHolds s s.parse.pos (vs.flatMap encodeSize))
    (hfits : (((vs.flatMap encodeSize).length + vs.sum : Nat) : Int) ≤ s.parse.rem) :
    parseVbr s = .go (s.setParse { s.parse with
      cbr := false, rem := s.parse.rem - (vs.flatMap encodeSize).length
      pos := s.parse.pos + (vs.flatMap encodeSize).length, sizes := vs.map fun v : Nat => (v : Int)
      lastSize := s.parse.rem - (vs.flatMap encodeSize).length - vs.sum }) := by
  have hloop := vbrSizes_of_pktHolds (t := s.setParse { s.parse with cbr := false, lastSize := s.parse.rem }) hmax
    (hpkt.setParse _) hfits
  rw [parseVbr, ← hcount, Nat.add_sub_cancel, hloop, Flow.andThen_go]
  simp only [State.setParse_parse, hsizes, List.nil_append]
  exact if_neg (by omega)

/-- Settles O20: R158's loop, and its last check where the frames announced do not fit. -/
theorem vbrFramingSizes : Obligations.VbrSizes := by
  unfold Obligations.VbrSizes
  intro s pad count vs hsizes hcount hmax hpkt
  refine ⟨fun hfits => exec_of_goes rfl (parseVbr_of_fits hsizes hcount hmax hpkt hfits), fun hshort => ?_⟩
  refine raisesOnly_of_never_goes rfl ?_ (runsAlike_parseVbr (.self s)).changes_parse_only
  rw [parseVbr, ← hcount, Nat.add_sub_cancel]
  refine Flow.Post.andThen (vbrSizes_post hmax (hpkt.setParse _)) fun u hu =>
    Flow.Post.ite (fun _ => rfl) fun hlast => hlast ?_
  simp only [State.setParse_parse] at hu
  omega

/-! CBR framing (R159). -/

theorem parseCbr_of_selfDelimited (hsd : s.parse.sd = true) :
    parseCbr s = .go (s.setParse { s.parse with cbr := true }) := if_pos hsd

theorem parseCbr_of_whole {n : Int} (hsd : s.parse.sd = false) (hcount : 1 ≤ s.parse.count)
    (hrem : s.parse.rem = n * s.parse.count) : parseCbr s = .go (s.setParse { s.parse with
      cbr := true, lastSize := n, sizes := List.replicate (s.parse.count - 1) n }) := by
  have hlast : s.parse.rem / s.parse.count = n := by rw [hrem, Int.mul_ediv_cancel _ (by omega)]
  rw [parseCbr, hsd, if_neg Bool.false_ne_true]
  simp only [hlast]
  exact if_neg (by rw [hrem]; exact not_not_intro rfl)

theorem parseCbr_of_remainder (hsd : s.parse.sd = false) (hmod : s.parse.rem % s.parse.count ≠ 0) : parseCbr s =
    .err .invalidPacket (s.setParse { s.parse with cbr := true, lastSize := s.parse.rem / s.parse.count }) := by
  rw [parseCbr, hsd, if_neg Bool.false_ne_true]
  exact if_pos fun heq => hmod (Int.emod_eq_zero_of_dvd ⟨_, (heq.symm.trans (Int.mul_comm ..))⟩)

/-- Settles O21: R159's three cases. -/
theorem cbrSizes : Obligations.CbrSizes := by
  unfold Obligations.CbrSizes
  exact fun s pad count => ⟨fun hsd => exec_of_goes rfl (parseCbr_of_selfDelimited hsd),
    fun n hsd hcount hrem => exec_of_goes rfl (parseCbr_of_whole hsd hcount hrem),
    fun hsd _ hmod => raisesOnly_of_fails rfl (parseCbr_of_remainder hsd hmod)⟩

end Sys2Proof.Machine
end

section
/-! PROOFS. The parser's last unit (41_framing.md R160 to R162), from any state of the parser. -/

namespace Sys2Proof.Machine

variable {s t : State} {p : ParseRegs} {bytes v : Nat}

theorem step_of_tail (h : s.phase = .tail) : step s = finishParse s := by
  rw [step, stepByPhase, h]

theorem finishParse_of_fails {e : ErrCode} (h : parseTail s = .err e (s.setParse p)) :
    ∃ t, finishParse s = .next t ∧ Raised t e ∧ OnlyAnswers s t :=
  ⟨raiseErr e.code (s.setParse p), by rw [finishParse, h]; rfl, ⟨rfl, rfl⟩, (onlyAnswers_endCommand ..).setParse p⟩

/-- R162, from final registers that hold frames with the sizes `vs`. -/
theorem finishParse_of_goes {vs : List Nat} {pad : Nat} (h : parseTail s = .go (s.setParse p)) (hpad : p.pad = pad)
    (hsizes : p.sizes = vs.map fun v : Nat => (v : Int)) (hcount : vs.length = p.count) (hmax : vs.length ≤ 48)
    (hsize : ∀ v ∈ vs, v ≤ 1275) (hpos : p.pos + pad < 2 ^ 31 + 2) :
    ∃ t, finishParse s = .next t ∧ Answered t (BitVec.ofNat 32 p.count) ∧ ParseOnly s t ∧
      ResultFileIs p.toc p.pos pad vs s.file t.file := by
  have hsum : vs.sum ≤ 48 * 1275 := (List.sum_le_card_nsmul vs 1275 hsize).trans (Nat.mul_le_mul_right _ hmax)
  refine ⟨respondCount ((s.setParse p).setFile (resultFile p s.file)), by rw [finishParse, h]; rfl,
    ⟨BitVec.ofInt_natCast .., rfl⟩, parseOnly_endCommand .., ?_⟩
  exact resultFileIs_resultFile hpad hsizes hcount hmax hsize (by omega) s.file

/-! An implicit last frame (R161). -/

theorem parseTail_of_tooLarge (hsd : s.parse.sd = false) (hmax : maxImplicit < s.parse.lastSize) :
    parseTail s = .err .invalidPacket (s.setParse s.parse) := by
  rw [parseTail, hsd, if_neg Bool.false_ne_true]
  exact if_pos hmax

/-- Settles O22: R161's check, then R162. -/
theorem implicitLastFrame : Obligations.ImplicitLastFrame := by
  unfold Obligations.ImplicitLastFrame
  intro s hphase hsd
  rw [step_of_tail hphase]
  refine ⟨fun hlarge => finishParse_of_fails (parseTail_of_tooLarge hsd hlarge), ?_⟩
  intro vs last pad hsizes hlast hpad hcount hcount48 hmax hsize hpos
  have hgoes := parseTail_of_implicit hsd (by rw [hlast]; unfold maxImplicit; omega)
  refine finishParse_of_goes (p := { s.parse with sizes := s.parse.sizes ++ [s.parse.lastSize] }) (vs := vs ++ [last])
    hgoes hpad (by simp [hsizes, hlast]) (by simpa using hcount) (by simpa [hcount] using hcount48) ?_
    (by simp only; omega)
  simpa [or_imp, forall_and] using ⟨hsize, hmax⟩

/-! A self-delimited last frame (R160). -/

theorem parseTail_of_unreadable (hsd : s.parse.sd = true) (hread : readSize s s.parse.pos s.parse.rem = .unreadable) :
    parseTail s = .err .invalidPacket (s.setParse s.parse) := by
  rw [parseTail, if_pos hsd, tailSelfDelimited, hread]
  rfl

/-- R160's check of the last frame's size: against the bytes left, then, for every frame or for the last, against the
size the framing leaves. -/
def LastSizeFits (p : ParseRegs) (bytes v : Nat) : Prop :=
  (v : Int) ≤ p.rem - bytes ∧ (p.cbr = true → (v : Int) * p.count ≤ p.rem - bytes) ∧
    (p.cbr = false → (bytes : Int) + v ≤ p.lastSize)

/-- The registers after R160, if its checks pass. -/
def lastFrameRead (p : ParseRegs) (bytes v : Nat) : ParseRegs :=
  { p with
    rem := p.rem - bytes
    pos := p.pos + bytes
    sizes := if p.cbr then List.replicate p.count (v : Int) else p.sizes ++ [(v : Int)] }

section Read

variable (hsd : s.parse.sd = true) (hread : readSize s s.parse.pos s.parse.rem = .size bytes v)
include hsd hread

theorem parseTail_of_fits (hfits : LastSizeFits s.parse bytes v) :
    parseTail s = .go (s.setParse (lastFrameRead s.parse bytes v)) := by
  obtain ⟨hrem, hcbr, hvbr⟩ := hfits
  rw [parseTail, if_pos hsd, tailSelfDelimited, hread]
  simp only [lastFrameRead]
  rw [if_neg (Int.not_lt.mpr hrem)]
  cases h : s.parse.cbr with
  | true => exact if_neg (Int.not_lt.mpr (hcbr h))
  | false => exact if_neg (Int.not_lt.mpr (hvbr h))

theorem parseTail_of_not_fits (hfits : ¬ LastSizeFits s.parse bytes v) :
    ∃ p, parseTail s = .err .invalidPacket (s.setParse p) := by
  rw [parseTail, if_pos hsd, tailSelfDelimited, hread]
  by_cases hrem : (v : Int) > s.parse.rem - bytes
  · exact ⟨_, if_pos hrem⟩
  simp only [if_neg hrem]
  cases h : s.parse.cbr with
  | true =>
    exact ⟨_, if_pos (Int.not_le.mp fun hle => hfits ⟨Int.not_lt.mp hrem, fun _ => hle, fun h' => by simp [h] at h'⟩)⟩
  | false =>
    exact ⟨_, if_pos (Int.not_le.mp fun hle => hfits ⟨Int.not_lt.mp hrem, fun h' => by simp [h] at h', fun _ => hle⟩)⟩

end Read

/-- Settles O23: what `ReadSize` finds, R160's checks, then R162. -/
theorem selfDelimitedLastFrame : Obligations.SelfDelimitedLastFrame := by
  unfold Obligations.SelfDelimitedLastFrame
  intro s hphase hsd
  rw [step_of_tail hphase]
  refine ⟨fun hread => finishParse_of_fails (parseTail_of_unreadable hsd hread), fun bytes v hread hbad => ?_, ?_⟩
  · obtain ⟨p, hp⟩ := parseTail_of_not_fits hsd hread fun ⟨hrem, hcbr, hvbr⟩ => by
      rcases hbad with h | ⟨h, hlarge⟩ | ⟨h, hlarge⟩
      · omega
      · exact absurd (hcbr h) (Int.not_le.mpr hlarge)
      · exact absurd (hvbr h) (Int.not_le.mpr hlarge)
    exact finishParse_of_fails hp
  · intro bytes v pad vs hread hrem hpad hcount hcount48 hpos hframes
    obtain ⟨hv, hbytes, -⟩ := readSize_bounds hread
    have hp : (lastFrameRead s.parse bytes v).pos + pad < 2 ^ 31 + 2 := by simp only [lastFrameRead]; omega
    rcases hframes with ⟨hcbr, hfit, rfl⟩ | ⟨hcbr, hfit, hlength, hsizes, hsize⟩
    · have hrep : List.replicate (s.parse.count - 1) v ++ [v] = List.replicate s.parse.count v := by
        rw [← List.replicate_succ', Nat.sub_add_cancel hcount]
      rw [hrep]
      refine finishParse_of_goes (parseTail_of_fits hsd hread ⟨hrem, fun _ => hfit, by simp [hcbr]⟩) hpad
        (by simp [lastFrameRead, hcbr]) (by simp [lastFrameRead]) (by simpa using hcount48) (fun n hn => ?_) hp
      exact (List.eq_of_mem_replicate hn).trans_le hv
    · refine finishParse_of_goes (vs := vs ++ [v]) (parseTail_of_fits hsd hread ⟨hrem, by simp [hcbr], fun _ => hfit⟩)
        hpad (by simp [lastFrameRead, hcbr, hsizes]) (by simpa [lastFrameRead] using hlength)
        (by simpa [hlength] using hcount48) ?_ hp
      simpa [or_imp, forall_and] using ⟨hsize, hv⟩

end Sys2Proof.Machine
end

section
/-! PROOFS. PARSE and PARSE.SD of a packet that is laid out (30_encoding.md R92). -/

namespace Sys2Proof.Machine

variable {s t : State} {f : PacketForm} {config : BitVec 5} {st : Bool} {len : Int} {vs : List Nat} {last : Nat}
  {p : ParseRegs}

/-! The rules of a self-delimited packet, up to the last frame's own size bytes (R152 to R159). -/

/-- The header of a self-delimited packet has been read (R152). -/
abbrev selfHeaderRead (len : Int) (toc : Byte) (s : State) : State :=
  s.setParse (headerRegs toc (tocSpf toc 48000) { ParseRegs.clear with len := len, sd := true })

/-- The parser is at the last size bytes of a packet of form `f` with the size prefixes of `vs` and `last`. -/
structure AtLastPrefix (f : PacketForm) (config : BitVec 5) (st : Bool) (len : Int) (vs : List Nat) (last : Nat)
    (p : ParseRegs) : Prop where
  toc : p.toc = tocByte config st f.code
  sd : p.sd = true
  pos : p.pos = 1 + f.countBytes.length + (vs.flatMap encodeSize).length
  pad : p.pad = f.padding
  rem : p.rem = len - p.pos - f.padding
  count : p.count = f.sizes.length
  frames : (p.cbr = true ∧ f.sizes = List.replicate p.count last) ∨
    (p.cbr = false ∧ f.sizes = vs ++ [last] ∧ p.sizes = vs.map (fun v : Nat => (v : Int)) ∧ p.lastSize = p.rem - vs.sum)

/-- A self-delimited packet of form `f` is parsed as it is laid out, up to its last size bytes. -/
def ReachesLastPrefix (f : PacketForm) (config : BitVec 5) (st : Bool) (len : Int) (s : State) : Prop :=
  ∃ vs last u, parseByCode (selfHeaderRead len (tocByte config st f.code) s) = .go u ∧ (∃ q, u = s.setParse q) ∧
    f.prefixed true = vs ++ [last] ∧ AtLastPrefix f config st len vs last u.parse

/-- The registers of a self-delimited code-3 packet behind its count byte and its padding chain. -/
abbrev selfSizesAt (vbr : Bool) (count : Nat) (c : Option PadChain) (len : Int) (toc : Byte) (s : State) : State :=
  padded c (countRead (countByte vbr c.isSome (BitVec.ofNat 6 count)) count (selfHeaderRead len toc s))

theorem parseByCode_of_code0 (h : tocCode t.parse.toc = 0) : parseByCode t = parseCode0 t := by
  rw [parseByCode, h]
  rfl

theorem parseByCode_of_code1 (h : tocCode t.parse.toc = 1) : parseByCode t = parseCode1 t := by
  rw [parseByCode, h]
  rfl

theorem parseByCode_of_code2 (h : tocCode t.parse.toc = 2) : parseByCode t = parseCode2 t := by
  rw [parseByCode, h]
  rfl

theorem parseByCode_of_code3 (h : tocCode t.parse.toc = 3) : parseByCode t = (parseCode3 t).andThen parseCode3Rest := by
  rw [parseByCode, h]
  rfl

theorem parseByCode_code3 {vbr : Bool} {count : Nat} {c : Option PadChain} (hcount : 1 ≤ count)
    (hdur : count * tocSpf (tocByte config false 0) 48000 ≤ maxSamples48k) (hlast : ∀ d ∈ c, d.last < 255)
    (hpkt : PktHolds s 1 (countByte vbr c.isSome (BitVec.ofNat 6 count) :: chainBytes c))
    (hlen : ((2 + (chainBytes c).length + chainAmount c : Nat) : Int) ≤ len) :
    parseByCode (selfHeaderRead len (tocByte config st 3) s) =
      if vbr then parseVbr (selfSizesAt vbr count c len (tocByte config st 3) s)
      else parseCbr (selfSizesAt vbr count c len (tocByte config st 3) s) := by
  have hbound : count < 64 := by
    by_contra hbig
    have := Nat.mul_le_mul (Nat.not_lt.mp hbig) (tocSpf_48000 (tocByte config false 0)).1
    unfold maxSamples48k at hdur
    omega
  rw [pktHolds_cons] at hpkt
  rw [parseByCode_of_code3 (tocCode_tocByte ..), parseCode3_of_pktHolds ⟨hcount, hbound⟩
    (by simpa only [State.setParse_parse, headerRegs, tocSpf_tocByte, Nat.mul_comm] using hdur)
    (by simp only [State.setParse_parse, headerRegs]; omega) hpkt.1, Flow.andThen_go]
  exact parseCode3Rest_of_pktHolds hlast rfl (hpkt.2.setParse _)
    (by simp only [countRead, State.setParse_parse, headerRegs]; omega)

theorem reachesLastPrefix_one (n : Nat) : ReachesLastPrefix (.one n) config st len s := by
  have hparse : parseByCode (selfHeaderRead len (tocByte config st 0) s) = parseCode0 _ :=
    parseByCode_of_code0 (tocCode_tocByte ..)
  refine ⟨[], n, _, hparse, ⟨_, rfl⟩, rfl, ?_⟩
  constructor <;> simp [headerRegs, ParseRegs.clear, PacketForm.countBytes, PacketForm.padding, PacketForm.chain,
    PacketForm.sizes, PacketForm.code]

theorem reachesLastPrefix_twoEqual (n : Nat) : ReachesLastPrefix (.twoEqual n) config st len s := by
  have hparse := (parseByCode_of_code1 (tocCode_tocByte config st 1)).trans
    (parseCode1_of_selfDelimited (s := selfHeaderRead len (tocByte config st 1) s) rfl)
  refine ⟨[], n, _, hparse, ⟨_, rfl⟩, rfl, ?_⟩
  constructor <;> simp [headerRegs, PacketForm.countBytes, PacketForm.padding, PacketForm.chain,
    PacketForm.sizes, PacketForm.code]

theorem reachesLastPrefix_two {n m : Nat} (hmax : n ≤ 1275) (hpkt : PktHolds s 1 (encodeSize n))
    (hlen : ((1 + (encodeSize n).length + n : Nat) : Int) ≤ len) : ReachesLastPrefix (.two n m) config st len s := by
  have hread := readSize_of_pktHolds_encodeSize (s := selfHeaderRead len (tocByte config st 2) s) (r := len - 1) hmax
    (hpkt.setParse _) (by omega)
  have hparse := (parseByCode_of_code2 (tocCode_tocByte config st 2)).trans
    (parseCode2_of_fits hread (by simp only [State.setParse_parse, headerRegs]; omega))
  refine ⟨[n], m, _, hparse, ⟨_, rfl⟩, rfl, ?_⟩
  constructor <;> simp [headerRegs, ParseRegs.clear, PacketForm.countBytes, PacketForm.padding, PacketForm.chain,
    PacketForm.sizes, PacketForm.code, Int.sub_sub]

section Code3

variable {c : Option PadChain}

theorem reachesLastPrefix_cbr {count n : Nat} (hfits : (PacketForm.cbr count n c).fits config = true)
    (hpkt : PktHolds s 1 (PacketForm.cbr count n c).countBytes)
    (hlen : ((2 + (chainBytes c).length + chainAmount c : Nat) : Int) ≤ len) :
    ReachesLastPrefix (.cbr count n c) config st len s := by
  obtain ⟨hcount, hdur, -, hlast⟩ := fits_iff.mp hfits
  rw [PacketForm.sizes, List.length_replicate] at hcount hdur
  have hparse := (parseByCode_code3 (st := st) (vbr := false) hcount hdur hlast hpkt hlen).trans
    (parseCbr_of_selfDelimited (s := selfSizesAt false count c len (tocByte config st 3) s) rfl)
  refine ⟨[], n, _, hparse, ⟨_, rfl⟩, rfl, ?_⟩
  constructor <;> simp [padded, countRead, headerRegs, PacketForm.countBytes, PacketForm.padding, PacketForm.chain,
    PacketForm.sizes, PacketForm.code, chainBytes, chainAmount] <;> omega

theorem reachesLastPrefix_vbr (hfits : (PacketForm.vbr (vs ++ [last]) c).fits config = true)
    (hpkt : PktHolds s 1 ((PacketForm.vbr (vs ++ [last]) c).countBytes ++ vs.flatMap encodeSize))
    (hlen : ((2 + (chainBytes c).length + chainAmount c + (vs.flatMap encodeSize).length + vs.sum : Nat) : Int) ≤ len) :
    ReachesLastPrefix (.vbr (vs ++ [last]) c) config st len s := by
  obtain ⟨hcount, hdur, hmax, hlast⟩ := fits_iff.mp hfits
  rw [PacketForm.sizes] at hcount hdur hmax
  rw [PacketForm.chain] at hlast
  rw [pktHolds_append] at hpkt
  have hpos : (selfSizesAt true (vs ++ [last]).length c len (tocByte config st 3) s).parse.pos =
      1 + (PacketForm.vbr (vs ++ [last]) c).countBytes.length := by
    simp [padded, countRead, headerRegs, PacketForm.countBytes, chainBytes]
    omega
  have hparse := (parseByCode_code3 (st := st) (vbr := true) hcount hdur hlast hpkt.1 (by omega)).trans
    (parseVbr_of_fits (s := selfSizesAt true (vs ++ [last]).length c len (tocByte config st 3) s) rfl
      (by simp [padded, countRead]) (fun v hv => hmax v (List.mem_append_left _ hv)) (hpos ▸ hpkt.2.setParse _)
      (by simp only [padded, countRead, headerRegs, State.setParse_parse]; omega))
  refine ⟨vs, last, _, hparse, ⟨_, rfl⟩, rfl, ?_⟩
  constructor <;> simp [padded, countRead, headerRegs, PacketForm.countBytes, PacketForm.padding, PacketForm.chain,
    PacketForm.sizes, PacketForm.code, chainBytes, chainAmount] <;> omega

end Code3

/-- The parse of a self-delimited packet that is laid out, before its last size bytes. -/
theorem reachesLastPrefix_of_layout (hfits : f.fits config = true) (hpkt : PktHolds s 0 (f.header true config st))
    (hlen : (f.total true config st : Int) ≤ len) : ReachesLastPrefix f config st len s := by
  replace hpkt := (pktHolds_cons.mp hpkt).2
  rw [PacketForm.total, PacketForm.header, List.length_cons, List.length_append] at hlen
  have hpadding : f.padding = chainAmount f.chain := rfl
  cases f with
  | one n => exact reachesLastPrefix_one n
  | twoEqual n => exact reachesLastPrefix_twoEqual n
  | two n m =>
    simp only [PacketForm.countBytes, PacketForm.prefixed, PacketForm.sizes, if_true, List.nil_append,
      List.flatMap_cons, List.length_append, List.sum_cons, pktHolds_append] at hpkt hlen
    exact reachesLastPrefix_two ((fits_iff.mp hfits).2.2.1 n (by simp [PacketForm.sizes])) hpkt.1 (by omega)
  | cbr count n c =>
    refine reachesLastPrefix_cbr hfits (pktHolds_append.mp hpkt).1 ?_
    simp only [PacketForm.countBytes, List.length_cons, PacketForm.chain, chainBytes] at hlen hpadding ⊢
    omega
  | vbr sizes c =>
    obtain ⟨vs, last, rfl⟩ : ∃ vs last, sizes = vs ++ [last] :=
      ⟨_, _, (List.dropLast_append_getLast (List.ne_nil_of_length_pos (fits_iff.mp hfits).1)).symm⟩
    simp only [PacketForm.prefixed, if_true, List.flatMap_append, ← List.append_assoc, pktHolds_append] at hpkt
    refine reachesLastPrefix_vbr hfits (pktHolds_append.mpr hpkt.1) ?_
    simp only [PacketForm.countBytes, PacketForm.prefixed, PacketForm.sizes, List.length_cons, if_true,
      List.flatMap_append, List.length_append, List.sum_append, PacketForm.chain, chainBytes] at hlen hpadding ⊢
    omega

/-! R160 at the last size bytes, then the whole parse. -/

theorem AtLastPrefix.last_le (h : AtLastPrefix f config st len vs last p) (hone : 1 ≤ f.sizes.length)
    (hmax : ∀ n ∈ f.sizes, n ≤ 1275) : last ≤ 1275 := by
  refine hmax last ?_
  rcases h.frames with ⟨-, hsizes⟩ | ⟨-, hsizes, -⟩
  · rw [hsizes, h.count]
    exact List.mem_replicate.mpr ⟨Nat.ne_of_gt hone, rfl⟩
  · rw [hsizes]
    exact List.mem_append_right _ (List.mem_singleton_self _)

theorem AtLastPrefix.lastSizeFits (h : AtLastPrefix f config st len vs last p) (hone : 1 ≤ f.sizes.length)
    (hroom : (p.pos + (encodeSize last).length + f.sizes.sum + f.padding : Int) ≤ len) :
    LastSizeFits p (encodeSize last).length last := by
  have hrem : (f.sizes.sum : Int) ≤ p.rem - (encodeSize last).length := by have := h.rem; omega
  rcases h.frames with ⟨hcbr, hsizes⟩ | ⟨hcbr, hsizes, -, hlast⟩
  · have hsum : f.sizes.sum = p.count * last := by rw [hsizes]; simp
    have hle : last ≤ p.count * last := Nat.le_mul_of_pos_left _ (h.count ▸ hone)
    refine ⟨by omega, fun _ => ?_, by simp [hcbr]⟩
    rw [Int.mul_comm]
    exact_mod_cast hsum ▸ hrem
  · have hsum : f.sizes.sum = vs.sum + last := by rw [hsizes]; simp
    exact ⟨by omega, by simp [hcbr], fun _ => by omega⟩

theorem AtLastPrefix.sizes_lastFrameRead (h : AtLastPrefix f config st len vs last p) (bytes : Nat) :
    (lastFrameRead p bytes last).sizes = f.sizes.map fun v : Nat => (v : Int) := by
  rcases h.frames with ⟨hcbr, hsizes⟩ | ⟨hcbr, hsizes, hread, -⟩
  · rw [lastFrameRead, if_pos hcbr, hsizes, List.map_replicate]
  · rw [lastFrameRead, if_neg (by simp [hcbr]), hread, hsizes, List.map_append, List.map_singleton]

theorem parseArgs_of_pos {sd : Bool} (hlen : 1 ≤ len) :
    parseArgs (parseStart len sd s) = .go (parseStart len sd s) := by
  rw [parseArgs]
  simp only [parseStart, State.setParse_parse]
  rw [if_neg (by omega), if_neg (by omega)]

/-- PARSE.SD of a packet that is laid out in form `f`. -/
theorem parseSelf_of_layout (hfits : f.fits config = true) (hpkt : PktHolds s 0 (f.header true config st))
    (hlen : (f.total true config st : Int) ≤ len) :
    ∃ p, parsePacket len true s = .go ((s.setParse p).setFile (resultFile p s.file)) ∧
      p.toc = tocByte config st f.code ∧ p.pos = (f.header true config st).length ∧ p.pad = f.padding ∧
      p.count = f.sizes.length ∧ p.sizes = f.sizes.map fun v : Nat => (v : Int) := by
  obtain ⟨vs, last, u, hu, ⟨q, rfl⟩, hprefixed, h⟩ := reachesLastPrefix_of_layout hfits hpkt hlen
  rw [State.setParse_parse] at h
  obtain ⟨hone, -, hmax, -⟩ := fits_iff.mp hfits
  have hheader : f.header true config st =
      (tocByte config st f.code :: (f.countBytes ++ vs.flatMap encodeSize)) ++ encodeSize last := by
    simp [PacketForm.header, hprefixed]
  have hpos : q.pos = (tocByte config st f.code :: (f.countBytes ++ vs.flatMap encodeSize)).length := by
    rw [h.pos, List.length_cons, List.length_append]
    omega
  have hpositive : 1 ≤ q.pos := by rw [h.pos]; omega
  rw [PacketForm.total, hheader, List.length_append, ← hpos] at hlen
  have htoc : pktRead s 0 = tocByte config st f.code := (pktHolds_cons.mp hpkt).1
  rw [hheader, pktHolds_append, Nat.zero_add, ← hpos] at hpkt
  have hfitsLast := h.lastSizeFits hone (by omega)
  have hread : readSize (s.setParse q) q.pos q.rem = .size (encodeSize last).length last :=
    readSize_of_pktHolds_encodeSize (h.last_le hone hmax) (hpkt.2.setParse q) (by have := hfitsLast.1; omega)
  have hstart : parseHeader (parseStart len true s) = .go (selfHeaderRead len (tocByte config st f.code) s) := by
    rw [← htoc]
    rfl
  refine ⟨lastFrameRead q (encodeSize last).length last, ?_, h.toc, ?_, h.pad, h.count, h.sizes_lastFrameRead _⟩
  · rw [parsePacket, parseArgs_of_pos (by omega), Flow.andThen_go, hstart, Flow.andThen_go, hu, Flow.andThen_go,
      parseTail_of_fits h.sd hread hfitsLast]
    rfl
  · rw [hheader, List.length_append, ← hpos]
    rfl

/-- A parse whose final registers hold the frames `vs` answers their count. -/
theorem parseCommand_answers {sd : Bool} (h : parsePacket len sd s = .go ((s.setParse p).setFile (resultFile p s.file)))
    (hcount : p.count = vs.length) : ∃ t, parseCommand len sd s = .next t ∧ Answered t (BitVec.ofNat 32 vs.length) ∧
      t.file = resultFile p s.file ∧ ParseOnly s t :=
  ⟨respondCount ((s.setParse p).setFile (resultFile p s.file)), by rw [parseCommand, h]; rfl,
    ⟨hcount ▸ BitVec.ofInt_natCast .., rfl⟩, rfl, parseOnly_endCommand ..⟩

/-- Settles O11: both layouts, each with the result file of the final registers. -/
theorem parseInvertsLayout : Obligations.ParseInvertsLayout := by
  unfold Obligations.ParseInvertsLayout
  intro f config st s hfits
  refine ⟨fun hpkt htotal => ?_, fun hpkt len hlen hmax => ?_⟩
  · obtain ⟨p, hparse, hholds⟩ := parsePacket_of_layout hfits hpkt
    have hp := parsed_of_parsePacket hparse
    have hcount : p.count = f.sizes.length := by rw [← hp.length, hholds.sizes, List.length_map]
    obtain ⟨t, hrun, hans, hfile, honly⟩ := parseCommand_answers hparse hcount
    exact ⟨t, hrun, hans, hfile ▸ hholds.resultFileIs hp (by exact_mod_cast htotal) s.file, honly⟩
  · obtain ⟨p, hparse, htoc, hpos, hpad, hcount, hsizes⟩ := parseSelf_of_layout hfits hpkt hlen
    obtain ⟨t, hrun, hans, hfile, honly⟩ := parseCommand_answers hparse hcount
    obtain ⟨-, hdur, hsize, -⟩ := fits_iff.mp hfits
    have hframes : f.sizes.length ≤ 48 := by
      have := Nat.mul_le_mul_left f.sizes.length (tocSpf_48000 (tocByte config false 0)).1
      unfold maxSamples48k at hdur
      omega
    rw [PacketForm.total, ← hpos] at hlen
    refine ⟨t, hrun, hans, ?_, honly⟩
    rw [hfile, ← htoc, ← hpos]
    exact resultFileIs_resultFile hpad hsizes hcount.symm hframes hsize (by omega) s.file

end Sys2Proof.Machine
end

section
/-! PROOFS. PARSE one operation at a time (41_framing.md R150; log 8): each unit's step runs its rule on the working
registers of PARSE, whatever the driver's hold. -/

namespace Sys2Proof.Machine

variable {s t : State} {len : Int} {sd : Bool} {d : DriverRegs} {ph next : Phase} {n : Nat} {k rest : State → Flow}

/-- The state of a parse in which it is the turn of a unit, with the packet metadata in the driver's registers. -/
def atUnit (d : DriverRegs) (ph : Phase) (t : State) : State := (t.setDriver d).setPhase ph

/-- A rule that reads no more of the state than the packet of its working registers. -/
def ReadsPacket (k : State → Flow) (t : State) : Prop :=
  ∀ s', SharesPacket (t.parse.pos + t.parse.rem) s' t → RunsAlike s' k t

/-- The run of the machine, as the rules that are left would go on from `t`. -/
def RunsAs (n : Nat) (s : State) (m : Flow) : Prop := Host.Core.run Sys2Proof.core n s = m.settle respondCount

theorem run_of_next {M : Host.Core} {a b : M.State} (h : M.step a = .next b) (n : Nat) :
    M.run (n + 1) a = M.run n b := by
  rw [Host.Core.run, h]

theorem run_of_fault {M : Host.Core} {a : M.State} {f : M.Fault} (h : M.step a = .fault f) (n : Nat) :
    M.run (n + 1) a = .fault f := by
  rw [Host.Core.run, h]

theorem run_succ_of_next (h : step s = .next t) (n : Nat) :
    Host.Core.run Sys2Proof.core (n + 1) s = Host.Core.run Sys2Proof.core n t :=
  run_of_next (M := core) (a := s) (b := t) h n

theorem run_succ_of_fault {f : Fault} (h : step s = .fault f) (n : Nat) :
    Host.Core.run Sys2Proof.core (n + 1) s = .fault f :=
  run_of_fault (M := core) (a := s) (f := f) h n

/-- With no command in progress and no move pending PFF waits. -/
theorem run_endCommand (resp : Word) (err : Bool) (hinbox : s.inbox = []) (n : Nat) :
    Host.Core.run Sys2Proof.core n (endCommand resp err s) = .next (endCommand resp err s) := by
  have hstep : step (endCommand resp err s) = .next (endCommand resp err s) := by
    rw [step, stepByPhase]
    simp only [endCommand, hinbox]
  induction n with
  | zero => rfl
  | succ n ih => exact (run_succ_of_next hstep n).trans ih

/-- A rule's flow at its unit. -/
theorem flow_atUnit (hk : ReadsPacket k t) : k (atUnit d ph t) = (k t).onto (atUnit d ph t) :=
  hk (atUnit d ph t) ⟨fun _ _ => rfl, Int.le_refl _⟩

/-- A unit's step, then the steps of the units after it. -/
theorem runsAs_of_unit (hk : ReadsPacket k t) (hstep : step (atUnit d ph t) = thenUnit (k (atUnit d ph t)) next)
    (hinbox : t.inbox = []) (hrest : ∀ p, k t = .go (t.setParse p) → RunsAs n (atUnit d next (t.setParse p))
      (rest (t.setParse p))) : RunsAs (n + 1) (atUnit d ph t) ((k t).andThen rest) := by
  have honly := RunsAlike.changes_parse_only (hk t (.self t))
  rw [flow_atUnit hk] at hstep
  unfold RunsAs at *
  cases hm : k t with
  | go u =>
    rw [hm] at honly hstep
    obtain ⟨p, rfl⟩ := honly
    exact (run_succ_of_next hstep n).trans (hrest p hm)
  | done r u =>
    rw [hm] at honly hstep
    obtain ⟨p, rfl⟩ := honly
    exact (run_succ_of_next hstep n).trans (run_endCommand _ _ hinbox n)
  | fault f =>
    rw [hm] at hstep
    exact run_succ_of_fault hstep n

/-! The units, last first. -/

theorem readsPacket_parseTail (t : State) : ReadsPacket parseTail t := fun s' h =>
  .ite (c := fun p => p.sd = true) (fun _ => runsAlike_tailSelfDelimited h) fun _ => runsAlike_tailImplicit s' t

/-- The last frame's size and the result. -/
def parseEnd (t : State) : Flow := (parseTail t).andThen fun u => .go (parseResult u)

theorem runsAs_tail (hinbox : t.inbox = []) (n : Nat) : RunsAs (n + 1) (atUnit d .tail t) (parseEnd t) := by
  have honly := RunsAlike.changes_parse_only (readsPacket_parseTail t t (.self t))
  have hstep : step (atUnit d .tail t) = finishParse (atUnit d .tail t) := step_of_tail rfl
  rw [finishParse, flow_atUnit (readsPacket_parseTail t)] at hstep
  unfold RunsAs parseEnd
  cases hm : parseTail t with
  | go u =>
    rw [hm] at honly hstep
    obtain ⟨p, rfl⟩ := honly
    exact (run_succ_of_next hstep n).trans
      (run_endCommand (s := parseResult ((atUnit d .tail t).setParse p)) _ _ hinbox n)
  | done r u =>
    rw [hm] at honly hstep
    obtain ⟨p, rfl⟩ := honly
    exact (run_succ_of_next hstep n).trans (run_endCommand _ _ hinbox n)
  | fault f =>
    rw [hm] at hstep
    exact run_succ_of_fault hstep n

/-- The rule of the size unit: VBR or CBR (R158, R159). -/
def parseRate (t : State) : Flow := if byteField t.parse.cb 7 7 = 1 then parseVbr t else parseCbr t

/-- The rule of the padding unit (R157). -/
def parsePad (t : State) : Flow := if byteField t.parse.cb 6 6 = 1 then parsePadding t else padCheck t

theorem readsPacket_parseRate (t : State) : ReadsPacket parseRate t := fun s' h =>
  .ite (c := fun p => byteField p.cb 7 7 = 1) (fun _ => runsAlike_parseVbr h) fun _ => runsAlike_parseCbr s' t

theorem readsPacket_parsePad (t : State) : ReadsPacket parsePad t := fun s' h =>
  .ite (c := fun p => byteField p.cb 6 6 = 1) (fun _ => runsAlike_parsePadding h) fun _ => runsAlike_padCheck s' t

theorem step_countRate (h : s.phase = .countRate) : step s = thenUnit (parseRate s) .tail := by
  have hstep : step s = exec (decodeCountRate s.parse.cb) s := by rw [step, stepByPhase, h]; rfl
  rw [hstep, decodeCountRate, cbVbrField, parseRate]
  by_cases hvbr : s.parse.cb.getLsbD 7 = true
  · rw [if_pos hvbr, if_pos ((byteField_bit_eq_one_iff ..).mpr hvbr)]
    rfl
  · rw [if_neg hvbr, if_neg (mt (byteField_bit_eq_one_iff ..).mp hvbr)]
    rfl

theorem step_countPad (h : s.phase = .countPad) : step s = thenUnit (parsePad s) .countRate := by
  have hstep : step s = runDecoded (decodeCountPad s.parse.cb) s := by rw [step, stepByPhase, h]; rfl
  rw [hstep, decodeCountPad, cbPadField, parsePad]
  by_cases hpad : s.parse.cb.getLsbD 6 = true
  · rw [if_pos hpad, if_pos ((byteField_bit_eq_one_iff ..).mpr hpad)]
    rfl
  · rw [if_neg hpad, if_neg (mt (byteField_bit_eq_one_iff ..).mp hpad)]
    rfl

theorem runsAs_countRate (hinbox : t.inbox = []) (n : Nat) :
    RunsAs (n + 2) (atUnit d .countRate t) ((parseRate t).andThen parseEnd) :=
  runsAs_of_unit (readsPacket_parseRate t) (step_countRate rfl) hinbox
    fun p _ => runsAs_tail (t := t.setParse p) hinbox n

theorem runsAs_countPad (hinbox : t.inbox = []) (n : Nat) :
    RunsAs (n + 3) (atUnit d .countPad t) ((parsePad t).andThen fun u => (parseRate u).andThen parseEnd) :=
  runsAs_of_unit (readsPacket_parsePad t) (step_countPad rfl) hinbox
    fun p _ => runsAs_countRate (t := t.setParse p) hinbox n

theorem step_tocCode (h : s.phase = .tocCode) : step s = exec (decodeTocCode s.parse.toc) s := by
  rw [step, stepByPhase, h]
  rfl

/-- Code 3, as the rules of its three units. -/
theorem parseCode3_units (t : State) : ((parseCode3 t).andThen parseCode3Rest).andThen parseEnd =
    (parseCode3 t).andThen fun u => (parsePad u).andThen fun v => (parseRate v).andThen parseEnd := by
  rw [Flow.andThen_assoc]
  congr 1
  funext u
  exact Flow.andThen_assoc ..

theorem runsAs_tocCode (hinbox : t.inbox = []) (n : Nat) :
    RunsAs (n + 4) (atUnit d .tocCode t) ((parseByCode t).andThen parseEnd) := by
  have hstep := step_tocCode (s := atUnit d .tocCode t) rfl
  have hcode : (tocCodeField (atUnit d .tocCode t).parse.toc).toNat = tocCode t.parse.toc := rfl
  rw [decodeTocCode, hcode] at hstep
  unfold parseByCode
  split
  case h_1 h =>
    rw [h] at hstep
    exact runsAs_of_unit (fun s' _ => runsAlike_parseCode0 s' t) hstep hinbox
      fun p _ => runsAs_tail (t := t.setParse p) hinbox (n + 2)
  case h_2 h =>
    rw [h] at hstep
    exact runsAs_of_unit (fun s' _ => runsAlike_parseCode1 s' t) hstep hinbox
      fun p _ => runsAs_tail (t := t.setParse p) hinbox (n + 2)
  case h_3 h =>
    rw [h] at hstep
    exact runsAs_of_unit (fun s' hs => runsAlike_parseCode2 hs) hstep hinbox
      fun p _ => runsAs_tail (t := t.setParse p) hinbox (n + 2)
  case h_4 h0 h1 h2 =>
    split at hstep
    case h_4 =>
      rw [parseCode3_units]
      exact runsAs_of_unit (fun s' hs => runsAlike_parseCode3 hs) hstep hinbox
        fun p _ => runsAs_countPad (t := t.setParse p) hinbox n
    all_goals contradiction

/-! The TOC byte (R152), and the whole parse. -/

theorem tocByte_fields (b : Byte) : tocByte (tocConfigField b) (tocStField b) (tocCodeField b) = b := by
  revert b; decide

/-- A parse of `len` bytes behind the TOC byte (R152). -/
def afterHeader (len : Int) (sd : Bool) (s : State) : State :=
  s.setParse (headerRegs (pktRead s 0) (tocSpf (pktRead s 0) 48000)
    { ParseRegs.clear with len := len, sd := sd })

/-- The mode word multiplexer's step reads the header as R152 does. -/
theorem step_tocMode (len : Int) (sd : Bool) (s : State) : ∃ d,
    step (atTocByte len sd s) = .next (atUnit d .tocCode (afterHeader len sd s)) := by
  have hstep : step (atTocByte len sd s) = exec (decodeTocMode (pktRead s 0)) (atTocByte len sd s) := by
    rw [step, stepByPhase]
    rfl
  have hspf : durationSamples (tocUnits (pktRead s 0)) 48000 = tocSpf (pktRead s 0) 48000 :=
    durationSamples_tocUnits _ (.inr rfl)
  have hrow :=
    configTable_tocByte (tocConfigField (pktRead s 0)) (tocStField (pktRead s 0)) (tocCodeField (pktRead s 0))
  rw [tocByte_fields] at hrow
  rw [hstep, decodeTocMode, exec_tocCfgInstr hrow, tocConfig, tocByte_fields, hspf]
  exact ⟨_, rfl⟩

theorem parseCommand_of_pos (hlen : 1 ≤ len) : parseCommand len sd s =
    ((parseByCode (afterHeader len sd s)).andThen parseEnd).settle respondCount := by
  rw [parseCommand, parsePacket, parseArgs_of_pos hlen]
  rfl

theorem run_atTocByte (hlen : 1 ≤ len) (hinbox : s.inbox = []) :
    Host.Core.run Sys2Proof.core 5 (atTocByte len sd s) = parseCommand len sd s := by
  obtain ⟨d, hstep⟩ := step_tocMode len sd s
  rw [parseCommand_of_pos hlen]
  exact (run_succ_of_next hstep 4).trans (runsAs_tocCode (n := 0) (t := afterHeader len sd s) hinbox)

/-- Settles O24: the five units' steps, one rule each. -/
theorem parseByMicroSteps : Obligations.ParseByMicroSteps := by
  unfold Obligations.ParseByMicroSteps
  exact fun s len hlen hinbox => ⟨run_atTocByte hlen hinbox, run_atTocByte hlen hinbox⟩

end Sys2Proof.Machine
end

section
/-! PROOFS. The encoder and the decoder (30_encoding.md), and what a step decodes. -/

namespace Sys2Proof.Machine

/-! Command words (R95 to R98). -/

/-- Settles O3: every word's fields are read from literals. -/
theorem writtenWordsDecode : Obligations.WrittenWordsDecode := by
  unfold Obligations.WrittenWordsDecode
  exact ⟨fun a0 a1 a2 => ⟨rfl, rfl, rfl, rfl, rfl, rfl, rfl, rfl, rfl, rfl, rfl, rfl⟩, rfl, rfl, rfl, rfl, rfl, rfl⟩

/-- The bits of CMD that R95 gives a meaning. -/
theorem cmdFields_mask (cmd : Word) : cmdOp (cmd &&& 0x00FF07FF) = cmdOp cmd ∧ cmdSd (cmd &&& 0x00FF07FF) = cmdSd cmd ∧
    cmdFec (cmd &&& 0x00FF07FF) = cmdFec cmd ∧ cmdNul (cmd &&& 0x00FF07FF) = cmdNul cmd ∧
    cmdReq (cmd &&& 0x00FF07FF) = cmdReq cmd := by
  have hop : (cmd &&& 0x00FF07FF).extractLsb' 0 8 = cmd.extractLsb' 0 8 := by
    ext i hi
    interval_cases i <;> simp
  have hreq : (cmd &&& 0x00FF07FF).extractLsb' 16 8 = cmd.extractLsb' 16 8 := by
    ext i hi
    interval_cases i <;> simp
  refine ⟨congrArg BitVec.toNat hop, ?_, ?_, ?_, congrArg BitVec.toNat hreq⟩ <;>
    simp [cmdSd, cmdFec, cmdNul]

/-- Settles O2: the decoder reads the fields of CMD and two arguments only. -/
theorem reservedBitsIgnored : Obligations.ReservedBitsIgnored := by
  unfold Obligations.ReservedBitsIgnored
  intro cmd a0 a1 a2
  obtain ⟨hop, hsd, hfec, hnul, hreq⟩ := cmdFields_mask cmd
  simp only [Sys2Proof.decode, Sys2Proof.decodeCommand, decodeDecode, hop, hsd, hfec, hnul, hreq]

/-! The round trip (R81, R90, R95 to R98). -/

theorem toInt_argWord {v : Int} (h : fitsInt32 v = true) : (argWord v).toInt = v := by
  rw [fitsInt32, Bool.and_eq_true, decide_eq_true_eq, decide_eq_true_eq] at h
  exact BitVec.toInt_ofInt_eq_self (by decide) h.1 h.2

theorem fields_tocByte (config : BitVec 5) (st : Bool) (code : BitVec 2) :
    tocConfigField (tocByte config st code) = config ∧ tocStField (tocByte config st code) = st ∧
    tocCodeField (tocByte config st code) = code := by
  revert config st code; decide

theorem fields_countByte (vbr pad : Bool) (count : BitVec 6) : cbVbrField (countByte vbr pad count) = vbr ∧
    cbPadField (countByte vbr pad count) = pad ∧ cbCountField (countByte vbr pad count) = count := by
  revert vbr pad count; decide

theorem decode_encodeCfg (config : BitVec 5) (st : Bool) (code : BitVec 2) :
    Sys2Proof.decode (encodeCfg config st code) = .ok (tocCfgInstr config st code) := by
  obtain ⟨hconfig, hst, hcode⟩ := fields_tocByte config st code
  simp only [encodeCfg, Sys2Proof.decode, decodePacketByte, decodeTocMode, hconfig, hst, hcode]

theorem decode_framingCode (config : BitVec 5) (st : Bool) (code : BitVec 2) :
    Sys2Proof.decode (.packetByte .tocCode (tocByte config st code)) = .ok (match code.toNat with
      | 0 => .framingCode0 config st
      | 1 => .framingCode1 config st
      | 2 => .framingCode2 config st
      | _ => .framingCode3 config st) := by
  revert config st code; decide

theorem decode_countRate (vbr pad : Bool) (count : BitVec 6) : Sys2Proof.decode (.packetByte .countRate
    (countByte vbr pad count)) = .ok (if vbr then .code3Vbr pad count else .code3Cbr pad count) := by
  obtain ⟨hvbr, hpad, hcount⟩ := fields_countByte vbr pad count
  simp only [Sys2Proof.decode, decodePacketByte, decodeCountRate, hvbr, hpad, hcount]

theorem decode_countPad (vbr : Bool) (count : BitVec 6) :
    Sys2Proof.decode (.packetByte .countPad (countByte vbr true count)) = .ok (.code3Padding vbr count) := by
  obtain ⟨hvbr, hpad, hcount⟩ := fields_countByte vbr true count
  simp only [Sys2Proof.decode, decodePacketByte, decodeCountPad, hvbr, hpad, hcount, if_true]

theorem decode_one_argument (row : Int → Instr) {v : Int} {e : Encoding} (hwf : fitsInt32 v = true)
    (hdec : Sys2Proof.decode e = .ok (row (argWord v).toInt)) : Sys2Proof.decode e = .ok (row v) := by
  rw [hdec, toInt_argWord hwf]

theorem decode_two_arguments (row : Int → Int → Instr) {v w : Int} {e : Encoding}
    (hwf : (fitsInt32 v && fitsInt32 w) = true)
    (hdec : Sys2Proof.decode e = .ok (row (argWord v).toInt (argWord w).toInt)) :
    Sys2Proof.decode e = .ok (row v w) := by
  obtain ⟨hv, hw⟩ := Bool.and_eq_true_iff.mp hwf
  rw [hdec, toInt_argWord hv, toInt_argWord hw]

/-- Every row but DECODE_FRAME's has bits, which decode to it. -/
theorem decode_encode {i : Instr} (hwf : i.wf = true) (hbits : encode i ≠ .internal) :
    Sys2Proof.decode (encode i) = .ok i := by
  cases i with
  | decodeFrame fb flen o fsz fec => exact absurd rfl hbits
  | construct v w => exact decode_two_arguments .construct hwf rfl
  | decode v w => exact decode_two_arguments .decode hwf rfl
  | decodeFec v w => exact decode_two_arguments .decodeFec hwf rfl
  | tocInfo v w => exact decode_two_arguments .tocInfo hwf rfl
  | pktNbSamples v w => exact decode_two_arguments .pktNbSamples hwf rfl
  | parse v => exact decode_one_argument .parse hwf rfl
  | parseSd v => exact decode_one_argument .parseSd hwf rfl
  | pktNbFrames v => exact decode_one_argument .pktNbFrames hwf rfl
  | ctlSetGain v => exact decode_one_argument .ctlSetGain hwf rfl
  | decodeNull fec cap =>
    cases fec with
    | false => exact decode_one_argument (.decodeNull false) hwf rfl
    | true => exact decode_one_argument (.decodeNull true) hwf rfl
  | ctlResetState => rfl
  | ctlGetBandwidth => rfl
  | ctlGetFinalRange => rfl
  | ctlGetSampleRate => rfl
  | ctlGetPitch => rfl
  | ctlGetGain => rfl
  | ctlGetLastPacketDuration => rfl
  | framingCode0 config st => exact decode_framingCode config st 0
  | framingCode1 config st => exact decode_framingCode config st 1
  | framingCode2 config st => exact decode_framingCode config st 2
  | framingCode3 config st => exact decode_framingCode config st 3
  | code3Cbr pad count => exact decode_countRate false pad count
  | code3Vbr pad count => exact decode_countRate true pad count
  | code3Padding vbr count => exact decode_countPad vbr count
  | _ => exact decode_encodeCfg _ _ _

/-- Settles O1: DECODE_FRAME's row is the one without bits, and every other row's bits decode to it. -/
theorem encodeDecodes : Obligations.EncodeDecodes := by
  unfold Obligations.EncodeDecodes
  refine fun i hwf => ⟨⟨fun h => ?_, ?_⟩, decode_encode hwf⟩
  · cases i with
    | decodeFrame fb flen o fsz fec => exact ⟨fb, flen, o, fsz, fec, rfl⟩
    | _ => exact absurd h nofun
  · rintro ⟨fb, flen, o, fsz, fec, rfl⟩
    rfl

/-! What a step decodes (10_state.md R24). -/

theorem runs_packetByte {s : State} {i : Instr} {slot : Slot} {b : Byte} (hstep : step s = runPacketByte slot b s)
    (hdec : Sys2Proof.decode (.packetByte slot b) = .ok i) : step s = exec i s := by
  have hbyte : decodePacketByte slot b = .ok i := hdec
  rw [hstep, runPacketByte, hbyte, runDecoded]

/-- Settles O6: the unit whose turn it is. -/
theorem stepRunsDecoded : Obligations.StepRunsDecoded := by
  unfold Obligations.StepRunsDecoded
  refine ⟨fun s cmd a0 a1 a2 rest i hphase hinbox hdec => ?_, fun s i hphase => runs_packetByte ?_,
    fun s i hphase => runs_packetByte ?_, fun s i hphase => runs_packetByte ?_, fun s i hphase => runs_packetByte ?_,
    fun s fb flen o fsz fec hphase => ?_, fun s off bytes rest => step_of_load, fun s hphase hinbox => ?_⟩
  · rw [step_of_command hphase hinbox, hdec, runDecoded]
  case refine_7 => rw [step, stepByPhase, hphase, hinbox]
  all_goals rw [step, stepByPhase, hphase]

end Sys2Proof.Machine
end

section
/-! PROOFS. RESET_STATE and CONSTRUCT beside each other (44_control.md R298). -/

namespace Sys2Proof.Machine

theorem resetDecoder_resetDecoder (d : Decoder) : resetDecoder (resetDecoder d) = resetDecoder d := rfl

/-- RESET_STATE leaves the registers CONSTRUCT leaves for the same rate and channels, but for the gain. -/
theorem resetDecoder_eq_constructedDecoder (d : Decoder) :
    resetDecoder d = { constructedDecoder d.fs.toNat d.c.toNat with decodeGain := d.decodeGain } := by
  have hframe : ((d.fs.toNat : Int) / 400) = ((d.fs.toNat / 400 : Nat) : Int) := by omega
  simp only [resetDecoder, constructedDecoder, hframe, BitVec.ofInt_natCast, BitVec.ofNat_toNat, BitVec.setWidth_eq]

/-- Settles O31: the registers of each of the two. -/
theorem resetLikeConstruct : Obligations.ResetLikeConstruct := by
  unfold Obligations.ResetLikeConstruct
  intro s t u v hs hlegal ht hu hv
  obtain rfl := Host.Outcome.next.inj ((execCtlResetState_of_constructed hs).symm.trans ht)
  obtain rfl := Host.Outcome.next.inj ((execCtlResetState_of_constructed (by exact hs)).symm.trans hu)
  obtain rfl := Host.Outcome.next.inj ((execConstruct_of_legal hlegal.rate hlegal.channels).symm.trans hv)
  exact ⟨resetDecoder_resetDecoder s.dec, rfl, rfl, rfl, resetDecoder_eq_constructedDecoder s.dec⟩

/-- Settles O58: at power-on nothing is constructed and nothing is in progress. -/
theorem powerOn : Obligations.PowerOn := by
  unfold Obligations.PowerOn
  exact ⟨rfl, rfl, rfl, ⟨rfl, rfl, rfl, rfl, rfl⟩, nofun⟩

end Sys2Proof.Machine
end

section
/-! PROOFS. What every command comes to from a usable state (60_exceptions.md R320, R325, R331), and so what every step
comes to from the invariant (70_reset_and_hazards.md R351, R361). -/

namespace Sys2Proof.Machine

variable {s t : State} {d : Decoder} {fs c : Int}

/-! Legal registers. -/

/-- Legality does not depend on the gain (10_state.md R20). -/
theorem LegalDecoder.withGain (h : LegalDecoder d) (gain : BitVec 16) : LegalDecoder { d with decodeGain := gain } :=
  ⟨h.rate, h.channels, h.streamChannels, h.packetMeta, h.prevMode, h.prevRedundancy⟩

theorem legalDecoder_constructed (hrate : legalRate fs = true) (hchannels : legalChannels c = true) :
    LegalDecoder (constructedDecoder fs c) := by
  obtain ⟨hfs, hc, hframe⟩ := constructedDecoder_holds hrate hchannels
  refine ⟨hfs.symm ▸ hrate, hc.symm ▸ hchannels, hc.symm ▸ hchannels, ⟨1, rfl, ?_⟩, fun h => absurd rfl h, nofun⟩
  omega

theorem legalDecoder_reset (h : LegalDecoder d) : LegalDecoder (resetDecoder d) := by
  rw [resetDecoder_eq_constructedDecoder]
  exact (legalDecoder_constructed h.rate h.channels).withGain _

theorem legalInstance_constructInit (hrate : legalRate fs = true) (hchannels : legalChannels c = true) (s : State) :
    LegalInstance (constructInit fs c s) :=
  ⟨legalDecoder_constructed hrate hchannels, rfl, rfl, rfl⟩

/-! A command that completes. -/

/-- A command begun in `s` has ended in `t`. -/
structure Completed (s t : State) : Prop where
  pkt : t.pkt = s.pkt
  usable : Usable t
  between : BetweenCommands t
  code : t.host.err = true → isErrorCode t.host.resp.toInt = true

/-- A command completes, unless an engine breaks its contract. -/
def Completes (s : State) (a : Answer) : Prop := a = .fault .engineContract ∨ ∃ t, a = .next t ∧ Completed s t

theorem Usable.endCommand (h : Usable t) (resp : Word) (err : Bool) : Usable (endCommand resp err t) := by
  refine ⟨h.out, fun hc => ?_⟩
  obtain ⟨hdec, hrate, hchannels, hsignalling⟩ := h.legal hc
  exact ⟨hdec, hrate, hchannels, hsignalling⟩

theorem completes_result (h : Usable t) (w : Word) (hpkt : t.pkt = s.pkt := by rfl) :
    Completes s (.next (respondWord w t)) :=
  .inr ⟨_, rfl, hpkt, h.endCommand _ _, betweenCommands_endCommand .., nofun⟩

theorem completes_error (h : Usable t) {code : Int} (hcode : isErrorCode code = true) (hpkt : t.pkt = s.pkt := by rfl) :
    Completes s (.next (raiseErr code t)) :=
  .inr ⟨_, rfl, hpkt, h.endCommand _ _, betweenCommands_endCommand .., fun _ => isErrorCode_resp hcode⟩

theorem isErrorCode_code (e : ErrCode) : isErrorCode e.code = true := by cases e <;> rfl

theorem Completes.ite {p : Prop} [Decidable p] {a a' : Answer} (h : p → Completes s a) (h' : ¬p → Completes s a') :
    Completes s (if p then a else a') := by
  by_cases hp : p
  · exact if_pos hp ▸ h hp
  · exact if_neg hp ▸ h' hp

section Usable

variable (hs : Usable s)
include hs

theorem completes_raises (e : ErrCode) : Completes s (raises e s) := completes_error hs (isErrorCode_code e)

/-- A control request reaches its own rule only where legal registers are constructed (44_control.md R293). -/
theorem completes_ctl {a : Answer} (h : LegalInstance s → Completes s a) : Completes s (ctl s a) := by
  cases hc : s.constructed with
  | false =>
    rw [ctl_of_not_constructed hc]
    exact completes_raises hs _
  | true =>
    rw [ctl_of_constructed hc]
    exact h (hs.legal hc)

/-- A control request that changes the decoder's registers leaves legal ones. -/
theorem Usable.setDec (hi : LegalInstance s) {d : Decoder} (hd : LegalDecoder d) (hfs : d.fs = s.dec.fs)
    (hc : d.c = s.dec.c) : Usable (s.setDec d) :=
  ⟨hs.out, fun _ => ⟨hd, hi.apiSampleRate.trans hfs.symm, hi.nChannelsAPI.trans hc.symm, hi.signalling⟩⟩

/-- A state that differs in nothing that matters here is usable too. -/
theorem Usable.of_sameDecoder {t : State} (hout : t.out = s.out) (hconstructed : t.constructed = s.constructed)
    (hdec : t.dec = s.dec) (hpctl : t.pctl = s.pctl) (hsignalling : t.tSignalling = s.tSignalling) : Usable t := by
  refine ⟨hout ▸ hs.out, fun hc => ?_⟩
  obtain ⟨hlegal, hrate, hchannels, hzero⟩ := hs.legal (hconstructed ▸ hc)
  exact ⟨hdec ▸ hlegal, by rw [hpctl, hdec, hrate], by rw [hpctl, hdec, hchannels], by rw [hsignalling, hzero]⟩

theorem completes_construct (fs c : Int) : Completes s (execConstruct fs c s) := by
  refine .ite (fun h => ?_) fun _ => completes_raises hs _
  obtain ⟨hrate, hchannels⟩ := Bool.and_eq_true_iff.mp h
  refine completes_result (t := constructInit fs c s) ⟨hs.out, fun _ => ?_⟩ _
  exact legalInstance_constructInit hrate hchannels s

theorem completes_parseCommand (len : Int) (sd : Bool) : Completes s (parseCommand len sd s) := by
  have hpost := parses_parsePacket len sd s
  unfold parseCommand
  match parsePacket len sd s, hpost with
  | .go _, ⟨p, rfl, _⟩ =>
    refine completes_result (t := (s.setParse p).setFile (resultFile p s.file)) ?_ _
    exact hs.of_sameDecoder rfl rfl rfl rfl rfl
  | .done r _, ⟨hcode, p, rfl⟩ =>
    exact completes_error (hs.of_sameDecoder rfl rfl rfl rfl rfl) (by rcases hcode with rfl | rfl <;> rfl)

theorem completes_decodeCommand (fec nul : Bool) (len cap : Int) : Completes s (decodeCommand fec nul len cap s) := by
  cases hc : s.constructed with
  | false => exact decodeCommand_of_not_constructed hc .. ▸ completes_raises hs _
  | true =>
    refine (decoded_decodeCommand (hs.legal hc) hs.out fec nul len).imp_right ?_
    rintro ⟨t, ht, hd⟩
    exact ⟨t, ht, hd.only.pkt, ⟨hd.wf, fun _ => hd.legal⟩, hd.only.between, hd.code⟩

theorem completes_pktNbFrames (len : Int) : Completes s (execPktNbFrames len s) := by
  cases h : announcedFrames len s with
  | error e => exact execPktNbFrames_of_error h ▸ completes_raises hs e
  | ok n => exact execPktNbFrames_of_ok h ▸ completes_result hs _

theorem completes_pktNbSamples (len fs : Int) : Completes s (execPktNbSamples len fs s) := by
  cases hrate : legalRate fs with
  | false => exact execPktNbSamples_of_illegal hrate ▸ completes_raises hs _
  | true =>
    cases h : announcedFrames len s with
    | error e => exact execPktNbSamples_of_error hrate h ▸ completes_raises hs e
    | ok n =>
      rw [execPktNbSamples_of_ok hrate h]
      exact .ite (fun _ => completes_raises hs _) fun _ => completes_result hs _

theorem completes_resetState : Completes s (execCtlResetState s) := by
  refine completes_ctl hs fun hi => completes_result (t := pInit (tReset (s.setDec (resetDecoder s.dec)))) ?_ _
  exact (hs.setDec hi (legalDecoder_reset hi.dec) rfl rfl).of_sameDecoder rfl rfl rfl rfl rfl

theorem completes_getPitch : Completes s (execCtlGetPitch s) := by
  refine completes_ctl hs fun _ => .ite (fun _ => completes_result (t := (tGetPitch s).2) ?_ _)
    fun _ => completes_result (t := (pPrevPitchLag s).2) ?_ _
  all_goals exact hs.of_sameDecoder rfl rfl rfl rfl rfl

theorem completes_setGain (v : Int) : Completes s (execCtlSetGain v s) := by
  refine completes_ctl hs fun hi => .ite (fun _ => completes_raises hs _) fun _ =>
    completes_result (t := s.setDec { s.dec with decodeGain := BitVec.ofInt 16 v }) ?_ _
  exact hs.setDec hi (hi.dec.withGain _) rfl rfl

/-- Every row with a command word. -/
theorem completes_exec {i : Instr} (hi : isCommand i = true) : Completes s (exec i s) := by
  cases i
  case construct fs c => exact completes_construct hs fs c
  case parse len => exact completes_parseCommand hs len false
  case parseSd len => exact completes_parseCommand hs len true
  case decode len cap => exact completes_decodeCommand hs false false len cap
  case decodeFec len cap => exact completes_decodeCommand hs true false len cap
  case decodeNull fec cap => exact completes_decodeCommand hs fec true 0 cap
  case tocInfo len fs =>
    exact .ite (fun _ => completes_raises hs _) fun _ => .ite (fun _ => completes_raises hs _)
      fun _ => completes_result hs _
  case pktNbFrames len => exact completes_pktNbFrames hs len
  case pktNbSamples len fs => exact completes_pktNbSamples hs len fs
  case ctlResetState => exact completes_resetState hs
  case ctlGetPitch => exact completes_getPitch hs
  case ctlSetGain v => exact completes_setGain hs v
  case ctlGetBandwidth | ctlGetFinalRange | ctlGetSampleRate | ctlGetGain | ctlGetLastPacketDuration =>
    exact completes_ctl hs fun _ => completes_result hs _
  all_goals nomatch hi

end Usable

/-- Settles O34: the numbers, and what every command that answers comes to. -/
theorem errorCodes : Obligations.ErrorCodes := by
  unfold Obligations.ErrorCodes
  refine ⟨rfl, rfl, rfl, rfl, rfl, rfl, fun s t i hs hi ht herr => ?_⟩
  rcases completes_exec hs hi with hfault | ⟨u, hu, hcompleted⟩
  · nomatch hfault.symm.trans ht
  · obtain rfl := Host.Outcome.next.inj (hu.symm.trans ht)
    exact hcompleted.code herr

/-! Steps from the invariant. -/

theorem completes_row (hs : Usable s) (i : Instr) (hi : isCommand i = true) : Completes s (runDecoded (.ok i) s) :=
  completes_exec hs hi

theorem completes_decodeCtl (hs : Usable s) (req : Nat) (a0 : Word) :
    Completes s (runDecoded (decodeCtl req a0) s) := by
  unfold decodeCtl
  split
  case h_9 => exact completes_ctl hs fun _ => completes_raises hs _
  all_goals exact completes_row hs _ rfl

/-- A command word, known or not, completes. -/
theorem completes_decoded (hs : Usable s) (cmd a0 a1 a2 : Word) :
    Completes s (runDecoded (Sys2Proof.decode (.command cmd a0 a1 a2)) s) := by
  change Completes s (runDecoded (Sys2Proof.decodeCommand cmd a0 a1 a2) s)
  unfold Sys2Proof.decodeCommand
  split
  case h_2 => cases cmdSd cmd <;> exact completes_row hs _ rfl
  case h_3 =>
    rcases decodeDecode_cases cmd a0 a1 with h | h | ⟨fec, h⟩ <;> rw [h] <;> exact completes_row hs _ rfl
  case h_7 => exact completes_decodeCtl hs _ _
  case h_8 => exact completes_raises hs _
  all_goals exact completes_row hs _ rfl

/-- A step from the invariant is one host move, which keeps it. -/
theorem step_of_inv (h : Inv s) : step s = .fault .engineContract ∨ ∃ t, step s = .next t ∧ Inv t := by
  have hs : Usable s := ⟨h.out, h.legal⟩
  match hinbox : s.inbox with
  | [] => exact .inr ⟨s, by rw [step, stepByPhase, h.between.phase, hinbox], h⟩
  | .load off bytes :: rest =>
    have hload : Usable (loadPacket off bytes (s.setInbox rest)) := hs.of_sameDecoder rfl rfl rfl rfl rfl
    obtain ⟨hphase, hparse, hdriver, hframe, htr⟩ := h.between
    exact .inr ⟨_, step_of_load hphase hinbox, loadPacket_pkt_wf h.pkt off bytes, hload.out,
      ⟨hphase, hparse, hdriver, hframe, htr⟩, hload.legal⟩
  | .command cmd a0 a1 a2 :: rest =>
    have hlatched : Usable (latchCommand cmd a0 a1 a2 (s.setInbox rest)) := hs.of_sameDecoder rfl rfl rfl rfl rfl
    rw [step_of_command h.between.phase hinbox]
    refine (completes_decoded hlatched cmd a0 a1 a2).imp_right ?_
    rintro ⟨t, ht, hpkt, ⟨hout, hlegal⟩, hbetween, -⟩
    exact ⟨t, ht, hpkt ▸ h.pkt, hout, hbetween, hlegal⟩

/-- Settles O59: the step's one move keeps the invariant. -/
theorem invariantKept : Obligations.InvariantKept := by
  unfold Obligations.InvariantKept
  intro s t h ht
  rcases step_of_inv h with hfault | ⟨u, hu, hinv⟩
  · nomatch hfault.symm.trans ht
  · exact Host.Outcome.next.inj (hu.symm.trans ht) ▸ hinv

/-- Settles O60: the step's one move is answered. -/
theorem stepAnswers : Obligations.StepAnswers := by
  unfold Obligations.StepAnswers
  intro s h
  exact (step_of_inv h).symm.imp_left fun ⟨t, ht, _⟩ => ⟨t, ht⟩

end Sys2Proof.Machine
end

section
/-! PROOFS. Which commands write which decoder register (10_state.md R20). -/

namespace Sys2Proof.Machine

variable {s t : State}

/-! The rows that write no decoder register. -/

/-- If the answer is a next state, its decoder registers and the constructed flag are those of `s`. -/
def KeepsDecoder (s : State) (a : Answer) : Prop := ∀ t, a = .next t → t.dec = s.dec ∧ t.constructed = s.constructed

theorem keepsDecoder_next (hdec : t.dec = s.dec) (hconstructed : t.constructed = s.constructed) :
    KeepsDecoder s (.next t) := by
  rintro _ ⟨⟩
  exact ⟨hdec, hconstructed⟩

theorem keepsDecoder_raises (e : ErrCode) (s : State) : KeepsDecoder s (raises e s) := keepsDecoder_next rfl rfl

theorem KeepsDecoder.ite {c : Prop} [Decidable c] {a a' : Answer} (h : KeepsDecoder s a) (h' : KeepsDecoder s a') :
    KeepsDecoder s (if c then a else a') := by
  by_cases hc : c
  · exact if_pos hc ▸ h
  · exact if_neg hc ▸ h'

theorem KeepsDecoder.ctl {a : Answer} (h : KeepsDecoder s a) : KeepsDecoder s (Machine.ctl s a) :=
  .ite (keepsDecoder_raises _ _) h

theorem keepsDecoder_thenUnit {m : Flow} (h : m.All fun u => ∃ p, u = s.setParse p) (unit : Phase) :
    KeepsDecoder s (thenUnit m unit) := by
  match m, h with
  | .go _, ⟨p, rfl⟩ => exact keepsDecoder_next rfl rfl
  | .done r _, ⟨p, rfl⟩ => exact keepsDecoder_next rfl rfl
  | .fault f, _ => exact fun _ h => nomatch h

theorem keepsDecoder_parseCommand (len : Int) (sd : Bool) (s : State) : KeepsDecoder s (parseCommand len sd s) := by
  obtain ⟨t, ht, honly, -⟩ := parseCommand_parseOnly len sd s
  rw [ht]
  exact keepsDecoder_next honly.decoder.dec honly.decoder.constructed

theorem keepsDecoder_pktNbFrames (len : Int) (s : State) : KeepsDecoder s (execPktNbFrames len s) := by
  cases h : announcedFrames len s with
  | error e => exact execPktNbFrames_of_error h ▸ keepsDecoder_raises e s
  | ok n => exact execPktNbFrames_of_ok h ▸ keepsDecoder_next rfl rfl

theorem keepsDecoder_pktNbSamples (len fs : Int) (s : State) : KeepsDecoder s (execPktNbSamples len fs s) := by
  refine .ite (keepsDecoder_raises _ _) ?_
  cases announcedFrames len s with
  | error e => exact keepsDecoder_raises e s
  | ok n => exact .ite (keepsDecoder_raises _ _) (keepsDecoder_next rfl rfl)

/-- The rows that write a decoder register. -/
def writesDecoder : Instr → Bool
  | .construct _ _ => true
  | .decode _ _ => true
  | .decodeFec _ _ => true
  | .decodeNull _ _ => true
  | .ctlResetState => true
  | .ctlSetGain _ => true
  | .decodeFrame _ _ _ _ _ => true
  | _ => false

theorem keepsDecoder_exec {i : Instr} (hi : writesDecoder i = false) (s : State) : KeepsDecoder s (exec i s) := by
  have hself := SharesPacket.self s
  cases i
  case construct | decode | decodeFec | decodeNull | ctlResetState | ctlSetGain | decodeFrame => nomatch hi
  case parse | parseSd => exact keepsDecoder_parseCommand _ _ s
  case tocInfo =>
    exact .ite (keepsDecoder_raises _ _) (.ite (keepsDecoder_raises _ _) (keepsDecoder_next rfl rfl))
  case pktNbFrames => exact keepsDecoder_pktNbFrames _ s
  case pktNbSamples => exact keepsDecoder_pktNbSamples _ _ s
  case ctlGetPitch => exact .ctl (.ite (keepsDecoder_next rfl rfl) (keepsDecoder_next rfl rfl))
  case ctlGetBandwidth | ctlGetFinalRange | ctlGetSampleRate | ctlGetGain | ctlGetLastPacketDuration =>
    exact .ctl (keepsDecoder_next rfl rfl)
  case framingCode0 => exact keepsDecoder_thenUnit (runsAlike_parseCode0 s s).changes_parse_only _
  case framingCode1 => exact keepsDecoder_thenUnit (runsAlike_parseCode1 s s).changes_parse_only _
  case framingCode2 => exact keepsDecoder_thenUnit (runsAlike_parseCode2 hself).changes_parse_only _
  case framingCode3 => exact keepsDecoder_thenUnit (runsAlike_parseCode3 hself).changes_parse_only _
  case code3Padding => exact keepsDecoder_thenUnit (runsAlike_parsePadding hself).changes_parse_only _
  case code3Vbr => exact keepsDecoder_thenUnit (runsAlike_parseVbr hself).changes_parse_only _
  case code3Cbr => exact keepsDecoder_thenUnit (runsAlike_parseCbr s s).changes_parse_only _
  -- The configuration rows of the TOC byte write the driver's metadata registers.
  all_goals exact keepsDecoder_next rfl rfl

/-! The rows that write some of them. -/

/-- A control request's answer is its own rule's, or changes no decoder register. -/
theorem ctl_cases {a : Answer} (h : ctl s a = .next t) :
    (t.dec = s.dec ∧ t.constructed = s.constructed) ∨ a = .next t := by
  cases hc : s.constructed with
  | false =>
    obtain rfl := Host.Outcome.next.inj ((ctl_of_not_constructed hc a).symm.trans h)
    exact .inl ⟨rfl, hc⟩
  | true => exact .inr ((ctl_of_constructed hc a).symm.trans h)

theorem dec_of_resetState (h : execCtlResetState s = .next t) :
    (t.dec = s.dec ∨ t.dec = resetDecoder s.dec) ∧ t.constructed = s.constructed := by
  rcases ctl_cases h with ⟨hdec, hconstructed⟩ | hnext
  · exact ⟨.inl hdec, hconstructed⟩
  · obtain rfl := Host.Outcome.next.inj hnext
    exact ⟨.inr rfl, rfl⟩

theorem dec_of_setGain {v : Int} (h : execCtlSetGain v s = .next t) :
    (∃ gain, t.dec = { s.dec with decodeGain := gain }) ∧ t.constructed = s.constructed := by
  rcases ctl_cases h with ⟨hdec, hconstructed⟩ | hnext
  · exact ⟨⟨_, hdec⟩, hconstructed⟩
  · by_cases hv : v < -32768 ∨ 32767 < v
    · rw [if_pos hv] at hnext
      obtain rfl := Host.Outcome.next.inj hnext
      exact ⟨⟨_, rfl⟩, rfl⟩
    · rw [if_neg hv] at hnext
      obtain rfl := Host.Outcome.next.inj hnext
      exact ⟨⟨_, rfl⟩, rfl⟩

section Decode

variable (hs : Usable s)
include hs

theorem fixed_of_decodeCommand {fec nul : Bool} {len cap : Int} (h : decodeCommand fec nul len cap s = .next t) :
    t.dec.fs = s.dec.fs ∧ t.dec.c = s.dec.c ∧ t.dec.decodeGain = s.dec.decodeGain ∧ t.constructed = s.constructed := by
  cases hc : s.constructed with
  | false =>
    obtain rfl := Host.Outcome.next.inj ((decodeCommand_of_not_constructed hc ..).symm.trans h)
    exact ⟨rfl, rfl, rfl, hc⟩
  | true =>
    obtain ⟨hfs, hchannels, hgain⟩ := (decoded_of_next hs hc h).only.fixed
    exact ⟨hfs, hchannels, hgain, (decoded_of_next hs hc h).only.constructed.trans hc⟩

/-- A concealment writes the FSM's registers and the duration (R262). -/
theorem dec_of_decodeNull {fec : Bool} {cap : Int} (h : execDecodeNull fec cap s = .next t) :
    ∃ prevMode prevRedundancy rangeFinal duration, t.dec = { s.dec with prevMode := prevMode
                                                                        prevRedundancy := prevRedundancy
                                                                        rangeFinal := rangeFinal
                                                                        lastPacketDuration := duration } := by
  by_cases hbad : s.constructed = false ∨ cap ≤ 0 ∨ cap % (f2_5 (rate s) : Int) ≠ 0
  · have hraise : execDecodeNull fec cap s = raises .badArgument s :=
      decodeCommand_refuses (hbad.imp_right (·.imp_right fun hpart => .inl ⟨.inr (.inr rfl), hpart⟩))
    obtain rfl := Host.Outcome.next.inj (hraise.symm.trans h)
    exact ⟨_, _, _, _, rfl⟩
  · simp only [not_or, Bool.not_eq_false, Int.not_le, not_not] at hbad
    obtain ⟨hc, hcap, hwhole⟩ := hbad
    have hconceal : execDecodeNull fec cap s = concealCommand cap s := decodeCommand_conceals hc hcap hwhole (.inr rfl)
    have houtcome := concealCommand_outcome (hs.legal hc).dec hs.out (Int.dvd_of_emod_eq_zero hwhole) hcap
    rcases houtcome with hfault | ⟨u, hu, hnext⟩
    · nomatch (hconceal.trans hfault).symm.trans h
    · obtain rfl := Host.Outcome.next.inj ((hconceal.trans hnext).symm.trans h)
      exact ⟨u.dec.prevMode, u.dec.prevRedundancy, u.dec.rangeFinal, BitVec.ofInt 32 cap,
        congrArg (fun d : Decoder => { d with lastPacketDuration := BitVec.ofInt 32 cap }) hu.keeps.dec⟩

end Decode

/-- An invocation of DECODE_FRAME writes the FSM's registers (42_frame_fsm.md R200). -/
theorem dec_of_decodeFrame {fb : Option Nat} {flen fsz : Int} {o : Nat} {fec : Bool}
    (h : execDecodeFrame fb flen o fsz fec s = .next t) : (∃ prevMode prevRedundancy rangeFinal, t.dec =
      { s.dec with prevMode := prevMode, prevRedundancy := prevRedundancy, rangeFinal := rangeFinal }) ∧
      t.constructed = s.constructed := by
  unfold execDecodeFrame at h
  split at h
  · nomatch h
  · rename_i hframe
    obtain rfl := Host.Outcome.next.inj h
    have hkeeps := keeps_decodeFrame hframe
    exact ⟨⟨_, _, _, hkeeps.dec⟩, hkeeps.constructed⟩

/-- Settles O44: a row that writes no register, and what each other row writes. -/
theorem registersWrittenBy : Obligations.RegistersWrittenBy := by
  unfold Obligations.RegistersWrittenBy
  intro s t i hs ht
  cases hi : writesDecoder i with
  | false =>
    obtain ⟨hdec, hconstructed⟩ := keepsDecoder_exec hi s t ht
    simp [hdec, hconstructed]
  | true =>
    cases i
    case construct fs c => simp
    case ctlResetState =>
      obtain ⟨hdec | hdec, hconstructed⟩ := dec_of_resetState ht <;> simp [hdec, hconstructed, resetDecoder]
    case ctlSetGain v =>
      obtain ⟨⟨gain, hdec⟩, hconstructed⟩ := dec_of_setGain ht
      simp [hdec, hconstructed]
    case decode len cap =>
      obtain ⟨hfs, hchannels, hgain, hconstructed⟩ := fixed_of_decodeCommand hs ht
      simp [hfs, hchannels, hgain, hconstructed]
    case decodeFec len cap =>
      obtain ⟨hfs, hchannels, hgain, hconstructed⟩ := fixed_of_decodeCommand hs ht
      simp [hfs, hchannels, hgain, hconstructed]
    case decodeNull fec cap =>
      obtain ⟨-, -, -, hconstructed⟩ := fixed_of_decodeCommand hs ht
      obtain ⟨prevMode, prevRedundancy, rangeFinal, duration, hdec⟩ := dec_of_decodeNull hs ht
      simp [hdec, hconstructed]
    case decodeFrame fb flen o fsz fec =>
      obtain ⟨⟨prevMode, prevRedundancy, rangeFinal, hdec⟩, hconstructed⟩ := dec_of_decodeFrame ht
      simp [hdec, hconstructed]
    all_goals nomatch hi

end Sys2Proof.Machine
end

section
/-! PROOFS. What every invocation of DECODE_FRAME comes to from a legal state (42_frame_fsm.md R238, R239). -/

namespace Sys2Proof.Machine

variable {s t u : State} {a : FrameArgs} {r : Int}

/-- R238: an invocation makes no more samples than the capped request. -/
theorem FrameOutcome.le_capped (h : FrameOutcome a s r t) (hl : LegalDecoder s.dec) :
    r ≤ max 0 (min a.fsz (frameCap (rate s))) := by
  have hcap := hl.frameSize_le_cap.1
  by_cases hneg : r < 0
  · omega
  obtain ⟨hone, hle⟩ := h.size (Int.not_lt.mp hneg)
  by_cases hshort : a.fsz < s.dec.frameSize.toNat
  · omega
  have hr : r = s.dec.frameSize.toNat := by
    by_cases hpresent : 1 < a.flen
    · exact (h.real hpresent (Int.not_lt.mp hneg)).1
    · have hwhole := whole_of_le hl (Int.not_lt.mp hshort)
      exact (h.concealed (Int.not_lt.mp hpresent) hwhole (by omega)).2.2 (Int.not_lt.mp hshort)
  omega

/-- R238: no invocation sets `prev_mode` to UNINIT. -/
theorem FrameOutcome.prevMode_ne (h : FrameOutcome a s r t) (hcommitted : 1 < a.flen → s.dec.mode ≠ .uninit)
    (huninit : t.dec.prevMode = .uninit) : s.dec.prevMode = .uninit := by
  rcases h.prevMode with hprev | ⟨hpresent, hprev⟩
  · exact hprev ▸ huninit
  · exact absurd (hprev ▸ huninit) (hcommitted hpresent)

/-- Settles O54: the outcome of an invocation into OUT, law by law. -/
theorem frameLaws : Obligations.FrameLaws := by
  unfold Obligations.FrameLaws
  intro s fb flen o fsz fec hs hc hcommitted
  have hl := (hs.legal hc).dec
  have hspec := spec_decodeFrame (a := { fb := fb, flen := flen, dst := .pcm, o := o, fsz := fsz, fec := fec })
    ⟨hl, hs.out, .inl rfl, hcommitted⟩
  cases hframe : decodeFrame { fb := fb, flen := flen, dst := .pcm, o := o, fsz := fsz, fec := fec } s with
  | error f =>
    rw [hframe] at hspec
    obtain rfl : f = .engineContract := hspec
    refine .inl ?_
    show execDecodeFrame fb flen o fsz fec s = _
    rw [execDecodeFrame, hframe]
  | ok result =>
    obtain ⟨r, u⟩ := result
    rw [hframe] at hspec
    have hout : FrameOutcome _ s r u := hspec
    exact .inr ⟨_, exec_decodeFrame hframe, frameOnly_frameEnded hframe, fun i hi => hout.outside i fun _ => hi,
      hout.le_capped hl, hout.code, fun hlen => (hout.conceal hlen).1, hout.real, hout.prevMode_ne hcommitted⟩

end Sys2Proof.Machine
end

section
/-! PROOFS. A plain transform-only frame whose engine succeeds or fails (42_frame_fsm.md R226, R235 to R237). -/

namespace Sys2Proof.Machine

variable {s t u : State} {a : FrameArgs} {fb o n : Nat} {flen fsz ret : Int} {own : List Sample} {f : Nat → Sample}
  {rest : List TReply}

/-- A transform-only frame with bytes, without a transition, as R226 finds it. -/
abbrev xformReady (a : FrameArgs) (s : State) : State :=
  started (stepped 6 (banded (stepped 5 (readied (present a s)))))

/-- A transform-only frame whose engine has answered `ret`, with the `n` samples `f` in OUT, at its end (R236). -/
def xformFinished (a : FrameArgs) (ret : Int) (n : Nat) (f : Nat → Sample) (s : State) : State :=
  finished (stepped 9 (stepped 8 (stepped 7 (mixed ret n f (xformReady a s)))))

/-- An invocation whose rules all go on returns by R237. -/
theorem decodeFrame_of_runRules (h : runRules (frameRules decodeFrameNested) (frameEnter a s) = .go u) :
    decodeFrame a s = .ok (rule237 u) := by
  unfold decodeFrame decodeFrameWith
  rw [h]
  rfl

theorem rule237_failure (h : t.frame.celtRet < 0) : rule237 t = (t.frame.celtRet, spoilRegion t) := if_pos h

theorem rule235_finishes (hdst : t.frame.dst = .pcm) (hlen : 2 ≤ t.frame.lenL) :
    rule235 (stepped 11 (gained (stepped 10 t))) = .go (ranged (stepped 11 (gained (stepped 10 t)))) :=
  rule235_ranges (by rw [stepped_frame, gained_frame (t := stepped 10 t) (.inl hdst)]; exact hlen)

theorem runRules_xform (hl : LegalDecoder s.dec) (hm : s.dec.mode = .xform)
    (hprev : s.dec.prevMode = .uninit ∨ s.dec.prevMode = .xform) (hlen : 2 ≤ flen)
    (hfsz : (s.dec.frameSize.toNat : Int) ≤ fsz)
    (h226 : rule226 (xformReady (realArgs fb flen o fsz) s) =
      .go (mixed ret n f (xformReady (realArgs fb flen o fsz) s))) :
    runRules (frameRules decodeFrameNested) (frameEnter (realArgs fb flen o fsz) s) =
      .go (xformFinished (realArgs fb flen o fsz) ret n f s) := by
  have hmin := hl.frameSize_le_cap.2.1
  have hstays : transitionFlag true s.dec.prevMode s.dec.mode s.dec.prevRedundancy = false := by
    rcases hprev with h | h <;> simp [transitionFlag, hm, h]
  rw [frameRules_eq, runRules_append, runRules_begin_present hlen (by simp only; omega), Flow.andThen_go,
    runRules_cons_go (rule212_skips (.inl (by simp [hstays]))), runRules_append, runRules_ready (present_fits hl hfsz),
    Flow.andThen_go, runRules_cons_go (rule218_skips (by simp [hm])), runRules_cons_go (atStep_eq 5 _),
    runRules_cons_go (rule219_skips (.inl (by simp [hm]))), runRules_append, runRules_bands, Flow.andThen_go,
    runRules_cons_go (rule223_skips (.inr (by simp [hm]))), runRules_cons_go (rule224_skips (.inl (by simp))),
    runRules_cons_go (atStep_eq 6 _), runRules_cons_go (rule225_eq _), runRules_cons_go h226,
    runRules_cons_go (rule227_skips (.inl (by simp))), runRules_cons_go (rule228_skips (.inl (by simp [hm]))),
    runRules_cons_go (atStep_eq 7 _), runRules_cons_go (rule229_skips (.inl (by simp [hm]))),
    runRules_cons_go (atStep_eq 8 _), runRules_cons_go (rule230_skips (.inl (by simp))),
    runRules_cons_go (rule231_skips (.inl (by simp))), runRules_cons_go (atStep_eq 9 _),
    runRules_cons_go (rule232_skips (by simp [hstays, uncoveredTransition])), runRules_cons_go (atStep_eq 10 _),
    runRules_cons_go (rule234_eq _), runRules_cons_go (atStep_eq 11 _),
    runRules_cons_go (rule235_finishes (by simp) (by simpa using hlen)), runRules_cons_go (rule236_eq _), runRules]
  rfl

/-- R237 changes no register and calls no engine. -/
theorem rule237_keeps (t : State) : (rule237 t).2.dec = t.dec ∧ (rule237 t).2.pctl = t.pctl ∧
    (rule237 t).2.tctl = t.tctl ∧ (rule237 t).2.env = t.env := by
  by_cases h : t.frame.celtRet < 0
  · rw [rule237_failure h]
    exact ⟨bufFill_dec .., bufFill_pctl .., bufFill_tctl .., bufFill_env ..⟩
  · rw [rule237_success (Int.not_lt.mp h)]
    exact ⟨rfl, rfl, rfl, rfl⟩

/-- A transform-only frame's registers and calls at its end. -/
theorem xformFinished_registers (hl : LegalDecoder s.dec) (hm : s.dec.mode = .xform)
    (hprev : s.dec.prevMode = .uninit ∨ s.dec.prevMode = .xform) :
    (xformFinished (realArgs fb flen o fsz) ret n f s).dec.prevMode = .xform ∧
    (xformFinished (realArgs fb flen o fsz) ret n f s).dec.prevRedundancy = false ∧
    (xformFinished (realArgs fb flen o fsz) ret n f s).dec.rangeFinal = (s.env.rng.next Config.freeRng).1 ∧
    (xformFinished (realArgs fb flen o fsz) ret n f s).pctl = s.pctl ∧
    (xformFinished (realArgs fb flen o fsz) ret n f s).tctl =
      { startBand := 0, endBand := endBandOf s.dec.bandwidth, channels := s.dec.streamChannels } ∧
    (xformFinished (realArgs fb flen o fsz) ret n f s).env.calls = .eRng ::
      .tDecode (some (.packet fb flen)) flen .pcm o s.dec.frameSize.toNat (some ⟨fb, flen⟩) false ::
      .tSetStartBand 0 :: .tSetChannels s.dec.streamChannels :: .tSetEndBand (endBandOf s.dec.bandwidth) ::
      .eInit fb flen :: s.env.calls := by
  have hmain := hl.min_f20 (.inr hm)
  have hreset : xformReset s.dec.prevMode .xform s.dec.prevRedundancy = false := by
    rcases hprev with h | h <;> simp [xformReset, h]
  refine ⟨by simp [xformFinished, finished_dec, hm], by simp [xformFinished, finished_dec, nextRedundancy],
    by simp [xformFinished, finished_dec], by simp [xformFinished, framePctl, hm], ?_, ?_⟩
  · simp [xformFinished, hm, hreset, startBandOf]
  · simp [xformFinished, hm, hreset, startBandOf, mainSize, rate, hmain, predReinit, accumFlag, ← Nat.cast_min]

/-- A transform-only frame leaves the gained samples of its engine in its region, and at its end nothing else. -/
theorem xformFinished_region {g : Nat → Sample}
    (h : Memory.Region s.out o (words s.dec.frameSize.toNat s) g (s.out.fill o n f)) :
    Memory.Region s.out o (words s.dec.frameSize.toNat s) (fun j => afterGain s.dec.decodeGain (g j))
      (xformFinished (realArgs fb flen o fsz) ret n f s).out :=
  finished_region (by simp) (by simp) (by simp [words, chans]) (by simp) (by simpa [mixed_out] using h)

/-- R226's call, within the engine's contract: its samples are the whole frame's, or it fails and leaves some words. -/
theorem rule226_xform (hl : LegalDecoder s.dec) (hm : s.dec.mode = .xform)
    (hd : s.env.tDecode.given = ⟨ret, own⟩ :: rest)
    (hreply : (0 ≤ ret ∧ own.length = words s.dec.frameSize.toNat s) ∨ isErrorCode ret = true) :
    ∃ n, n ≤ words s.dec.frameSize.toNat s ∧ (0 ≤ ret → n = words s.dec.frameSize.toNat s) ∧
      rule226 (xformReady (realArgs fb flen o fsz) s) =
        .go (mixed ret n (replySample own) (xformReady (realArgs fb flen o fsz) s)) := by
  have hmain := hl.min_f20 (.inr hm)
  have hsize : (mainSize (xformReady (realArgs fb flen o fsz) s)).toNat *
      chans (xformReady (realArgs fb flen o fsz) s) = words s.dec.frameSize.toNat s := by
    rw [words_natCast]
    simp [mainSize, rate, chans, ← Nat.cast_min, hmain]
  have hx : (xformReady (realArgs fb flen o fsz) s).frame.m ≠ .pred := by simp [hm]
  have hnext : ((xformReady (realArgs fb flen o fsz) s).env.tDecode.next Config.freeTDecode).1 = ⟨ret, own⟩ := by
    simp [Draws.next_given hd]
  rcases hreply with ⟨h0, hlen⟩ | hcode
  · refine ⟨own.length, hlen.le, fun _ => hlen, ?_⟩
    have h := rule226_decodes hx (.inl (by simp)) hnext h0 (hlen.trans hsize.symm)
    rw [h]
    simp [hm, accumFlag, tSample_own]
  · have hneg : ¬ 0 ≤ ret := by
      simp only [isErrorCode, Bool.or_eq_true, decide_eq_true_eq] at hcode
      omega
    exact ⟨_, hsize ▸ Nat.min_le_right .., fun h0 => absurd h0 hneg, rule226_fails hx (.inl (by simp)) hnext hcode⟩

/-- A transform-only frame's registers at its return. -/
theorem xformFinished_frame : (xformFinished (realArgs fb flen o fsz) ret n f s).frame.celtRet = ret ∧
    (xformFinished (realArgs fb flen o fsz) ret n f s).frame.audiosize = s.dec.frameSize.toNat ∧
    (xformFinished (realArgs fb flen o fsz) ret n f s).frame.dst = .pcm ∧
    (xformFinished (realArgs fb flen o fsz) ret n f s).frame.o = o := by
  refine ⟨?_, ?_, ?_, ?_⟩ <;> simp [xformFinished, finished, gained_frame]

/-- What an invocation of a plain transform-only frame comes to, by its engine's reply. -/
theorem decodeFrame_xform_reply (hs : Usable s) (hl : LegalDecoder s.dec) (hm : s.dec.mode = .xform)
    (hprev : s.dec.prevMode = .uninit ∨ s.dec.prevMode = .xform) (hlen : 2 ≤ flen)
    (hfsz : (s.dec.frameSize.toNat : Int) ≤ fsz) (hd : s.env.tDecode.given = ⟨ret, own⟩ :: rest)
    (hreply : (0 ≤ ret ∧ own.length = words s.dec.frameSize.toNat s) ∨ isErrorCode ret = true) :
    ∃ r n u g, decodeFrame (realArgs fb flen o fsz) s = .ok (r, u) ∧
      (let v := xformFinished (realArgs fb flen o fsz) ret n (replySample own) s
       u.dec = v.dec ∧ u.pctl = v.pctl ∧ u.tctl = v.tctl ∧ u.env = v.env) ∧
      Memory.Region s.out o (words s.dec.frameSize.toNat s) g u.out ∧
      (0 ≤ ret → r = s.dec.frameSize.toNat ∧ g = fun j => afterGain s.dec.decodeGain (replySample own j)) ∧
      (ret < 0 → r = ret) := by
  obtain ⟨n, hn, hwhole, h226⟩ := rule226_xform (fb := fb) (flen := flen) (o := o) (fsz := fsz) hl hm hd hreply
  have hframe := decodeFrame_of_runRules (runRules_xform hl hm hprev hlen hfsz h226)
  have hkeeps := rule237_keeps (xformFinished (realArgs fb flen o fsz) ret n (replySample own) s)
  obtain ⟨hret, hsize, hdst, ho⟩ := xformFinished_frame (s := s) (fb := fb) (flen := flen) (o := o) (fsz := fsz)
    (ret := ret) (n := n) (f := replySample own)
  by_cases h0 : 0 ≤ ret
  · rw [rule237_success (hret.symm ▸ h0), hsize] at hframe
    have hfill : Memory.Region s.out o (words s.dec.frameSize.toNat s) (replySample own)
        (s.out.fill o n (replySample own)) := by
      rw [hwhole h0]
      exact .fill hs.out
    have hregion := xformFinished_region (fb := fb) (flen := flen) (fsz := fsz) (ret := ret) hfill
    exact ⟨_, n, _, _, hframe, ⟨rfl, rfl, rfl, rfl⟩, hregion, fun _ => ⟨rfl, rfl⟩, fun hneg => absurd h0 (by omega)⟩
  · rw [rule237_failure (hret.symm ▸ Int.not_le.mp h0)] at hframe hkeeps
    obtain ⟨g, hpart⟩ : ∃ g, Memory.Region s.out o (words s.dec.frameSize.toNat s) g
        (s.out.fill o n (replySample own)) := ⟨_, .overlay (b := 0) (.self hs.out) (by omega)⟩
    have hregion := xformFinished_region (fb := fb) (flen := flen) (fsz := fsz) (ret := ret) hpart
    have hwords : words (xformFinished (realArgs fb flen o fsz) ret n (replySample own) s).frame.audiosize
        (xformFinished (realArgs fb flen o fsz) ret n (replySample own) s) = words s.dec.frameSize.toNat s := by
      rw [hsize]
      simp [words, chans, xformFinished, finished_dec]
    have hspoilt := spoilRegion_region hdst ho hwords ⟨_, hregion⟩
    exact ⟨_, n, _, _, hframe, hkeeps, hspoilt, fun hnonneg => absurd hnonneg h0, fun _ => hret⟩

/-- Settles O47: the rules up to R236 are the same for both replies; R237 tells them apart. -/
theorem xformFrame : Obligations.XformFrame := by
  unfold Obligations.XformFrame
  intro s fb flen o fsz ret own rest hs hc hm hprev hlen hfsz hd hreply
  have hl := (hs.legal hc).dec
  obtain ⟨r, n, u, g, hframe, ⟨hdec, hpctl, htctl, henv⟩, hregion, hsuccess, hfailure⟩ :=
    decodeFrame_xform_reply (fb := fb) (o := o) hs hl hm hprev hlen hfsz hd hreply
  obtain ⟨hmode, hred, hrange, hpctl', htctl', hcalls⟩ := xformFinished_registers (fb := fb) (flen := flen) (o := o)
    (fsz := fsz) (ret := ret) (n := n) (f := replySample own) hl hm hprev
  rw [← hdec] at hmode hred hrange
  rw [← henv] at hcalls
  obtain ⟨hbeside, hread⟩ := frameEnded_region (r := r) hregion
  refine ⟨_, exec_decodeFrame hframe, frameOnly_frameEnded hframe, hmode, hred, hrange, hpctl.trans hpctl',
    htctl.trans htctl', hcalls, hbeside, fun h0 => ?_, hfailure⟩
  obtain ⟨hr, rfl⟩ := hsuccess h0
  exact ⟨hr, hread⟩

end Sys2Proof.Machine
end
